-- ==== Sys2Proof/Word.lean ====
section
/-! DEFINITION. The word and byte types of the block and the plainest arithmetic of 00_scope.md R10, R11. -/

namespace Sys2Proof

/-- A register or command word (R10: a register is 32 bits wide). -/
abbrev Word := BitVec 32

/-- A byte of host memory (R11: a byte string is a sequence of 8-bit values). -/
abbrev Byte := BitVec 8

/-- Host memory has 2^`ADDR_W` = 2^32 bytes (R9, R100). -/
abbrev addressSpace : Nat := 4294967296

/-- A range of host addresses: `base` to `base + size - 1`. -/
structure Region where
  base : Nat
  size : Nat
  deriving DecidableEq, Repr

end Sys2Proof
end

