-- ==== Sys2Proof/Config.lean ====
section
/-! DEFINITION. What the hardware fixes (00_scope.md R9), what the platform leaves open, and the free values of
93_implementation_defined.md section 1. Every `opaque` has no body: no proof can use a value of it. -/

namespace Sys2Proof

/-- `HUF_INCOMPLETE_POLICY` (R9, R202): which incomplete codes a decoder build accepts. -/
inductive IncompletePolicy where
  | allowAny
  | oneMissing
  | completeOnly
  deriving DecidableEq, Repr

/-! ### Parameters fixed for this hardware (R9) -/

abbrev Config.hasShrink : Bool := true
abbrev Config.incompletePolicy : IncompletePolicy := .oneMissing
abbrev Config.inflateStrictCounts : Bool := true
abbrev Config.lzwSelfPrefixSurvives : Bool := false
/-- `RST_ACTIVE_HIGH` (92_eei_decisions.md D44). -/
abbrev Config.rstActiveHigh : Bool := true

abbrev Config.bitOpMax : Nat := 64
abbrev Config.hufMaxSyms : Nat := 288
abbrev Config.hufMaxLen : Nat := 15
abbrev Config.lzMinMatch : Nat := 3
abbrev Config.lzWindowMax : Nat := 32768
abbrev Config.lzMaxlenMax : Nat := 258
abbrev Config.dflWindow : Nat := 32768
abbrev Config.dflBlockTokens : Nat := 16384
abbrev Config.lzwMinWidth : Nat := 9
abbrev Config.lzwMaxWidth : Nat := 13
abbrev Config.lzwTableSize : Nat := 8192

/-! ### Open parameters of the platform (R9, R62; assumption 3) -/

/-- `REG_BASE`: host address of the register block. -/
opaque Config.regBase : Word

/-- `ID_VALUE`: contents of the ID register. -/
opaque Config.idValue : Word

/-- The host address ranges that are not ordinary memory (R106): reads there have side effects or do not repeat. -/
opaque Config.nonMemory : List Region

/-- The host memory contents the host supplies (R62): the byte at an address that nothing has written
(assumption 1). -/
opaque Config.hostByte : Nat → Byte

/-! ### Free values (U1 to U5; assumption 2) -/

/-- The `k`-th free byte drawn: a byte the spec leaves unspecified (U1, U2, U3). -/
opaque Config.freeByte : Nat → Byte

/-- The `k`-th free word drawn: a register read the spec leaves unspecified (U4, U5). -/
opaque Config.freeWord : Nat → Word

end Sys2Proof
end

