-- ==== Sys2Proof/Syntax.lean ====
section
/-! DEFINITION. The commands of the block: one constructor per row of spec/opcode_table.json (30_encoding.md R133).
A field keeps the width the command word gives it (R130). -/

namespace Sys2Proof

/-- A command. `n` is the N field, `slot` the SLOT field, `maxlen` the MAXLEN field (R130, R131). -/
inductive Instr where
  | nop
  | clear
  | softReset
  | brInit
  | brPeek
  | brAdvance (n : BitVec 7)
  | brRead (n : BitVec 7)
  | brAlign
  | bwInit
  | bwWrite (n : BitVec 7)
  | bwFlush
  | hufBuildEnc (slot : BitVec 2) (maxlen : BitVec 4)
  | hufBuildDec (slot : BitVec 2)
  | hufDecode (slot : BitVec 2)
  | hufReadSym (slot : BitVec 2)
  | hufWriteSym (slot : BitVec 2)
  | hufLoadFixed (n : BitVec 7) (slot : BitVec 2)
  | lzCompress
  | deflate
  | inflate
  | shrink
  | unshrink
  deriving DecidableEq, Repr

end Sys2Proof
end

