-- ==== Sys2Proof/WellFormed.lean ====
section
/-! DEFINITION. Which field values a command admits (30_encoding.md R134). A command that breaks one still has a
meaning: it ends `Illegal(BAD_OPERAND)`. -/

namespace Sys2Proof

/-- Every used field in its range (R134): N at most `BIT_OP_MAX` = 64 for the bit operations, MAXLEN at least 1 for
HUF_BUILD_ENC, N = 0 or 1 for HUF_LOAD_FIXED. Every SLOT value is legal. -/
def Instr.wellFormed : Instr → Bool
  | .nop => true
  | .clear => true
  | .softReset => true
  | .brInit => true
  | .brPeek => true
  | .brAdvance n => decide (n.toNat ≤ Config.bitOpMax)
  | .brRead n => decide (n.toNat ≤ Config.bitOpMax)
  | .brAlign => true
  | .bwInit => true
  | .bwWrite n => decide (n.toNat ≤ Config.bitOpMax)
  | .bwFlush => true
  | .hufBuildEnc _ maxlen => decide (1 ≤ maxlen.toNat)
  | .hufBuildDec _ => true
  | .hufDecode _ => true
  | .hufReadSym _ => true
  | .hufWriteSym _ => true
  | .hufLoadFixed n _ => decide (n.toNat ≤ 1)
  | .lzCompress => true
  | .deflate => true
  | .inflate => true
  | .shrink => true
  | .unshrink => true

end Sys2Proof
end

