-- ==== Sys2Proof/Decode.lean ====
section
/-! DEFINITION. The command word: decoder (total, rejecting by name) and encoder, both from the format of
30_encoding.md R130 and the opcode map of R133. The decoder makes checks 1 and 2 of R139; the ranges of check 3 are
each command's own (its meaning raises BAD_OPERAND). -/

namespace Sys2Proof

/-- Why a word is no command: check 1 or check 2 of R139. -/
inductive DecodeError where
  /-- OP is not in the table of R133 (R135). -/
  | illegalOpcode
  /-- A reserved bit, or a field the command does not use, is nonzero (R132). -/
  | reservedField
  deriving DecidableEq, Repr

/-- OP, bits [7:0] (R130). -/
def opField (w : Word) : BitVec 8 := w.extractLsb' 0 8
/-- N, bits [14:8] (R130). -/
def nField (w : Word) : BitVec 7 := w.extractLsb' 8 7
/-- SLOT, bits [17:16] (R130). -/
def slotField (w : Word) : BitVec 2 := w.extractLsb' 16 2
/-- MAXLEN, bits [23:20] (R130). -/
def maxlenField (w : Word) : BitVec 4 := w.extractLsb' 20 4

/-- Bits [15], [19:18] and [31:24] must be 0 in every command (R132). -/
def reservedBits (w : Word) : Word := w &&& 0xFF0C8000#32

/-- Which of N, SLOT and MAXLEN a command uses (the columns of R133; a field marked "—" is unused). -/
structure FieldUse where
  n : Bool
  slot : Bool
  maxlen : Bool
  deriving DecidableEq, Repr

/-- The unused fields and the reserved bits are all 0 (R132). -/
def fieldsClean (u : FieldUse) (w : Word) : Bool :=
  reservedBits w == 0 && (u.n || nField w == 0) && (u.slot || slotField w == 0) && (u.maxlen || maxlenField w == 0)

/-- The opcode map of R133: for a defined OP, the fields it uses and the command those fields make. -/
def opcodeRow (hasShrink : Bool) (w : Word) : Option (FieldUse × Instr) :=
  match (opField w).toNat with
  | 0x00 => some (⟨false, false, false⟩, .nop)
  | 0x01 => some (⟨false, false, false⟩, .clear)
  | 0x02 => some (⟨false, false, false⟩, .softReset)
  | 0x10 => some (⟨false, false, false⟩, .brInit)
  | 0x11 => some (⟨false, false, false⟩, .brPeek)
  | 0x12 => some (⟨true, false, false⟩, .brAdvance (nField w))
  | 0x13 => some (⟨true, false, false⟩, .brRead (nField w))
  | 0x14 => some (⟨false, false, false⟩, .brAlign)
  | 0x18 => some (⟨false, false, false⟩, .bwInit)
  | 0x19 => some (⟨true, false, false⟩, .bwWrite (nField w))
  | 0x1A => some (⟨false, false, false⟩, .bwFlush)
  | 0x20 => some (⟨false, true, true⟩, .hufBuildEnc (slotField w) (maxlenField w))
  | 0x21 => some (⟨false, true, false⟩, .hufBuildDec (slotField w))
  | 0x22 => some (⟨false, true, false⟩, .hufDecode (slotField w))
  | 0x23 => some (⟨false, true, false⟩, .hufReadSym (slotField w))
  | 0x24 => some (⟨false, true, false⟩, .hufWriteSym (slotField w))
  | 0x25 => some (⟨true, true, false⟩, .hufLoadFixed (nField w) (slotField w))
  | 0x30 => some (⟨false, false, false⟩, .lzCompress)
  | 0x40 => some (⟨false, false, false⟩, .deflate)
  | 0x41 => some (⟨false, false, false⟩, .inflate)
  | 0x50 => if hasShrink then some (⟨false, false, false⟩, .shrink) else none
  | 0x51 => if hasShrink then some (⟨false, false, false⟩, .unshrink) else none
  | _ => none

/-- Checks 1 and 2 of R139, with `HAS_SHRINK` as an argument (R135). -/
def decodeWith (hasShrink : Bool) (w : Word) : Except DecodeError Instr :=
  match opcodeRow hasShrink w with
  | none => .error .illegalOpcode
  | some (u, i) => if fieldsClean u w then .ok i else .error .reservedField

/-- The decoder of this hardware (`HAS_SHRINK` = true). -/
def decode (w : Word) : Except DecodeError Instr := decodeWith Config.hasShrink w

/-- `OP | (N << 8) | (SLOT << 16) | (MAXLEN << 20)` (R130). -/
def packWord (op : BitVec 8) (n : BitVec 7) (slot : BitVec 2) (maxlen : BitVec 4) : Word :=
  op.setWidth 32 ||| (n.setWidth 32 <<< 8) ||| (slot.setWidth 32 <<< 16) ||| (maxlen.setWidth 32 <<< 20)

/-- The word of a command: its opcode and used fields, every other bit 0 (R130, R132, R133). -/
def encode : Instr → Word
  | .nop => packWord 0x00 0 0 0
  | .clear => packWord 0x01 0 0 0
  | .softReset => packWord 0x02 0 0 0
  | .brInit => packWord 0x10 0 0 0
  | .brPeek => packWord 0x11 0 0 0
  | .brAdvance n => packWord 0x12 n 0 0
  | .brRead n => packWord 0x13 n 0 0
  | .brAlign => packWord 0x14 0 0 0
  | .bwInit => packWord 0x18 0 0 0
  | .bwWrite n => packWord 0x19 n 0 0
  | .bwFlush => packWord 0x1A 0 0 0
  | .hufBuildEnc slot maxlen => packWord 0x20 0 slot maxlen
  | .hufBuildDec slot => packWord 0x21 0 slot 0
  | .hufDecode slot => packWord 0x22 0 slot 0
  | .hufReadSym slot => packWord 0x23 0 slot 0
  | .hufWriteSym slot => packWord 0x24 0 slot 0
  | .hufLoadFixed n slot => packWord 0x25 n slot 0
  | .lzCompress => packWord 0x30 0 0 0
  | .deflate => packWord 0x40 0 0 0
  | .inflate => packWord 0x41 0 0 0
  | .shrink => packWord 0x50 0 0 0
  | .unshrink => packWord 0x51 0 0 0

/-- The command read from a table row's word. Every command is exactly one 32-bit word (R137), so `nbits` is 32 and
the bits of `w` are the word's. -/
def decodeTableWord (nbits w : Nat) : Option Instr :=
  match decode (BitVec.ofNat 32 (w % 2 ^ nbits)) with
  | .ok i => some i
  | .error _ => none

end Sys2Proof
end

