-- ==== Sys2Proof/Machine/State.lean ====
section
/-! DEFINITION. The state of the block: every register of 10_state.md R33, the internal state of R55 and R30, host
memory (R100), the platform's parameters, and the model's own fields (assumptions 2, 4). Plain data throughout. -/

namespace Sys2Proof.Machine

/-- STATUS.RESULT (R34, R430). -/
inductive Result where
  | ok
  | capacity
  | format
  | illegal
  deriving DecidableEq, Repr

/-- STATUS.CAUSE: every code the block can record (R431). The codes themselves are in `Cause.code`. -/
inductive Cause where
  | noCause
  | dstFull
  | bwOverflow
  | brOverrun
  | badBlockType
  | storedLenMismatch
  | hufOversubscribed
  | hufIncomplete
  | hufInvalidCode
  | badLengthSymbol
  | badDistanceSymbol
  | distanceTooFar
  | badCodelenRepeat
  | badHlitHdist
  | hufLengthRange
  | lzwFreeCode
  | lzwCycle
  | lzwBadSubcode
  | lzwWidthMax
  | lzwTruncatedControl
  | illegalOpcode
  | reservedField
  | badOperand
  | badParam
  | slotNotBuilt
  | hufTooManySymbols
  /-- The document's InvariantViolation: no rule raises it (R435). -/
  | internal
  deriving DecidableEq, Repr

/-- STATUS (R34) without BUSY, which is the engine's state (R30). -/
structure Status where
  done : Bool
  result : Result
  cause : Cause
  brFail : Bool
  bwFail : Bool
  wrBusy : Bool
  deriving DecidableEq, Repr

/-- The command engine (R30, R36): IDLE, or BUSY with the latched command word. -/
inductive Engine where
  | idle
  | busy (word : Word)
  deriving DecidableEq, Repr

/-- A decode table entry `(sym, l)` (R55). -/
structure HufEntry where
  sym : Nat
  len : Nat
  deriving DecidableEq, Repr

/-- A built code: the fields of a slot whose `valid` is 1 (R55). An INVALID table entry is `none`. -/
structure HufCode where
  n : Nat
  len : List Nat
  code : List Nat
  maxl : Nat
  table : List (Option HufEntry)
  deriving DecidableEq, Repr

/-- The parameters the platform sets and no step changes (R9, R62, R106; assumption 3). -/
structure Platform where
  /-- `REG_BASE`. -/
  regBase : Word
  /-- `ID_VALUE`, what the ID register reads. -/
  idValue : Word
  /-- Host address ranges that are not ordinary memory (R106). -/
  nonMemory : List Region
  deriving DecidableEq, Repr

/-- Host memory: (address, byte) pairs in strictly rising address order. An address not listed has no value here: its
byte is the one the host supplied, `Config.hostByte` (R62; assumption 1). -/
abbrev Memory := List Host.Cell

/-- The addresses rise strictly. -/
def Memory.wf : Memory → Bool
  | [] => true
  | [_] => true
  | (a, _) :: (b, y) :: m => decide (a < b) && Memory.wf ((b, y) :: m)

/-- A host access to the register port: offset in the 256-byte block, and width in bytes (R104). -/
structure Access where
  off : BitVec 8
  size : Nat
  deriving DecidableEq, Repr

/-- What the host does while a command runs, that is while STATUS.BUSY = 1 (R53, R54, R111, R482). -/
inductive BusyEvent where
  | read (a : Access)
  | write (a : Access) (v : Word)
  | load (addr : Nat)
  | store (addr : Nat) (b : Byte)
  deriving DecidableEq, Repr

/-- How a command's BUSY time ends: it completes, with the register writes that fall in the very step of the
completion (R438), or a hardware reset abandons it (R472). -/
inductive Ending where
  | completes (sameStep : List (Access × Word))
  | reset
  deriving DecidableEq, Repr

/-- The BUSY time of one command: the host's accesses in it, oldest first, and how it ends. -/
structure Window where
  events : List BusyEvent
  ending : Ending
  deriving DecidableEq, Repr

/-- What the host does next (R119): the inputs of the block. -/
inductive HostEvent where
  /-- A register read. -/
  | read (a : Access)
  /-- A register write. A write to CMD starts a command that the host leaves alone while it runs. -/
  | write (a : Access) (v : Word)
  /-- A write of `word` to CMD, with what the host does while the command runs. -/
  | command (word : Word) (window : Window)
  /-- A host load of a byte of host memory. -/
  | load (addr : Nat)
  /-- A host store of a byte to host memory. -/
  | store (addr : Nat) (b : Byte)
  /-- The reset input takes a level (R471). -/
  | rstPin (level : Bool)
  deriving DecidableEq, Repr

/-- Why a step can stop with a fault. -/
inductive Fault where
  /-- Raised by a host load or store at an address outside the 2^32-byte host space (R100). Safe: there is no such
  access on the hardware. No command raises it. -/
  | outsideAddressSpace (addr : Nat)
  deriving DecidableEq, Repr

/-- Why a step can be refused: a situation that 93_implementation_defined.md section 2 puts outside the spec. -/
inductive Refusal where
  /-- No meaning yet: raised only by arms of `exec`, of which none is left. Safe. -/
  | notModelled (mnemonic : String)
  /-- A register access that is not an aligned 32-bit one (R104, X1), by the host's events. Safe. -/
  | portAccess (off : BitVec 8) (size : Nat)
  /-- A host memory access inside the register block: a byte-wide port access (R104, X1), by the host's events. Safe. -/
  | bytePortAccess (addr : Nat)
  /-- A command's buffer overlaps the register block (R109, X3), by every command with a buffer. Safe. -/
  | bufferOnRegisterBlock
  /-- A command's buffer lies in memory with read side effects (R106, X2), by every command with a buffer. Safe. -/
  | bufferNotMemory
  /-- A byte of the running command's buffers was written while BUSY (R482, X4, X6), by the host's events. Safe. -/
  | bufferWrittenWhileBusy (addr : Nat)
  deriving DecidableEq, Repr

/-- The state of the block and its host memory. -/
structure State where
  platform : Platform
  /-- The reset input is asserted (R471). -/
  rst : Bool
  engine : Engine
  status : Status
  /-- CTRL.IRQ_EN (R37). -/
  irqEn : Bool
  /-- IRQ.DONE_PEND (R38). -/
  donePend : Bool
  srcAddr : Word
  srcLen : Word
  dstAddr : Word
  dstCap : Word
  consumed : Word
  written : Word
  /-- LZ_WINDOW.WINDOW (R41). -/
  lzWindow : BitVec 16
  /-- LZ_MAXLEN.MAXLEN (R42). -/
  lzMaxlen : BitVec 9
  /-- LZ_FLAGS.ALLOW_OVERLAP (R43). -/
  lzOverlap : Bool
  brBase : Word
  brLen : Word
  brByte : Word
  brBit : BitVec 3
  /-- BR_LOOK_HI:BR_LOOK_LO (R46). -/
  brLook : BitVec 64
  bwBase : Word
  bwCap : Word
  bwByte : Word
  bwBit : BitVec 3
  bwAcc : BitVec 8
  /-- BW_VAL_HI:BW_VAL_LO (R48). -/
  bwVal : BitVec 64
  /-- HUF_SYM.SYM (R49). -/
  hufSym : BitVec 9
  hufRes : Word
  /-- The four code slots (R55); a slot is `none` when its `valid` is 0 (assumption 6). -/
  slots : Vector (Option HufCode) 4
  mem : Memory
  /-- What the host does next, oldest first (the model's own, assumption 4). -/
  inbox : List HostEvent
  /-- What the host's reads have returned, newest first (the model's own, assumption 4). -/
  portLog : List Word
  /-- How many free values have been drawn (the model's own, assumption 2). -/
  draws : Nat
  deriving DecidableEq, Repr

/-- The machine right after reset (R33, R61, R470): no memory listed, the platform's parameters the open ones. -/
def State.reset : State where
  platform := ⟨Config.regBase, Config.idValue, Config.nonMemory⟩
  rst := false
  engine := .idle
  status := ⟨false, .ok, .noCause, false, false, false⟩
  irqEn := false
  donePend := false
  srcAddr := 0
  srcLen := 0
  dstAddr := 0
  dstCap := 0
  consumed := 0
  written := 0
  lzWindow := 0x8000
  lzMaxlen := 0x102
  lzOverlap := true
  brBase := 0
  brLen := 0
  brByte := 0
  brBit := 0
  brLook := 0
  bwBase := 0
  bwCap := 0
  bwByte := 0
  bwBit := 0
  bwAcc := 0
  bwVal := 0
  hufSym := 0
  hufRes := 0
  slots := #v[none, none, none, none]
  mem := []
  inbox := []
  portLog := []
  draws := 0

/-- A step's or a meaning's outcome. -/
abbrev Out := Host.Outcome State Fault Refusal

end Sys2Proof.Machine
end

