-- ==== Sys2Proof/Machine/Flags.lean ====
section
/-! DEFINITION. The flags the block has (10_state.md R60) and the words the host reads them in: STATUS (R34), the
cause codes (60_exceptions.md R431), `irq` (R440), HUF_RES (R50) and HUF_VALID (R51). -/

namespace Sys2Proof.Machine

/-- RESULT's two-bit value (R430). -/
def Result.code : Result → BitVec 2
  | .ok => 0
  | .capacity => 1
  | .format => 2
  | .illegal => 3

/-- CAUSE's code (R431). -/
def Cause.code : Cause → BitVec 8
  | .noCause => 0x00
  | .dstFull => 0x01
  | .bwOverflow => 0x02
  | .brOverrun => 0x10
  | .badBlockType => 0x11
  | .storedLenMismatch => 0x12
  | .hufOversubscribed => 0x13
  | .hufIncomplete => 0x14
  | .hufInvalidCode => 0x15
  | .badLengthSymbol => 0x16
  | .badDistanceSymbol => 0x17
  | .distanceTooFar => 0x18
  | .badCodelenRepeat => 0x19
  | .badHlitHdist => 0x1A
  | .hufLengthRange => 0x1B
  | .lzwFreeCode => 0x20
  | .lzwCycle => 0x21
  | .lzwBadSubcode => 0x22
  | .lzwWidthMax => 0x23
  | .lzwTruncatedControl => 0x24
  | .illegalOpcode => 0x30
  | .reservedField => 0x31
  | .badOperand => 0x32
  | .badParam => 0x33
  | .slotNotBuilt => 0x34
  | .hufTooManySymbols => 0x35
  | .internal => 0x3F

/-- The RESULT that goes with a cause (the RESULT column of R431). -/
def Cause.result : Cause → Result
  | .noCause => .ok
  | .dstFull => .capacity
  | .bwOverflow => .capacity
  | .brOverrun => .format
  | .badBlockType => .format
  | .storedLenMismatch => .format
  | .hufOversubscribed => .format
  | .hufIncomplete => .format
  | .hufInvalidCode => .format
  | .badLengthSymbol => .format
  | .badDistanceSymbol => .format
  | .distanceTooFar => .format
  | .badCodelenRepeat => .format
  | .badHlitHdist => .format
  | .hufLengthRange => .format
  | .lzwFreeCode => .format
  | .lzwCycle => .format
  | .lzwBadSubcode => .format
  | .lzwWidthMax => .format
  | .lzwTruncatedControl => .format
  | .illegalOpcode => .illegal
  | .reservedField => .illegal
  | .badOperand => .illegal
  | .badParam => .illegal
  | .slotNotBuilt => .illegal
  | .hufTooManySymbols => .illegal
  | .internal => .format

/-- The cause with which a word that is no command ends (R139, checks 1 and 2). -/
def decodeCause : DecodeError → Cause
  | .illegalOpcode => .illegalOpcode
  | .reservedField => .reservedField

/-- STATUS.BUSY (R30, R34). -/
def State.busy (s : State) : Bool :=
  match s.engine with
  | .idle => false
  | .busy _ => true

/-- One flag at bit `k` of a word. -/
def flagBit (b : Bool) (k : Nat) : Word := if b then 1#32 <<< k else 0

/-- The STATUS word (R34): reserved bits are 0. -/
def State.statusWord (s : State) : Word :=
  flagBit s.busy 0 ||| flagBit s.status.done 1 ||| (s.status.result.code.setWidth 32 <<< 2) |||
    (s.status.cause.code.setWidth 32 <<< 8) ||| flagBit s.status.brFail 16 ||| flagBit s.status.bwFail 17 |||
    flagBit s.status.wrBusy 18

/-- The interrupt output, a level (R37, R440). -/
def State.irq (s : State) : Bool := s.donePend && s.irqEn

/-- HUF_RES for a lookup (R50, R210): 0 for INVALID, else VALID[31], LEN[19:16], SYM[8:0]. -/
def hufResWord : Option HufEntry → Word
  | none => 0
  | some e => (1#32 <<< 31) ||| ((BitVec.ofNat 4 e.len).setWidth 32 <<< 16) ||| (BitVec.ofNat 9 e.sym).setWidth 32

/-- HUF_VALID: bit k mirrors `slot[k].valid` (R51). -/
def State.hufValidWord (s : State) : Word :=
  flagBit s.slots[0].isSome 0 ||| flagBit s.slots[1].isSome 1 ||| flagBit s.slots[2].isSome 2 |||
    flagBit s.slots[3].isSome 3

/-- The sticky failure bits a raise leaves (R436): BR_FAIL with every failing `br_advance` (R161), BW_FAIL with every
failing `bw_write` or `bw_flush` (R164, R165). Those primitives, and no others, raise these two causes. -/
def Status.noteFailure (c : Cause) (st : Status) : Status :=
  { st with brFail := st.brFail || decide (c = .brOverrun), bwFail := st.bwFail || decide (c = .bwOverflow) }

end Sys2Proof.Machine
end

