-- ==== Sys2Proof/Machine/Ops.lean ====
section
/-! DEFINITION. The named operations over memory, registers and slots, and how a command starts and ends: start (R36),
completion (R35), the non-OK output rule (R434), which stands where other machines take an exception (R442), and
reset (R470). -/

namespace Sys2Proof.Machine

/-! ### Arithmetic of 00_scope.md R11 -/

/-- `ceil8(b)`: the bytes that hold `b` bits. -/
def ceil8 (b : Nat) : Nat := (b + 7) / 8

/-- `bitrev(c, n)`: bit k of the result is bit n-1-k of `c`. -/
def bitrev (c : Nat) : Nat → Nat
  | 0 => 0
  | n + 1 => (c % 2) * 2 ^ n + bitrev (c / 2) n

/-- The number whose bit k, for k < n, is `f k` (R103: an n-bit field, least-significant bit first). -/
def bitsValue (f : Nat → Bool) : Nat → Nat
  | 0 => 0
  | n + 1 => bitsValue f n + (if f n then 2 ^ n else 0)

/-! ### Host memory (R100, R106, R13) -/

/-- What is listed at an address, if anything. -/
def Memory.get? : Memory → Nat → Option Byte
  | [], _ => none
  | (k, v) :: m, a => if a = k then some v else Memory.get? m a

/-- `MemRead(a, 1)`: an unlisted address reads the byte the host supplied (R62; assumption 1). -/
def Memory.read (m : Memory) (a : Nat) : Byte := (m.get? a).getD (Config.hostByte a)

/-- `MemWrite(a, 1, v)`, keeping the addresses strictly rising. -/
def Memory.write : Memory → Nat → Byte → Memory
  | [], a, b => [(a, b)]
  | (k, v) :: m, a, b =>
    if a < k then (a, b) :: (k, v) :: m
    else if a = k then (a, b) :: m
    else (k, v) :: Memory.write m a b

/-- The bytes at `a`, `a+1`, ..., `a+n-1`. -/
def Memory.readBytes (m : Memory) (a : Nat) : Nat → List Byte
  | 0 => []
  | n + 1 => m.read a :: m.readBytes (a + 1) n

/-- `MemWrite` of each byte of a string in address order. -/
def Memory.writeBytes (m : Memory) (a : Nat) : List Byte → Memory
  | [] => m
  | b :: bs => (m.write a b).writeBytes (a + 1) bs

/-- A little-endian 32-bit word, as `MemRead(a, 4)` assembles it (R13, R102). -/
def leWord : List Byte → Nat
  | [] => 0
  | b :: bs => b.toNat + 256 * leWord bs

/-- The four bytes of a 32-bit word, low byte first (R13, R102). -/
def wordBytes (w : Nat) : List Byte :=
  [BitVec.ofNat 8 w, BitVec.ofNat 8 (w / 256), BitVec.ofNat 8 (w / 65536), BitVec.ofNat 8 (w / 16777216)]

/-- Writes recorded newest first, made in the order they were recorded. -/
def Memory.applyWrites (m : Memory) : List Host.Cell → Memory
  | [] => m
  | (a, b) :: older => (m.applyWrites older).write a b

/-- Every byte of `a` to `a+n-1` takes a fresh free value (U1, U2; assumption 2). -/
def Memory.scramble (m : Memory) (a : Nat) (draw : Nat) : Nat → Memory
  | 0 => m
  | n + 1 => (m.write a (Config.freeByte draw)).scramble (a + 1) (draw + 1) n

/-! ### Slots (R55) -/

/-- The code in `slot[k]`, if its `valid` is 1. -/
def State.slot (s : State) (k : BitVec 2) : Option HufCode := s.slots[k.toNat]'(by omega)

/-- Install a code: `slot[k].valid <- 1`, and HUF_VALID[k] with it (R203, R51). -/
def State.setSlot (s : State) (k : BitVec 2) (c : HufCode) : State :=
  { s with slots := s.slots.set k.toNat (some c) (by omega) }

/-! ### Command start and end -/

/-- Command start (R36): the word latched, BUSY set, DONE, RESULT and CAUSE cleared, the sticky bits kept. -/
def State.start (w : Word) (s : State) : State :=
  { s with engine := .busy w, status := { s.status with done := false, result := .ok, cause := .noCause } }

/-- Completion, `finish(r, c)` (R35, R14): RESULT and CAUSE written, BUSY 0, DONE 1, DONE_PEND 1, the engine IDLE. -/
def State.finish (c : Cause) (s : State) : State :=
  { s with engine := .idle, status := { s.status with done := true, result := c.result, cause := c }, donePend := true }

/-- The command did all its work: `finish(OK, NONE)` (R14). -/
def State.finishOk (s : State) : State := s.finish .noCause

/-- `raise Illegal(c)` (R434 item 1): nothing but STATUS and DONE_PEND changes. -/
def State.illegal (c : Cause) (s : State) : Out := .next (s.finish c)

/-- `raise Capacity(c)` or `raise Format(c)` in a command that is no buffer command (R434 item 3): the failing
primitive's sticky bit, then the completion. -/
def State.failPlain (c : Cause) (s : State) : State :=
  { s with status := s.status.noteFailure c }.finish c

/-- The destination bytes become unspecified (R434 item 2, R472). -/
def State.scramble (dst : Option Region) (s : State) : State :=
  match dst with
  | none => s
  | some r => { s with mem := s.mem.scramble r.base s.draws r.size, draws := s.draws + r.size }

/-- `raise Capacity(c)` or `raise Format(c)` in a buffer command with destination `dst` (R434 item 2): CONSUMED and
WRITTEN 0, every destination byte unspecified, the failing primitive's sticky bit, then the completion. -/
def State.failBuffer (c : Cause) (dst : Option Region) (s : State) : State :=
  State.failPlain c { s.scramble dst with consumed := 0, written := 0 }

/-- CONSUMED and WRITTEN of a buffer command that ends OK (R40). -/
def State.report (consumed written : Nat) (s : State) : State :=
  { s with consumed := BitVec.ofNat 32 consumed, written := BitVec.ofNat 32 written }

/-- The reset state (R470), by hardware reset or SOFT_RESET: every register and slot at its reset value. Host memory,
the platform's parameters, the reset pin and the model's own fields are not the block's to reset. -/
def State.hardReset (s : State) : State :=
  { State.reset with
    platform := s.platform, rst := s.rst, mem := s.mem, inbox := s.inbox, portLog := s.portLog, draws := s.draws }

/-- Set the reset pin and hold the reset state (R471). -/
def State.setRst (asserted : Bool) (s : State) : State := { s.hardReset with rst := asserted }

/-- The reset input is driven (R471): asserting it puts the block into its reset state, releasing it leaves the block
there, and an input that stays released changes nothing, since only reset loses state (R451). -/
def State.driveRst (asserted : Bool) (s : State) : State := if asserted || s.rst then s.setRst asserted else s

/-! ### Host reads and free values -/

/-- A host read returns `v`. -/
def State.answer (v : Word) (s : State) : State := { s with portLog := v :: s.portLog }

/-- A host read returns an unspecified register value (U4, U5). -/
def State.answerFreeWord (s : State) : State :=
  { s with portLog := Config.freeWord s.draws :: s.portLog, draws := s.draws + 1 }

/-- A host load returns an unspecified byte (U3). -/
def State.answerFreeByte (s : State) : State :=
  { s with portLog := (Config.freeByte s.draws).setWidth 32 :: s.portLog, draws := s.draws + 1 }

/-- Go on from a next state; a fault or a refusal stands. -/
def Out.andThen (o : Out) (k : State → Out) : Out :=
  match o with
  | .next t => k t
  | .fault r => .fault r
  | .refused r => .refused r

end Sys2Proof.Machine
end

