-- ==== Sys2Proof/Machine/Operands.lean ====
section
/-! DEFINITION. The operands a command takes from registers (30_encoding.md R131): its buffers, the checks on them
(20_memory.md R107), and the situations a model refuses (R106, R109). -/

namespace Sys2Proof

/-- A buffer does not wrap (R107). -/
def Region.wellFormed (r : Region) : Bool := decide (r.base + r.size ≤ addressSpace)

/-- Two ranges are both nonempty and share a byte (R107). -/
def Region.overlaps (r q : Region) : Bool :=
  decide (0 < r.size) && decide (0 < q.size) && decide (r.base < q.base + q.size) && decide (q.base < r.base + r.size)

/-- The part of a range that exists: a range that runs past 2^32 is cut there (R100; assumption 8). -/
def Region.inSpace (r : Region) : Region := ⟨r.base, min r.size (addressSpace - r.base)⟩

/-- An address lies in a range. -/
def Region.holds (r : Region) (a : Nat) : Bool := decide (r.base ≤ a) && decide (a < r.base + r.size)

end Sys2Proof

namespace Sys2Proof.Machine

/-- (SRC_ADDR, SRC_LEN) (R39). -/
def State.srcBuffer (s : State) : Region := ⟨s.srcAddr.toNat, s.srcLen.toNat⟩
/-- (DST_ADDR, DST_CAP) (R39). -/
def State.dstBuffer (s : State) : Region := ⟨s.dstAddr.toNat, s.dstCap.toNat⟩
/-- (BR_BASE, BR_LEN) (R44). -/
def State.brBuffer (s : State) : Region := ⟨s.brBase.toNat, s.brLen.toNat⟩
/-- (BW_BASE, BW_CAP) (R47). -/
def State.bwBuffer (s : State) : Region := ⟨s.bwBase.toNat, s.bwCap.toNat⟩

/-- The register block's range of host addresses (R33, R109). A REG_BASE above 2^32 - 256 does not wrap: the range runs
past 2^32 and no low address belongs to it (assumption 16, the model's choice). -/
def State.registerBlock (s : State) : Region := ⟨s.platform.regBase.toNat, 256⟩

/-- Where a command may read host memory (the "may read" column of R108). -/
def State.sourceOf (s : State) : Instr → Option Region
  | .nop => none
  | .clear => none
  | .softReset => none
  | .brInit => none
  | .brPeek => some s.brBuffer
  | .brAdvance _ => none
  | .brRead _ => some s.brBuffer
  | .brAlign => none
  | .bwInit => none
  | .bwWrite _ => none
  | .bwFlush => none
  | .hufBuildEnc _ _ => some s.srcBuffer
  | .hufBuildDec _ => some s.srcBuffer
  | .hufDecode _ => some s.brBuffer
  | .hufReadSym _ => some s.brBuffer
  | .hufWriteSym _ => none
  | .hufLoadFixed _ _ => none
  | .lzCompress => some s.srcBuffer
  | .deflate => some s.srcBuffer
  | .inflate => some s.srcBuffer
  | .shrink => some s.srcBuffer
  | .unshrink => some s.srcBuffer

/-- Where a command may write host memory (the "may write" column of R108): the destination buffer. BW_INIT and
HUF_BUILD_DEC write nothing. -/
def State.destOf (s : State) : Instr → Option Region
  | .nop => none
  | .clear => none
  | .softReset => none
  | .brInit => none
  | .brPeek => none
  | .brAdvance _ => none
  | .brRead _ => none
  | .brAlign => none
  | .bwInit => none
  | .bwWrite _ => some s.bwBuffer
  | .bwFlush => some s.bwBuffer
  | .hufBuildEnc _ _ => some s.dstBuffer
  | .hufBuildDec _ => none
  | .hufDecode _ => none
  | .hufReadSym _ => none
  | .hufWriteSym _ => some s.bwBuffer
  | .hufLoadFixed _ _ => none
  | .lzCompress => some s.dstBuffer
  | .deflate => some s.dstBuffer
  | .inflate => some s.dstBuffer
  | .shrink => some s.dstBuffer
  | .unshrink => some s.dstBuffer

/-- The buffers a command uses, whether or not it accesses a byte of them (R107, R482). -/
def State.buffersOf (s : State) : Instr → List Region
  | .nop => []
  | .clear => []
  | .softReset => []
  | .brInit => [s.brBuffer]
  | .brPeek => [s.brBuffer]
  | .brAdvance _ => [s.brBuffer]
  | .brRead _ => [s.brBuffer]
  | .brAlign => [s.brBuffer]
  | .bwInit => [s.bwBuffer]
  | .bwWrite _ => [s.bwBuffer]
  | .bwFlush => [s.bwBuffer]
  | .hufBuildEnc _ _ => [s.srcBuffer, s.dstBuffer]
  | .hufBuildDec _ => [s.srcBuffer]
  | .hufDecode _ => [s.brBuffer]
  | .hufReadSym _ => [s.brBuffer]
  | .hufWriteSym _ => [s.bwBuffer]
  | .hufLoadFixed _ _ => []
  | .lzCompress => [s.srcBuffer, s.dstBuffer]
  | .deflate => [s.srcBuffer, s.dstBuffer]
  | .inflate => [s.srcBuffer, s.dstBuffer]
  | .shrink => [s.srcBuffer, s.dstBuffer]
  | .unshrink => [s.srcBuffer, s.dstBuffer]

/-- A nonempty buffer on the register block (R109, X3). -/
def State.onRegisterBlock (s : State) (r : Region) : Bool := r.overlaps s.registerBlock

/-- A nonempty buffer in memory with read side effects (R106, X2). -/
def State.onNonMemory (s : State) (r : Region) : Bool := decide (0 < r.size) && s.platform.nonMemory.any r.overlaps

/-- What a model refuses about a command's buffers (R106, R109), if anything. -/
def State.bufferRefusal (s : State) (rs : List Region) : Option Refusal :=
  if rs.any s.onRegisterBlock then some .bufferOnRegisterBlock
  else if rs.any s.onNonMemory then some .bufferNotMemory
  else none

/-- Go on to `t` unless the buffers are ones a model refuses. -/
def State.withBuffers (s : State) (rs : List Region) (t : State) : Out :=
  match s.bufferRefusal rs with
  | some r => .refused r
  | none => .next t

/-- The parameter check of the six commands with a source and a destination buffer (R107): neither wraps, and they do
not overlap. -/
def State.srcDstOk (s : State) : Bool :=
  s.srcBuffer.wellFormed && s.dstBuffer.wellFormed && !s.srcBuffer.overlaps s.dstBuffer

/-- The source bytes of a buffer command, as they stand when it starts (R111). -/
def State.srcBytes (s : State) : List Byte := s.mem.readBytes s.srcAddr.toNat s.srcLen.toNat

end Sys2Proof.Machine
end

