-- ==== Sys2Proof/Machine/Bitstream.lean ====
section
/-! DEFINITION. The bitstream reader and writer (40_bitstream.md): the six primitives of section 1 over a cursor, which
is either the host's BR or BW registers or a codec command's private cursor (R179), and the eight commands. -/

namespace Sys2Proof.Machine

/-- A read "BitCursor" (R44): the buffer's base and length, and the position of the next unread bit. -/
structure ReadCursor where
  base : Nat
  len : Nat
  byte : Nat
  bit : Nat
  deriving DecidableEq, Repr

/-- A write "BitCursor" (R47): base, capacity, committed bytes, buffered bits; with the byte writes made so far, newest
first, which have all reached host memory when the command completes (R111, R112). -/
structure WriteCursor where
  base : Nat
  cap : Nat
  byte : Nat
  bit : Nat
  acc : BitVec 8
  writes : List Host.Cell
  deriving DecidableEq, Repr

/-! ### Primitives -/

/-- `rpos` (R44). -/
def ReadCursor.pos (c : ReadCursor) : Nat := 8 * c.byte + c.bit

/-- `rrem = max(0, 8*BR_LEN - rpos)` (R44). -/
def ReadCursor.remaining (c : ReadCursor) : Nat := 8 * c.len - c.pos

/-- The stream bit at position `p` (R103), with zero padding past the end of the buffer (R160). -/
def streamBit (m : Memory) (c : ReadCursor) (p : Nat) : Bool :=
  decide (p < 8 * c.len) && (m.read (c.base + p / 8)).toNat.testBit (p % 8)

/-- `br_bits()` (R160): the next 64 bits. -/
def brBits (m : Memory) (c : ReadCursor) : Nat := bitsValue (fun k => streamBit m c (c.pos + k)) 64

/-- `br_advance(n)` (R161). -/
def brAdvance (n : Nat) (c : ReadCursor) : Except Cause ReadCursor :=
  if c.remaining < n then .error .brOverrun
  else .ok { c with byte := (c.pos + n) / 8, bit := (c.pos + n) % 8 }

/-- `br_read(n)` (R162): the field and the moved cursor. -/
def brRead (m : Memory) (n : Nat) (c : ReadCursor) : Except Cause (Nat × ReadCursor) :=
  match brAdvance n c with
  | .error e => .error e
  | .ok c' => .ok (brBits m c % 2 ^ n, c')

/-- `br_align()` (R163). -/
def brAlign (c : ReadCursor) : ReadCursor := if c.bit = 0 then c else { c with byte := c.byte + 1, bit := 0 }

/-- `wpos` (R47). -/
def WriteCursor.pos (c : WriteCursor) : Nat := 8 * c.byte + c.bit

/-- `acc[k] <- b`. -/
def setAccBit (acc : BitVec 8) (k : Nat) (b : Bool) : BitVec 8 :=
  (acc &&& ~~~(1#8 <<< k)) ||| (if b then 1#8 <<< k else 0#8)

/-- One turn of the loop of `bw_write` (R164): buffer a bit, and commit the byte when it is the eighth. -/
def bwPush (b : Bool) (c : WriteCursor) : WriteCursor :=
  if c.bit + 1 = 8 then
    { c with
      writes := (c.base + c.byte, setAccBit c.acc c.bit b) :: c.writes, byte := c.byte + 1, acc := 0, bit := 0 }
  else { c with acc := setAccBit c.acc c.bit b, bit := c.bit + 1 }

/-- The loop of `bw_write` (R164): the low `n` bits of `v`, least-significant first. -/
def bwPushBits (v : Nat) : Nat → WriteCursor → WriteCursor
  | 0, c => c
  | n + 1, c => bwPushBits (v / 2) n (bwPush (decide (v % 2 = 1)) c)

/-- `bw_write(v, n)` (R164): the capacity check first, counting a partial byte as a whole one. -/
def bwWrite (v n : Nat) (c : WriteCursor) : Except Cause WriteCursor :=
  if c.cap < ceil8 (c.pos + n) then .error .bwOverflow else .ok (bwPushBits v n c)

/-- `bw_flush()` (R165). -/
def bwFlush (c : WriteCursor) : Except Cause WriteCursor :=
  if c.bit = 0 then .ok c
  else if c.cap < c.byte + 1 then .error .bwOverflow
  else .ok { c with writes := (c.base + c.byte, c.acc) :: c.writes, byte := c.byte + 1, acc := 0, bit := 0 }

/-! ### Cursors (R179) -/

/-- The host's reader: the BR registers. -/
def State.readCursor (s : State) : ReadCursor := ⟨s.brBase.toNat, s.brLen.toNat, s.brByte.toNat, s.brBit.toNat⟩

/-- BR_BYTE and BR_BIT take a cursor's position. -/
def State.setReadCursor (c : ReadCursor) (s : State) : State :=
  { s with brByte := BitVec.ofNat 32 c.byte, brBit := BitVec.ofNat 3 c.bit }

/-- The host's writer: the BW registers, nothing written yet by this command. -/
def State.writeCursor (s : State) : WriteCursor :=
  ⟨s.bwBase.toNat, s.bwCap.toNat, s.bwByte.toNat, s.bwBit.toNat, s.bwAcc, []⟩

/-- BW_BYTE, BW_BIT and BW_ACC take a cursor's position, and its byte writes reach host memory. -/
def State.setWriteCursor (c : WriteCursor) (s : State) : State :=
  { s with
    bwByte := BitVec.ofNat 32 c.byte, bwBit := BitVec.ofNat 3 c.bit, bwAcc := c.acc, mem := s.mem.applyWrites c.writes }

/-- The private reader `rd` of INFLATE and UNSHRINK (R179). -/
def State.privateReader (s : State) : ReadCursor := ⟨s.srcAddr.toNat, s.srcLen.toNat, 0, 0⟩

/-- The private writer `wr` of DEFLATE and SHRINK (R179). -/
def State.privateWriter (s : State) : WriteCursor := ⟨s.dstAddr.toNat, s.dstCap.toNat, 0, 0, 0, []⟩

/-- Put a lookahead into BR_LOOK (R46). -/
def State.latchLook (v : Nat) (s : State) : State := { s with brLook := BitVec.ofNat 64 v }

/-! ### Commands -/

/-- BR_INIT (R166). -/
def execBrInit (s : State) : Out :=
  if !s.brBuffer.wellFormed then s.illegal .badParam
  else s.withBuffers [s.brBuffer] { s with brByte := 0, brBit := 0, brLook := 0 }.finishOk

/-- BR_PEEK (R167). -/
def execBrPeek (s : State) : Out :=
  if !s.brBuffer.wellFormed then s.illegal .badParam
  else s.withBuffers [s.brBuffer] (s.latchLook (brBits s.mem s.readCursor)).finishOk

/-- BR_ADVANCE N (R168). -/
def execBrAdvance (n : BitVec 7) (s : State) : Out :=
  if Config.bitOpMax < n.toNat then s.illegal .badOperand
  else if !s.brBuffer.wellFormed then s.illegal .badParam
  else s.withBuffers [s.brBuffer] <|
    match brAdvance n.toNat s.readCursor with
    | .error c => s.failPlain c
    | .ok rd => (s.setReadCursor rd).finishOk

/-- BR_READ N (R169): BR_LOOK is latched before the advance, so it holds the field even when the advance fails. -/
def execBrRead (n : BitVec 7) (s : State) : Out :=
  if Config.bitOpMax < n.toNat then s.illegal .badOperand
  else if !s.brBuffer.wellFormed then s.illegal .badParam
  else s.withBuffers [s.brBuffer] <|
    let t := s.latchLook (brBits s.mem s.readCursor % 2 ^ n.toNat)
    match brAdvance n.toNat s.readCursor with
    | .error c => t.failPlain c
    | .ok rd => (t.setReadCursor rd).finishOk

/-- BR_ALIGN (R170). -/
def execBrAlign (s : State) : Out :=
  if !s.brBuffer.wellFormed then s.illegal .badParam
  else s.withBuffers [s.brBuffer] (s.setReadCursor (brAlign s.readCursor)).finishOk

/-- BW_INIT (R171): a pending partial byte is dropped. -/
def execBwInit (s : State) : Out :=
  if !s.bwBuffer.wellFormed then s.illegal .badParam
  else s.withBuffers [s.bwBuffer] { s with bwByte := 0, bwBit := 0, bwAcc := 0 }.finishOk

/-- Run a writer primitive on the BW registers: its cursor and writes on success, the plain failure otherwise. -/
def State.onWriter (s : State) (r : Except Cause WriteCursor) : State :=
  match r with
  | .error c => s.failPlain c
  | .ok wr => (s.setWriteCursor wr).finishOk

/-- BW_WRITE N (R172). -/
def execBwWrite (n : BitVec 7) (s : State) : Out :=
  if Config.bitOpMax < n.toNat then s.illegal .badOperand
  else if !s.bwBuffer.wellFormed then s.illegal .badParam
  else s.withBuffers [s.bwBuffer] (s.onWriter (bwWrite s.bwVal.toNat n.toNat s.writeCursor))

/-- BW_FLUSH (R173). -/
def execBwFlush (s : State) : Out :=
  if !s.bwBuffer.wellFormed then s.illegal .badParam
  else s.withBuffers [s.bwBuffer] (s.onWriter (bwFlush s.writeCursor))

end Sys2Proof.Machine
end

