-- ==== Sys2Proof/Machine/Huffman.lean ====
section
/-! DEFINITION. The canonical Huffman unit (41_huffman.md): length-limited code building, canonical assignment, the
Kraft and completeness check, table lookup, symbol reading and writing, and the six commands. -/

namespace Sys2Proof.Machine

/-! ### Package-merge (R200) -/

/-- An item of a package-merge list: a leaf (`kind` 0) or a package (`kind` 1), with the symbols it counts. -/
structure PmItem where
  weight : Nat
  kind : Nat
  idx : Nat
  syms : List Nat
  deriving DecidableEq, Repr

/-- The order (weight, kind, idx) of R200's tie-breaks. -/
def PmItem.before (x y : PmItem) : Bool :=
  decide (x.weight < y.weight) ||
    (x.weight == y.weight && (decide (x.kind < y.kind) || (x.kind == y.kind && decide (x.idx ≤ y.idx))))

/-- Insert an item into a list sorted by `before`. -/
def pmInsert (x : PmItem) : List PmItem → List PmItem
  | [] => [x]
  | y :: ys => if x.before y then x :: y :: ys else y :: pmInsert x ys

/-- Sort ascending by (weight, kind, idx). -/
def pmSort : List PmItem → List PmItem
  | [] => []
  | x :: xs => pmInsert x (pmSort xs)

/-- The symbols of nonzero frequency, as items ordered by (frequency, symbol). -/
def pmUsed (freq : List Nat) : List PmItem :=
  pmSort ((freq.zipIdx.filter (fun p => decide (0 < p.1))).map (fun p => ⟨p.1, 0, p.2, [p.2]⟩))

/-- `leafItem`: the j-th leaf carries index j. -/
def pmLeaves (freq : List Nat) : List PmItem :=
  (pmUsed freq).zipIdx.map (fun p => { p.1 with idx := p.2 })

/-- `pk`: package the items two by two, numbering the packages from `k`. -/
def pmPair (k : Nat) : List PmItem → List PmItem
  | a :: b :: rest => ⟨a.weight + b.weight, 1, k, a.syms ++ b.syms⟩ :: pmPair (k + 1) rest
  | _ => []

/-- `repeat` the packaging and merging of R200. -/
def pmRounds (leaves : List PmItem) : Nat → List PmItem → List PmItem
  | 0, l => l
  | r + 1, l => pmRounds leaves r (pmSort (leaves ++ pmPair 0 l))

/-- `huf_lengths(freq, n, L)` (R200), with n the length of `freq`. -/
def hufLengths (freq : List Nat) (limit : Nat) : List Nat :=
  let leaves := pmLeaves freq
  match leaves with
  | [] => freq.map (fun _ => 0)
  | [x] => (List.range freq.length).map (fun s => if x.syms.contains s then 1 else 0)
  | _ =>
    let chosen := ((pmRounds leaves (limit - 1) leaves).take (2 * (leaves.length - 1))).flatMap PmItem.syms
    (List.range freq.length).map (fun s => chosen.count s)

/-! ### Canonical codes (R201 to R203) -/

/-- The first codeword of length `l`: the recurrence of R201, with `count[0]` taken as 0. -/
def firstCode (len : List Nat) : Nat → Nat
  | 0 => 0
  | l + 1 => 2 * (firstCode len l + (if l = 0 then 0 else len.count l))

/-- The second loop of R201: consecutive codewords per length, in symbol order; `next[l]` is the next free codeword. An
unused symbol, to which R201 assigns no codeword, stores 0; nothing reads it (R55; assumption 18, the model's choice). -/
def assignCodes : List Nat → List Nat → List Nat
  | [], _ => []
  | l :: ls, next =>
    if l = 0 then 0 :: assignCodes ls next
    else next.getD l 0 :: assignCodes ls (next.set l (next.getD l 0 + 1))

/-- `huf_canon(len, n)` (R201). -/
def hufCanon (len : List Nat) : List Nat := assignCodes len ((List.range 16).map (firstCode len))

/-- `Σ 2^(top - len[s])` over the symbols with len[s] > 0 (R202). -/
def kraftSum (top : Nat) (len : List Nat) : Nat :=
  ((len.filter (fun l => decide (0 < l))).map (fun l => 2 ^ (top - l))).sum

/-- The largest length, 0 for none (R55, R202, R203). -/
def maxLen (len : List Nat) : Nat := len.foldl max 0

/-- `huf_check(len, n, P)` (R202): `none` is OK, else the FORMAT cause. -/
def hufCheck (policy : IncompletePolicy) (len : List Nat) : Option Cause :=
  let used := len.filter (fun l => decide (0 < l))
  if len.any (fun l => decide (Config.hufMaxLen < l)) then some .hufLengthRange
  else if used.length = 0 then none
  else if 2 ^ Config.hufMaxLen < kraftSum Config.hufMaxLen len then some .hufOversubscribed
  else if used.length = 1 then none
  else
    let missing := 2 ^ maxLen len - kraftSum (maxLen len) len
    match policy with
    | .allowAny => none
    | .oneMissing => if missing ≤ 1 then none else some .hufIncomplete
    | .completeOnly => if missing = 0 then none else some .hufIncomplete

/-- The table writes of one symbol (R203): entry `(s, l)` at `r | (h << l)` for each h below `k`. -/
def fillEntries (r l : Nat) (e : HufEntry) : Nat → List (Option HufEntry) → List (Option HufEntry)
  | 0, t => t
  | h + 1, t => (fillEntries r l e h t).set (r ||| (h <<< l)) (some e)

/-- The table writes of the symbols `s`, `s+1`, ..., whose lengths and codewords are listed (R203). -/
def fillTable (maxl : Nat) : Nat → List Nat → List Nat → List (Option HufEntry) → List (Option HufEntry)
  | s, l :: ls, c :: cs, t =>
    fillTable maxl (s + 1) ls cs
      (if l = 0 then t else fillEntries (bitrev c l) l ⟨s, l⟩ (2 ^ (maxl - l)) t)
  | _, _, _, t => t

/-- `huf_install(k, len, n)` (R203): the code built from a length list, with n the length of `len`. -/
def hufInstall (len : List Nat) : HufCode :=
  let code := hufCanon len
  let maxl := maxLen len
  ⟨len.length, len, code, maxl, fillTable maxl 0 len code (List.replicate (2 ^ maxl) none)⟩

/-! ### Lookup, reading and writing (R204 to R206) -/

/-- `huf_lookup(k, w)` (R204). -/
def hufLookup (code : HufCode) (w : Nat) : Option HufEntry := code.table.getD (w % 2 ^ code.maxl) none

/-- `huf_get(k)` (R205). -/
def hufGet (m : Memory) (code : HufCode) (rd : ReadCursor) : Except Cause (Nat × ReadCursor) :=
  match hufLookup code (brBits m rd) with
  | none => .error .hufInvalidCode
  | some e =>
    match brAdvance e.len rd with
    | .error c => .error c
    | .ok rd' => .ok (e.sym, rd')

/-- `huf_put(k, s)` (R206): the codeword, most-significant bit first. -/
def hufPut (code : HufCode) (sym : Nat) (wr : WriteCursor) : Except Cause WriteCursor :=
  bwWrite (bitrev (code.code.getD sym 0) (code.len.getD sym 0)) (code.len.getD sym 0) wr

/-- The private code before any block has installed one: no symbol has a codeword. -/
def emptyCode : HufCode := hufInstall []

/-! ### Commands -/

/-- The frequencies of HUF_BUILD_ENC: 32-bit little-endian words (R207, R102). -/
def leWords : List Byte → List Nat
  | a :: b :: c :: d :: rest => leWord [a, b, c, d] :: leWords rest
  | _ => []

/-- The parameter check of HUF_BUILD_ENC (R207). -/
def State.hufBuildEncOk (s : State) : Bool :=
  decide (s.srcLen.toNat % 4 = 0) && decide (4 ≤ s.srcLen.toNat) && decide (s.srcLen.toNat ≤ 4 * Config.hufMaxSyms) &&
    s.srcDstOk

/-- HUF_BUILD_ENC SLOT, MAXLEN (R207). -/
def execHufBuildEnc (slot : BitVec 2) (maxlen : BitVec 4) (s : State) : Out :=
  if maxlen.toNat = 0 then s.illegal .badOperand
  else if !s.hufBuildEncOk then s.illegal .badParam
  else s.withBuffers [s.srcBuffer, s.dstBuffer] <|
    let nsym := s.srcLen.toNat / 4
    if s.dstCap.toNat < nsym then s.failBuffer .dstFull (some s.dstBuffer)
    else
      let freq := leWords s.srcBytes
      if 2 ^ maxlen.toNat < (freq.filter (fun f => decide (0 < f))).length then s.finish .hufTooManySymbols
      else
        let len := hufLengths freq maxlen.toNat
        ((({ s with mem := s.mem.writeBytes s.dstAddr.toNat (len.map (BitVec.ofNat 8)) }).setSlot slot
          (hufInstall len)).report s.srcLen.toNat nsym).finishOk

/-- The parameter check of HUF_BUILD_DEC (R208). -/
def State.hufBuildDecOk (s : State) : Bool :=
  decide (1 ≤ s.srcLen.toNat) && decide (s.srcLen.toNat ≤ Config.hufMaxSyms) && s.srcBuffer.wellFormed

/-- HUF_BUILD_DEC SLOT (R208). It writes no memory (R108), but a FORMAT end leaves the bytes of DST unspecified, as R434
item 2 and U1 say of every buffer command (assumption 8). -/
def execHufBuildDec (slot : BitVec 2) (s : State) : Out :=
  if !s.hufBuildDecOk then s.illegal .badParam
  else s.withBuffers [s.srcBuffer] <|
    let len := s.srcBytes.map BitVec.toNat
    match hufCheck Config.incompletePolicy len with
    | some c => s.failBuffer c (some s.dstBuffer.inSpace)
    | none => ((s.setSlot slot (hufInstall len)).report s.srcLen.toNat 0).finishOk

/-- HUF_LOAD_FIXED N, SLOT (R209). -/
def execHufLoadFixed (n : BitVec 7) (slot : BitVec 2) (s : State) : Out :=
  if 1 < n.toNat then s.illegal .badOperand
  else .next (s.setSlot slot (hufInstall (if n.toNat = 0 then fixedLit else fixedDist))).finishOk

/-- HUF_DECODE SLOT (R210): an INVALID entry is a data result. -/
def execHufDecode (slot : BitVec 2) (s : State) : Out :=
  if !s.brBuffer.wellFormed then s.illegal .badParam
  else
    match s.slot slot with
    | none => s.illegal .slotNotBuilt
    | some code =>
      s.withBuffers [s.brBuffer] { s with hufRes := hufResWord (hufLookup code (brBits s.mem s.readCursor)) }.finishOk

/-- HUF_READ_SYM SLOT (R211): HUF_RES holds the lookup even when the command fails. -/
def execHufReadSym (slot : BitVec 2) (s : State) : Out :=
  if !s.brBuffer.wellFormed then s.illegal .badParam
  else
    match s.slot slot with
    | none => s.illegal .slotNotBuilt
    | some code =>
      s.withBuffers [s.brBuffer] <|
        let e := hufLookup code (brBits s.mem s.readCursor)
        let t := { s with hufRes := hufResWord e }
        match e with
        | none => t.failPlain .hufInvalidCode
        | some e =>
          match brAdvance e.len s.readCursor with
          | .error c => t.failPlain c
          | .ok rd => (t.setReadCursor rd).finishOk

/-- HUF_WRITE_SYM SLOT (R212). -/
def execHufWriteSym (slot : BitVec 2) (s : State) : Out :=
  if !s.bwBuffer.wellFormed then s.illegal .badParam
  else
    match s.slot slot with
    | none => s.illegal .slotNotBuilt
    | some code =>
      if code.n ≤ s.hufSym.toNat || code.len.getD s.hufSym.toNat 0 == 0 then s.illegal .badOperand
      else s.withBuffers [s.bwBuffer] (s.onWriter (hufPut code s.hufSym.toNat s.writeCursor))

end Sys2Proof.Machine
end

