-- ==== Sys2Proof/Machine/Lz77.lean ====
section
/-! DEFINITION. The LZ77 matcher (42_lz77.md): the exact match search, the token sequence with its one-step lazy
evaluation, the token records, and LZ_COMPRESS. -/

namespace Sys2Proof.Machine

/-- The parameters (W, M, OV) of a matcher run (R249). -/
structure LzParams where
  window : Nat
  maxLen : Nat
  overlap : Bool
  deriving DecidableEq, Repr

/-- A MatchToken (R249): a literal byte, or a back-reference `Match(d, L)`. -/
inductive Token where
  | lit (b : Byte)
  | backRef (dist len : Nat)
  deriving DecidableEq, Repr

/-- A match found at a position: length and distance, both 0 for none (R250). -/
structure Found where
  len : Nat
  dist : Nat
  deriving DecidableEq, Repr

/-- How many leading bytes agree, at most `lim` (the inner loop of R250). -/
def matchLen : Nat → List Byte → List Byte → Nat
  | lim + 1, x :: xs, y :: ys => if x = y then matchLen lim xs ys + 1 else 0
  | _, _, _ => 0

/-- The limit on the match at position `i` and distance `d` of a source of `n` bytes (R250). -/
def lzLimit (p : LzParams) (n i d : Nat) : Nat :=
  if p.overlap then min p.maxLen (n - i) else min (min p.maxLen (n - i)) d

/-- The match length at position `i` and distance `d` (R250). -/
def lzLenAt (src : List Byte) (i : Nat) (p : LzParams) (d : Nat) : Nat :=
  matchLen (lzLimit p src.length i d) (src.drop (i - d)) (src.drop i)

/-- The loop of R250 over d = 1, 2, ..., `k`: the longest match, the smallest distance on ties. -/
def lzSearch (src : List Byte) (i : Nat) (p : LzParams) : Nat → Found
  | 0 => ⟨0, 0⟩
  | d + 1 =>
    let best := lzSearch src i p d
    let l := lzLenAt src i p (d + 1)
    if best.len < l then ⟨l, d + 1⟩ else best

/-- `lz_best(src, i, P)` (R250). -/
def lzBest (src : List Byte) (i : Nat) (p : LzParams) : Found :=
  let best := lzSearch src i p (min p.window i)
  if Config.lzMinMatch ≤ best.len then best else ⟨0, 0⟩

/-- The lazy loop of R251 from a match `f` at `i`: the literals put out, and the position and match settled on. The
fuel bounds the deferrals by the bytes left. -/
def lzDefer (src : List Byte) (p : LzParams) : Nat → Nat → Found → List Token × Nat × Found
  | 0, i, f => ([], i, f)
  | fuel + 1, i, f =>
    if i + 1 < src.length then
      let f2 := lzBest src (i + 1) p
      if f.len < f2.len then
        let r := lzDefer src p fuel (i + 1) f2
        (.lit (src.getD i 0) :: r.1, r.2)
      else ([], i, f)
    else ([], i, f)

/-- The loop of `lz_tokens` (R251) from position `i`. Every turn passes at least one byte, so `src.length` turns are
enough. -/
def lzTokensFrom (src : List Byte) (p : LzParams) : Nat → Nat → List Token
  | 0, _ => []
  | fuel + 1, i =>
    if i < src.length then
      let f := lzBest src i p
      if f.len = 0 then .lit (src.getD i 0) :: lzTokensFrom src p fuel (i + 1)
      else
        let r := lzDefer src p src.length i f
        r.1 ++ .backRef r.2.2.dist r.2.2.len :: lzTokensFrom src p fuel (r.2.1 + r.2.2.len)
    else []

/-- `lz_tokens(src, P)` (R251). -/
def lzTokens (src : List Byte) (p : LzParams) : List Token := lzTokensFrom src p src.length 0

/-- The token record word (R252). -/
def Token.record : Token → Nat
  | .lit b => b.toNat
  | .backRef d l => 2 ^ 31 + l * 65536 + (d - 1)

/-- The records of the tokens, from the `t`-th on; the sink rejects a record that does not fit (R253). -/
def lzRecords (cap : Nat) : Nat → List Token → Except Cause (List Byte)
  | _, [] => .ok []
  | t, x :: xs =>
    if cap < 4 * (t + 1) then .error .dstFull
    else
      match lzRecords cap (t + 1) xs with
      | .error c => .error c
      | .ok bs => .ok (wordBytes x.record ++ bs)

/-- W, M and OV from LZ_WINDOW, LZ_MAXLEN and LZ_FLAGS (R249, R41 to R43). -/
def State.lzParams (s : State) : LzParams := ⟨s.lzWindow.toNat, s.lzMaxlen.toNat, s.lzOverlap⟩

/-- The LZ parameters are legal (R253, R41, R42). -/
def LzParams.legal (p : LzParams) : Bool :=
  decide (1 ≤ p.window) && decide (p.window ≤ Config.lzWindowMax) && decide (Config.lzMinMatch ≤ p.maxLen) &&
    decide (p.maxLen ≤ Config.lzMaxlenMax)

/-- A buffer command that ends OK: its output bytes at DST, CONSUMED and WRITTEN (R40). -/
def State.deliver (out : List Byte) (consumed : Nat) (s : State) : State :=
  ({ s with mem := s.mem.writeBytes s.dstAddr.toNat out }.report consumed out.length).finishOk

/-- LZ_COMPRESS (R253). -/
def execLzCompress (s : State) : Out :=
  if !(s.lzParams.legal && s.srcDstOk) then s.illegal .badParam
  else s.withBuffers [s.srcBuffer, s.dstBuffer] <|
    match lzRecords s.dstCap.toNat 0 (lzTokens s.srcBytes s.lzParams) with
    | .error c => s.failBuffer c (some s.dstBuffer)
    | .ok out => s.deliver out s.srcLen.toNat

end Sys2Proof.Machine
end

