-- ==== Sys2Proof/Machine/Deflate.lean ====
section
/-! DEFINITION. The DEFLATE encoder (43_deflate.md section 4): tokens, blocks, the dynamic plan, the block cost
estimates and choice, the block writer, and DEFLATE. -/

namespace Sys2Proof.Machine

/-- A field a writer appends: `bw_write(value, width)` (R164). -/
structure BitField where
  value : Nat
  width : Nat
  deriving DecidableEq, Repr

/-- A run-length item `(symbol, extra)` (R334); the extra of a symbol without one is 0. -/
structure RlItem where
  sym : Nat
  extra : Nat
  deriving DecidableEq, Repr

/-- The plan of a dynamic block (R333 to R335). -/
structure DynPlan where
  ll : List Nat
  dl : List Nat
  hlit : Nat
  hdist : Nat
  rl : List RlItem
  cl : List Nat
  hclen : Nat
  deriving DecidableEq, Repr

/-- The block kinds, in the order in which a tie is decided (R337). -/
inductive BlockKind where
  | fixed
  | dynamic
  | stored
  deriving DecidableEq, Repr

/-! ### Symbols (R339) -/

/-- How many entries of an ascending table are at most `x`, less one: the index of the largest such entry. -/
def largestAtMost (t : List Nat) (x : Nat) : Nat := (t.filter (fun b => decide (b ≤ x))).length - 1

/-- `lsym(L)` (R339): 285 for 258, else the largest symbol in 257 to 284 whose base is at most L. -/
def lsym (l : Nat) : Nat := if l = 258 then 285 else 257 + largestAtMost (lenBase.take 28) l

/-- `lextra(L)` (R339). -/
def lextra (l : Nat) : Nat := lenExtra.getD (lsym l - 257) 0

/-- `dsym(d)` (R339). -/
def dsym (d : Nat) : Nat := largestAtMost distBase d

/-- `dextra(d)` (R339). -/
def dextra (d : Nat) : Nat := distExtra.getD (dsym d) 0

/-! ### Tokens and blocks (R331, R332) -/

/-- The matcher parameters of DEFLATE (R331). -/
def dflLzParams : LzParams := ⟨Config.dflWindow, Config.lzMaxlenMax, true⟩

/-- Cut a token sequence into blocks of `k` tokens; `fuel` bounds the number of cuts. -/
def splitTokens (k : Nat) : Nat → List Token → List (List Token)
  | 0, t => [t]
  | fuel + 1, t => if t.length ≤ k then [t] else t.take k :: splitTokens k fuel (t.drop k)

/-- `split(toks)` (R332). -/
def dflBlocks (toks : List Token) : List (List Token) := splitTokens Config.dflBlockTokens toks.length toks

/-- The source bytes a token covers (R332). -/
def Token.rawLen : Token → Nat
  | .lit _ => 1
  | .backRef _ l => l

/-- `rawlen(B)` (R332). -/
def rawLen (b : List Token) : Nat := (b.map Token.rawLen).sum

/-! ### The dynamic plan (R333 to R335) -/

/-- A token's literal/length symbol. -/
def Token.litSym : Token → Nat
  | .lit b => b.toNat
  | .backRef _ l => lsym l

/-- A token's distance symbol, if it has one. -/
def Token.distSym : Token → Option Nat
  | .lit _ => none
  | .backRef d _ => some (dsym d)

/-- `lf` (R333): literal/length frequencies, with one end-of-block. -/
def litFreq (b : List Token) : List Nat :=
  let syms := b.map Token.litSym ++ [256]
  (List.range 286).map (fun s => syms.count s)

/-- `df` (R333): distance frequencies. -/
def distFreq (b : List Token) : List Nat :=
  let syms := b.filterMap Token.distSym
  (List.range 30).map (fun s => syms.count s)

/-- The distance padding of R333: at least two codes of length 1. -/
def padDist (dl : List Nat) : List Nat :=
  match dl.zipIdx.filter (fun p => decide (0 < p.1)) with
  | [] => (dl.set 0 1).set 1 1
  | [(_, u)] => dl.set (if u = 0 then 1 else 0) 1
  | _ => dl

/-- `1 + max{ s : l[s] > 0 }`, or 0 when there is none. -/
def usedCount : List Nat → Nat
  | [] => 0
  | l :: ls =>
    let k := usedCount ls
    if 0 < k then k + 1 else if 0 < l then 1 else 0

/-- A run of `r` zero lengths (R334); `fuel` bounds the number of items. -/
def rleZeros : Nat → Nat → List RlItem
  | 0, _ => []
  | fuel + 1, r =>
    if 11 ≤ r then ⟨18, min r 138 - 11⟩ :: rleZeros fuel (r - min r 138)
    else if 3 ≤ r then [⟨17, r - 3⟩]
    else List.replicate r ⟨0, 0⟩

/-- The `r` repeats that follow the first of a run of a nonzero length `v` (R334). -/
def rleCopies (v : Nat) : Nat → Nat → List RlItem
  | 0, _ => []
  | fuel + 1, r =>
    if 3 ≤ r then ⟨16, min r 6 - 3⟩ :: rleCopies v fuel (r - min r 6) else List.replicate r ⟨v, 0⟩

/-- The length of the run of `v` at the head of a list. -/
def runLen (v : Nat) : List Nat → Nat
  | [] => 0
  | x :: xs => if x = v then runLen v xs + 1 else 0

/-- `rle(seq)` (R334); `fuel` bounds the number of runs. -/
def rleFrom : Nat → List Nat → List RlItem
  | 0, _ => []
  | _ + 1, [] => []
  | fuel + 1, v :: rest =>
    let r := runLen v rest + 1
    (if v = 0 then rleZeros r r else ⟨v, 0⟩ :: rleCopies v r (r - 1)) ++ rleFrom fuel (rest.drop (r - 1))

/-- `rle(seq)` (R334). -/
def rle (seq : List Nat) : List RlItem := rleFrom seq.length seq

/-- `plan_dynamic(B)` (R333 to R335). -/
def planDynamic (b : List Token) : DynPlan :=
  let ll := hufLengths (litFreq b) 15
  let dl := padDist (hufLengths (distFreq b) 15)
  let hlit := max 257 (usedCount ll)
  let hdist := max 1 (usedCount dl)
  let rl := rle (ll.take hlit ++ dl.take hdist)
  let rlSyms := rl.map RlItem.sym
  let cl := hufLengths ((List.range 19).map (fun s => rlSyms.count s)) 7
  ⟨ll, dl, hlit, hdist, rl, cl, max 4 (usedCount (clOrder.map (fun s => cl.getD s 0)))⟩

/-! ### Costs and choice (R336, R337) -/

/-- The extra bits of a run-length symbol (R286). -/
def rlExtraBits (sym : Nat) : Nat := if sym = 16 then 2 else if sym = 17 then 3 else if sym = 18 then 7 else 0

/-- One token's bits under two length lists. -/
def Token.cost (ll dl : List Nat) : Token → Nat
  | .lit b => ll.getD b.toNat 0
  | .backRef d l => ll.getD (lsym l) 0 + lextra l + dl.getD (dsym d) 0 + dextra d

/-- `data(lens_ll, lens_dl)` (R336). -/
def dataCost (ll dl : List Nat) (b : List Token) : Nat := ll.getD 256 0 + (b.map (Token.cost ll dl)).sum

/-- `fixed` (R336). -/
def fixedCost (b : List Token) : Nat := 3 + dataCost fixedLit fixedDist b

/-- `dynamic` (R336). -/
def dynamicCost (p : DynPlan) (b : List Token) : Nat :=
  3 + 5 + 5 + 4 + 3 * p.hclen + (p.rl.map (fun x => p.cl.getD x.sym 0 + rlExtraBits x.sym)).sum +
    dataCost p.ll p.dl b

/-- The padding of a stored block that starts at writer position `wpos` (R336, R338). -/
def storedPad (wpos : Nat) : Nat := (8 - (wpos + 3) % 8) % 8

/-- `stored` (R336); `none` above 65535 bytes. -/
def storedCost (wpos : Nat) (b : List Token) : Option Nat :=
  if rawLen b ≤ 65535 then some (3 + storedPad wpos + 32 + 8 * rawLen b) else none

/-- `choose` (R337): the smallest estimate, fixed before dynamic before stored on ties. -/
def chooseKind (wpos : Nat) (p : DynPlan) (b : List Token) : BlockKind :=
  let huffman := if fixedCost b ≤ dynamicCost p b then BlockKind.fixed else BlockKind.dynamic
  match storedCost wpos b with
  | none => huffman
  | some c => if c < min (fixedCost b) (dynamicCost p b) then .stored else huffman

/-! ### Writing a block (R338) -/

/-- The field `huf_put(k, s)` appends (R206). -/
def hufField (code : HufCode) (sym : Nat) : BitField :=
  ⟨bitrev (code.code.getD sym 0) (code.len.getD sym 0), code.len.getD sym 0⟩

/-- One token of `write_data` (R338). -/
def Token.fields (lit dist : HufCode) : Token → List BitField
  | .lit b => [hufField lit b.toNat]
  | .backRef d l =>
    [hufField lit (lsym l), ⟨l - lenBase.getD (lsym l - 257) 0, lextra l⟩, hufField dist (dsym d),
      ⟨d - distBase.getD (dsym d) 0, dextra d⟩]

/-- `write_data(B)` (R338). -/
def dataFields (lit dist : HufCode) (b : List Token) : List BitField :=
  b.flatMap (Token.fields lit dist) ++ [hufField lit 256]

/-- A run-length item of the dynamic header (R338). -/
def RlItem.fields (clc : HufCode) (x : RlItem) : List BitField :=
  hufField clc x.sym :: (if rlExtraBits x.sym = 0 then [] else [⟨x.extra, rlExtraBits x.sym⟩])

/-- The body of a stored block (R338). -/
def storedFields (wpos : Nat) (b : List Token) (raw : List Byte) : List BitField :=
  [⟨0, 2⟩, ⟨0, storedPad wpos⟩, ⟨rawLen b, 16⟩, ⟨rawLen b ^^^ 0xFFFF, 16⟩] ++ raw.map (fun x => ⟨x.toNat, 8⟩)

/-- The body of a fixed block (R338). -/
def fixedFields (b : List Token) : List BitField :=
  ⟨1, 2⟩ :: dataFields (hufInstall fixedLit) (hufInstall fixedDist) b

/-- The body of a dynamic block (R338). -/
def dynamicFields (p : DynPlan) (b : List Token) : List BitField :=
  [⟨2, 2⟩, ⟨p.hlit - 257, 5⟩, ⟨p.hdist - 1, 5⟩, ⟨p.hclen - 4, 4⟩] ++
    (clOrder.take p.hclen).map (fun s => ⟨p.cl.getD s 0, 3⟩) ++
    p.rl.flatMap (RlItem.fields (hufInstall p.cl)) ++
    dataFields (hufInstall p.ll) (hufInstall p.dl) b

/-- The fields of `write_block(final, kind, B, plan, raw)` at writer position `wpos` (R338). -/
def blockFields (final : Bool) (kind : BlockKind) (wpos : Nat) (p : DynPlan) (b : List Token) (raw : List Byte) :
    List BitField :=
  ⟨if final then 1 else 0, 1⟩ ::
    (match kind with
    | .stored => storedFields wpos b raw
    | .fixed => fixedFields b
    | .dynamic => dynamicFields p b)

/-- A sequence of `bw_write`s; the first that fails ends it (R338). -/
def writeFields : List BitField → WriteCursor → Except Cause WriteCursor
  | [], wr => .ok wr
  | f :: fs, wr =>
    match bwWrite f.value f.width wr with
    | .error c => .error c
    | .ok wr' => writeFields fs wr'

/-- The block loop of R330, over the blocks and the source bytes not yet covered. -/
def writeBlocks : List (List Token) → List Byte → WriteCursor → Except Cause WriteCursor
  | [], _, wr => .ok wr
  | b :: bs, src, wr =>
    let p := planDynamic b
    let kind := chooseKind wr.pos p b
    match writeFields (blockFields bs.isEmpty kind wr.pos p b (src.take (rawLen b))) wr with
    | .error c => .error c
    | .ok wr' => writeBlocks bs (src.drop (rawLen b)) wr'

/-- The stream of DEFLATE on a writer (R330): the blocks, then `bw_flush`. -/
def deflateRun (src : List Byte) (wr : WriteCursor) : Except Cause WriteCursor :=
  match writeBlocks (dflBlocks (lzTokens src dflLzParams)) src wr with
  | .error c => .error c
  | .ok wr' => bwFlush wr'

/-- An encoder that ends OK: the private writer's bytes in memory, CONSUMED = SRC_LEN and WRITTEN = wr.BW_BYTE
(R330, R370, R174). -/
def State.deliverWrites (wr : WriteCursor) (s : State) : State :=
  ({ s with mem := s.mem.applyWrites wr.writes }.report s.srcLen.toNat wr.byte).finishOk

/-- DEFLATE (R330). -/
def execDeflate (s : State) : Out :=
  if !s.srcDstOk then s.illegal .badParam
  else s.withBuffers [s.srcBuffer, s.dstBuffer] <|
    match deflateRun s.srcBytes s.privateWriter with
    | .error c => s.failBuffer c (some s.dstBuffer)
    | .ok wr => s.deliverWrites wr

end Sys2Proof.Machine
end

