-- ==== Sys2Proof/Machine/Inflate.lean ====
section
/-! DEFINITION. The DEFLATE decoder (43_deflate.md sections 2 and 3): the sequencer of R300 over the private reader,
the private codes and the output history, and INFLATE. -/

namespace Sys2Proof.Machine

/-- The DFL sequencer's states (R58, R300). -/
inductive DflPhase where
  | readBlockHeader
  | stored
  | fixedHuffman
  | dynamicHuffman
  | decodeSymbols
  | done
  deriving DecidableEq, Repr

/-- What INFLATE holds while it runs (R57, R58): phase, BFINAL, the private codes LIT, DIST and CLC, the private
reader, and the output so far, newest byte first (R301; `written` is its length). -/
structure DflState where
  phase : DflPhase
  bfinal : Bool
  lit : HufCode
  dist : HufCode
  clc : HufCode
  rd : ReadCursor
  out : List Byte
  deriving DecidableEq, Repr

/-- `put(b)` (R301), on an output held newest first. -/
def putByte (cap : Nat) (out : List Byte) (b : Byte) : Except Cause (List Byte) :=
  if cap ≤ out.length then .error .dstFull else .ok (b :: out)

/-- `br_read` on the sequencer's private reader. -/
def DflState.read (m : Memory) (n : Nat) (d : DflState) : Except Cause (Nat × DflState) :=
  match brRead m n d.rd with
  | .error c => .error c
  | .ok (v, rd) => .ok (v, { d with rd := rd })

/-- `huf_get` with one of the private codes on the private reader. -/
def DflState.get (m : Memory) (code : HufCode) (d : DflState) : Except Cause (Nat × DflState) :=
  match hufGet m code d.rd with
  | .error c => .error c
  | .ok (v, rd) => .ok (v, { d with rd := rd })

/-- `put` on the sequencer's output. -/
def DflState.put (cap : Nat) (b : Byte) (d : DflState) : Except Cause DflState :=
  match putByte cap d.out b with
  | .error c => .error c
  | .ok out => .ok { d with out := out }

/-- The state after a block: `Done` after the last, else the next block header (R300). -/
def DflState.blockEnd (d : DflState) : DflState :=
  { d with phase := if d.bfinal then .done else .readBlockHeader }

/-- `ReadBlockHeader` (R311). -/
def dflReadBlockHeader (m : Memory) (d : DflState) : Except Cause DflState := do
  let (f, d) ← d.read m 1
  let (t, d) ← d.read m 2
  let d := { d with bfinal := decide (f = 1) }
  match t with
  | 0 => .ok { d with phase := .stored }
  | 1 => .ok { d with phase := .fixedHuffman }
  | 2 => .ok { d with phase := .dynamicHuffman }
  | _ => .error .badBlockType

/-- `repeat LEN times` of R313: read a byte, then put it. -/
def dflCopyStored (m : Memory) (cap : Nat) : Nat → DflState → Except Cause DflState
  | 0, d => .ok d
  | n + 1, d => do
    let (b, d) ← d.read m 8
    let d ← d.put cap (BitVec.ofNat 8 b)
    dflCopyStored m cap n d

/-- `Stored` (R313): align, LEN and NLEN, the raw bytes. -/
def dflStored (m : Memory) (cap : Nat) (d : DflState) : Except Cause DflState := do
  let d := { d with rd := brAlign d.rd }
  let (len, d) ← d.read m 16
  let (nlen, d) ← d.read m 16
  if nlen = len ^^^ 0xFFFF then
    let d ← dflCopyStored m cap len d
    .ok d.blockEnd
  else .error .storedLenMismatch

/-- `FixedHuffman` (R314). -/
def dflFixedHuffman (d : DflState) : DflState :=
  { d with lit := hufInstall fixedLit, dist := hufInstall fixedDist, phase := .decodeSymbols }

/-- The HCLEN code-length-code lengths, read in the order listed and put in their places (R316). -/
def dflReadClLengths (m : Memory) : List Nat → List Nat → DflState → Except Cause (List Nat × DflState)
  | [], cl, d => .ok (cl, d)
  | k :: ks, cl, d => do
    let (v, d) ← d.read m 3
    dflReadClLengths m ks (cl.set k v) d

/-- Fail with the cause a length check gives, if it gives one. -/
def checked (r : Option Cause) : Except Cause Unit :=
  match r with
  | none => .ok ()
  | some c => .error c

/-- One code-length symbol's run (R317): the value to repeat and how often. The extra bits are read before any check
of the run's length. -/
def dflRun (m : Memory) (seq : List Nat) (sym : Nat) (d : DflState) : Except Cause (Nat × Nat × DflState) :=
  match sym with
  | 16 =>
    match seq.getLast? with
    | none => .error .badCodelenRepeat
    | some v => do
      let (e, d) ← d.read m 2
      .ok (v, 3 + e, d)
  | 17 => do
    let (e, d) ← d.read m 3
    .ok (0, 3 + e, d)
  | 18 => do
    let (e, d) ← d.read m 7
    .ok (0, 11 + e, d)
  | _ => .ok (sym, 1, d)

/-- The code-length sequence (R317), up to `total` lengths. Every turn adds at least one length, so `total` turns are
enough; running out of them is the unreachable INTERNAL (R435). -/
def dflReadLengths (m : Memory) (total : Nat) : Nat → List Nat → DflState → Except Cause (List Nat × DflState)
  | 0, seq, d => if seq.length < total then .error .internal else .ok (seq, d)
  | fuel + 1, seq, d =>
    if seq.length < total then do
      let (sym, d) ← d.get m d.clc
      let (v, r, d) ← dflRun m seq sym d
      if total < seq.length + r then .error .badCodelenRepeat
      else dflReadLengths m total fuel (seq ++ List.replicate r v) d
    else .ok (seq, d)

/-- `DynamicHuffman` (R315 to R318), with `INFLATE_STRICT_COUNTS` and the incomplete-code policy as arguments. -/
def dflDynamicHuffman (strict : Bool) (policy : IncompletePolicy) (m : Memory) (d : DflState) :
    Except Cause DflState := do
  let (a, d) ← d.read m 5
  let (b, d) ← d.read m 5
  let (c, d) ← d.read m 4
  let hlit := a + 257
  let hdist := b + 1
  let hclen := c + 4
  if strict && (decide (286 < hlit) || decide (30 < hdist)) then .error .badHlitHdist
  else
    let (cl, d) ← dflReadClLengths m (clOrder.take hclen) (List.replicate 19 0) d
    checked (hufCheck policy cl)
    let d := { d with clc := hufInstall cl }
    let (seq, d) ← dflReadLengths m (hlit + hdist) (hlit + hdist) [] d
    let ll := seq.take hlit
    let dl := seq.drop hlit
    checked (hufCheck policy ll)
    checked (hufCheck policy dl)
    .ok { d with lit := hufInstall ll, dist := hufInstall dl, phase := .decodeSymbols }

/-- The loop of `copy(L, d)` (R320): byte by byte, so the copy may overlap the bytes it makes. -/
def dflCopyBytes (cap dist : Nat) : Nat → DflState → Except Cause DflState
  | 0, d => .ok d
  | n + 1, d => do
    let d ← d.put cap (d.out.getD (dist - 1) 0)
    dflCopyBytes cap dist n d

/-- `copy(L, d)` (R320): the distance is checked before any byte is copied. -/
def dflCopy (cap len dist : Nat) (d : DflState) : Except Cause DflState :=
  if d.out.length < dist then .error .distanceTooFar else dflCopyBytes cap dist len d

/-- A length symbol, its extra bits, the distance symbol, its extra bits, and the copy (R319). -/
def dflBackRef (m : Memory) (cap sym : Nat) (d : DflState) : Except Cause DflState := do
  let (e, d) ← d.read m (lenExtra.getD (sym - 257) 0)
  let (ds, d) ← d.get m d.dist
  if 30 ≤ ds then .error .badDistanceSymbol
  else
    let (f, d) ← d.read m (distExtra.getD ds 0)
    dflCopy cap (lenBase.getD (sym - 257) 0 + e) (distBase.getD ds 0 + f) d

/-- `DecodeSymbols` (R319). Every turn consumes at least one bit, so one turn per bit of the source and one more are
enough; running out of them is the unreachable INTERNAL (R435). -/
def dflDecodeSymbols (m : Memory) (cap : Nat) : Nat → DflState → Except Cause DflState
  | 0, _ => .error .internal
  | fuel + 1, d => do
    let (sym, d) ← d.get m d.lit
    if sym ≤ 255 then
      let d ← d.put cap (BitVec.ofNat 8 sym)
      dflDecodeSymbols m cap fuel d
    else if sym = 256 then .ok d.blockEnd
    else if 286 ≤ sym then .error .badLengthSymbol
    else
      let d ← dflBackRef m cap sym d
      dflDecodeSymbols m cap fuel d

/-- One transition of the sequencer (R300). -/
def dflStep (m : Memory) (cap : Nat) (d : DflState) : Except Cause DflState :=
  match d.phase with
  | .readBlockHeader => dflReadBlockHeader m d
  | .stored => dflStored m cap d
  | .fixedHuffman => .ok (dflFixedHuffman d)
  | .dynamicHuffman => dflDynamicHuffman Config.inflateStrictCounts Config.incompletePolicy m d
  | .decodeSymbols => dflDecodeSymbols m cap (8 * d.rd.len + 1) d
  | .done => .ok d

/-- The transitions of R300 until `Done`. A block takes at most three and consumes at least three bits, so
`8 * len + 4` turns are enough; running out of them is the unreachable INTERNAL (R435). -/
def dflRunToDone (m : Memory) (cap : Nat) : Nat → DflState → Except Cause DflState
  | 0, _ => .error .internal
  | fuel + 1, d =>
    if d.phase = .done then .ok d
    else
      match dflStep m cap d with
      | .error c => .error c
      | .ok d' => dflRunToDone m cap fuel d'

/-- The sequencer at the start of INFLATE (R300, R310). The rules give BFINAL and the private codes no value before a
block sets them; they start false and empty here, and nothing reads them before (assumption 19, the model's choice). -/
def dflInit (rd : ReadCursor) : DflState := ⟨.readBlockHeader, false, emptyCode, emptyCode, emptyCode, rd, []⟩

/-- INFLATE's run on a private reader: the cause it fails with, or the state in `Done`. -/
def inflateRun (m : Memory) (rd : ReadCursor) (cap : Nat) : Except Cause DflState :=
  dflRunToDone m cap (8 * rd.len + 4) (dflInit rd)

/-- INFLATE (R310, R321). -/
def execInflate (s : State) : Out :=
  if !s.srcDstOk then s.illegal .badParam
  else s.withBuffers [s.srcBuffer, s.dstBuffer] <|
    match inflateRun s.mem s.privateReader s.dstCap.toNat with
    | .error c => s.failBuffer c (some s.dstBuffer)
    | .ok d => s.deliver d.out.reverse (ceil8 d.rd.pos)

end Sys2Proof.Machine
end

