-- ==== Sys2Proof/Machine/Shrink.lean ====
section
/-! DEFINITION. The SHRINK/UNSHRINK LZW unit (44_shrink.md): the code table and its primitives, the encoder and the
decoder. `LZW_SELF_PREFIX_SURVIVES` (R9, R362) is an argument, `Config.lzwSelfPrefixSurvives` for this hardware. -/

namespace Sys2Proof.Machine

/-- A table slot (R59): in-use flag, prefix code or NONE, appended byte. -/
structure LzwEntry where
  used : Bool
  pfx : Option Nat
  byte : Byte
  deriving DecidableEq, Repr

/-- The table `lzw[0..8191]` (R59). -/
abbrev LzwTable := List LzwEntry

/-- A free slot. -/
def lzwFree : LzwEntry := ⟨false, none, 0⟩

/-- `lzw_init` (R360): the literals used, 256 and the codes above free. -/
def lzwInit : LzwTable :=
  (List.range 256).map (fun c => ⟨true, none, BitVec.ofNat 8 c⟩) ++ List.replicate (Config.lzwTableSize - 256) lzwFree

/-- `lzw[c]`. -/
def lzwGet (t : LzwTable) (c : Nat) : LzwEntry := t.getD c lzwFree

/-- The codes of the slots from `c` on that satisfy `f`. -/
def lzwCodes (f : Nat → LzwEntry → Bool) : Nat → LzwTable → List Nat
  | _, [] => []
  | c, e :: t => if f c e then c :: lzwCodes f (c + 1) t else lzwCodes f (c + 1) t

/-- The codes from 257 on whose slots satisfy `f`, ascending. -/
def lzwSelect (f : Nat → LzwEntry → Bool) (t : LzwTable) : List Nat := lzwCodes f 257 (t.drop 257)

/-- The mark of R362: the codes that are the prefix of an occupied entry; an entry's own code does not count unless
`survives`. -/
def lzwMarked (survives : Bool) : Nat → LzwTable → List Nat
  | _, [] => []
  | c, e :: t =>
    match e.used, e.pfx with
    | true, some p => if p ≠ c ∨ survives then p :: lzwMarked survives (c + 1) t else lzwMarked survives (c + 1) t
    | _, _ => lzwMarked survives (c + 1) t

/-- Clear the used flag of one code; its prefix and byte stay stale (R362). -/
def lzwRelease (t : LzwTable) (c : Nat) : LzwTable := t.set c { lzwGet t c with used := false }

/-- `freed` (R362): the occupied codes from 257 on that no mark keeps. -/
def lzwFreed (survives : Bool) (t : LzwTable) : List Nat :=
  let marked := lzwMarked survives 257 (t.drop 257)
  lzwSelect (fun c e => e.used && !marked.contains c) t

/-- `lzw_partial_clear()` (R362): the swept table. -/
def lzwPartialClear (survives : Bool) (t : LzwTable) : LzwTable := (lzwFreed survives t).foldl lzwRelease t

/-- The walk of R363 from code `c`; what has been collected is already in output order. The fuel counts the steps
still allowed. -/
def lzwWalk (t : LzwTable) : Nat → Nat → List Byte → Except Cause (List Byte)
  | fuel, c, acc =>
    if c < 256 then .ok (BitVec.ofNat 8 c :: acc)
    else if c = 256 ∨ (lzwGet t c).used = false then .error .lzwFreeCode
    else
      match fuel with
      | 0 => .error .lzwCycle
      | fuel + 1 =>
        match (lzwGet t c).pfx with
        | none => .error .internal
        | some p => lzwWalk t fuel p ((lzwGet t c).byte :: acc)

/-- `lzw_expand(c)` (R363): at most 7935 steps. -/
def lzwExpand (t : LzwTable) (c : Nat) : Except Cause (List Byte) := lzwWalk t 7935 c []

/-- `lzw_lowest_free()` (R364). -/
def lzwLowestFree (t : LzwTable) : Option Nat :=
  ((t.drop 257).findIdx? (fun e => !e.used)).map (· + 257)

/-- `lzw_insert(c, p, b)` (R365). -/
def lzwInsert (t : LzwTable) (c p : Nat) (b : Byte) : LzwTable := t.set c ⟨true, some p, b⟩

/-! ### SHRINK -/

/-- The map from (code, byte) pairs to codes (R59, R371); a key occurs at most once. -/
abbrev LzwMap := List ((Nat × Byte) × Nat)

/-- `map[key]`. -/
def lzwMapGet (mp : LzwMap) (k : Nat × Byte) : Option Nat := (mp.find? (fun x => x.1 == k)).map (fun x => x.2)

/-- `map[key] <- c`. -/
def lzwMapSet (mp : LzwMap) (k : Nat × Byte) (c : Nat) : LzwMap := (k, c) :: mp.filter (fun x => !(x.1 == k))

/-- Remove the key of a freed entry if it maps to that entry's code (R371). -/
def lzwMapDrop (t : LzwTable) (mp : LzwMap) (c : Nat) : LzwMap :=
  mp.filter (fun x => !(some x.1.1 == (lzwGet t c).pfx && x.1.2 == (lzwGet t c).byte && x.2 == c))

/-- What SHRINK holds while it runs (R57, R59). -/
structure ShrinkState where
  table : LzwTable
  width : Nat
  cur : Nat
  map : LzwMap
  wr : WriteCursor
  deriving DecidableEq, Repr

/-- `emit(c)` (R371): a code at the width in force. -/
def ShrinkState.emit (c : Nat) (z : ShrinkState) : Except Cause ShrinkState :=
  match bwWrite c z.width z.wr with
  | .error e => .error e
  | .ok wr => .ok { z with wr := wr }

/-- The partial clear of a full table (R371): the control pair, the sweep, the keys of the freed codes. -/
def shrinkClear (survives : Bool) (z : ShrinkState) : Except Cause ShrinkState := do
  let z ← z.emit 256
  let z ← z.emit 2
  .ok { z with
    table := lzwPartialClear survives z.table
    map := (lzwFreed survives z.table).foldl (lzwMapDrop z.table) z.map }

/-- `while nc >= 2^width` (R371): a widening pair for each turn. A code is below 2^13, so at most 13 turns. -/
def shrinkWiden (nc : Nat) : Nat → ShrinkState → Except Cause ShrinkState
  | 0, z => .ok z
  | fuel + 1, z =>
    if 2 ^ z.width ≤ nc then do
      let z ← z.emit 256
      let z ← z.emit 1
      shrinkWiden nc fuel { z with width := z.width + 1 }
    else .ok z

/-- The insertion after a miss (R371), where a free code was found. -/
def shrinkInsert (b : Byte) (nc : Option Nat) (z : ShrinkState) : Except Cause ShrinkState :=
  match nc with
  | none => .ok z
  | some nc => do
    let z ← shrinkWiden nc Config.lzwMaxWidth z
    .ok { z with table := lzwInsert z.table nc z.cur b, map := lzwMapSet z.map (z.cur, b) nc }

/-- One byte of the loop of `shrink_body` (R371). -/
def shrinkByte (survives : Bool) (b : Byte) (z : ShrinkState) : Except Cause ShrinkState :=
  match lzwMapGet z.map (z.cur, b) with
  | some c => .ok { z with cur := c }
  | none => do
    let z ← z.emit z.cur
    let z ← match lzwLowestFree z.table with
      | none => shrinkClear survives z
      | some _ => .ok z
    let z ← shrinkInsert b (lzwLowestFree z.table) z
    .ok { z with cur := b.toNat }

/-- The loop of `shrink_body` (R371). -/
def shrinkBytes (survives : Bool) : List Byte → ShrinkState → Except Cause ShrinkState
  | [], z => .ok z
  | b :: bs, z =>
    match shrinkByte survives b z with
    | .error c => .error c
    | .ok z' => shrinkBytes survives bs z'

/-- `shrink_body(src)` (R371). -/
def shrinkBody (survives : Bool) (src : List Byte) (wr : WriteCursor) : Except Cause WriteCursor :=
  match src with
  | [] => .ok wr
  | b :: bs => do
    let z ← shrinkBytes survives bs ⟨lzwInit, Config.lzwMinWidth, b.toNat, [], wr⟩
    let z ← z.emit z.cur
    .ok z.wr

/-- The stream of SHRINK on a writer (R370): the body, then `bw_flush`. -/
def shrinkRun (survives : Bool) (src : List Byte) (wr : WriteCursor) : Except Cause WriteCursor :=
  match shrinkBody survives src wr with
  | .error c => .error c
  | .ok wr' => bwFlush wr'

/-- SHRINK (R370). -/
def execShrink (s : State) : Out :=
  if !s.srcDstOk then s.illegal .badParam
  else s.withBuffers [s.srcBuffer, s.dstBuffer] <|
    match shrinkRun Config.lzwSelfPrefixSurvives s.srcBytes s.privateWriter with
    | .error c => s.failBuffer c (some s.dstBuffer)
    | .ok wr => s.deliverWrites wr

/-! ### UNSHRINK -/

/-- What UNSHRINK holds while it runs (R57, R59, R380): table, width, the previous data code and its string, the
private reader, and the output so far, newest byte first (R301). -/
structure UnshrinkState where
  table : LzwTable
  width : Nat
  prev : Option Nat
  prevStr : List Byte
  rd : ReadCursor
  out : List Byte
  deriving DecidableEq, Repr

/-- `control()` (R382). -/
def unshrinkControl (survives : Bool) (m : Memory) (u : UnshrinkState) : Except Cause UnshrinkState :=
  if u.rd.remaining < u.width then .error .lzwTruncatedControl
  else
    match brRead m u.width u.rd with
    | .error c => .error c
    | .ok (sub, rd) =>
      if sub = 1 then
        if u.width = Config.lzwMaxWidth then .error .lzwWidthMax
        else .ok { u with rd := rd, width := u.width + 1 }
      else if sub = 2 then .ok { u with rd := rd, table := lzwPartialClear survives u.table }
      else .error .lzwBadSubcode

/-- The string of a data code (R383). -/
def unshrinkString (c : Nat) (u : UnshrinkState) : Except Cause (List Byte) :=
  if c < 256 then .ok [BitVec.ofNat 8 c]
  else if some c = lzwLowestFree u.table then
    match u.prev with
    | none => .error .lzwFreeCode
    | some _ => .ok (u.prevStr ++ u.prevStr.take 1)
  else lzwExpand u.table c

/-- `put` of each byte of a string (R384, R301). -/
def putBytes (cap : Nat) : List Byte → List Byte → Except Cause (List Byte)
  | [], out => .ok out
  | b :: bs, out =>
    match putByte cap out b with
    | .error c => .error c
    | .ok out' => putBytes cap bs out'

/-- The insertion of R384: at the lowest free code, with the previous data code as prefix. -/
def unshrinkInsert (st : List Byte) (u : UnshrinkState) : LzwTable :=
  match u.prev, lzwLowestFree u.table, st with
  | some p, some lf, b :: _ => lzwInsert u.table lf p b
  | _, _, _ => u.table

/-- `data(c)` (R383, R384). -/
def unshrinkData (cap c : Nat) (u : UnshrinkState) : Except Cause UnshrinkState :=
  match unshrinkString c u with
  | .error e => .error e
  | .ok st =>
    match putBytes cap st u.out with
    | .error e => .error e
    | .ok out => .ok { u with table := unshrinkInsert st u, prev := some c, prevStr := st, out := out }

/-- `unshrink_body()` (R381). Every turn consumes at least one bit, so one turn per bit of the source is enough. -/
def unshrinkBody (survives : Bool) (m : Memory) (cap : Nat) : Nat → UnshrinkState → Except Cause UnshrinkState
  | 0, u => if u.width ≤ u.rd.remaining then .error .internal else .ok u
  | fuel + 1, u =>
    if u.width ≤ u.rd.remaining then
      match brRead m u.width u.rd with
      | .error c => .error c
      | .ok (c, rd) =>
        let u := { u with rd := rd }
        match (if c = 256 then unshrinkControl survives m u else unshrinkData cap c u) with
        | .error e => .error e
        | .ok u' => unshrinkBody survives m cap fuel u'
    else .ok u

/-- UNSHRINK's run on a private reader. -/
def unshrinkRun (survives : Bool) (m : Memory) (rd : ReadCursor) (cap : Nat) : Except Cause UnshrinkState :=
  unshrinkBody survives m cap (8 * rd.len) ⟨lzwInit, Config.lzwMinWidth, none, [], rd, []⟩

/-- UNSHRINK (R380). -/
def execUnshrink (s : State) : Out :=
  if !s.srcDstOk then s.illegal .badParam
  else s.withBuffers [s.srcBuffer, s.dstBuffer] <|
    match unshrinkRun Config.lzwSelfPrefixSurvives s.mem s.privateReader s.dstCap.toNat with
    | .error c => s.failBuffer c (some s.dstBuffer)
    | .ok u => s.deliver u.out.reverse (ceil8 u.rd.pos)

end Sys2Proof.Machine
end

