-- ==== Sys2Proof/Machine/System.lean ====
section
/-! DEFINITION. The system commands (45_system.md). -/

namespace Sys2Proof.Machine

/-- NOP (R410): it completes and does nothing else. -/
def execNop (s : State) : Out := .next s.finishOk

/-- CLEAR (R411): the sticky STATUS bits. -/
def execClear (s : State) : Out :=
  .next { s with status := { s.status with brFail := false, bwFail := false, wrBusy := false } }.finishOk

/-- SOFT_RESET (R412): the reset state, with no completion (R35). -/
def execSoftReset (s : State) : Out := .next s.hardReset

end Sys2Proof.Machine
end

