-- ==== Sys2Proof/Machine/Dispatch.lean ====
section
/-! DEFINITION. What each command does: one arm per constructor of Instr. -/

namespace Sys2Proof.Machine

def exec (i : Instr) (s : State) : Host.Outcome State Fault Refusal :=
  match i with
  | .nop => Sys2Proof.Machine.execNop s
  | .clear => Sys2Proof.Machine.execClear s
  | .softReset => Sys2Proof.Machine.execSoftReset s
  | .brInit => Sys2Proof.Machine.execBrInit s
  | .brPeek => Sys2Proof.Machine.execBrPeek s
  | .brAdvance n => Sys2Proof.Machine.execBrAdvance n s
  | .brRead n => Sys2Proof.Machine.execBrRead n s
  | .brAlign => Sys2Proof.Machine.execBrAlign s
  | .bwInit => Sys2Proof.Machine.execBwInit s
  | .bwWrite n => Sys2Proof.Machine.execBwWrite n s
  | .bwFlush => Sys2Proof.Machine.execBwFlush s
  | .hufBuildEnc slot maxlen => Sys2Proof.Machine.execHufBuildEnc slot maxlen s
  | .hufBuildDec slot => Sys2Proof.Machine.execHufBuildDec slot s
  | .hufDecode slot => Sys2Proof.Machine.execHufDecode slot s
  | .hufReadSym slot => Sys2Proof.Machine.execHufReadSym slot s
  | .hufWriteSym slot => Sys2Proof.Machine.execHufWriteSym slot s
  | .hufLoadFixed n slot => Sys2Proof.Machine.execHufLoadFixed n slot s
  | .lzCompress => Sys2Proof.Machine.execLzCompress s
  | .deflate => Sys2Proof.Machine.execDeflate s
  | .inflate => Sys2Proof.Machine.execInflate s
  | .shrink => Sys2Proof.Machine.execShrink s
  | .unshrink => Sys2Proof.Machine.execUnshrink s

end Sys2Proof.Machine
end

