-- ==== Sys2Proof/Machine/Port.lean ====
section
/-! DEFINITION. The register port and the host's other interactions (10_state.md R33, R52 to R54; 20_memory.md R104,
R119; 60_exceptions.md R438; 70_reset_and_hazards.md R471, R472), and one command from its CMD write to completion. -/

namespace Sys2Proof.Machine

/-! ### The register map (R33) -/

/-- The registers of R33. -/
inductive Reg where
  | id
  | cmd
  | status
  | ctrl
  | irq
  | srcAddr
  | srcLen
  | dstAddr
  | dstCap
  | consumed
  | written
  | lzWindow
  | lzMaxlen
  | lzFlags
  | brBase
  | brLen
  | brByte
  | brBit
  | brLookLo
  | brLookHi
  | bwBase
  | bwCap
  | bwByte
  | bwBit
  | bwAcc
  | bwValLo
  | bwValHi
  | hufSym
  | hufRes
  | hufValid
  deriving DecidableEq, Repr

/-- The access column of R33. -/
inductive AccessKind where
  | ro
  | rw
  | wo
  | rw1c
  deriving DecidableEq, Repr

/-- One row of R33: offset, register, access. -/
abbrev RegRow := Nat × Reg × AccessKind

/-- The rows of R33 below 0x020. -/
def regMapControl : List RegRow :=
  [(0x00, .id, .ro), (0x04, .cmd, .wo), (0x08, .status, .ro), (0x0C, .ctrl, .rw), (0x10, .irq, .rw1c)]

/-- The buffer and count rows of R33. -/
def regMapBuffers : List RegRow :=
  [(0x20, .srcAddr, .rw), (0x24, .srcLen, .rw), (0x28, .dstAddr, .rw), (0x2C, .dstCap, .rw), (0x30, .consumed, .ro),
    (0x34, .written, .ro)]

/-- The LZ rows of R33. -/
def regMapLz : List RegRow := [(0x40, .lzWindow, .rw), (0x44, .lzMaxlen, .rw), (0x48, .lzFlags, .rw)]

/-- The bit reader rows of R33. -/
def regMapReader : List RegRow :=
  [(0x80, .brBase, .rw), (0x84, .brLen, .rw), (0x88, .brByte, .ro), (0x8C, .brBit, .ro), (0x90, .brLookLo, .ro),
    (0x94, .brLookHi, .ro)]

/-- The bit writer rows of R33. -/
def regMapWriter : List RegRow :=
  [(0xA0, .bwBase, .rw), (0xA4, .bwCap, .rw), (0xA8, .bwByte, .ro), (0xAC, .bwBit, .ro), (0xB0, .bwAcc, .ro),
    (0xB4, .bwValLo, .rw), (0xB8, .bwValHi, .rw)]

/-- The Huffman rows of R33. -/
def regMapHuffman : List RegRow := [(0xC0, .hufSym, .rw), (0xC4, .hufRes, .ro), (0xC8, .hufValid, .ro)]

/-- The rows of R33. -/
def regMap : List RegRow :=
  regMapControl ++ regMapBuffers ++ regMapLz ++ regMapReader ++ regMapWriter ++ regMapHuffman

/-- The register at an offset, with its access; none where R33 has no row. -/
def regAt (off : Nat) : Option (Reg × AccessKind) := (regMap.find? (fun r => r.1 == off)).map (fun r => r.2)

/-- What a register reads while no command runs (R33, R52): reserved bits 0, CMD 0, no side effect. -/
def State.regRead (s : State) : Reg → Word
  | .id => s.platform.idValue
  | .cmd => 0
  | .status => s.statusWord
  | .ctrl => flagBit s.irqEn 0
  | .irq => flagBit s.donePend 0
  | .srcAddr => s.srcAddr
  | .srcLen => s.srcLen
  | .dstAddr => s.dstAddr
  | .dstCap => s.dstCap
  | .consumed => s.consumed
  | .written => s.written
  | .lzWindow => s.lzWindow.setWidth 32
  | .lzMaxlen => s.lzMaxlen.setWidth 32
  | .lzFlags => flagBit s.lzOverlap 0
  | .brBase => s.brBase
  | .brLen => s.brLen
  | .brByte => s.brByte
  | .brBit => s.brBit.setWidth 32
  | .brLookLo => s.brLook.extractLsb' 0 32
  | .brLookHi => s.brLook.extractLsb' 32 32
  | .bwBase => s.bwBase
  | .bwCap => s.bwCap
  | .bwByte => s.bwByte
  | .bwBit => s.bwBit.setWidth 32
  | .bwAcc => s.bwAcc.setWidth 32
  | .bwValLo => s.bwVal.extractLsb' 0 32
  | .bwValHi => s.bwVal.extractLsb' 32 32
  | .hufSym => s.hufSym.setWidth 32
  | .hufRes => s.hufRes
  | .hufValid => s.hufValidWord

/-- What a register write does while no command runs, CMD apart (R33, R52): reserved bits and RO registers ignore it,
and IRQ is write-1-to-clear (R38). -/
def State.regWrite (v : Word) (s : State) : Reg → State
  | .id => s
  | .cmd => s
  | .status => s
  | .ctrl => { s with irqEn := v.getLsbD 0 }
  | .irq => { s with donePend := s.donePend && !v.getLsbD 0 }
  | .srcAddr => { s with srcAddr := v }
  | .srcLen => { s with srcLen := v }
  | .dstAddr => { s with dstAddr := v }
  | .dstCap => { s with dstCap := v }
  | .consumed => s
  | .written => s
  | .lzWindow => { s with lzWindow := v.setWidth 16 }
  | .lzMaxlen => { s with lzMaxlen := v.setWidth 9 }
  | .lzFlags => { s with lzOverlap := v.getLsbD 0 }
  | .brBase => { s with brBase := v }
  | .brLen => { s with brLen := v }
  | .brByte => s
  | .brBit => s
  | .brLookLo => s
  | .brLookHi => s
  | .bwBase => { s with bwBase := v }
  | .bwCap => { s with bwCap := v }
  | .bwByte => s
  | .bwBit => s
  | .bwAcc => s
  | .bwValLo => { s with bwVal := s.bwVal.extractLsb' 32 32 ++ v }
  | .bwValHi => { s with bwVal := v ++ s.bwVal.extractLsb' 0 32 }
  | .hufSym => { s with hufSym := v.setWidth 9 }
  | .hufRes => s
  | .hufValid => s

/-- A write to a register while a command runs (R53): only CTRL and IRQ take it, any other sets WR_BUSY. -/
def State.busyWrite (v : Word) (s : State) (r : Reg) : State :=
  if r = .ctrl ∨ r = .irq then s.regWrite v r else { s with status := { s.status with wrBusy := true } }

/-- A read of a register while a command runs (R54): an RO register other than ID and STATUS reads a free value. -/
def State.busyRead (s : State) (r : Reg) (k : AccessKind) : State :=
  if k = .ro ∧ r ≠ .id ∧ r ≠ .status then s.answerFreeWord else s.answer (s.regRead r)

/-- A register write in the very step of a completion (R438): the completion wins over a clearing IRQ write, and any
other write but CTRL's arrived while BUSY. -/
def State.endWrite (v : Word) (s : State) (r : Reg) : State := if r = .irq then s else s.busyWrite v r

/-! ### One command -/

/-- An access the register port takes: aligned and 32 bits wide (R104). -/
def portAccessOk (a : Access) : Bool := a.size == 4 && a.off.toNat % 4 == 0

/-- Refuse an access that is outside the spec (R104, X1), else go on with the register at the offset. -/
def withPort (a : Access) (k : Option (Reg × AccessKind) → Out) : Out :=
  if portAccessOk a then k (regAt a.off.toNat) else .refused (.portAccess a.off a.size)

/-- Go on with a host access to memory: its address must exist (R100) and not be the register block's (R104). What kind
of memory lies there is not asked (assumption 21). -/
def State.onMemory (addr : Nat) (s : State) (o : Out) : Out :=
  if addressSpace ≤ addr then .fault (.outsideAddressSpace addr)
  else if s.registerBlock.holds addr then .refused (.bytePortAccess addr)
  else o

/-- What the host does while a command runs whose buffers are `bufs` and whose destination is `dst` (R53, R54, R111,
R482). A write to an offset without a register is ignored as R52 says and does not set WR_BUSY: R53 speaks of registers
(assumption 15, the model's choice). -/
def busyEvent (bufs : List Region) (dst : Option Region) (e : BusyEvent) (s : State) : Out :=
  match e with
  | .read a => withPort a fun r =>
      match r with
      | none => .next (s.answer 0)
      | some (r, k) => .next (s.busyRead r k)
  | .write a v => withPort a fun r =>
      match r with
      | none => .next s
      | some (r, _) => .next (s.busyWrite v r)
  | .load addr => s.onMemory addr <|
      if (dst.toList.any fun r => r.holds addr) then .next s.answerFreeByte
      else .next (s.answer ((s.mem.read addr).setWidth 32))
  | .store addr b => s.onMemory addr <|
      if (bufs.any fun r => r.holds addr) then .refused (.bufferWrittenWhileBusy addr)
      else .next { s with mem := s.mem.write addr b }

/-- The events of a command's BUSY time, oldest first. -/
def busyEvents (bufs : List Region) (dst : Option Region) : List BusyEvent → State → Out
  | [], s => .next s
  | e :: es, s => Out.andThen (busyEvent bufs dst e s) (busyEvents bufs dst es)

/-- The register writes in the step of the completion (R438). -/
def endWrites : List (Access × Word) → State → Out
  | [], s => .next s
  | (a, v) :: ws, s =>
    Out.andThen
      (withPort a fun r =>
        match r with
        | none => .next s
        | some (r, _) => .next (s.endWrite v r))
      (endWrites ws)

/-- A hardware reset abandons the running command (R472): the reset state, and the destination bytes unspecified. A
destination that wraps is never accessed (R107), so nothing of it changes. How R109, R139 and R472 meet is left open:
an abandoned command is refused for its buffers whether or not it would have ended ILLEGAL first (assumption 9, the
model's choice). -/
def State.abandon (bufs : List Region) (dst : Option Region) (s : State) : Out :=
  s.withBuffers bufs (State.setRst true (s.scramble (dst.filter Region.wellFormed)))

/-- How the command ends: its outcome with the writes of that step, or abandoned by a reset. -/
def endCommand (ending : Ending) (bufs : List Region) (dst : Option Region) (o : Out) (s : State) : Out :=
  match ending with
  | .completes ws => Out.andThen o (endWrites ws)
  | .reset => s.abandon bufs dst

/-- One command, from its CMD write to the return of BUSY to 0, as one atomic step (R8, R36, R139): start, the host's
accesses while it runs, then the effect of the decoded command, or the ILLEGAL end of a word that is no command. That
the effect comes after those accesses, so that CLEAR clears a WR_BUSY set while it runs and SOFT_RESET resets what they
wrote, is the model's choice (assumption 20). -/
def runCommand (w : Word) (win : Window) (s : State) : Out :=
  let t := s.start w
  match decode w with
  | .error e =>
    Out.andThen (busyEvents [] none win.events t) fun u =>
      endCommand win.ending [] none (u.illegal (decodeCause e)) u
  | .ok i =>
    Out.andThen (busyEvents (t.buffersOf i) (t.destOf i) win.events t) fun u =>
      endCommand win.ending (t.buffersOf i) (t.destOf i) (exec i u) u

/-- A command word with no host access while it runs. -/
def quietWindow : Window := ⟨[], .completes []⟩

/-- A host write to a register: ignored under reset (R471) and by an unmapped offset (R52), while BUSY too
(assumption 15); while BUSY as R53 says; a write to CMD runs a command (R36). -/
def hostWrite (win : Window) (v : Word) (r : Option (Reg × AccessKind)) (s : State) : Out :=
  if s.rst then .next s
  else
    match r with
    | none => .next s
    | some (r, _) =>
      if s.busy then .next (s.busyWrite v r)
      else if r = .cmd then runCommand v win s
      else .next (s.regWrite v r)

/-- A host read of a register: unspecified under reset (R471), 0 at an unmapped offset (R52), while BUSY as R54
says. -/
def hostRead (r : Option (Reg × AccessKind)) (s : State) : Out :=
  if s.rst then .next s.answerFreeWord
  else
    match r with
    | none => .next (s.answer 0)
    | some (r, k) => if s.busy then .next (s.busyRead r k) else .next (s.answer (s.regRead r))

/-- One thing the host does (R119). A load or store of the host's own in a range that is not ordinary memory acts on
plain memory, since R106 speaks only of command buffers there (assumption 21, the model's choice). -/
def hostEvent (e : HostEvent) (s : State) : Out :=
  match e with
  | .read a => withPort a fun r => hostRead r s
  | .write a v => withPort a fun r => hostWrite quietWindow v r s
  | .command w win => hostWrite win w (some (.cmd, .wo)) s
  | .load addr => s.onMemory addr (.next (s.answer ((s.mem.read addr).setWidth 32)))
  | .store addr b => s.onMemory addr (.next { s with mem := s.mem.write addr b })
  | .rstPin level => .next (s.driveRst (level == Config.rstActiveHigh))

end Sys2Proof.Machine
end

