-- ==== Sys2Proof/Machine/Step.lean ====
section
/-! DEFINITION. One step: the next thing the host does, with the command it starts, if any, run to its completion (R8,
R30). The block fetches nothing (R32): a command word comes by a host write to CMD. -/

namespace Sys2Proof.Machine

/-- One step. With nothing for the host to do, the block does nothing (R451). -/
def step (s : State) : Host.Outcome State Fault Refusal :=
  match s.inbox with
  | [] => .next s
  | e :: rest => hostEvent e { s with inbox := rest }

/-- The host's next act is to write the word to CMD and leave the command alone while it runs; the block is out of
reset and idle, as a command start needs (R36, R471). -/
def State.withFetchWord (s : State) (nbits w : Nat) : State :=
  { s with
    inbox := .command (BitVec.ofNat 32 (w % 2 ^ nbits)) quietWindow :: s.inbox, engine := .idle, rst := false }

end Sys2Proof.Machine
end

