-- ==== Sys2Proof/Safety.lean ====
section
/-! DEFINITION. What the statements speak of: the invariants of the block between commands, the plain-memory condition
on a command's buffers, and the bit and byte strings that memory and the writer hold. -/

namespace Sys2Proof.Machine

/-- The buffers are ones a model does not refuse (R106, R109): ordinary memory, off the register block. -/
abbrev State.plainBuffers (s : State) (rs : List Region) : Prop := s.bufferRefusal rs = none

/-- The block is out of reset and idle, so a CMD write starts a command (R36, R471). -/
abbrev State.ready (s : State) : Prop := s.rst = false ∧ s.engine = .idle

/-- A decode table entry of a built code: a symbol of the code, and a length from 1 to `maxl` (R55). -/
def HufCode.entryOk (c : HufCode) (e : Option HufEntry) : Bool :=
  match e with
  | none => true
  | some e => decide (e.sym < c.n) && decide (1 ≤ e.len) && decide (e.len ≤ c.maxl)

/-- The bounds R55 puts on a built code: at most 288 symbols, one length and one codeword each, lengths at most 15,
`maxl` the largest of them, and a table of 2^maxl entries, each INVALID or within bounds. -/
def HufCode.ok (c : HufCode) : Bool :=
  decide (c.n ≤ Config.hufMaxSyms) && decide (c.len.length = c.n) && decide (c.code.length = c.n) &&
    c.len.all (fun l => decide (l ≤ Config.hufMaxLen)) && decide (c.maxl = maxLen c.len) &&
    decide (c.table.length = 2 ^ c.maxl) && c.table.all c.entryOk

/-- Every built slot is within the bounds of R55. -/
def State.slotsOk (s : State) : Bool :=
  s.slots.toList.all fun o => match o with | none => true | some c => c.ok

/-- STATUS.RESULT is the one R431 gives with STATUS.CAUSE. -/
def State.outcomeOk (s : State) : Bool := decide (s.status.result = s.status.cause.result)

/-- The bits of BW_ACC at BW_BIT and above are 0 (R47). -/
def State.accOk (s : State) : Bool := decide (s.bwAcc.toNat < 2 ^ s.bwBit.toNat)

/-- The reader's position `rpos` (R44). -/
def State.rpos (s : State) : Nat := 8 * s.brByte.toNat + s.brBit.toNat

/-- The remaining bit count `rrem` (R44). -/
def State.rrem (s : State) : Nat := 8 * s.brLen.toNat - s.rpos

/-- The writer's position `wpos` (R47). -/
def State.wpos (s : State) : Nat := 8 * s.bwByte.toNat + s.bwBit.toNat

/-- Bit `p` of the bytes that memory holds from address `base` on (R103). -/
def State.memBit (s : State) (base p : Nat) : Bool := (s.mem.read (base + p / 8)).toNat.testBit (p % 8)

/-- Bit `p` of what the writer has been given: committed bytes are in memory, the rest in BW_ACC (R47). -/
def State.writtenBit (s : State) (p : Nat) : Bool :=
  if p / 8 < s.bwByte.toNat then s.memBit s.bwBase.toNat p else s.bwAcc.getLsbD (p % 8)

/-- The output a token sequence stands for, from an output so far held newest first (R251, R287): a literal appends
its byte, a back-reference copies byte by byte. -/
def copyBack (dist : Nat) : Nat → List Byte → List Byte
  | 0, out => out
  | n + 1, out => copyBack dist n (out.getD (dist - 1) 0 :: out)

/-- Expand tokens onto an output held newest first. -/
def expandTokens : List Token → List Byte → List Byte
  | [], out => out
  | .lit b :: ts, out => expandTokens ts (b :: out)
  | .backRef d l :: ts, out => expandTokens ts (copyBack d l out)

/-- Fields read one after the other with `br_read` (R162, R176). -/
def readFields (m : Memory) : List Nat → ReadCursor → Except Cause (List Nat)
  | [], _ => .ok []
  | n :: ns, rd =>
    match brRead m n rd with
    | .error c => .error c
    | .ok (v, rd') =>
      match readFields m ns rd' with
      | .error c => .error c
      | .ok vs => .ok (v :: vs)

/-- The commands that write CONSUMED and WRITTEN (R40, R133). -/
def isBufferCommand : Instr → Bool
  | .hufBuildEnc _ _ => true
  | .hufBuildDec _ => true
  | .lzCompress => true
  | .deflate => true
  | .inflate => true
  | .shrink => true
  | .unshrink => true
  | .nop => false
  | .clear => false
  | .softReset => false
  | .brInit => false
  | .brPeek => false
  | .brAdvance _ => false
  | .brRead _ => false
  | .brAlign => false
  | .bwInit => false
  | .bwWrite _ => false
  | .bwFlush => false
  | .hufDecode _ => false
  | .hufReadSym _ => false
  | .hufWriteSym _ => false
  | .hufLoadFixed _ _ => false

/-! ### How a command starts and ends, in the spec's own words -/

/-- The host's next act is to write `w` to CMD and to leave the command alone while it runs. -/
def State.issue (w : Word) (s : State) : State := { s with inbox := .command w quietWindow :: s.inbox }

/-- Completion as R35 words it: RESULT, CAUSE, BUSY = 0, DONE = 1, DONE_PEND = 1, the engine IDLE. -/
def State.ended (r : Result) (c : Cause) (s : State) : State :=
  { s with engine := .idle, donePend := true, status := { s.status with done := true, result := r, cause := c } }

/-- What a register reads after reset (R33, R470). -/
def Reg.resetValue (p : Platform) : Reg → Word
  | .id => p.idValue
  | .lzWindow => 0x8000
  | .lzMaxlen => 0x102
  | .lzFlags => 1
  | _ => 0

/-- The bits a register has (the "bits used" column of R33), for the RW registers. -/
def Reg.mask : Reg → Word
  | .ctrl => 0x1
  | .lzWindow => 0xFFFF
  | .lzMaxlen => 0x1FF
  | .lzFlags => 0x1
  | .hufSym => 0x1FF
  | _ => 0xFFFFFFFF

/-- OP values that R135 lists as illegal. -/
def undefinedOp (op : Nat) : Bool :=
  (decide (0x03 ≤ op) && decide (op ≤ 0x0F)) || (decide (0x15 ≤ op) && decide (op ≤ 0x17)) ||
    (decide (0x1B ≤ op) && decide (op ≤ 0x1F)) || (decide (0x26 ≤ op) && decide (op ≤ 0x2F)) ||
    (decide (0x31 ≤ op) && decide (op ≤ 0x3F)) || (decide (0x42 ≤ op) && decide (op ≤ 0x4F)) ||
    decide (0x52 ≤ op)

/-- The opcodes of R133, each with the bits of the word that it uses: OP, and N [14:8], SLOT [17:16], MAXLEN [23:20]
where its row has them (R130, R133). Every other bit must be 0 (R132). -/
def opcodeMasks : List (Nat × Word) :=
  [(0x00, 0xFF), (0x01, 0xFF), (0x02, 0xFF), (0x10, 0xFF), (0x11, 0xFF), (0x12, 0x7FFF), (0x13, 0x7FFF)] ++
    [(0x14, 0xFF), (0x18, 0xFF), (0x19, 0x7FFF), (0x1A, 0xFF), (0x20, 0xF300FF), (0x21, 0x300FF), (0x22, 0x300FF)] ++
    [(0x23, 0x300FF), (0x24, 0x300FF), (0x25, 0x37FFF), (0x30, 0xFF), (0x40, 0xFF), (0x41, 0xFF), (0x50, 0xFF),
      (0x51, 0xFF)]

/-- The rows of R431: cause, code, and the number of its RESULT (R34). -/
def causeRows : List (Cause × Nat × Nat) :=
  [(.noCause, 0x00, 0), (.dstFull, 0x01, 1), (.bwOverflow, 0x02, 1), (.brOverrun, 0x10, 2),
    (.badBlockType, 0x11, 2), (.storedLenMismatch, 0x12, 2), (.hufOversubscribed, 0x13, 2), (.hufIncomplete, 0x14, 2)] ++
  [(.hufInvalidCode, 0x15, 2), (.badLengthSymbol, 0x16, 2), (.badDistanceSymbol, 0x17, 2), (.distanceTooFar, 0x18, 2),
    (.badCodelenRepeat, 0x19, 2), (.badHlitHdist, 0x1A, 2), (.hufLengthRange, 0x1B, 2), (.lzwFreeCode, 0x20, 2)] ++
  [(.lzwCycle, 0x21, 2), (.lzwBadSubcode, 0x22, 2), (.lzwWidthMax, 0x23, 2), (.lzwTruncatedControl, 0x24, 2),
    (.illegalOpcode, 0x30, 3), (.reservedField, 0x31, 3), (.badOperand, 0x32, 3), (.badParam, 0x33, 3)] ++
  [(.slotNotBuilt, 0x34, 3), (.hufTooManySymbols, 0x35, 3), (.internal, 0x3F, 2)]

/-- The causes a command can end with, by the "raised by" column of R431; NONE is an OK end. -/
def mayRecord : Instr → List Cause
  | .nop => [.noCause]
  | .clear => [.noCause]
  | .softReset => [.noCause]
  | .brInit => [.noCause, .badParam]
  | .brPeek => [.noCause, .badParam]
  | .brAdvance _ => [.noCause, .brOverrun, .badOperand, .badParam]
  | .brRead _ => [.noCause, .brOverrun, .badOperand, .badParam]
  | .brAlign => [.noCause, .badParam]
  | .bwInit => [.noCause, .badParam]
  | .bwWrite _ => [.noCause, .bwOverflow, .badOperand, .badParam]
  | .bwFlush => [.noCause, .bwOverflow, .badParam]
  | .hufBuildEnc _ _ => [.noCause, .dstFull, .badOperand, .badParam, .hufTooManySymbols]
  | .hufBuildDec _ => [.noCause, .hufOversubscribed, .hufIncomplete, .hufLengthRange, .badParam]
  | .hufDecode _ => [.noCause, .badParam, .slotNotBuilt]
  | .hufReadSym _ => [.noCause, .brOverrun, .hufInvalidCode, .badParam, .slotNotBuilt]
  | .hufWriteSym _ => [.noCause, .bwOverflow, .badOperand, .badParam, .slotNotBuilt]
  | .hufLoadFixed _ _ => [.noCause, .badOperand]
  | .lzCompress => [.noCause, .dstFull, .badParam]
  | .deflate => [.noCause, .bwOverflow, .badParam]
  | .inflate =>
    [.noCause, .dstFull, .brOverrun, .badBlockType, .storedLenMismatch, .hufOversubscribed, .hufIncomplete] ++
      [.hufInvalidCode, .badLengthSymbol, .badDistanceSymbol, .distanceTooFar, .badCodelenRepeat, .badHlitHdist,
        .badParam]
  | .shrink => [.noCause, .bwOverflow, .badParam]
  | .unshrink =>
    [.noCause, .dstFull, .lzwFreeCode, .lzwCycle, .lzwBadSubcode, .lzwWidthMax, .lzwTruncatedControl, .badParam]

/-! ### Operands in the spec's own words -/

/-- The BR buffer does not wrap (R107). -/
abbrev State.brFits (s : State) : Prop := s.brBase.toNat + s.brLen.toNat ≤ 4294967296

/-- The BW buffer does not wrap (R107). -/
abbrev State.bwFits (s : State) : Prop := s.bwBase.toNat + s.bwCap.toNat ≤ 4294967296

/-- SRC and DST do not wrap, and share no byte where both are nonempty (R107). -/
abbrev State.buffersApart (s : State) : Prop :=
  s.srcAddr.toNat + s.srcLen.toNat ≤ 4294967296 ∧ s.dstAddr.toNat + s.dstCap.toNat ≤ 4294967296 ∧
    (s.srcLen.toNat = 0 ∨ s.dstCap.toNat = 0 ∨ s.srcAddr.toNat + s.srcLen.toNat ≤ s.dstAddr.toNat ∨
      s.dstAddr.toNat + s.dstCap.toNat ≤ s.srcAddr.toNat)

/-- Bit `k` of the reader's lookahead: the stream bit at `rpos + k`, or 0 past the end of the buffer (R160). -/
def State.lookBit (s : State) (k : Nat) : Bool :=
  decide (s.rpos + k < 8 * s.brLen.toNat) && s.memBit s.brBase.toNat (s.rpos + k)

/-- `w` is the reader's current 64-bit window (R160). -/
abbrev State.isWindow (s : State) (w : Nat) : Prop := w < 2 ^ 64 ∧ ∀ k < 64, w.testBit k = s.lookBit k

/-- The bytes SRC_ADDR to SRC_ADDR+SRC_LEN-1 (R39). -/
def State.sourceString (s : State) : List Byte :=
  (List.range s.srcLen.toNat).map fun j => s.mem.read (s.srcAddr.toNat + j)

/-- The k-th 32-bit little-endian word of SRC (R102, R207). -/
def State.sourceWord (s : State) (k : Nat) : Nat :=
  (s.mem.read (s.srcAddr.toNat + 4 * k)).toNat + 256 * (s.mem.read (s.srcAddr.toNat + 4 * k + 1)).toNat +
    65536 * (s.mem.read (s.srcAddr.toNat + 4 * k + 2)).toNat +
    16777216 * (s.mem.read (s.srcAddr.toNat + 4 * k + 3)).toNat

/-- How many symbols have a nonzero frequency. -/
def usedSymbols (freq : List Nat) : Nat := (freq.filter fun f => decide (0 < f)).length

/-- No reserved bit of HUF_RES is set: only VALID[31], LEN[19:16] and SYM[8:0] can be (R50, R52). -/
def State.hufResOk (s : State) : Bool := s.hufRes &&& 0x7FF0FE00#32 == 0

/-- A token a fixed block can carry after `n` output bytes: a literal, or a back-reference with a length of 3 to 258
and a distance of 1 to 32768 that is not beyond the output (R249, R280, R281, R320). -/
def Token.fits (n : Nat) : Token → Bool
  | .lit _ => true
  | .backRef d l => decide (3 ≤ l) && decide (l ≤ 258) && decide (1 ≤ d) && decide (d ≤ 32768) && decide (d ≤ n)

/-- Every token fits after the output of the tokens before it. -/
def tokensFit : Nat → List Token → Bool
  | _, [] => true
  | n, t :: ts => t.fits n && tokensFit (n + t.rawLen) ts

end Sys2Proof.Machine
end

