-- ==== Sys2Proof/Certificates/Slice0/Obligations.lean ====
section
/-! DEFINITION. The statements for the provers, from the numbered rules of spec/. `State.ended` is the completion of
R35, `State.issue` a CMD write that the host leaves alone, `plainBuffers` the condition that the model does not refuse
a buffer (R106, R109; assumption 9). -/

open Sys2Proof Sys2Proof.Machine

/-! ### Encoding (30_encoding.md) -/

/-- R130, R133: the word of a command decodes to that command, whatever its fields. -/
def Obligations.DecodeEncodeRoundTrip : Prop := ∀ i : Instr, decode (encode i) = .ok i

/-- R136, R137: a word that decodes is the one word of its command; no bit of it is ignored. -/
def Obligations.DecodedWordIsItsEncoding : Prop := ∀ (w : Word) (i : Instr), decode w = .ok i → encode i = w

/-- Words that the spec's examples give (R166 to R173, R207 to R212, R253, R310, R330, R370, R380, R410 to R412). -/
def Obligations.WordsOfTheSpecDecode : Prop :=
  decode 0x00000000 = .ok .nop ∧ decode 0x00000002 = .ok .softReset ∧ decode 0x00000010 = .ok .brInit ∧
    decode 0x00000612 = .ok (.brAdvance 6) ∧ decode 0x00000313 = .ok (.brRead 3) ∧
    decode 0x00000719 = .ok (.bwWrite 7) ∧ decode 0x0000001A = .ok .bwFlush ∧
    decode 0x00F00020 = .ok (.hufBuildEnc 0 15) ∧ decode 0x00010025 = .ok (.hufLoadFixed 0 1) ∧
    decode 0x00000030 = .ok .lzCompress ∧ decode 0x00000041 = .ok .inflate ∧ decode 0x00000051 = .ok .unshrink

/-- R135: a word whose OP lies in the listed ranges ends `Illegal(ILLEGAL_OPCODE)` with no other effect; so do 0x50
and 0x51 without the LZW unit; and the listed ranges are exactly the OP values outside the table of R133. -/
def Obligations.UndefinedOpcodeEndsIllegal : Prop :=
  (∀ (w : Word) (s : State), s.ready → undefinedOp (opField w).toNat = true →
    step (s.issue w) = .next (s.ended .illegal .illegalOpcode)) ∧
  (∀ w : Word, (opField w).toNat = 0x50 ∨ (opField w).toNat = 0x51 → decodeWith false w = .error .illegalOpcode) ∧
  ∀ op < 256, (undefinedOp op = true ↔ op ∉ opcodeMasks.map Prod.fst)

/-- R132: with a defined OP, a nonzero bit outside the fields the command uses ends `Illegal(RESERVED_FIELD)`; with
none, the word is a command. -/
def Obligations.ReservedFieldEndsIllegal : Prop :=
  ∀ (w : Word) (s : State), s.ready → ∀ row ∈ opcodeMasks, (opField w).toNat = row.1 →
    (w &&& ~~~row.2 ≠ 0 → step (s.issue w) = .next (s.ended .illegal .reservedField)) ∧
      (w &&& ~~~row.2 = 0 → ∃ i, decode w = .ok i)

/-! ### Start, completion, reset (10_state.md, 45_system.md, 70_reset_and_hazards.md) -/

/-- R36: a CMD write while BUSY = 0 latches the word, sets BUSY, clears DONE, RESULT and CAUSE, keeps the sticky bits,
and runs the decoded command, or ends a word that is no command. With accesses while BUSY, these stand between the
start and the effect, and the host's fetch helper issues exactly the word. That the accesses while BUSY are data of
the CMD write's step is the model's form (assumptions 4 and 14); that they come before the effect, and what the window's
ending lists after it, is the model's choice (assumptions 20 and 7), which R36 does not give. -/
def Obligations.StepRunsTheDecodedCommand : Prop :=
  ∀ (w : Word) (s : State), s.ready →
    s.start w = { s with
      engine := .busy w, status := { s.status with done := false, result := .ok, cause := .noCause } } ∧
    (s.start w).busy = true ∧
    (∀ i, decode w = .ok i → step (s.issue w) = exec i (s.start w)) ∧
    (∀ e, decode w = .error e → step (s.issue w) = .next (s.ended .illegal (decodeCause e))) ∧
    (∀ i win, decode w = .ok i → step { s with inbox := .command w win :: s.inbox } =
      Out.andThen (busyEvents ((s.start w).buffersOf i) ((s.start w).destOf i) win.events (s.start w)) fun u =>
        endCommand win.ending ((s.start w).buffersOf i) ((s.start w).destOf i) (exec i u) u) ∧
    step (s.withFetchWord 32 w.toNat) = step (s.issue w)

/-- R35: a command that ends records its RESULT and CAUSE, clears BUSY, sets DONE and DONE_PEND, and the engine is
IDLE; SOFT_RESET completes into the reset state instead. -/
def Obligations.CompletionOfEveryCommand : Prop :=
  (∀ (i : Instr) (s t : State), i ≠ .softReset → exec i s = .next t →
    t.busy = false ∧ t.engine = .idle ∧ t.status.done = true ∧ t.donePend = true ∧
      t.status.result = t.status.cause.result) ∧
  ∀ s t : State, exec .softReset s = .next t →
    t.busy = false ∧ t.engine = .idle ∧ t.status = ⟨false, .ok, .noCause, false, false, false⟩ ∧ t.donePend = false

/-- R30, R136: every command ends. The only stop is the refusal of a buffer (R106, R109; assumption 9,
the model's choice), and no command faults. -/
def Obligations.EveryCommandEnds : Prop :=
  ∀ (i : Instr) (s : State),
    (s.plainBuffers (s.buffersOf i) → ∃ t, exec i s = .next t) ∧
    (∀ r, exec i s = .refused r → s.bufferRefusal (s.buffersOf i) = some r) ∧ ∀ f, exec i s ≠ .fault f

/-- R410, R411: NOP completes and changes nothing else; CLEAR clears the three sticky bits and completes. Each is
issued by its one word. -/
def Obligations.NopAndClear : Prop :=
  encode .nop = 0x00000000 ∧ encode .clear = 0x00000001 ∧
  ∀ s : State,
    exec .nop s = .next (s.ended .ok .noCause) ∧
    exec .clear s =
      .next ({ s with status := { s.status with brFail := false, bwFail := false, wrBusy := false } }.ended .ok
        .noCause) ∧
    (s.ready → ∀ w : Word, opField w = 0x00 ∨ opField w = 0x01 → w >>> 8 ≠ 0 →
      step (s.issue w) = .next (s.ended .illegal .reservedField))

/-- R412: SOFT_RESET leaves every register at its reset value, every slot invalid and the engine IDLE, raises no
interrupt and does not touch host memory. -/
def Obligations.SoftResetLeavesResetState : Prop :=
  ∀ s : State, ∃ t, exec .softReset s = .next t ∧ (∀ r : Reg, t.regRead r = r.resetValue s.platform) ∧
    t.statusWord = 0 ∧ (∀ k : BitVec 2, t.slot k = none) ∧ t.engine = .idle ∧ t.irq = false ∧ t.mem = s.mem ∧
    t.platform = s.platform ∧ t.rst = s.rst

/-- R470, R33: the state right after reset, as the host reads it; it meets the invariants of the other statements. -/
def Obligations.ResetStateOfTheSpec : Prop :=
  (∀ r : Reg, State.reset.regRead r = r.resetValue State.reset.platform) ∧ State.reset.statusWord = 0 ∧
    (∀ k : BitVec 2, State.reset.slot k = none) ∧ State.reset.engine = .idle ∧ State.reset.irq = false ∧
    State.reset.mem.wf = true ∧ State.reset.outcomeOk = true ∧ State.reset.accOk = true ∧
    State.reset.hufResOk = true ∧ State.reset.slotsOk = true ∧ State.reset.rpos ≤ 8 * State.reset.brLen.toNat

/-- R471, R451: asserting `rst` puts the block into its reset state and holds it: register reads return unspecified
values and register writes, CMD included, are ignored. Releasing it leaves the block IDLE in the reset state. An input
that stays released leaves the block alone. -/
def Obligations.HardwareResetHolds : Prop :=
  (∀ (s : State) (level : Bool), level = true ∨ s.rst = true →
    ∃ t, step { s with inbox := .rstPin level :: s.inbox } = .next t ∧ t.rst = level ∧
      (∀ r : Reg, t.regRead r = r.resetValue s.platform) ∧ (∀ k : BitVec 2, t.slot k = none) ∧ t.engine = .idle ∧
      t.irq = false ∧ t.mem = s.mem ∧
      (t.rst = true → ∀ (win : Window) (v : Word) (r : Option (Reg × AccessKind)),
        hostWrite win v r t = .next t ∧ hostRead r t = .next t.answerFreeWord)) ∧
  ∀ s : State, s.rst = false → step { s with inbox := .rstPin false :: s.inbox } = .next s

/-- R472: a hardware reset while a command runs abandons it: the reset state, no completion, and no memory byte
outside the command's destination buffer changed. That the reset is data of the CMD write's step is the model's form
(assumptions 4 and 10). -/
def Obligations.ResetDuringCommand : Prop :=
  ∀ (w : Word) (i : Instr) (s : State), s.ready → decode w = .ok i → s.plainBuffers (s.buffersOf i) →
    ∃ t, step { s with inbox := .command w ⟨[], .reset⟩ :: s.inbox } = .next t ∧ t.rst = true ∧
      (∀ r : Reg, t.regRead r = r.resetValue s.platform) ∧ (∀ k : BitVec 2, t.slot k = none) ∧ t.engine = .idle ∧
      t.donePend = false ∧
      ∀ a, ((s.destOf i).any fun r => r.holds a) = false → t.mem.read a = s.mem.read a

/-! ### The bit reader (40_bitstream.md) -/

/-- R166: BR_INIT. -/
def Obligations.BrInitResult : Prop :=
  encode .brInit = 0x10 ∧ ∀ s : State,
    (¬ s.brFits → exec .brInit s = .next (s.ended .illegal .badParam)) ∧
    (s.brFits → s.plainBuffers [s.brBuffer] →
      exec .brInit s = .next ({ s with brByte := 0, brBit := 0, brLook := 0 }.ended .ok .noCause))

/-- R167, R160: BR_PEEK latches the next 64 bits, zero-padded past the end of the buffer; the cursor stays. -/
def Obligations.BrPeekResult : Prop :=
  encode .brPeek = 0x11 ∧ ∀ s : State,
    (¬ s.brFits → exec .brPeek s = .next (s.ended .illegal .badParam)) ∧
    (s.brFits → s.plainBuffers [s.brBuffer] →
      ∃ v : BitVec 64, exec .brPeek s = .next ({ s with brLook := v }.ended .ok .noCause) ∧
        ∀ k < 64, v.getLsbD k = s.lookBit k)

/-- R168, R161: BR_ADVANCE N moves the position N bits on if that many remain; else BR_FAIL and `Format(BR_OVERRUN)`
with the cursor unchanged. -/
def Obligations.BrAdvanceResult : Prop :=
  ∀ (n : BitVec 7) (s : State),
    encode (.brAdvance n) = 0x12 ||| (n.setWidth 32 <<< 8) ∧
    (64 < n.toNat → exec (.brAdvance n) s = .next (s.ended .illegal .badOperand)) ∧
    (n.toNat ≤ 64 → ¬ s.brFits → exec (.brAdvance n) s = .next (s.ended .illegal .badParam)) ∧
    (n.toNat ≤ 64 → s.brFits → s.plainBuffers [s.brBuffer] →
      (n.toNat ≤ s.rrem → ∃ (b : Word) (c : BitVec 3),
        exec (.brAdvance n) s = .next ({ s with brByte := b, brBit := c }.ended .ok .noCause) ∧
          8 * b.toNat + c.toNat = s.rpos + n.toNat) ∧
      (s.rrem < n.toNat → exec (.brAdvance n) s =
        .next ({ s with status := { s.status with brFail := true } }.ended .format .brOverrun)))

/-- R169, R162: BR_READ N latches the next N bits, zero-padded, before the advance, so that BR_LOOK holds them even
when the advance fails. -/
def Obligations.BrReadResult : Prop :=
  ∀ (n : BitVec 7) (s : State),
    encode (.brRead n) = 0x13 ||| (n.setWidth 32 <<< 8) ∧
    (64 < n.toNat → exec (.brRead n) s = .next (s.ended .illegal .badOperand)) ∧
    (n.toNat ≤ 64 → ¬ s.brFits → exec (.brRead n) s = .next (s.ended .illegal .badParam)) ∧
    (n.toNat ≤ 64 → s.brFits → s.plainBuffers [s.brBuffer] → ∃ v : BitVec 64,
      (∀ k < 64, v.getLsbD k = (decide (k < n.toNat) && s.lookBit k)) ∧
      (n.toNat ≤ s.rrem → ∃ (b : Word) (c : BitVec 3),
        exec (.brRead n) s = .next ({ s with brByte := b, brBit := c, brLook := v }.ended .ok .noCause) ∧
          8 * b.toNat + c.toNat = s.rpos + n.toNat) ∧
      (s.rrem < n.toNat → exec (.brRead n) s =
        .next ({ s with brLook := v, status := { s.status with brFail := true } }.ended .format .brOverrun)))

/-- R170, R163: BR_ALIGN moves to the next byte boundary, and not past the end of the buffer from a position at or
below it. -/
def Obligations.BrAlignResult : Prop :=
  encode .brAlign = 0x14 ∧ ∀ s : State,
    (¬ s.brFits → exec .brAlign s = .next (s.ended .illegal .badParam)) ∧
    (s.brFits → s.plainBuffers [s.brBuffer] →
      (s.brBit = 0 → exec .brAlign s = .next (s.ended .ok .noCause)) ∧
      (s.brBit ≠ 0 → exec .brAlign s =
        .next ({ s with brByte := s.brByte + 1, brBit := 0 }.ended .ok .noCause)) ∧
      (s.rpos ≤ 8 * s.brLen.toNat → ∀ t, exec .brAlign s = .next t →
        t.rpos = 8 * ((s.rpos + 7) / 8) ∧ t.rpos ≤ 8 * t.brLen.toNat))

/-- R45: a command that starts with the reader inside its buffer leaves it inside. -/
def Obligations.ReaderNeverPassesEnd : Prop :=
  ∀ (i : Instr) (s t : State), s.rpos ≤ 8 * s.brLen.toNat → exec i s = .next t → t.rpos ≤ 8 * t.brLen.toNat

/-- What a command that reads a bitstream leaves unchanged (R44, R46, R50, R108): everything but STATUS, DONE_PEND,
the engine and the registers named for it. Each memory byte reads as before. -/
def Obligations.ReaderFrame : Prop :=
  ∀ (s t : State) (n : BitVec 7) (k : BitVec 2),
    (exec .brInit s = .next t →
      t = { s with brByte := t.brByte, brBit := t.brBit, brLook := t.brLook }.ended t.status.result t.status.cause) ∧
    (exec .brPeek s = .next t → t = { s with brLook := t.brLook }.ended t.status.result t.status.cause) ∧
    (exec (.brAdvance n) s = .next t →
      t = { s with
        brByte := t.brByte, brBit := t.brBit,
        status := { s.status with brFail := t.status.brFail } }.ended t.status.result t.status.cause) ∧
    (exec (.brRead n) s = .next t →
      t = { s with
        brByte := t.brByte, brBit := t.brBit, brLook := t.brLook,
        status := { s.status with brFail := t.status.brFail } }.ended t.status.result t.status.cause) ∧
    (exec .brAlign s = .next t →
      t = { s with brByte := t.brByte, brBit := t.brBit }.ended t.status.result t.status.cause) ∧
    (exec (.hufDecode k) s = .next t → t = { s with hufRes := t.hufRes }.ended t.status.result t.status.cause) ∧
    (exec (.hufReadSym k) s = .next t →
      t = { s with
        brByte := t.brByte, brBit := t.brBit, hufRes := t.hufRes,
        status := { s.status with brFail := t.status.brFail } }.ended t.status.result t.status.cause) ∧
    ((exec .brInit s = .next t ∨ exec .brPeek s = .next t ∨ exec (.brAdvance n) s = .next t ∨
      exec (.brRead n) s = .next t ∨ exec .brAlign s = .next t ∨ exec (.hufDecode k) s = .next t ∨
      exec (.hufReadSym k) s = .next t) → ∀ a, t.mem.read a = s.mem.read a)

/-! ### The bit writer (40_bitstream.md) -/

/-- R171: BW_INIT; a partial byte pending is dropped and no memory is written. -/
def Obligations.BwInitResult : Prop :=
  encode .bwInit = 0x18 ∧ ∀ s : State,
    (¬ s.bwFits → exec .bwInit s = .next (s.ended .illegal .badParam)) ∧
    (s.bwFits → s.plainBuffers [s.bwBuffer] →
      exec .bwInit s = .next ({ s with bwByte := 0, bwBit := 0, bwAcc := 0 }.ended .ok .noCause))

/-- R172, R164: BW_WRITE N appends the low N bits of BW_VAL, least-significant first, if the result fits in BW_CAP
bytes with a partial byte counted whole; else BW_FAIL and `Capacity(BW_OVERFLOW)`, nothing written. -/
def Obligations.BwWriteResult : Prop :=
  ∀ (n : BitVec 7) (s : State),
    encode (.bwWrite n) = 0x19 ||| (n.setWidth 32 <<< 8) ∧
    (64 < n.toNat → exec (.bwWrite n) s = .next (s.ended .illegal .badOperand)) ∧
    (n.toNat ≤ 64 → ¬ s.bwFits → exec (.bwWrite n) s = .next (s.ended .illegal .badParam)) ∧
    (n.toNat ≤ 64 → s.bwFits → s.plainBuffers [s.bwBuffer] →
      ((s.wpos + n.toNat + 7) / 8 ≤ s.bwCap.toNat → ∃ t,
        exec (.bwWrite n) s = .next t ∧
        t = { s with bwByte := t.bwByte, bwBit := t.bwBit, bwAcc := t.bwAcc, mem := t.mem }.ended .ok .noCause ∧
        t.wpos = s.wpos + n.toNat ∧ (∀ p < s.wpos, t.writtenBit p = s.writtenBit p) ∧
        (∀ k < n.toNat, t.writtenBit (s.wpos + k) = s.bwVal.getLsbD k) ∧ (s.accOk = true → t.accOk = true) ∧
        ∀ a, (a < s.bwBase.toNat + s.bwByte.toNat ∨ s.bwBase.toNat + (s.wpos + n.toNat) / 8 ≤ a) →
          t.mem.read a = s.mem.read a) ∧
      (s.bwCap.toNat < (s.wpos + n.toNat + 7) / 8 → exec (.bwWrite n) s =
        .next ({ s with status := { s.status with bwFail := true } }.ended .capacity .bwOverflow)))

/-- R173, R165: BW_FLUSH commits the partial byte, if there is one. -/
def Obligations.BwFlushResult : Prop :=
  encode .bwFlush = 0x1A ∧ ∀ s : State,
    (¬ s.bwFits → exec .bwFlush s = .next (s.ended .illegal .badParam)) ∧
    (s.bwFits → s.plainBuffers [s.bwBuffer] →
      (s.bwBit = 0 → exec .bwFlush s = .next (s.ended .ok .noCause)) ∧
      (s.bwBit ≠ 0 → s.bwByte.toNat + 1 ≤ s.bwCap.toNat → exec .bwFlush s =
        .next ({ s with
          mem := s.mem.write (s.bwBase.toNat + s.bwByte.toNat) s.bwAcc, bwByte := s.bwByte + 1, bwBit := 0,
          bwAcc := 0 }.ended .ok .noCause)) ∧
      (s.bwBit ≠ 0 → s.bwCap.toNat < s.bwByte.toNat + 1 → exec .bwFlush s =
        .next ({ s with status := { s.status with bwFail := true } }.ended .capacity .bwOverflow)))

/-- What a command that writes a bitstream leaves unchanged (R47, R108, R177): everything but STATUS, DONE_PEND, the
engine, the writer's BW_BYTE, BW_BIT and BW_ACC, and the bytes it commits, which lie in the BW buffer from
BW_BASE+BW_BYTE on, up to the new BW_BYTE. -/
def Obligations.WriterFrame : Prop :=
  ∀ (s t : State) (n : BitVec 7) (k : BitVec 2),
    (exec .bwInit s = .next t →
      t = { s with bwByte := t.bwByte, bwBit := t.bwBit, bwAcc := t.bwAcc }.ended t.status.result t.status.cause) ∧
    ((exec (.bwWrite n) s = .next t ∨ exec .bwFlush s = .next t ∨ exec (.hufWriteSym k) s = .next t) →
      t = { s with
        bwByte := t.bwByte, bwBit := t.bwBit, bwAcc := t.bwAcc, mem := t.mem,
        status := { s.status with bwFail := t.status.bwFail } }.ended t.status.result t.status.cause ∧
      ∀ a, (a < s.bwBase.toNat + s.bwByte.toNat ∨ s.bwBase.toNat + t.bwByte.toNat ≤ a ∨
        s.bwBase.toNat + s.bwCap.toNat ≤ a) → t.mem.read a = s.mem.read a)

/-- R176: fields written one after the other from an empty writer and flushed fill ceil8 of their total width, read
back as written, and no byte outside the buffer is touched. -/
def Obligations.BitstreamRoundTrip : Prop :=
  ∀ (m : Memory) (base cap : Nat) (fs : List BitField) (wr wr' : WriteCursor), (∀ f ∈ fs, f.width ≤ 64) →
    writeFields fs ⟨base, cap, 0, 0, 0, []⟩ = .ok wr → bwFlush wr = .ok wr' →
      wr'.byte = ((fs.map BitField.width).sum + 7) / 8 ∧ wr'.bit = 0 ∧
      readFields (m.applyWrites wr'.writes) (fs.map BitField.width) ⟨base, wr'.byte, 0, 0⟩ =
        .ok (fs.map fun f => f.value % 2 ^ f.width) ∧
      ∀ a, (a < base ∨ base + cap ≤ a) → (m.applyWrites wr'.writes).read a = m.read a

/-! ### The Huffman unit (41_huffman.md) -/

/-- R207: HUF_BUILD_ENC. With enough room and no more used symbols than 2^MAXLEN it writes the lengths of R200 to DST
and installs the code; the failures leave the slot alone. -/
def Obligations.HufBuildEncResult : Prop :=
  ∀ (k : BitVec 2) (maxlen : BitVec 4) (s : State),
    encode (.hufBuildEnc k maxlen) = 0x20 ||| (k.setWidth 32 <<< 16) ||| (maxlen.setWidth 32 <<< 20) ∧
    (maxlen = 0 → exec (.hufBuildEnc k maxlen) s = .next (s.ended .illegal .badOperand)) ∧
    (maxlen ≠ 0 →
      ¬ (s.srcLen.toNat % 4 = 0 ∧ 4 ≤ s.srcLen.toNat ∧ s.srcLen.toNat ≤ 4 * 288 ∧ s.buffersApart) →
        exec (.hufBuildEnc k maxlen) s = .next (s.ended .illegal .badParam)) ∧
    (maxlen ≠ 0 → s.srcLen.toNat % 4 = 0 → 4 ≤ s.srcLen.toNat → s.srcLen.toNat ≤ 4 * 288 → s.buffersApart →
      s.plainBuffers [s.srcBuffer, s.dstBuffer] →
      (s.dstCap.toNat < s.srcLen.toNat / 4 → ∃ t, exec (.hufBuildEnc k maxlen) s = .next t ∧
        t = { s with consumed := 0, written := 0, mem := t.mem, draws := t.draws }.ended .capacity .dstFull) ∧
      (s.srcLen.toNat / 4 ≤ s.dstCap.toNat →
        2 ^ maxlen.toNat < usedSymbols ((List.range (s.srcLen.toNat / 4)).map s.sourceWord) →
          exec (.hufBuildEnc k maxlen) s = .next (s.ended .illegal .hufTooManySymbols)) ∧
      (s.srcLen.toNat / 4 ≤ s.dstCap.toNat →
        usedSymbols ((List.range (s.srcLen.toNat / 4)).map s.sourceWord) ≤ 2 ^ maxlen.toNat →
          ∃ t, exec (.hufBuildEnc k maxlen) s = .next t ∧
            t = { s with
              consumed := s.srcLen, written := BitVec.ofNat 32 (s.srcLen.toNat / 4), mem := t.mem,
              slots := t.slots }.ended .ok .noCause ∧
            t.slot k = some
              (hufInstall (hufLengths ((List.range (s.srcLen.toNat / 4)).map s.sourceWord) maxlen.toNat)) ∧
            (∀ j, j ≠ k → t.slot j = s.slot j) ∧
            ∀ j < s.srcLen.toNat / 4, t.mem.read (s.dstAddr.toNat + j) = BitVec.ofNat 8
              ((hufLengths ((List.range (s.srcLen.toNat / 4)).map s.sourceWord) maxlen.toNat).getD j 0)))

/-- R208, R434: HUF_BUILD_DEC checks a length list from SRC and installs it, writing no memory; a list the check refuses
leaves every slot as it was and the bytes of DST, and only those, unspecified (of a DST that wraps, those that exist:
assumption 8, the model's choice). -/
def Obligations.HufBuildDecResult : Prop :=
  ∀ (k : BitVec 2) (s : State),
    encode (.hufBuildDec k) = 0x21 ||| (k.setWidth 32 <<< 16) ∧
    (¬ (1 ≤ s.srcLen.toNat ∧ s.srcLen.toNat ≤ 288 ∧ s.srcAddr.toNat + s.srcLen.toNat ≤ 4294967296) →
      exec (.hufBuildDec k) s = .next (s.ended .illegal .badParam)) ∧
    (1 ≤ s.srcLen.toNat → s.srcLen.toNat ≤ 288 → s.srcAddr.toNat + s.srcLen.toNat ≤ 4294967296 →
      s.plainBuffers [s.srcBuffer] →
      (∀ c, hufCheck .oneMissing (s.sourceString.map BitVec.toNat) = some c →
        ∃ t, exec (.hufBuildDec k) s = .next t ∧
          t = { s with consumed := 0, written := 0, mem := t.mem, draws := t.draws }.ended .format c ∧
          ∀ a, (a < s.dstAddr.toNat ∨ s.dstAddr.toNat + s.dstCap.toNat ≤ a) → t.mem.read a = s.mem.read a) ∧
      (hufCheck .oneMissing (s.sourceString.map BitVec.toNat) = none →
        ∃ t, exec (.hufBuildDec k) s = .next t ∧
          t = { s with consumed := s.srcLen, written := 0, slots := t.slots }.ended .ok .noCause ∧
          t.slot k = some (hufInstall (s.sourceString.map BitVec.toNat)) ∧ ∀ j, j ≠ k → t.slot j = s.slot j))

/-- R209: HUF_LOAD_FIXED installs FIXED_LIT (N = 0) or FIXED_DIST (N = 1); N ≥ 2 is BAD_OPERAND. -/
def Obligations.HufLoadFixedResult : Prop :=
  (∀ (n : BitVec 7) (k : BitVec 2) (s : State),
    encode (.hufLoadFixed n k) = 0x25 ||| (n.setWidth 32 <<< 8) ||| (k.setWidth 32 <<< 16) ∧
    (2 ≤ n.toNat → exec (.hufLoadFixed n k) s = .next (s.ended .illegal .badOperand)) ∧
    (n.toNat ≤ 1 → ∃ t, exec (.hufLoadFixed n k) s = .next t ∧
      t = { s with slots := t.slots }.ended .ok .noCause ∧
      t.slot k = some (hufInstall (if n = 0 then fixedLit else fixedDist)) ∧ ∀ j, j ≠ k → t.slot j = s.slot j)) ∧
  (hufInstall fixedLit).maxl = 9 ∧ (hufInstall fixedDist).maxl = 5 ∧ hufCheck .oneMissing fixedLit = none ∧
    hufCheck .oneMissing fixedDist = none

/-- R283: the fixed code lengths, that both codes are complete, and their canonical codewords. -/
def Obligations.FixedCodesOfTheSpec : Prop :=
  fixedLit.length = 288 ∧ fixedDist.length = 32 ∧
    (∀ s < 288, fixedLit.getD s 0 =
      if s ≤ 143 then 8 else if s ≤ 255 then 9 else if s ≤ 279 then 7 else 8) ∧
    (∀ s < 32, fixedDist.getD s 0 = 5) ∧ kraftSum 15 fixedLit = 2 ^ 15 ∧ kraftSum 15 fixedDist = 2 ^ 15 ∧
    (∀ s < 288, (hufCanon fixedLit).getD s 0 =
      if s ≤ 143 then 0x30 + s else if s ≤ 255 then 0x190 + (s - 144) else if s ≤ 279 then s - 256
      else 0xC0 + (s - 280)) ∧
    ∀ s < 32, (hufCanon fixedDist).getD s 0 = s

/-- R210: HUF_DECODE looks the reader's window up in the slot's table; an INVALID entry is a result, not an error. The
premise `slotsOk` is the invariant of StepKeepsSlots. -/
def Obligations.HufDecodeResult : Prop :=
  ∀ (k : BitVec 2) (s : State), s.slotsOk = true →
    encode (.hufDecode k) = 0x22 ||| (k.setWidth 32 <<< 16) ∧
    (¬ s.brFits → exec (.hufDecode k) s = .next (s.ended .illegal .badParam)) ∧
    (s.brFits → s.slot k = none → exec (.hufDecode k) s = .next (s.ended .illegal .slotNotBuilt)) ∧
    (s.brFits → s.plainBuffers [s.brBuffer] → ∀ code w, s.slot k = some code → s.isWindow w →
      (hufLookup code w = none → exec (.hufDecode k) s = .next ({ s with hufRes := 0 }.ended .ok .noCause)) ∧
      (∀ e, hufLookup code w = some e → exec (.hufDecode k) s =
        .next ({ s with
          hufRes := (1 <<< 31) ||| (BitVec.ofNat 32 e.len <<< 16) ||| BitVec.ofNat 32 e.sym }.ended .ok .noCause)))

/-- R211, R205: HUF_READ_SYM is the lookup with the codeword consumed; HUF_RES holds the lookup in both failures, with
the cursor unchanged. -/
def Obligations.HufReadSymResult : Prop :=
  ∀ (k : BitVec 2) (s : State), s.slotsOk = true →
    encode (.hufReadSym k) = 0x23 ||| (k.setWidth 32 <<< 16) ∧
    (¬ s.brFits → exec (.hufReadSym k) s = .next (s.ended .illegal .badParam)) ∧
    (s.brFits → s.slot k = none → exec (.hufReadSym k) s = .next (s.ended .illegal .slotNotBuilt)) ∧
    (s.brFits → s.plainBuffers [s.brBuffer] → ∀ code w, s.slot k = some code → s.isWindow w →
      (hufLookup code w = none →
        exec (.hufReadSym k) s = .next ({ s with hufRes := 0 }.ended .format .hufInvalidCode)) ∧
      (∀ e, hufLookup code w = some e → e.len ≤ s.rrem → ∃ (b : Word) (c : BitVec 3),
        exec (.hufReadSym k) s = .next ({ s with
          hufRes := (1 <<< 31) ||| (BitVec.ofNat 32 e.len <<< 16) ||| BitVec.ofNat 32 e.sym, brByte := b,
          brBit := c }.ended .ok .noCause) ∧ 8 * b.toNat + c.toNat = s.rpos + e.len) ∧
      (∀ e, hufLookup code w = some e → s.rrem < e.len → exec (.hufReadSym k) s =
        .next ({ s with
          hufRes := (1 <<< 31) ||| (BitVec.ofNat 32 e.len <<< 16) ||| BitVec.ofNat 32 e.sym,
          status := { s.status with brFail := true } }.ended .format .brOverrun)))

/-- R212, R206: HUF_WRITE_SYM appends the codeword of HUF_SYM.SYM, most-significant bit first; a symbol outside the
code, or unused in it, is BAD_OPERAND. -/
def Obligations.HufWriteSymResult : Prop :=
  ∀ (k : BitVec 2) (s : State),
    encode (.hufWriteSym k) = 0x24 ||| (k.setWidth 32 <<< 16) ∧
    (¬ s.bwFits → exec (.hufWriteSym k) s = .next (s.ended .illegal .badParam)) ∧
    (s.bwFits → s.slot k = none → exec (.hufWriteSym k) s = .next (s.ended .illegal .slotNotBuilt)) ∧
    (s.bwFits → ∀ code, s.slot k = some code →
      (code.n ≤ s.hufSym.toNat ∨ code.len.getD s.hufSym.toNat 0 = 0 →
        exec (.hufWriteSym k) s = .next (s.ended .illegal .badOperand)) ∧
      (s.hufSym.toNat < code.n → ∀ l, code.len.getD s.hufSym.toNat 0 = l → 0 < l →
        s.plainBuffers [s.bwBuffer] →
        ((s.wpos + l + 7) / 8 ≤ s.bwCap.toNat → ∃ t, exec (.hufWriteSym k) s = .next t ∧
          t = { s with bwByte := t.bwByte, bwBit := t.bwBit, bwAcc := t.bwAcc, mem := t.mem }.ended .ok .noCause ∧
          t.wpos = s.wpos + l ∧ (∀ p < s.wpos, t.writtenBit p = s.writtenBit p) ∧
          ∀ j < l, t.writtenBit (s.wpos + j) = (code.code.getD s.hufSym.toNat 0).testBit (l - 1 - j)) ∧
        (s.bwCap.toNat < (s.wpos + l + 7) / 8 → exec (.hufWriteSym k) s =
          .next ({ s with status := { s.status with bwFail := true } }.ended .capacity .bwOverflow))))

/-- R214: with a code that the check accepts under any policy, a symbol written with `huf_put` is read back by
`huf_get` from the flushed bytes, and exactly its codeword's bits are consumed. -/
def Obligations.CanonicalCodeRoundTrip : Prop :=
  ∀ (len : List Nat) (sym : Nat) (m : Memory) (wr wr1 wr2 : WriteCursor), len.length ≤ 288 →
    hufCheck .allowAny len = none → 0 < len.getD sym 0 → wr.bit < 8 → hufPut (hufInstall len) sym wr = .ok wr1 →
    bwFlush wr1 = .ok wr2 →
      ∃ rd, hufGet (m.applyWrites wr2.writes) (hufInstall len) ⟨wr.base, wr2.byte, wr.byte, wr.bit⟩ =
        .ok (sym, rd) ∧ rd.pos = wr.pos + len.getD sym 0

/-- R200: the code lengths are bounded by the limit, are 0 exactly for the unused symbols, and make a complete code
(Kraft sum 1) when two or more symbols are used. -/
def Obligations.CodeLengthsAreComplete : Prop :=
  ∀ (freq : List Nat) (limit : Nat), 1 ≤ limit → limit ≤ 15 → usedSymbols freq ≤ 2 ^ limit →
    (hufLengths freq limit).length = freq.length ∧
    (∀ s, freq.getD s 0 = 0 → (hufLengths freq limit).getD s 0 = 0) ∧
    (∀ s, 0 < freq.getD s 0 → 1 ≤ (hufLengths freq limit).getD s 0 ∧ (hufLengths freq limit).getD s 0 ≤ limit) ∧
    (usedSymbols freq = 1 → ∀ s, 0 < freq.getD s 0 → (hufLengths freq limit).getD s 0 = 1) ∧
    (2 ≤ usedSymbols freq → kraftSum limit (hufLengths freq limit) = 2 ^ limit)

/-! ### The LZ77 matcher (42_lz77.md) -/

/-- R250: the match found is a match, no longer one exists within the window, and of the longest ones it has the
smallest distance; lengths below 3 count as none. -/
def Obligations.LzBestIsLongest : Prop :=
  ∀ (src : List Byte) (i : Nat) (p : LzParams), i < src.length →
    (∀ d l, 1 ≤ d → d ≤ min p.window i → 3 ≤ l → l ≤ min p.maxLen (src.length - i) → (p.overlap = false → l ≤ d) →
      (∀ j < l, src[i - d + j]? = src[i + j]?) →
        l ≤ (lzBest src i p).len ∧ (l = (lzBest src i p).len → (lzBest src i p).dist ≤ d)) ∧
    ((lzBest src i p).len ≠ 0 →
      1 ≤ (lzBest src i p).dist ∧ (lzBest src i p).dist ≤ min p.window i ∧ 3 ≤ (lzBest src i p).len ∧
      (lzBest src i p).len ≤ min p.maxLen (src.length - i) ∧
      (p.overlap = false → (lzBest src i p).len ≤ (lzBest src i p).dist) ∧
      ∀ j < (lzBest src i p).len, src[i - (lzBest src i p).dist + j]? = src[i + j]?) ∧
    ((lzBest src i p).len = 0 → (lzBest src i p).dist = 0)

/-- R251: the tokens reproduce the source exactly. -/
def Obligations.TokensReproduceSource : Prop :=
  ∀ (src : List Byte) (p : LzParams), expandTokens (lzTokens src p) [] = src.reverse

/-- R254: every match the tokens hold is in the window, within the length limits, and a match of the source; only with
overlap allowed may it be longer than its distance; copying it byte by byte from the output so far reproduces the
source. -/
def Obligations.TokenValidity : Prop :=
  ∀ (src : List Byte) (p : LzParams) (before after : List Token) (d l : Nat),
    lzTokens src p = before ++ .backRef d l :: after →
      1 ≤ d ∧ d ≤ min p.window (rawLen before) ∧ 3 ≤ l ∧ l ≤ min p.maxLen (src.length - rawLen before) ∧
      (∀ j < l, src[rawLen before + j]? = src[rawLen before - d + j]?) ∧ (p.overlap = false → l ≤ d) ∧
      copyBack d l (src.take (rawLen before)).reverse = (src.take (rawLen before + l)).reverse

/-- R253, R252: LZ_COMPRESS writes one little-endian 32-bit record per token, b for `Lit(b)` and
0x8000_0000 | (L << 16) | (d - 1) for `Match(d, L)`; DST_CAP below four bytes a token is
`Capacity(DST_FULL)`, and four bytes for each source byte are always enough. -/
def Obligations.LzCompressResult : Prop :=
  encode .lzCompress = 0x30 ∧ ∀ s : State,
    (¬ (s.lzParams.legal = true ∧ s.buffersApart) → exec .lzCompress s = .next (s.ended .illegal .badParam)) ∧
    (s.lzParams.legal = true → s.buffersApart → s.plainBuffers [s.srcBuffer, s.dstBuffer] →
      ∀ toks, lzTokens s.sourceString s.lzParams = toks →
        toks.length ≤ s.srcLen.toNat ∧
        (∀ b, (Token.lit b).record = b.toNat) ∧
        (∀ d l, (Token.backRef d l).record = 2 ^ 31 + l * 2 ^ 16 + (d - 1)) ∧
        (4 * toks.length ≤ s.dstCap.toNat → ∃ t, exec .lzCompress s = .next t ∧
          t = { s with
            consumed := s.srcLen, written := BitVec.ofNat 32 (4 * toks.length), mem := t.mem }.ended .ok .noCause ∧
          (∀ k (hk : k < toks.length), ∀ j < 4,
            (t.mem.read (s.dstAddr.toNat + 4 * k + j)).toNat = toks[k].record / 256 ^ j % 256) ∧
          ∀ a, (a < s.dstAddr.toNat ∨ s.dstAddr.toNat + 4 * toks.length ≤ a) → t.mem.read a = s.mem.read a) ∧
        (s.dstCap.toNat < 4 * toks.length → ∃ t, exec .lzCompress s = .next t ∧
          t = { s with consumed := 0, written := 0, mem := t.mem, draws := t.draws }.ended .capacity .dstFull))

/-! ### DEFLATE and INFLATE (43_deflate.md) -/

/-- R339, R280, R281: the length and distance symbols of a match: the largest base at most the value, the rest in the
symbol's extra bits, and 285 for length 258. -/
def Obligations.SymbolMapping : Prop :=
  (∀ l, 3 ≤ l → l ≤ 258 →
    257 ≤ lsym l ∧ lsym l ≤ 285 ∧ lenBase.getD (lsym l - 257) 0 ≤ l ∧
    l - lenBase.getD (lsym l - 257) 0 < 2 ^ lenExtra.getD (lsym l - 257) 0 ∧ (lsym l = 285 ↔ l = 258) ∧
    (l ≠ 258 → ∀ s, 257 ≤ s → s ≤ 284 → lenBase.getD (s - 257) 0 ≤ l → s ≤ lsym l)) ∧
  ∀ d, 1 ≤ d → d ≤ 32768 →
    dsym d ≤ 29 ∧ distBase.getD (dsym d) 0 ≤ d ∧
    d - distBase.getD (dsym d) 0 < 2 ^ distExtra.getD (dsym d) 0 ∧
    ∀ s < 30, distBase.getD s 0 ≤ d → s ≤ dsym d

/-- R336: each cost estimate is the number of bits that R338 writes for that kind of block. -/
def Obligations.BlockEstimatesAreExact : Prop :=
  ∀ (final : Bool) (b : List Token) (raw : List Byte) (wr wr' : WriteCursor), wr.bit < 8 →
    (writeFields (blockFields final .fixed wr.pos (planDynamic b) b raw) wr = .ok wr' →
      wr'.pos = wr.pos + fixedCost b) ∧
    (writeFields (blockFields final .dynamic wr.pos (planDynamic b) b raw) wr = .ok wr' →
      wr'.pos = wr.pos + dynamicCost (planDynamic b) b) ∧
    (raw.length = rawLen b → writeFields (blockFields final .stored wr.pos (planDynamic b) b raw) wr = .ok wr' →
      ∀ c, storedCost wr.pos b = some c → wr'.pos = wr.pos + c)

/-- R330, R337: DEFLATE ends OK whenever DST has two bytes for each source byte and two more, since the block chosen is
never larger than the fixed one; the bound is derived. -/
def Obligations.DeflateCompletes : Prop :=
  ∀ s : State, s.buffersApart → s.plainBuffers [s.srcBuffer, s.dstBuffer] →
    2 * (s.srcLen.toNat + 1) ≤ s.dstCap.toNat →
      ∃ t, exec .deflate s = .next t ∧
        t = { s with consumed := s.srcLen, written := t.written, mem := t.mem }.ended .ok .noCause ∧
        t.written.toNat ≤ 2 * (s.srcLen.toNat + 1) ∧
        ∀ a, (a < s.dstAddr.toNat ∨ s.dstAddr.toNat + t.written.toNat ≤ a) → t.mem.read a = s.mem.read a

/-- R341, R390: the encoders' output does not depend on DST_CAP: a run that ends OK with WRITTEN = N ends OK with the
same bytes for every DST_CAP of at least N, and with `Capacity(BW_OVERFLOW)` for every DST_CAP below N. -/
def Obligations.EncoderCapacityBoundary : Prop :=
  ∀ (i : Instr) (s t : State) (c : Word), i = .deflate ∨ i = .shrink → exec i s = .next t → t.status.result = .ok →
    { s with dstCap := c }.buffersApart →
    { s with dstCap := c }.plainBuffers [s.srcBuffer, ⟨s.dstAddr.toNat, c.toNat⟩] →
      (t.written.toNat ≤ c.toNat → ∃ t', exec i { s with dstCap := c } = .next t' ∧ t'.status.result = .ok ∧
        t'.written = t.written ∧ t'.consumed = t.consumed ∧
        ∀ k < t.written.toNat, t'.mem.read (s.dstAddr.toNat + k) = t.mem.read (s.dstAddr.toNat + k)) ∧
      (c.toNat < t.written.toNat → ∃ t', exec i { s with dstCap := c } = .next t' ∧
        t'.status.cause = .bwOverflow ∧ t'.status.bwFail = true ∧ t'.consumed = 0 ∧ t'.written = 0)

/-- R313, R321: a stream of one final stored block inflates to its raw bytes; the padding bits of the first byte are
ignored, and so are bytes after the block. -/
def Obligations.InflateStoredBlock : Prop :=
  ∀ (s : State) (n : Nat), s.buffersApart → s.plainBuffers [s.srcBuffer, s.dstBuffer] → n ≤ 65535 →
    n + 5 ≤ s.srcLen.toNat → n ≤ s.dstCap.toNat → (s.mem.read s.srcAddr.toNat).toNat % 8 = 1 →
    (s.mem.read (s.srcAddr.toNat + 1)).toNat + 256 * (s.mem.read (s.srcAddr.toNat + 2)).toNat = n →
    (s.mem.read (s.srcAddr.toNat + 3)).toNat + 256 * (s.mem.read (s.srcAddr.toNat + 4)).toNat = 65535 - n →
      ∃ t, exec .inflate s = .next t ∧
        t = { s with
          consumed := BitVec.ofNat 32 (n + 5), written := BitVec.ofNat 32 n, mem := t.mem }.ended .ok .noCause ∧
        (∀ k < n, t.mem.read (s.dstAddr.toNat + k) = s.mem.read (s.srcAddr.toNat + 5 + k)) ∧
        ∀ a, (a < s.dstAddr.toNat ∨ s.dstAddr.toNat + n ≤ a) → t.mem.read a = s.mem.read a

/-- R314, R319, R320, R287, R338: the decoder inverts a final fixed-Huffman block: it puts out what the tokens stand
for, back-references that overlap their own output included, and consumes exactly the block's bytes. -/
def Obligations.FixedBlockRoundTrip : Prop :=
  ∀ (b : List Token) (m : Memory) (base cap cap' : Nat) (wr wr' : WriteCursor), tokensFit 0 b = true →
    writeFields (blockFields true .fixed 0 (planDynamic b) b []) ⟨base, cap, 0, 0, 0, []⟩ = .ok wr →
    bwFlush wr = .ok wr' → rawLen b ≤ cap' →
      ∃ d, inflateRun (m.applyWrites wr'.writes) ⟨base, wr'.byte, 0, 0⟩ cap' = .ok d ∧
        d.out = expandTokens b [] ∧ (d.rd.pos + 7) / 8 = wr'.byte

/-- R341: INFLATE of what DEFLATE wrote gives the source back, every block kind and any number of blocks included, with
every byte of the stream consumed: for a run of DEFLATE from `s` that ends OK with state `t`, and a run of INFLATE from
any state `u` whose SRC holds the bytes that `t` holds at its DST. -/
def Obligations.DeflateInflateRoundTrip : Prop :=
  ∀ s t u : State, exec .deflate s = .next t → t.status.result = .ok → u.srcLen = t.written →
    (∀ k < t.written.toNat, u.mem.read (u.srcAddr.toNat + k) = t.mem.read (s.dstAddr.toNat + k)) → u.buffersApart →
    u.plainBuffers [u.srcBuffer, u.dstBuffer] → s.srcLen.toNat ≤ u.dstCap.toNat →
      ∃ v, exec .inflate u = .next v ∧
        v = { u with consumed := u.srcLen, written := s.srcLen, mem := v.mem }.ended .ok .noCause ∧
        (∀ k < s.srcLen.toNat, v.mem.read (u.dstAddr.toNat + k) = s.mem.read (s.srcAddr.toNat + k)) ∧
        ∀ a, (a < u.dstAddr.toNat ∨ u.dstAddr.toNat + s.srcLen.toNat ≤ a) → v.mem.read a = u.mem.read a

/-! ### SHRINK and UNSHRINK (44_shrink.md) -/

/-- R370, R371: SHRINK ends OK whenever DST has five bytes for each source byte and 13 more; the bound is derived. -/
def Obligations.ShrinkCompletes : Prop :=
  ∀ s : State, s.buffersApart → s.plainBuffers [s.srcBuffer, s.dstBuffer] →
    5 * s.srcLen.toNat + 13 ≤ s.dstCap.toNat →
      ∃ t, exec .shrink s = .next t ∧
        t = { s with consumed := s.srcLen, written := t.written, mem := t.mem }.ended .ok .noCause ∧
        t.written.toNat ≤ 5 * s.srcLen.toNat + 13 ∧ (s.srcLen = 0 → t.written = 0) ∧
        ∀ a, (a < s.dstAddr.toNat ∨ s.dstAddr.toNat + t.written.toNat ≤ a) → t.mem.read a = s.mem.read a

/-- R381, R383, R384: a stream of 9-bit literal codes decodes to those bytes; the bits after the last whole code are
ignored. -/
def Obligations.UnshrinkLiterals : Prop :=
  ∀ (s : State) (n : Nat), s.buffersApart → s.plainBuffers [s.srcBuffer, s.dstBuffer] → 8 * s.srcLen.toNat / 9 = n →
    n ≤ s.dstCap.toNat → (∀ k < n, s.memBit s.srcAddr.toNat (9 * k + 8) = false) →
      ∃ t, exec .unshrink s = .next t ∧
        t = { s with
          consumed := BitVec.ofNat 32 ((9 * n + 7) / 8), written := BitVec.ofNat 32 n, mem := t.mem }.ended .ok
            .noCause ∧
        (∀ k < n, ∀ j < 8,
          (t.mem.read (s.dstAddr.toNat + k)).getLsbD j = s.memBit s.srcAddr.toNat (9 * k + j)) ∧
        ∀ a, (a < s.dstAddr.toNat ∨ s.dstAddr.toNat + n ≤ a) → t.mem.read a = s.mem.read a

/-- R362: a partial clear frees exactly the occupied codes from 257 on that are not the prefix of another occupied
entry (or, with the parameter true, of any), and leaves every prefix and byte field and every code below 257 alone. -/
def Obligations.PartialClearFreesUnreferenced : Prop :=
  ∀ (survives : Bool) (t : LzwTable), t.length = 8192 →
    (lzwPartialClear survives t).length = 8192 ∧
    (∀ c < 8192, (lzwGet (lzwPartialClear survives t) c).pfx = (lzwGet t c).pfx ∧
      (lzwGet (lzwPartialClear survives t) c).byte = (lzwGet t c).byte) ∧
    (∀ c < 257, lzwGet (lzwPartialClear survives t) c = lzwGet t c) ∧
    ∀ c, 257 ≤ c → c < 8192 → ((lzwGet (lzwPartialClear survives t) c).used = true ↔
      (lzwGet t c).used = true ∧ ∃ e, 257 ≤ e ∧ e < 8192 ∧ (lzwGet t e).used = true ∧
        (lzwGet t e).pfx = some c ∧ (e ≠ c ∨ survives = true))

/-- R390, R391: UNSHRINK of SHRINK's stream gives the source, with every byte of the stream consumed, through every
widening. The bound keeps the table from filling: it has 7935 codes, and a source of 7936 bytes misses at most 7935
times, so no partial clear occurs. R390 claims the round trip for every source; with partial clears the rules of
R371 and R383 do not give it (NOTES.md, '## Findings'). -/
def Obligations.ShrinkRoundTrip : Prop :=
  ∀ (survives : Bool) (src : List Byte) (m : Memory) (base cap cap' : Nat) (wr : WriteCursor), src.length ≤ 7936 →
    shrinkRun survives src ⟨base, cap, 0, 0, 0, []⟩ = .ok wr → src.length ≤ cap' →
      ∃ u, unshrinkRun survives (m.applyWrites wr.writes) ⟨base, wr.byte, 0, 0⟩ cap' = .ok u ∧
        u.out.reverse = src ∧ (u.rd.pos + 7) / 8 = wr.byte

/-! ### Whole-machine rules (10_state.md, 20_memory.md, 60_exceptions.md) -/

/-- What a buffer command leaves unchanged (R40, R57, R108, R179, R434, R485): everything but STATUS with its two sticky
failure bits, DONE_PEND, the engine, CONSUMED and WRITTEN, bytes of DST (with the model's counter of free values,
assumption 2), and, for the two builds, the one slot. HUF_BUILD_DEC touches memory only by a FORMAT end, which leaves DST
unspecified (R434 item 2); that a DST which wraps is cut at 2^32 then, and low memory stays, is the model's choice
(assumption 8). -/
def Obligations.BufferCommandFrame : Prop :=
  ∀ (i : Instr) (s t : State), isBufferCommand i = true → exec i s = .next t →
    t = { s with
      consumed := t.consumed, written := t.written, slots := t.slots, mem := t.mem, draws := t.draws,
      status := { s.status with brFail := t.status.brFail, bwFail := t.status.bwFail } }.ended t.status.result
        t.status.cause ∧
    (∀ j : BitVec 2, (∀ m, i ≠ .hufBuildEnc j m) → i ≠ .hufBuildDec j → t.slot j = s.slot j) ∧
    (∀ a, (a < s.dstAddr.toNat ∨ s.dstAddr.toNat + s.dstCap.toNat ≤ a) → t.mem.read a = s.mem.read a) ∧
    ((∃ j, i = .hufBuildDec j) → t.status.result ≠ .format → t.mem = s.mem ∧ t.draws = s.draws) ∧
    (t.status.result = .ok → t.draws = s.draws ∧ t.written.toNat ≤ s.dstCap.toNat ∧
      t.consumed.toNat ≤ s.srcLen.toNat)

/-- R434: what a command that ends non-OK leaves. ILLEGAL changes STATUS and DONE_PEND only; CAPACITY or FORMAT sets
CONSUMED and WRITTEN to 0 in a buffer command, keeps the slots and cursors, and changes no byte outside DST; in another
command it keeps the cursors and memory. That no low byte changes when the DST of a HUF_BUILD_DEC that ends FORMAT wraps
is the model's choice (assumption 8). That BR_FAIL goes with BR_OVERRUN and BW_FAIL with BW_OVERFLOW is the model's
reading of R436 (assumption 13). -/
def Obligations.NonOkOutputs : Prop :=
  ∀ (i : Instr) (s t : State), exec i s = .next t →
    (t.status.result = .illegal → t = s.ended .illegal t.status.cause) ∧
    ((t.status.result = .capacity ∨ t.status.result = .format) → isBufferCommand i = true →
      t = { s with
        consumed := 0, written := 0, mem := t.mem, draws := t.draws,
        status := { s.status with brFail := t.status.brFail, bwFail := t.status.bwFail } }.ended t.status.result
          t.status.cause ∧
      ∀ a, (a < s.dstAddr.toNat ∨ s.dstAddr.toNat + s.dstCap.toNat ≤ a) → t.mem.read a = s.mem.read a) ∧
    ((t.status.result = .capacity ∨ t.status.result = .format) → isBufferCommand i = false →
      t = { s with
        brLook := t.brLook, hufRes := t.hufRes,
        status := { s.status with brFail := t.status.brFail, bwFail := t.status.bwFail } }.ended t.status.result
          t.status.cause) ∧
    (i ≠ .clear → i ≠ .softReset →
      t.status.brFail = (s.status.brFail || decide (t.status.cause = .brOverrun)) ∧
      t.status.bwFail = (s.status.bwFail || decide (t.status.cause = .bwOverflow)) ∧
      t.status.wrBusy = s.status.wrBusy)

/-- R431, R435: each command records only the causes of its row, in particular never INTERNAL. -/
def Obligations.CausesOfEachCommand : Prop :=
  ∀ (i : Instr) (s t : State), exec i s = .next t →
    t.status.cause ∈ mayRecord i ∧ t.status.cause ≠ .internal ∧ t.status.result = t.status.cause.result

/-- R108: a command writes host memory only inside its destination buffer, and a command without one writes none. A
HUF_BUILD_DEC that ends FORMAT has none, yet R434 item 2 leaves the bytes of DST unspecified then; no other byte
changes, of which that none below DST_ADDR does when DST wraps is the model's choice (assumption 8). -/
def Obligations.CommandWritesOnlyItsDestination : Prop :=
  ∀ (i : Instr) (s t : State), exec i s = .next t →
    ∀ a, ((s.destOf i).any fun r => r.holds a) = false →
      ((∃ j, i = .hufBuildDec j) → t.status.result = .format → s.dstBuffer.holds a = false) →
        t.mem.read a = s.mem.read a

/-- R108, R312: a command depends on host memory only through its source buffer: from two memories that agree there,
the block ends in the same state, and each byte is either left alone in both or written with the same value. -/
def Obligations.CommandReadsOnlyItsSource : Prop :=
  ∀ (i : Instr) (s t : State) (m : Memory), exec i s = .next t →
    (∀ a, ((s.sourceOf i).any fun r => r.holds a) = true → m.read a = s.mem.read a) →
      ∃ t', exec i { s with mem := m } = .next t' ∧ t' = { t with mem := t'.mem } ∧
        ∀ a, t'.mem.read a = t.mem.read a ∨ (t.mem.read a = s.mem.read a ∧ t'.mem.read a = m.read a)

/-- R52, R480, R33: an idle read answers the register's value without a side effect; the host reads back what it wrote
to an RW register, reserved bits as 0, and no other register changes; a write to an RO register is ignored; an offset
with no row reads 0 and ignores writes. What the registers that are no plain field read: CMD 0, STATUS by the fields of
R34 with the codes of R431, HUF_VALID the valid bits of the slots (R51), the two halves of BR_LOOK (R46), and the short
fields and flags with zeros above them. -/
def Obligations.RegisterReadBack : Prop :=
  (∀ s : State, s.ready → ∀ row ∈ regMap,
    step { s with inbox := .read ⟨BitVec.ofNat 8 row.1, 4⟩ :: s.inbox } = .next (s.answer (s.regRead row.2.1))) ∧
  (∀ s : State,
    s.regRead .id = s.platform.idValue ∧ s.regRead .cmd = 0 ∧ s.regRead .consumed = s.consumed ∧
    s.regRead .written = s.written ∧ s.regRead .brByte = s.brByte ∧ (s.regRead .brBit).toNat = s.brBit.toNat ∧
    s.regRead .brLookHi ++ s.regRead .brLookLo = s.brLook ∧ s.regRead .bwByte = s.bwByte ∧
    (s.regRead .bwBit).toNat = s.bwBit.toNat ∧ (s.regRead .bwAcc).toNat = s.bwAcc.toNat ∧
    s.regRead .hufRes = s.hufRes ∧ (s.regRead .irq).toNat = s.donePend.toNat ∧
    (∀ k : BitVec 2, (s.regRead .hufValid).getLsbD k.toNat = (s.slot k).isSome) ∧ (s.regRead .hufValid).toNat < 16 ∧
    ∃ row ∈ causeRows, row.1 = s.status.cause ∧ ((s.regRead .status).toNat / 256 % 256 = row.2.1) ∧
      s.status.cause.result.code.toNat = row.2.2 ∧
      (s.regRead .status).toNat = s.busy.toNat + 2 * s.status.done.toNat +
        4 * (match s.status.result with | .ok => 0 | .capacity => 1 | .format => 2 | .illegal => 3) + 256 * row.2.1 +
        65536 * s.status.brFail.toNat + 131072 * s.status.bwFail.toNat + 262144 * s.status.wrBusy.toNat) ∧
  ∀ (s : State) (v : Word), s.ready →
    (∀ row ∈ regMap, row.2.2 = .rw → ∃ t,
      step { s with inbox := .write ⟨BitVec.ofNat 8 row.1, 4⟩ v :: s.inbox } = .next t ∧
      step { t with inbox := .read ⟨BitVec.ofNat 8 row.1, 4⟩ :: t.inbox } =
        .next (t.answer (v &&& row.2.1.mask)) ∧
      ∀ r : Reg, r ≠ row.2.1 → t.regRead r = s.regRead r) ∧
    (∀ row ∈ regMap, row.2.2 = .ro →
      step { s with inbox := .write ⟨BitVec.ofNat 8 row.1, 4⟩ v :: s.inbox } = .next s) ∧
    ∀ off : BitVec 8, off.toNat % 4 = 0 → off.toNat ∉ regMap.map Prod.fst →
      step { s with inbox := .write ⟨off, 4⟩ v :: s.inbox } = .next s ∧
      step { s with inbox := .read ⟨off, 4⟩ :: s.inbox } = .next (s.answer 0)

/-- R53, R54, R37, R38: while BUSY, a write to a register other than CTRL and IRQ is ignored and sets WR_BUSY, CMD
included; a write to CTRL sets IRQ_EN, a write of 1 to IRQ clears DONE_PEND, and neither sets WR_BUSY; an RO register
other than ID and STATUS reads a free value with nothing else changed, and any other register reads its current value. -/
def Obligations.AccessesWhileBusy : Prop :=
  ∀ (s : State) (bufs : List Region) (dst : Option Region) (v : Word), s.rst = false → s.busy = true →
    ∀ row ∈ regMap,
      (row.2.1 ≠ .ctrl → row.2.1 ≠ .irq →
        busyEvent bufs dst (.write ⟨BitVec.ofNat 8 row.1, 4⟩ v) s =
          .next { s with status := { s.status with wrBusy := true } } ∧
        hostWrite quietWindow v (some row.2) s = .next { s with status := { s.status with wrBusy := true } }) ∧
      (row.2.1 = .ctrl →
        busyEvent bufs dst (.write ⟨BitVec.ofNat 8 row.1, 4⟩ v) s = .next { s with irqEn := v.getLsbD 0 } ∧
        hostWrite quietWindow v (some row.2) s = .next { s with irqEn := v.getLsbD 0 }) ∧
      (row.2.1 = .irq →
        busyEvent bufs dst (.write ⟨BitVec.ofNat 8 row.1, 4⟩ v) s =
          .next { s with donePend := s.donePend && !v.getLsbD 0 } ∧
        hostWrite quietWindow v (some row.2) s = .next { s with donePend := s.donePend && !v.getLsbD 0 }) ∧
      (row.2.2 = .ro → row.2.1 ≠ .id → row.2.1 ≠ .status →
        busyEvent bufs dst (.read ⟨BitVec.ofNat 8 row.1, 4⟩) s =
          .next { s with portLog := Config.freeWord s.draws :: s.portLog, draws := s.draws + 1 }) ∧
      (row.2.2 ≠ .ro ∨ row.2.1 = .id ∨ row.2.1 = .status →
        busyEvent bufs dst (.read ⟨BitVec.ofNat 8 row.1, 4⟩) s = .next (s.answer (s.regRead row.2.1)))

/-- R440, R38, R438: the interrupt is DONE_PEND and IRQ_EN; every completion but SOFT_RESET's sets DONE_PEND and a
command start keeps it; a host write of 1 clears it; a clearing write in the step of a completion loses, and a CMD
write in that step is ignored and sets WR_BUSY. That these writes stand in the window of the CMD write, listed in its
ending, is the model's form (assumptions 4 and 7); that WR_BUSY is 1 after a SOFT_RESET with a CMD write in its last
step, where R412 leaves no sticky bit, is the model's choice (assumption 7). -/
def Obligations.InterruptIsLevel : Prop :=
  (∀ s : State, s.irq = (s.donePend && s.irqEn)) ∧
  (∀ (w : Word) (s : State), (s.start w).donePend = s.donePend) ∧
  (∀ (s : State) (v : Word), s.ready →
    step { s with inbox := .write ⟨0x10, 4⟩ v :: s.inbox } =
      .next { s with donePend := s.donePend && !v.getLsbD 0 }) ∧
  ∀ (w v : Word) (i : Instr) (s t : State), s.ready → decode w = .ok i → exec i (s.start w) = .next t →
    step { s with inbox := .command w ⟨[], .completes [(⟨0x10, 4⟩, v)]⟩ :: s.inbox } = .next t ∧
    step { s with inbox := .command w ⟨[], .completes [(⟨0x04, 4⟩, v)]⟩ :: s.inbox } =
      .next { t with status := { t.status with wrBusy := true } } ∧
    (i ≠ .softReset → t.donePend = true)

/-! ### Invariants that every step keeps -/

/-- Host memory keeps its canonical form (assumption 1: the model's own form of memory). -/
def Obligations.StepKeepsCanonicalMemory : Prop :=
  ∀ s t : State, s.mem.wf = true → step s = .next t → t.mem.wf = true

/-- R34, R431, R30, R47, R50: from an idle block, a step ends idle; RESULT stays the one CAUSE goes with; the bits of
BW_ACC from BW_BIT on stay 0; and the reserved bits of HUF_RES stay 0. -/
def Obligations.StepKeepsStatusInvariants : Prop :=
  ∀ s t : State, s.engine = .idle → s.outcomeOk = true → s.accOk = true → s.hufResOk = true → step s = .next t →
    t.engine = .idle ∧ t.outcomeOk = true ∧ t.accOk = true ∧ t.hufResOk = true

/-- R55: every built slot stays within its bounds: at most 288 symbols, lengths at most 15, a table of 2^maxl entries
each INVALID or a symbol of the code with a length from 1 to maxl. -/
def Obligations.StepKeepsSlots : Prop :=
  ∀ s t : State, s.slotsOk = true → step s = .next t → t.slotsOk = true
end

