-- ==== Sys2Proof/Laws/State.lean ====
section
/-! SUPPORT. One lemma per field and per named update of State, so that no proof unfolds a record update. -/

namespace Sys2Proof.Machine

@[simp] theorem start_platform (w : Word) (s : State) : (s.start w).platform = s.platform := rfl
@[simp] theorem start_rst (w : Word) (s : State) : (s.start w).rst = s.rst := rfl
@[simp] theorem start_engine (w : Word) (s : State) : (s.start w).engine = .busy w := rfl
@[simp] theorem start_status (w : Word) (s : State) : (s.start w).status = { s.status with done := false, result := .ok, cause := .noCause } := rfl
@[simp] theorem start_irqEn (w : Word) (s : State) : (s.start w).irqEn = s.irqEn := rfl
@[simp] theorem start_donePend (w : Word) (s : State) : (s.start w).donePend = s.donePend := rfl
@[simp] theorem start_srcAddr (w : Word) (s : State) : (s.start w).srcAddr = s.srcAddr := rfl
@[simp] theorem start_srcLen (w : Word) (s : State) : (s.start w).srcLen = s.srcLen := rfl
@[simp] theorem start_dstAddr (w : Word) (s : State) : (s.start w).dstAddr = s.dstAddr := rfl
@[simp] theorem start_dstCap (w : Word) (s : State) : (s.start w).dstCap = s.dstCap := rfl
@[simp] theorem start_consumed (w : Word) (s : State) : (s.start w).consumed = s.consumed := rfl
@[simp] theorem start_written (w : Word) (s : State) : (s.start w).written = s.written := rfl
@[simp] theorem start_lzWindow (w : Word) (s : State) : (s.start w).lzWindow = s.lzWindow := rfl
@[simp] theorem start_lzMaxlen (w : Word) (s : State) : (s.start w).lzMaxlen = s.lzMaxlen := rfl
@[simp] theorem start_lzOverlap (w : Word) (s : State) : (s.start w).lzOverlap = s.lzOverlap := rfl
@[simp] theorem start_brBase (w : Word) (s : State) : (s.start w).brBase = s.brBase := rfl
@[simp] theorem start_brLen (w : Word) (s : State) : (s.start w).brLen = s.brLen := rfl
@[simp] theorem start_brByte (w : Word) (s : State) : (s.start w).brByte = s.brByte := rfl
@[simp] theorem start_brBit (w : Word) (s : State) : (s.start w).brBit = s.brBit := rfl
@[simp] theorem start_brLook (w : Word) (s : State) : (s.start w).brLook = s.brLook := rfl
@[simp] theorem start_bwBase (w : Word) (s : State) : (s.start w).bwBase = s.bwBase := rfl
@[simp] theorem start_bwCap (w : Word) (s : State) : (s.start w).bwCap = s.bwCap := rfl
@[simp] theorem start_bwByte (w : Word) (s : State) : (s.start w).bwByte = s.bwByte := rfl
@[simp] theorem start_bwBit (w : Word) (s : State) : (s.start w).bwBit = s.bwBit := rfl
@[simp] theorem start_bwAcc (w : Word) (s : State) : (s.start w).bwAcc = s.bwAcc := rfl
@[simp] theorem start_bwVal (w : Word) (s : State) : (s.start w).bwVal = s.bwVal := rfl
@[simp] theorem start_hufSym (w : Word) (s : State) : (s.start w).hufSym = s.hufSym := rfl
@[simp] theorem start_hufRes (w : Word) (s : State) : (s.start w).hufRes = s.hufRes := rfl
@[simp] theorem start_slots (w : Word) (s : State) : (s.start w).slots = s.slots := rfl
@[simp] theorem start_mem (w : Word) (s : State) : (s.start w).mem = s.mem := rfl
@[simp] theorem start_inbox (w : Word) (s : State) : (s.start w).inbox = s.inbox := rfl
@[simp] theorem start_portLog (w : Word) (s : State) : (s.start w).portLog = s.portLog := rfl
@[simp] theorem start_draws (w : Word) (s : State) : (s.start w).draws = s.draws := rfl

@[simp] theorem finish_platform (c : Cause) (s : State) : (s.finish c).platform = s.platform := rfl
@[simp] theorem finish_rst (c : Cause) (s : State) : (s.finish c).rst = s.rst := rfl
@[simp] theorem finish_engine (c : Cause) (s : State) : (s.finish c).engine = .idle := rfl
@[simp] theorem finish_status (c : Cause) (s : State) : (s.finish c).status = { s.status with done := true, result := c.result, cause := c } := rfl
@[simp] theorem finish_irqEn (c : Cause) (s : State) : (s.finish c).irqEn = s.irqEn := rfl
@[simp] theorem finish_donePend (c : Cause) (s : State) : (s.finish c).donePend = true := rfl
@[simp] theorem finish_srcAddr (c : Cause) (s : State) : (s.finish c).srcAddr = s.srcAddr := rfl
@[simp] theorem finish_srcLen (c : Cause) (s : State) : (s.finish c).srcLen = s.srcLen := rfl
@[simp] theorem finish_dstAddr (c : Cause) (s : State) : (s.finish c).dstAddr = s.dstAddr := rfl
@[simp] theorem finish_dstCap (c : Cause) (s : State) : (s.finish c).dstCap = s.dstCap := rfl
@[simp] theorem finish_consumed (c : Cause) (s : State) : (s.finish c).consumed = s.consumed := rfl
@[simp] theorem finish_written (c : Cause) (s : State) : (s.finish c).written = s.written := rfl
@[simp] theorem finish_lzWindow (c : Cause) (s : State) : (s.finish c).lzWindow = s.lzWindow := rfl
@[simp] theorem finish_lzMaxlen (c : Cause) (s : State) : (s.finish c).lzMaxlen = s.lzMaxlen := rfl
@[simp] theorem finish_lzOverlap (c : Cause) (s : State) : (s.finish c).lzOverlap = s.lzOverlap := rfl
@[simp] theorem finish_brBase (c : Cause) (s : State) : (s.finish c).brBase = s.brBase := rfl
@[simp] theorem finish_brLen (c : Cause) (s : State) : (s.finish c).brLen = s.brLen := rfl
@[simp] theorem finish_brByte (c : Cause) (s : State) : (s.finish c).brByte = s.brByte := rfl
@[simp] theorem finish_brBit (c : Cause) (s : State) : (s.finish c).brBit = s.brBit := rfl
@[simp] theorem finish_brLook (c : Cause) (s : State) : (s.finish c).brLook = s.brLook := rfl
@[simp] theorem finish_bwBase (c : Cause) (s : State) : (s.finish c).bwBase = s.bwBase := rfl
@[simp] theorem finish_bwCap (c : Cause) (s : State) : (s.finish c).bwCap = s.bwCap := rfl
@[simp] theorem finish_bwByte (c : Cause) (s : State) : (s.finish c).bwByte = s.bwByte := rfl
@[simp] theorem finish_bwBit (c : Cause) (s : State) : (s.finish c).bwBit = s.bwBit := rfl
@[simp] theorem finish_bwAcc (c : Cause) (s : State) : (s.finish c).bwAcc = s.bwAcc := rfl
@[simp] theorem finish_bwVal (c : Cause) (s : State) : (s.finish c).bwVal = s.bwVal := rfl
@[simp] theorem finish_hufSym (c : Cause) (s : State) : (s.finish c).hufSym = s.hufSym := rfl
@[simp] theorem finish_hufRes (c : Cause) (s : State) : (s.finish c).hufRes = s.hufRes := rfl
@[simp] theorem finish_slots (c : Cause) (s : State) : (s.finish c).slots = s.slots := rfl
@[simp] theorem finish_mem (c : Cause) (s : State) : (s.finish c).mem = s.mem := rfl
@[simp] theorem finish_inbox (c : Cause) (s : State) : (s.finish c).inbox = s.inbox := rfl
@[simp] theorem finish_portLog (c : Cause) (s : State) : (s.finish c).portLog = s.portLog := rfl
@[simp] theorem finish_draws (c : Cause) (s : State) : (s.finish c).draws = s.draws := rfl

@[simp] theorem finishOk_platform (s : State) : (s.finishOk).platform = s.platform := rfl
@[simp] theorem finishOk_rst (s : State) : (s.finishOk).rst = s.rst := rfl
@[simp] theorem finishOk_engine (s : State) : (s.finishOk).engine = .idle := rfl
@[simp] theorem finishOk_status (s : State) : (s.finishOk).status = { s.status with done := true, result := .ok, cause := .noCause } := rfl
@[simp] theorem finishOk_irqEn (s : State) : (s.finishOk).irqEn = s.irqEn := rfl
@[simp] theorem finishOk_donePend (s : State) : (s.finishOk).donePend = true := rfl
@[simp] theorem finishOk_srcAddr (s : State) : (s.finishOk).srcAddr = s.srcAddr := rfl
@[simp] theorem finishOk_srcLen (s : State) : (s.finishOk).srcLen = s.srcLen := rfl
@[simp] theorem finishOk_dstAddr (s : State) : (s.finishOk).dstAddr = s.dstAddr := rfl
@[simp] theorem finishOk_dstCap (s : State) : (s.finishOk).dstCap = s.dstCap := rfl
@[simp] theorem finishOk_consumed (s : State) : (s.finishOk).consumed = s.consumed := rfl
@[simp] theorem finishOk_written (s : State) : (s.finishOk).written = s.written := rfl
@[simp] theorem finishOk_lzWindow (s : State) : (s.finishOk).lzWindow = s.lzWindow := rfl
@[simp] theorem finishOk_lzMaxlen (s : State) : (s.finishOk).lzMaxlen = s.lzMaxlen := rfl
@[simp] theorem finishOk_lzOverlap (s : State) : (s.finishOk).lzOverlap = s.lzOverlap := rfl
@[simp] theorem finishOk_brBase (s : State) : (s.finishOk).brBase = s.brBase := rfl
@[simp] theorem finishOk_brLen (s : State) : (s.finishOk).brLen = s.brLen := rfl
@[simp] theorem finishOk_brByte (s : State) : (s.finishOk).brByte = s.brByte := rfl
@[simp] theorem finishOk_brBit (s : State) : (s.finishOk).brBit = s.brBit := rfl
@[simp] theorem finishOk_brLook (s : State) : (s.finishOk).brLook = s.brLook := rfl
@[simp] theorem finishOk_bwBase (s : State) : (s.finishOk).bwBase = s.bwBase := rfl
@[simp] theorem finishOk_bwCap (s : State) : (s.finishOk).bwCap = s.bwCap := rfl
@[simp] theorem finishOk_bwByte (s : State) : (s.finishOk).bwByte = s.bwByte := rfl
@[simp] theorem finishOk_bwBit (s : State) : (s.finishOk).bwBit = s.bwBit := rfl
@[simp] theorem finishOk_bwAcc (s : State) : (s.finishOk).bwAcc = s.bwAcc := rfl
@[simp] theorem finishOk_bwVal (s : State) : (s.finishOk).bwVal = s.bwVal := rfl
@[simp] theorem finishOk_hufSym (s : State) : (s.finishOk).hufSym = s.hufSym := rfl
@[simp] theorem finishOk_hufRes (s : State) : (s.finishOk).hufRes = s.hufRes := rfl
@[simp] theorem finishOk_slots (s : State) : (s.finishOk).slots = s.slots := rfl
@[simp] theorem finishOk_mem (s : State) : (s.finishOk).mem = s.mem := rfl
@[simp] theorem finishOk_inbox (s : State) : (s.finishOk).inbox = s.inbox := rfl
@[simp] theorem finishOk_portLog (s : State) : (s.finishOk).portLog = s.portLog := rfl
@[simp] theorem finishOk_draws (s : State) : (s.finishOk).draws = s.draws := rfl

@[simp] theorem failPlain_platform (c : Cause) (s : State) : (s.failPlain c).platform = s.platform := rfl
@[simp] theorem failPlain_rst (c : Cause) (s : State) : (s.failPlain c).rst = s.rst := rfl
@[simp] theorem failPlain_engine (c : Cause) (s : State) : (s.failPlain c).engine = .idle := rfl
@[simp] theorem failPlain_status (c : Cause) (s : State) : (s.failPlain c).status = { s.status.noteFailure c with done := true, result := c.result, cause := c } := rfl
@[simp] theorem failPlain_irqEn (c : Cause) (s : State) : (s.failPlain c).irqEn = s.irqEn := rfl
@[simp] theorem failPlain_donePend (c : Cause) (s : State) : (s.failPlain c).donePend = true := rfl
@[simp] theorem failPlain_srcAddr (c : Cause) (s : State) : (s.failPlain c).srcAddr = s.srcAddr := rfl
@[simp] theorem failPlain_srcLen (c : Cause) (s : State) : (s.failPlain c).srcLen = s.srcLen := rfl
@[simp] theorem failPlain_dstAddr (c : Cause) (s : State) : (s.failPlain c).dstAddr = s.dstAddr := rfl
@[simp] theorem failPlain_dstCap (c : Cause) (s : State) : (s.failPlain c).dstCap = s.dstCap := rfl
@[simp] theorem failPlain_consumed (c : Cause) (s : State) : (s.failPlain c).consumed = s.consumed := rfl
@[simp] theorem failPlain_written (c : Cause) (s : State) : (s.failPlain c).written = s.written := rfl
@[simp] theorem failPlain_lzWindow (c : Cause) (s : State) : (s.failPlain c).lzWindow = s.lzWindow := rfl
@[simp] theorem failPlain_lzMaxlen (c : Cause) (s : State) : (s.failPlain c).lzMaxlen = s.lzMaxlen := rfl
@[simp] theorem failPlain_lzOverlap (c : Cause) (s : State) : (s.failPlain c).lzOverlap = s.lzOverlap := rfl
@[simp] theorem failPlain_brBase (c : Cause) (s : State) : (s.failPlain c).brBase = s.brBase := rfl
@[simp] theorem failPlain_brLen (c : Cause) (s : State) : (s.failPlain c).brLen = s.brLen := rfl
@[simp] theorem failPlain_brByte (c : Cause) (s : State) : (s.failPlain c).brByte = s.brByte := rfl
@[simp] theorem failPlain_brBit (c : Cause) (s : State) : (s.failPlain c).brBit = s.brBit := rfl
@[simp] theorem failPlain_brLook (c : Cause) (s : State) : (s.failPlain c).brLook = s.brLook := rfl
@[simp] theorem failPlain_bwBase (c : Cause) (s : State) : (s.failPlain c).bwBase = s.bwBase := rfl
@[simp] theorem failPlain_bwCap (c : Cause) (s : State) : (s.failPlain c).bwCap = s.bwCap := rfl
@[simp] theorem failPlain_bwByte (c : Cause) (s : State) : (s.failPlain c).bwByte = s.bwByte := rfl
@[simp] theorem failPlain_bwBit (c : Cause) (s : State) : (s.failPlain c).bwBit = s.bwBit := rfl
@[simp] theorem failPlain_bwAcc (c : Cause) (s : State) : (s.failPlain c).bwAcc = s.bwAcc := rfl
@[simp] theorem failPlain_bwVal (c : Cause) (s : State) : (s.failPlain c).bwVal = s.bwVal := rfl
@[simp] theorem failPlain_hufSym (c : Cause) (s : State) : (s.failPlain c).hufSym = s.hufSym := rfl
@[simp] theorem failPlain_hufRes (c : Cause) (s : State) : (s.failPlain c).hufRes = s.hufRes := rfl
@[simp] theorem failPlain_slots (c : Cause) (s : State) : (s.failPlain c).slots = s.slots := rfl
@[simp] theorem failPlain_mem (c : Cause) (s : State) : (s.failPlain c).mem = s.mem := rfl
@[simp] theorem failPlain_inbox (c : Cause) (s : State) : (s.failPlain c).inbox = s.inbox := rfl
@[simp] theorem failPlain_portLog (c : Cause) (s : State) : (s.failPlain c).portLog = s.portLog := rfl
@[simp] theorem failPlain_draws (c : Cause) (s : State) : (s.failPlain c).draws = s.draws := rfl

@[simp] theorem report_platform (a b : Nat) (s : State) : (s.report a b).platform = s.platform := rfl
@[simp] theorem report_rst (a b : Nat) (s : State) : (s.report a b).rst = s.rst := rfl
@[simp] theorem report_engine (a b : Nat) (s : State) : (s.report a b).engine = s.engine := rfl
@[simp] theorem report_status (a b : Nat) (s : State) : (s.report a b).status = s.status := rfl
@[simp] theorem report_irqEn (a b : Nat) (s : State) : (s.report a b).irqEn = s.irqEn := rfl
@[simp] theorem report_donePend (a b : Nat) (s : State) : (s.report a b).donePend = s.donePend := rfl
@[simp] theorem report_srcAddr (a b : Nat) (s : State) : (s.report a b).srcAddr = s.srcAddr := rfl
@[simp] theorem report_srcLen (a b : Nat) (s : State) : (s.report a b).srcLen = s.srcLen := rfl
@[simp] theorem report_dstAddr (a b : Nat) (s : State) : (s.report a b).dstAddr = s.dstAddr := rfl
@[simp] theorem report_dstCap (a b : Nat) (s : State) : (s.report a b).dstCap = s.dstCap := rfl
@[simp] theorem report_consumed (a b : Nat) (s : State) : (s.report a b).consumed = BitVec.ofNat 32 a := rfl
@[simp] theorem report_written (a b : Nat) (s : State) : (s.report a b).written = BitVec.ofNat 32 b := rfl
@[simp] theorem report_lzWindow (a b : Nat) (s : State) : (s.report a b).lzWindow = s.lzWindow := rfl
@[simp] theorem report_lzMaxlen (a b : Nat) (s : State) : (s.report a b).lzMaxlen = s.lzMaxlen := rfl
@[simp] theorem report_lzOverlap (a b : Nat) (s : State) : (s.report a b).lzOverlap = s.lzOverlap := rfl
@[simp] theorem report_brBase (a b : Nat) (s : State) : (s.report a b).brBase = s.brBase := rfl
@[simp] theorem report_brLen (a b : Nat) (s : State) : (s.report a b).brLen = s.brLen := rfl
@[simp] theorem report_brByte (a b : Nat) (s : State) : (s.report a b).brByte = s.brByte := rfl
@[simp] theorem report_brBit (a b : Nat) (s : State) : (s.report a b).brBit = s.brBit := rfl
@[simp] theorem report_brLook (a b : Nat) (s : State) : (s.report a b).brLook = s.brLook := rfl
@[simp] theorem report_bwBase (a b : Nat) (s : State) : (s.report a b).bwBase = s.bwBase := rfl
@[simp] theorem report_bwCap (a b : Nat) (s : State) : (s.report a b).bwCap = s.bwCap := rfl
@[simp] theorem report_bwByte (a b : Nat) (s : State) : (s.report a b).bwByte = s.bwByte := rfl
@[simp] theorem report_bwBit (a b : Nat) (s : State) : (s.report a b).bwBit = s.bwBit := rfl
@[simp] theorem report_bwAcc (a b : Nat) (s : State) : (s.report a b).bwAcc = s.bwAcc := rfl
@[simp] theorem report_bwVal (a b : Nat) (s : State) : (s.report a b).bwVal = s.bwVal := rfl
@[simp] theorem report_hufSym (a b : Nat) (s : State) : (s.report a b).hufSym = s.hufSym := rfl
@[simp] theorem report_hufRes (a b : Nat) (s : State) : (s.report a b).hufRes = s.hufRes := rfl
@[simp] theorem report_slots (a b : Nat) (s : State) : (s.report a b).slots = s.slots := rfl
@[simp] theorem report_mem (a b : Nat) (s : State) : (s.report a b).mem = s.mem := rfl
@[simp] theorem report_inbox (a b : Nat) (s : State) : (s.report a b).inbox = s.inbox := rfl
@[simp] theorem report_portLog (a b : Nat) (s : State) : (s.report a b).portLog = s.portLog := rfl
@[simp] theorem report_draws (a b : Nat) (s : State) : (s.report a b).draws = s.draws := rfl

@[simp] theorem setSlot_platform (k : BitVec 2) (c : HufCode) (s : State) : (s.setSlot k c).platform = s.platform := rfl
@[simp] theorem setSlot_rst (k : BitVec 2) (c : HufCode) (s : State) : (s.setSlot k c).rst = s.rst := rfl
@[simp] theorem setSlot_engine (k : BitVec 2) (c : HufCode) (s : State) : (s.setSlot k c).engine = s.engine := rfl
@[simp] theorem setSlot_status (k : BitVec 2) (c : HufCode) (s : State) : (s.setSlot k c).status = s.status := rfl
@[simp] theorem setSlot_irqEn (k : BitVec 2) (c : HufCode) (s : State) : (s.setSlot k c).irqEn = s.irqEn := rfl
@[simp] theorem setSlot_donePend (k : BitVec 2) (c : HufCode) (s : State) : (s.setSlot k c).donePend = s.donePend := rfl
@[simp] theorem setSlot_srcAddr (k : BitVec 2) (c : HufCode) (s : State) : (s.setSlot k c).srcAddr = s.srcAddr := rfl
@[simp] theorem setSlot_srcLen (k : BitVec 2) (c : HufCode) (s : State) : (s.setSlot k c).srcLen = s.srcLen := rfl
@[simp] theorem setSlot_dstAddr (k : BitVec 2) (c : HufCode) (s : State) : (s.setSlot k c).dstAddr = s.dstAddr := rfl
@[simp] theorem setSlot_dstCap (k : BitVec 2) (c : HufCode) (s : State) : (s.setSlot k c).dstCap = s.dstCap := rfl
@[simp] theorem setSlot_consumed (k : BitVec 2) (c : HufCode) (s : State) : (s.setSlot k c).consumed = s.consumed := rfl
@[simp] theorem setSlot_written (k : BitVec 2) (c : HufCode) (s : State) : (s.setSlot k c).written = s.written := rfl
@[simp] theorem setSlot_lzWindow (k : BitVec 2) (c : HufCode) (s : State) : (s.setSlot k c).lzWindow = s.lzWindow := rfl
@[simp] theorem setSlot_lzMaxlen (k : BitVec 2) (c : HufCode) (s : State) : (s.setSlot k c).lzMaxlen = s.lzMaxlen := rfl
@[simp] theorem setSlot_lzOverlap (k : BitVec 2) (c : HufCode) (s : State) : (s.setSlot k c).lzOverlap = s.lzOverlap := rfl
@[simp] theorem setSlot_brBase (k : BitVec 2) (c : HufCode) (s : State) : (s.setSlot k c).brBase = s.brBase := rfl
@[simp] theorem setSlot_brLen (k : BitVec 2) (c : HufCode) (s : State) : (s.setSlot k c).brLen = s.brLen := rfl
@[simp] theorem setSlot_brByte (k : BitVec 2) (c : HufCode) (s : State) : (s.setSlot k c).brByte = s.brByte := rfl
@[simp] theorem setSlot_brBit (k : BitVec 2) (c : HufCode) (s : State) : (s.setSlot k c).brBit = s.brBit := rfl
@[simp] theorem setSlot_brLook (k : BitVec 2) (c : HufCode) (s : State) : (s.setSlot k c).brLook = s.brLook := rfl
@[simp] theorem setSlot_bwBase (k : BitVec 2) (c : HufCode) (s : State) : (s.setSlot k c).bwBase = s.bwBase := rfl
@[simp] theorem setSlot_bwCap (k : BitVec 2) (c : HufCode) (s : State) : (s.setSlot k c).bwCap = s.bwCap := rfl
@[simp] theorem setSlot_bwByte (k : BitVec 2) (c : HufCode) (s : State) : (s.setSlot k c).bwByte = s.bwByte := rfl
@[simp] theorem setSlot_bwBit (k : BitVec 2) (c : HufCode) (s : State) : (s.setSlot k c).bwBit = s.bwBit := rfl
@[simp] theorem setSlot_bwAcc (k : BitVec 2) (c : HufCode) (s : State) : (s.setSlot k c).bwAcc = s.bwAcc := rfl
@[simp] theorem setSlot_bwVal (k : BitVec 2) (c : HufCode) (s : State) : (s.setSlot k c).bwVal = s.bwVal := rfl
@[simp] theorem setSlot_hufSym (k : BitVec 2) (c : HufCode) (s : State) : (s.setSlot k c).hufSym = s.hufSym := rfl
@[simp] theorem setSlot_hufRes (k : BitVec 2) (c : HufCode) (s : State) : (s.setSlot k c).hufRes = s.hufRes := rfl
@[simp] theorem setSlot_slots (k : BitVec 2) (c : HufCode) (s : State) : (s.setSlot k c).slots = s.slots.set k.toNat (some c) (by omega) := rfl
@[simp] theorem setSlot_mem (k : BitVec 2) (c : HufCode) (s : State) : (s.setSlot k c).mem = s.mem := rfl
@[simp] theorem setSlot_inbox (k : BitVec 2) (c : HufCode) (s : State) : (s.setSlot k c).inbox = s.inbox := rfl
@[simp] theorem setSlot_portLog (k : BitVec 2) (c : HufCode) (s : State) : (s.setSlot k c).portLog = s.portLog := rfl
@[simp] theorem setSlot_draws (k : BitVec 2) (c : HufCode) (s : State) : (s.setSlot k c).draws = s.draws := rfl

@[simp] theorem setReadCursor_platform (c : ReadCursor) (s : State) : (s.setReadCursor c).platform = s.platform := rfl
@[simp] theorem setReadCursor_rst (c : ReadCursor) (s : State) : (s.setReadCursor c).rst = s.rst := rfl
@[simp] theorem setReadCursor_engine (c : ReadCursor) (s : State) : (s.setReadCursor c).engine = s.engine := rfl
@[simp] theorem setReadCursor_status (c : ReadCursor) (s : State) : (s.setReadCursor c).status = s.status := rfl
@[simp] theorem setReadCursor_irqEn (c : ReadCursor) (s : State) : (s.setReadCursor c).irqEn = s.irqEn := rfl
@[simp] theorem setReadCursor_donePend (c : ReadCursor) (s : State) : (s.setReadCursor c).donePend = s.donePend := rfl
@[simp] theorem setReadCursor_srcAddr (c : ReadCursor) (s : State) : (s.setReadCursor c).srcAddr = s.srcAddr := rfl
@[simp] theorem setReadCursor_srcLen (c : ReadCursor) (s : State) : (s.setReadCursor c).srcLen = s.srcLen := rfl
@[simp] theorem setReadCursor_dstAddr (c : ReadCursor) (s : State) : (s.setReadCursor c).dstAddr = s.dstAddr := rfl
@[simp] theorem setReadCursor_dstCap (c : ReadCursor) (s : State) : (s.setReadCursor c).dstCap = s.dstCap := rfl
@[simp] theorem setReadCursor_consumed (c : ReadCursor) (s : State) : (s.setReadCursor c).consumed = s.consumed := rfl
@[simp] theorem setReadCursor_written (c : ReadCursor) (s : State) : (s.setReadCursor c).written = s.written := rfl
@[simp] theorem setReadCursor_lzWindow (c : ReadCursor) (s : State) : (s.setReadCursor c).lzWindow = s.lzWindow := rfl
@[simp] theorem setReadCursor_lzMaxlen (c : ReadCursor) (s : State) : (s.setReadCursor c).lzMaxlen = s.lzMaxlen := rfl
@[simp] theorem setReadCursor_lzOverlap (c : ReadCursor) (s : State) : (s.setReadCursor c).lzOverlap = s.lzOverlap := rfl
@[simp] theorem setReadCursor_brBase (c : ReadCursor) (s : State) : (s.setReadCursor c).brBase = s.brBase := rfl
@[simp] theorem setReadCursor_brLen (c : ReadCursor) (s : State) : (s.setReadCursor c).brLen = s.brLen := rfl
@[simp] theorem setReadCursor_brByte (c : ReadCursor) (s : State) : (s.setReadCursor c).brByte = BitVec.ofNat 32 c.byte := rfl
@[simp] theorem setReadCursor_brBit (c : ReadCursor) (s : State) : (s.setReadCursor c).brBit = BitVec.ofNat 3 c.bit := rfl
@[simp] theorem setReadCursor_brLook (c : ReadCursor) (s : State) : (s.setReadCursor c).brLook = s.brLook := rfl
@[simp] theorem setReadCursor_bwBase (c : ReadCursor) (s : State) : (s.setReadCursor c).bwBase = s.bwBase := rfl
@[simp] theorem setReadCursor_bwCap (c : ReadCursor) (s : State) : (s.setReadCursor c).bwCap = s.bwCap := rfl
@[simp] theorem setReadCursor_bwByte (c : ReadCursor) (s : State) : (s.setReadCursor c).bwByte = s.bwByte := rfl
@[simp] theorem setReadCursor_bwBit (c : ReadCursor) (s : State) : (s.setReadCursor c).bwBit = s.bwBit := rfl
@[simp] theorem setReadCursor_bwAcc (c : ReadCursor) (s : State) : (s.setReadCursor c).bwAcc = s.bwAcc := rfl
@[simp] theorem setReadCursor_bwVal (c : ReadCursor) (s : State) : (s.setReadCursor c).bwVal = s.bwVal := rfl
@[simp] theorem setReadCursor_hufSym (c : ReadCursor) (s : State) : (s.setReadCursor c).hufSym = s.hufSym := rfl
@[simp] theorem setReadCursor_hufRes (c : ReadCursor) (s : State) : (s.setReadCursor c).hufRes = s.hufRes := rfl
@[simp] theorem setReadCursor_slots (c : ReadCursor) (s : State) : (s.setReadCursor c).slots = s.slots := rfl
@[simp] theorem setReadCursor_mem (c : ReadCursor) (s : State) : (s.setReadCursor c).mem = s.mem := rfl
@[simp] theorem setReadCursor_inbox (c : ReadCursor) (s : State) : (s.setReadCursor c).inbox = s.inbox := rfl
@[simp] theorem setReadCursor_portLog (c : ReadCursor) (s : State) : (s.setReadCursor c).portLog = s.portLog := rfl
@[simp] theorem setReadCursor_draws (c : ReadCursor) (s : State) : (s.setReadCursor c).draws = s.draws := rfl

@[simp] theorem latchLook_platform (v : Nat) (s : State) : (s.latchLook v).platform = s.platform := rfl
@[simp] theorem latchLook_rst (v : Nat) (s : State) : (s.latchLook v).rst = s.rst := rfl
@[simp] theorem latchLook_engine (v : Nat) (s : State) : (s.latchLook v).engine = s.engine := rfl
@[simp] theorem latchLook_status (v : Nat) (s : State) : (s.latchLook v).status = s.status := rfl
@[simp] theorem latchLook_irqEn (v : Nat) (s : State) : (s.latchLook v).irqEn = s.irqEn := rfl
@[simp] theorem latchLook_donePend (v : Nat) (s : State) : (s.latchLook v).donePend = s.donePend := rfl
@[simp] theorem latchLook_srcAddr (v : Nat) (s : State) : (s.latchLook v).srcAddr = s.srcAddr := rfl
@[simp] theorem latchLook_srcLen (v : Nat) (s : State) : (s.latchLook v).srcLen = s.srcLen := rfl
@[simp] theorem latchLook_dstAddr (v : Nat) (s : State) : (s.latchLook v).dstAddr = s.dstAddr := rfl
@[simp] theorem latchLook_dstCap (v : Nat) (s : State) : (s.latchLook v).dstCap = s.dstCap := rfl
@[simp] theorem latchLook_consumed (v : Nat) (s : State) : (s.latchLook v).consumed = s.consumed := rfl
@[simp] theorem latchLook_written (v : Nat) (s : State) : (s.latchLook v).written = s.written := rfl
@[simp] theorem latchLook_lzWindow (v : Nat) (s : State) : (s.latchLook v).lzWindow = s.lzWindow := rfl
@[simp] theorem latchLook_lzMaxlen (v : Nat) (s : State) : (s.latchLook v).lzMaxlen = s.lzMaxlen := rfl
@[simp] theorem latchLook_lzOverlap (v : Nat) (s : State) : (s.latchLook v).lzOverlap = s.lzOverlap := rfl
@[simp] theorem latchLook_brBase (v : Nat) (s : State) : (s.latchLook v).brBase = s.brBase := rfl
@[simp] theorem latchLook_brLen (v : Nat) (s : State) : (s.latchLook v).brLen = s.brLen := rfl
@[simp] theorem latchLook_brByte (v : Nat) (s : State) : (s.latchLook v).brByte = s.brByte := rfl
@[simp] theorem latchLook_brBit (v : Nat) (s : State) : (s.latchLook v).brBit = s.brBit := rfl
@[simp] theorem latchLook_brLook (v : Nat) (s : State) : (s.latchLook v).brLook = BitVec.ofNat 64 v := rfl
@[simp] theorem latchLook_bwBase (v : Nat) (s : State) : (s.latchLook v).bwBase = s.bwBase := rfl
@[simp] theorem latchLook_bwCap (v : Nat) (s : State) : (s.latchLook v).bwCap = s.bwCap := rfl
@[simp] theorem latchLook_bwByte (v : Nat) (s : State) : (s.latchLook v).bwByte = s.bwByte := rfl
@[simp] theorem latchLook_bwBit (v : Nat) (s : State) : (s.latchLook v).bwBit = s.bwBit := rfl
@[simp] theorem latchLook_bwAcc (v : Nat) (s : State) : (s.latchLook v).bwAcc = s.bwAcc := rfl
@[simp] theorem latchLook_bwVal (v : Nat) (s : State) : (s.latchLook v).bwVal = s.bwVal := rfl
@[simp] theorem latchLook_hufSym (v : Nat) (s : State) : (s.latchLook v).hufSym = s.hufSym := rfl
@[simp] theorem latchLook_hufRes (v : Nat) (s : State) : (s.latchLook v).hufRes = s.hufRes := rfl
@[simp] theorem latchLook_slots (v : Nat) (s : State) : (s.latchLook v).slots = s.slots := rfl
@[simp] theorem latchLook_mem (v : Nat) (s : State) : (s.latchLook v).mem = s.mem := rfl
@[simp] theorem latchLook_inbox (v : Nat) (s : State) : (s.latchLook v).inbox = s.inbox := rfl
@[simp] theorem latchLook_portLog (v : Nat) (s : State) : (s.latchLook v).portLog = s.portLog := rfl
@[simp] theorem latchLook_draws (v : Nat) (s : State) : (s.latchLook v).draws = s.draws := rfl

@[simp] theorem setWriteCursor_platform (c : WriteCursor) (s : State) : (s.setWriteCursor c).platform = s.platform := rfl
@[simp] theorem setWriteCursor_rst (c : WriteCursor) (s : State) : (s.setWriteCursor c).rst = s.rst := rfl
@[simp] theorem setWriteCursor_engine (c : WriteCursor) (s : State) : (s.setWriteCursor c).engine = s.engine := rfl
@[simp] theorem setWriteCursor_status (c : WriteCursor) (s : State) : (s.setWriteCursor c).status = s.status := rfl
@[simp] theorem setWriteCursor_irqEn (c : WriteCursor) (s : State) : (s.setWriteCursor c).irqEn = s.irqEn := rfl
@[simp] theorem setWriteCursor_donePend (c : WriteCursor) (s : State) : (s.setWriteCursor c).donePend = s.donePend := rfl
@[simp] theorem setWriteCursor_srcAddr (c : WriteCursor) (s : State) : (s.setWriteCursor c).srcAddr = s.srcAddr := rfl
@[simp] theorem setWriteCursor_srcLen (c : WriteCursor) (s : State) : (s.setWriteCursor c).srcLen = s.srcLen := rfl
@[simp] theorem setWriteCursor_dstAddr (c : WriteCursor) (s : State) : (s.setWriteCursor c).dstAddr = s.dstAddr := rfl
@[simp] theorem setWriteCursor_dstCap (c : WriteCursor) (s : State) : (s.setWriteCursor c).dstCap = s.dstCap := rfl
@[simp] theorem setWriteCursor_consumed (c : WriteCursor) (s : State) : (s.setWriteCursor c).consumed = s.consumed := rfl
@[simp] theorem setWriteCursor_written (c : WriteCursor) (s : State) : (s.setWriteCursor c).written = s.written := rfl
@[simp] theorem setWriteCursor_lzWindow (c : WriteCursor) (s : State) : (s.setWriteCursor c).lzWindow = s.lzWindow := rfl
@[simp] theorem setWriteCursor_lzMaxlen (c : WriteCursor) (s : State) : (s.setWriteCursor c).lzMaxlen = s.lzMaxlen := rfl
@[simp] theorem setWriteCursor_lzOverlap (c : WriteCursor) (s : State) : (s.setWriteCursor c).lzOverlap = s.lzOverlap := rfl
@[simp] theorem setWriteCursor_brBase (c : WriteCursor) (s : State) : (s.setWriteCursor c).brBase = s.brBase := rfl
@[simp] theorem setWriteCursor_brLen (c : WriteCursor) (s : State) : (s.setWriteCursor c).brLen = s.brLen := rfl
@[simp] theorem setWriteCursor_brByte (c : WriteCursor) (s : State) : (s.setWriteCursor c).brByte = s.brByte := rfl
@[simp] theorem setWriteCursor_brBit (c : WriteCursor) (s : State) : (s.setWriteCursor c).brBit = s.brBit := rfl
@[simp] theorem setWriteCursor_brLook (c : WriteCursor) (s : State) : (s.setWriteCursor c).brLook = s.brLook := rfl
@[simp] theorem setWriteCursor_bwBase (c : WriteCursor) (s : State) : (s.setWriteCursor c).bwBase = s.bwBase := rfl
@[simp] theorem setWriteCursor_bwCap (c : WriteCursor) (s : State) : (s.setWriteCursor c).bwCap = s.bwCap := rfl
@[simp] theorem setWriteCursor_bwByte (c : WriteCursor) (s : State) : (s.setWriteCursor c).bwByte = BitVec.ofNat 32 c.byte := rfl
@[simp] theorem setWriteCursor_bwBit (c : WriteCursor) (s : State) : (s.setWriteCursor c).bwBit = BitVec.ofNat 3 c.bit := rfl
@[simp] theorem setWriteCursor_bwAcc (c : WriteCursor) (s : State) : (s.setWriteCursor c).bwAcc = c.acc := rfl
@[simp] theorem setWriteCursor_bwVal (c : WriteCursor) (s : State) : (s.setWriteCursor c).bwVal = s.bwVal := rfl
@[simp] theorem setWriteCursor_hufSym (c : WriteCursor) (s : State) : (s.setWriteCursor c).hufSym = s.hufSym := rfl
@[simp] theorem setWriteCursor_hufRes (c : WriteCursor) (s : State) : (s.setWriteCursor c).hufRes = s.hufRes := rfl
@[simp] theorem setWriteCursor_slots (c : WriteCursor) (s : State) : (s.setWriteCursor c).slots = s.slots := rfl
@[simp] theorem setWriteCursor_mem (c : WriteCursor) (s : State) : (s.setWriteCursor c).mem = s.mem.applyWrites c.writes := rfl
@[simp] theorem setWriteCursor_inbox (c : WriteCursor) (s : State) : (s.setWriteCursor c).inbox = s.inbox := rfl
@[simp] theorem setWriteCursor_portLog (c : WriteCursor) (s : State) : (s.setWriteCursor c).portLog = s.portLog := rfl
@[simp] theorem setWriteCursor_draws (c : WriteCursor) (s : State) : (s.setWriteCursor c).draws = s.draws := rfl

@[simp] theorem deliver_platform (out : List Byte) (k : Nat) (s : State) : (s.deliver out k).platform = s.platform := rfl
@[simp] theorem deliver_rst (out : List Byte) (k : Nat) (s : State) : (s.deliver out k).rst = s.rst := rfl
@[simp] theorem deliver_engine (out : List Byte) (k : Nat) (s : State) : (s.deliver out k).engine = .idle := rfl
@[simp] theorem deliver_status (out : List Byte) (k : Nat) (s : State) : (s.deliver out k).status = { s.status with done := true, result := .ok, cause := .noCause } := rfl
@[simp] theorem deliver_irqEn (out : List Byte) (k : Nat) (s : State) : (s.deliver out k).irqEn = s.irqEn := rfl
@[simp] theorem deliver_donePend (out : List Byte) (k : Nat) (s : State) : (s.deliver out k).donePend = true := rfl
@[simp] theorem deliver_srcAddr (out : List Byte) (k : Nat) (s : State) : (s.deliver out k).srcAddr = s.srcAddr := rfl
@[simp] theorem deliver_srcLen (out : List Byte) (k : Nat) (s : State) : (s.deliver out k).srcLen = s.srcLen := rfl
@[simp] theorem deliver_dstAddr (out : List Byte) (k : Nat) (s : State) : (s.deliver out k).dstAddr = s.dstAddr := rfl
@[simp] theorem deliver_dstCap (out : List Byte) (k : Nat) (s : State) : (s.deliver out k).dstCap = s.dstCap := rfl
@[simp] theorem deliver_consumed (out : List Byte) (k : Nat) (s : State) : (s.deliver out k).consumed = BitVec.ofNat 32 k := rfl
@[simp] theorem deliver_written (out : List Byte) (k : Nat) (s : State) : (s.deliver out k).written = BitVec.ofNat 32 out.length := rfl
@[simp] theorem deliver_lzWindow (out : List Byte) (k : Nat) (s : State) : (s.deliver out k).lzWindow = s.lzWindow := rfl
@[simp] theorem deliver_lzMaxlen (out : List Byte) (k : Nat) (s : State) : (s.deliver out k).lzMaxlen = s.lzMaxlen := rfl
@[simp] theorem deliver_lzOverlap (out : List Byte) (k : Nat) (s : State) : (s.deliver out k).lzOverlap = s.lzOverlap := rfl
@[simp] theorem deliver_brBase (out : List Byte) (k : Nat) (s : State) : (s.deliver out k).brBase = s.brBase := rfl
@[simp] theorem deliver_brLen (out : List Byte) (k : Nat) (s : State) : (s.deliver out k).brLen = s.brLen := rfl
@[simp] theorem deliver_brByte (out : List Byte) (k : Nat) (s : State) : (s.deliver out k).brByte = s.brByte := rfl
@[simp] theorem deliver_brBit (out : List Byte) (k : Nat) (s : State) : (s.deliver out k).brBit = s.brBit := rfl
@[simp] theorem deliver_brLook (out : List Byte) (k : Nat) (s : State) : (s.deliver out k).brLook = s.brLook := rfl
@[simp] theorem deliver_bwBase (out : List Byte) (k : Nat) (s : State) : (s.deliver out k).bwBase = s.bwBase := rfl
@[simp] theorem deliver_bwCap (out : List Byte) (k : Nat) (s : State) : (s.deliver out k).bwCap = s.bwCap := rfl
@[simp] theorem deliver_bwByte (out : List Byte) (k : Nat) (s : State) : (s.deliver out k).bwByte = s.bwByte := rfl
@[simp] theorem deliver_bwBit (out : List Byte) (k : Nat) (s : State) : (s.deliver out k).bwBit = s.bwBit := rfl
@[simp] theorem deliver_bwAcc (out : List Byte) (k : Nat) (s : State) : (s.deliver out k).bwAcc = s.bwAcc := rfl
@[simp] theorem deliver_bwVal (out : List Byte) (k : Nat) (s : State) : (s.deliver out k).bwVal = s.bwVal := rfl
@[simp] theorem deliver_hufSym (out : List Byte) (k : Nat) (s : State) : (s.deliver out k).hufSym = s.hufSym := rfl
@[simp] theorem deliver_hufRes (out : List Byte) (k : Nat) (s : State) : (s.deliver out k).hufRes = s.hufRes := rfl
@[simp] theorem deliver_slots (out : List Byte) (k : Nat) (s : State) : (s.deliver out k).slots = s.slots := rfl
@[simp] theorem deliver_mem (out : List Byte) (k : Nat) (s : State) : (s.deliver out k).mem = s.mem.writeBytes s.dstAddr.toNat out := rfl
@[simp] theorem deliver_inbox (out : List Byte) (k : Nat) (s : State) : (s.deliver out k).inbox = s.inbox := rfl
@[simp] theorem deliver_portLog (out : List Byte) (k : Nat) (s : State) : (s.deliver out k).portLog = s.portLog := rfl
@[simp] theorem deliver_draws (out : List Byte) (k : Nat) (s : State) : (s.deliver out k).draws = s.draws := rfl

@[simp] theorem deliverWrites_platform (wr : WriteCursor) (s : State) : (s.deliverWrites wr).platform = s.platform := rfl
@[simp] theorem deliverWrites_rst (wr : WriteCursor) (s : State) : (s.deliverWrites wr).rst = s.rst := rfl
@[simp] theorem deliverWrites_engine (wr : WriteCursor) (s : State) : (s.deliverWrites wr).engine = .idle := rfl
@[simp] theorem deliverWrites_status (wr : WriteCursor) (s : State) : (s.deliverWrites wr).status = { s.status with done := true, result := .ok, cause := .noCause } := rfl
@[simp] theorem deliverWrites_irqEn (wr : WriteCursor) (s : State) : (s.deliverWrites wr).irqEn = s.irqEn := rfl
@[simp] theorem deliverWrites_donePend (wr : WriteCursor) (s : State) : (s.deliverWrites wr).donePend = true := rfl
@[simp] theorem deliverWrites_srcAddr (wr : WriteCursor) (s : State) : (s.deliverWrites wr).srcAddr = s.srcAddr := rfl
@[simp] theorem deliverWrites_srcLen (wr : WriteCursor) (s : State) : (s.deliverWrites wr).srcLen = s.srcLen := rfl
@[simp] theorem deliverWrites_dstAddr (wr : WriteCursor) (s : State) : (s.deliverWrites wr).dstAddr = s.dstAddr := rfl
@[simp] theorem deliverWrites_dstCap (wr : WriteCursor) (s : State) : (s.deliverWrites wr).dstCap = s.dstCap := rfl
@[simp] theorem deliverWrites_consumed (wr : WriteCursor) (s : State) : (s.deliverWrites wr).consumed = BitVec.ofNat 32 s.srcLen.toNat := rfl
@[simp] theorem deliverWrites_written (wr : WriteCursor) (s : State) : (s.deliverWrites wr).written = BitVec.ofNat 32 wr.byte := rfl
@[simp] theorem deliverWrites_lzWindow (wr : WriteCursor) (s : State) : (s.deliverWrites wr).lzWindow = s.lzWindow := rfl
@[simp] theorem deliverWrites_lzMaxlen (wr : WriteCursor) (s : State) : (s.deliverWrites wr).lzMaxlen = s.lzMaxlen := rfl
@[simp] theorem deliverWrites_lzOverlap (wr : WriteCursor) (s : State) : (s.deliverWrites wr).lzOverlap = s.lzOverlap := rfl
@[simp] theorem deliverWrites_brBase (wr : WriteCursor) (s : State) : (s.deliverWrites wr).brBase = s.brBase := rfl
@[simp] theorem deliverWrites_brLen (wr : WriteCursor) (s : State) : (s.deliverWrites wr).brLen = s.brLen := rfl
@[simp] theorem deliverWrites_brByte (wr : WriteCursor) (s : State) : (s.deliverWrites wr).brByte = s.brByte := rfl
@[simp] theorem deliverWrites_brBit (wr : WriteCursor) (s : State) : (s.deliverWrites wr).brBit = s.brBit := rfl
@[simp] theorem deliverWrites_brLook (wr : WriteCursor) (s : State) : (s.deliverWrites wr).brLook = s.brLook := rfl
@[simp] theorem deliverWrites_bwBase (wr : WriteCursor) (s : State) : (s.deliverWrites wr).bwBase = s.bwBase := rfl
@[simp] theorem deliverWrites_bwCap (wr : WriteCursor) (s : State) : (s.deliverWrites wr).bwCap = s.bwCap := rfl
@[simp] theorem deliverWrites_bwByte (wr : WriteCursor) (s : State) : (s.deliverWrites wr).bwByte = s.bwByte := rfl
@[simp] theorem deliverWrites_bwBit (wr : WriteCursor) (s : State) : (s.deliverWrites wr).bwBit = s.bwBit := rfl
@[simp] theorem deliverWrites_bwAcc (wr : WriteCursor) (s : State) : (s.deliverWrites wr).bwAcc = s.bwAcc := rfl
@[simp] theorem deliverWrites_bwVal (wr : WriteCursor) (s : State) : (s.deliverWrites wr).bwVal = s.bwVal := rfl
@[simp] theorem deliverWrites_hufSym (wr : WriteCursor) (s : State) : (s.deliverWrites wr).hufSym = s.hufSym := rfl
@[simp] theorem deliverWrites_hufRes (wr : WriteCursor) (s : State) : (s.deliverWrites wr).hufRes = s.hufRes := rfl
@[simp] theorem deliverWrites_slots (wr : WriteCursor) (s : State) : (s.deliverWrites wr).slots = s.slots := rfl
@[simp] theorem deliverWrites_mem (wr : WriteCursor) (s : State) : (s.deliverWrites wr).mem = s.mem.applyWrites wr.writes := rfl
@[simp] theorem deliverWrites_inbox (wr : WriteCursor) (s : State) : (s.deliverWrites wr).inbox = s.inbox := rfl
@[simp] theorem deliverWrites_portLog (wr : WriteCursor) (s : State) : (s.deliverWrites wr).portLog = s.portLog := rfl
@[simp] theorem deliverWrites_draws (wr : WriteCursor) (s : State) : (s.deliverWrites wr).draws = s.draws := rfl

@[simp] theorem answer_platform (v : Word) (s : State) : (s.answer v).platform = s.platform := rfl
@[simp] theorem answer_rst (v : Word) (s : State) : (s.answer v).rst = s.rst := rfl
@[simp] theorem answer_engine (v : Word) (s : State) : (s.answer v).engine = s.engine := rfl
@[simp] theorem answer_status (v : Word) (s : State) : (s.answer v).status = s.status := rfl
@[simp] theorem answer_irqEn (v : Word) (s : State) : (s.answer v).irqEn = s.irqEn := rfl
@[simp] theorem answer_donePend (v : Word) (s : State) : (s.answer v).donePend = s.donePend := rfl
@[simp] theorem answer_srcAddr (v : Word) (s : State) : (s.answer v).srcAddr = s.srcAddr := rfl
@[simp] theorem answer_srcLen (v : Word) (s : State) : (s.answer v).srcLen = s.srcLen := rfl
@[simp] theorem answer_dstAddr (v : Word) (s : State) : (s.answer v).dstAddr = s.dstAddr := rfl
@[simp] theorem answer_dstCap (v : Word) (s : State) : (s.answer v).dstCap = s.dstCap := rfl
@[simp] theorem answer_consumed (v : Word) (s : State) : (s.answer v).consumed = s.consumed := rfl
@[simp] theorem answer_written (v : Word) (s : State) : (s.answer v).written = s.written := rfl
@[simp] theorem answer_lzWindow (v : Word) (s : State) : (s.answer v).lzWindow = s.lzWindow := rfl
@[simp] theorem answer_lzMaxlen (v : Word) (s : State) : (s.answer v).lzMaxlen = s.lzMaxlen := rfl
@[simp] theorem answer_lzOverlap (v : Word) (s : State) : (s.answer v).lzOverlap = s.lzOverlap := rfl
@[simp] theorem answer_brBase (v : Word) (s : State) : (s.answer v).brBase = s.brBase := rfl
@[simp] theorem answer_brLen (v : Word) (s : State) : (s.answer v).brLen = s.brLen := rfl
@[simp] theorem answer_brByte (v : Word) (s : State) : (s.answer v).brByte = s.brByte := rfl
@[simp] theorem answer_brBit (v : Word) (s : State) : (s.answer v).brBit = s.brBit := rfl
@[simp] theorem answer_brLook (v : Word) (s : State) : (s.answer v).brLook = s.brLook := rfl
@[simp] theorem answer_bwBase (v : Word) (s : State) : (s.answer v).bwBase = s.bwBase := rfl
@[simp] theorem answer_bwCap (v : Word) (s : State) : (s.answer v).bwCap = s.bwCap := rfl
@[simp] theorem answer_bwByte (v : Word) (s : State) : (s.answer v).bwByte = s.bwByte := rfl
@[simp] theorem answer_bwBit (v : Word) (s : State) : (s.answer v).bwBit = s.bwBit := rfl
@[simp] theorem answer_bwAcc (v : Word) (s : State) : (s.answer v).bwAcc = s.bwAcc := rfl
@[simp] theorem answer_bwVal (v : Word) (s : State) : (s.answer v).bwVal = s.bwVal := rfl
@[simp] theorem answer_hufSym (v : Word) (s : State) : (s.answer v).hufSym = s.hufSym := rfl
@[simp] theorem answer_hufRes (v : Word) (s : State) : (s.answer v).hufRes = s.hufRes := rfl
@[simp] theorem answer_slots (v : Word) (s : State) : (s.answer v).slots = s.slots := rfl
@[simp] theorem answer_mem (v : Word) (s : State) : (s.answer v).mem = s.mem := rfl
@[simp] theorem answer_inbox (v : Word) (s : State) : (s.answer v).inbox = s.inbox := rfl
@[simp] theorem answer_portLog (v : Word) (s : State) : (s.answer v).portLog = v :: s.portLog := rfl
@[simp] theorem answer_draws (v : Word) (s : State) : (s.answer v).draws = s.draws := rfl

@[simp] theorem answerFreeWord_platform (s : State) : (s.answerFreeWord).platform = s.platform := rfl
@[simp] theorem answerFreeWord_rst (s : State) : (s.answerFreeWord).rst = s.rst := rfl
@[simp] theorem answerFreeWord_engine (s : State) : (s.answerFreeWord).engine = s.engine := rfl
@[simp] theorem answerFreeWord_status (s : State) : (s.answerFreeWord).status = s.status := rfl
@[simp] theorem answerFreeWord_irqEn (s : State) : (s.answerFreeWord).irqEn = s.irqEn := rfl
@[simp] theorem answerFreeWord_donePend (s : State) : (s.answerFreeWord).donePend = s.donePend := rfl
@[simp] theorem answerFreeWord_srcAddr (s : State) : (s.answerFreeWord).srcAddr = s.srcAddr := rfl
@[simp] theorem answerFreeWord_srcLen (s : State) : (s.answerFreeWord).srcLen = s.srcLen := rfl
@[simp] theorem answerFreeWord_dstAddr (s : State) : (s.answerFreeWord).dstAddr = s.dstAddr := rfl
@[simp] theorem answerFreeWord_dstCap (s : State) : (s.answerFreeWord).dstCap = s.dstCap := rfl
@[simp] theorem answerFreeWord_consumed (s : State) : (s.answerFreeWord).consumed = s.consumed := rfl
@[simp] theorem answerFreeWord_written (s : State) : (s.answerFreeWord).written = s.written := rfl
@[simp] theorem answerFreeWord_lzWindow (s : State) : (s.answerFreeWord).lzWindow = s.lzWindow := rfl
@[simp] theorem answerFreeWord_lzMaxlen (s : State) : (s.answerFreeWord).lzMaxlen = s.lzMaxlen := rfl
@[simp] theorem answerFreeWord_lzOverlap (s : State) : (s.answerFreeWord).lzOverlap = s.lzOverlap := rfl
@[simp] theorem answerFreeWord_brBase (s : State) : (s.answerFreeWord).brBase = s.brBase := rfl
@[simp] theorem answerFreeWord_brLen (s : State) : (s.answerFreeWord).brLen = s.brLen := rfl
@[simp] theorem answerFreeWord_brByte (s : State) : (s.answerFreeWord).brByte = s.brByte := rfl
@[simp] theorem answerFreeWord_brBit (s : State) : (s.answerFreeWord).brBit = s.brBit := rfl
@[simp] theorem answerFreeWord_brLook (s : State) : (s.answerFreeWord).brLook = s.brLook := rfl
@[simp] theorem answerFreeWord_bwBase (s : State) : (s.answerFreeWord).bwBase = s.bwBase := rfl
@[simp] theorem answerFreeWord_bwCap (s : State) : (s.answerFreeWord).bwCap = s.bwCap := rfl
@[simp] theorem answerFreeWord_bwByte (s : State) : (s.answerFreeWord).bwByte = s.bwByte := rfl
@[simp] theorem answerFreeWord_bwBit (s : State) : (s.answerFreeWord).bwBit = s.bwBit := rfl
@[simp] theorem answerFreeWord_bwAcc (s : State) : (s.answerFreeWord).bwAcc = s.bwAcc := rfl
@[simp] theorem answerFreeWord_bwVal (s : State) : (s.answerFreeWord).bwVal = s.bwVal := rfl
@[simp] theorem answerFreeWord_hufSym (s : State) : (s.answerFreeWord).hufSym = s.hufSym := rfl
@[simp] theorem answerFreeWord_hufRes (s : State) : (s.answerFreeWord).hufRes = s.hufRes := rfl
@[simp] theorem answerFreeWord_slots (s : State) : (s.answerFreeWord).slots = s.slots := rfl
@[simp] theorem answerFreeWord_mem (s : State) : (s.answerFreeWord).mem = s.mem := rfl
@[simp] theorem answerFreeWord_inbox (s : State) : (s.answerFreeWord).inbox = s.inbox := rfl
@[simp] theorem answerFreeWord_portLog (s : State) : (s.answerFreeWord).portLog = Config.freeWord s.draws :: s.portLog := rfl
@[simp] theorem answerFreeWord_draws (s : State) : (s.answerFreeWord).draws = s.draws + 1 := rfl

@[simp] theorem answerFreeByte_platform (s : State) : (s.answerFreeByte).platform = s.platform := rfl
@[simp] theorem answerFreeByte_rst (s : State) : (s.answerFreeByte).rst = s.rst := rfl
@[simp] theorem answerFreeByte_engine (s : State) : (s.answerFreeByte).engine = s.engine := rfl
@[simp] theorem answerFreeByte_status (s : State) : (s.answerFreeByte).status = s.status := rfl
@[simp] theorem answerFreeByte_irqEn (s : State) : (s.answerFreeByte).irqEn = s.irqEn := rfl
@[simp] theorem answerFreeByte_donePend (s : State) : (s.answerFreeByte).donePend = s.donePend := rfl
@[simp] theorem answerFreeByte_srcAddr (s : State) : (s.answerFreeByte).srcAddr = s.srcAddr := rfl
@[simp] theorem answerFreeByte_srcLen (s : State) : (s.answerFreeByte).srcLen = s.srcLen := rfl
@[simp] theorem answerFreeByte_dstAddr (s : State) : (s.answerFreeByte).dstAddr = s.dstAddr := rfl
@[simp] theorem answerFreeByte_dstCap (s : State) : (s.answerFreeByte).dstCap = s.dstCap := rfl
@[simp] theorem answerFreeByte_consumed (s : State) : (s.answerFreeByte).consumed = s.consumed := rfl
@[simp] theorem answerFreeByte_written (s : State) : (s.answerFreeByte).written = s.written := rfl
@[simp] theorem answerFreeByte_lzWindow (s : State) : (s.answerFreeByte).lzWindow = s.lzWindow := rfl
@[simp] theorem answerFreeByte_lzMaxlen (s : State) : (s.answerFreeByte).lzMaxlen = s.lzMaxlen := rfl
@[simp] theorem answerFreeByte_lzOverlap (s : State) : (s.answerFreeByte).lzOverlap = s.lzOverlap := rfl
@[simp] theorem answerFreeByte_brBase (s : State) : (s.answerFreeByte).brBase = s.brBase := rfl
@[simp] theorem answerFreeByte_brLen (s : State) : (s.answerFreeByte).brLen = s.brLen := rfl
@[simp] theorem answerFreeByte_brByte (s : State) : (s.answerFreeByte).brByte = s.brByte := rfl
@[simp] theorem answerFreeByte_brBit (s : State) : (s.answerFreeByte).brBit = s.brBit := rfl
@[simp] theorem answerFreeByte_brLook (s : State) : (s.answerFreeByte).brLook = s.brLook := rfl
@[simp] theorem answerFreeByte_bwBase (s : State) : (s.answerFreeByte).bwBase = s.bwBase := rfl
@[simp] theorem answerFreeByte_bwCap (s : State) : (s.answerFreeByte).bwCap = s.bwCap := rfl
@[simp] theorem answerFreeByte_bwByte (s : State) : (s.answerFreeByte).bwByte = s.bwByte := rfl
@[simp] theorem answerFreeByte_bwBit (s : State) : (s.answerFreeByte).bwBit = s.bwBit := rfl
@[simp] theorem answerFreeByte_bwAcc (s : State) : (s.answerFreeByte).bwAcc = s.bwAcc := rfl
@[simp] theorem answerFreeByte_bwVal (s : State) : (s.answerFreeByte).bwVal = s.bwVal := rfl
@[simp] theorem answerFreeByte_hufSym (s : State) : (s.answerFreeByte).hufSym = s.hufSym := rfl
@[simp] theorem answerFreeByte_hufRes (s : State) : (s.answerFreeByte).hufRes = s.hufRes := rfl
@[simp] theorem answerFreeByte_slots (s : State) : (s.answerFreeByte).slots = s.slots := rfl
@[simp] theorem answerFreeByte_mem (s : State) : (s.answerFreeByte).mem = s.mem := rfl
@[simp] theorem answerFreeByte_inbox (s : State) : (s.answerFreeByte).inbox = s.inbox := rfl
@[simp] theorem answerFreeByte_portLog (s : State) : (s.answerFreeByte).portLog = (Config.freeByte s.draws).setWidth 32 :: s.portLog := rfl
@[simp] theorem answerFreeByte_draws (s : State) : (s.answerFreeByte).draws = s.draws + 1 := rfl

@[simp] theorem hardReset_platform (s : State) : (s.hardReset).platform = s.platform := rfl
@[simp] theorem hardReset_rst (s : State) : (s.hardReset).rst = s.rst := rfl
@[simp] theorem hardReset_engine (s : State) : (s.hardReset).engine = State.reset.engine := rfl
@[simp] theorem hardReset_status (s : State) : (s.hardReset).status = State.reset.status := rfl
@[simp] theorem hardReset_irqEn (s : State) : (s.hardReset).irqEn = State.reset.irqEn := rfl
@[simp] theorem hardReset_donePend (s : State) : (s.hardReset).donePend = State.reset.donePend := rfl
@[simp] theorem hardReset_srcAddr (s : State) : (s.hardReset).srcAddr = State.reset.srcAddr := rfl
@[simp] theorem hardReset_srcLen (s : State) : (s.hardReset).srcLen = State.reset.srcLen := rfl
@[simp] theorem hardReset_dstAddr (s : State) : (s.hardReset).dstAddr = State.reset.dstAddr := rfl
@[simp] theorem hardReset_dstCap (s : State) : (s.hardReset).dstCap = State.reset.dstCap := rfl
@[simp] theorem hardReset_consumed (s : State) : (s.hardReset).consumed = State.reset.consumed := rfl
@[simp] theorem hardReset_written (s : State) : (s.hardReset).written = State.reset.written := rfl
@[simp] theorem hardReset_lzWindow (s : State) : (s.hardReset).lzWindow = State.reset.lzWindow := rfl
@[simp] theorem hardReset_lzMaxlen (s : State) : (s.hardReset).lzMaxlen = State.reset.lzMaxlen := rfl
@[simp] theorem hardReset_lzOverlap (s : State) : (s.hardReset).lzOverlap = State.reset.lzOverlap := rfl
@[simp] theorem hardReset_brBase (s : State) : (s.hardReset).brBase = State.reset.brBase := rfl
@[simp] theorem hardReset_brLen (s : State) : (s.hardReset).brLen = State.reset.brLen := rfl
@[simp] theorem hardReset_brByte (s : State) : (s.hardReset).brByte = State.reset.brByte := rfl
@[simp] theorem hardReset_brBit (s : State) : (s.hardReset).brBit = State.reset.brBit := rfl
@[simp] theorem hardReset_brLook (s : State) : (s.hardReset).brLook = State.reset.brLook := rfl
@[simp] theorem hardReset_bwBase (s : State) : (s.hardReset).bwBase = State.reset.bwBase := rfl
@[simp] theorem hardReset_bwCap (s : State) : (s.hardReset).bwCap = State.reset.bwCap := rfl
@[simp] theorem hardReset_bwByte (s : State) : (s.hardReset).bwByte = State.reset.bwByte := rfl
@[simp] theorem hardReset_bwBit (s : State) : (s.hardReset).bwBit = State.reset.bwBit := rfl
@[simp] theorem hardReset_bwAcc (s : State) : (s.hardReset).bwAcc = State.reset.bwAcc := rfl
@[simp] theorem hardReset_bwVal (s : State) : (s.hardReset).bwVal = State.reset.bwVal := rfl
@[simp] theorem hardReset_hufSym (s : State) : (s.hardReset).hufSym = State.reset.hufSym := rfl
@[simp] theorem hardReset_hufRes (s : State) : (s.hardReset).hufRes = State.reset.hufRes := rfl
@[simp] theorem hardReset_slots (s : State) : (s.hardReset).slots = State.reset.slots := rfl
@[simp] theorem hardReset_mem (s : State) : (s.hardReset).mem = s.mem := rfl
@[simp] theorem hardReset_inbox (s : State) : (s.hardReset).inbox = s.inbox := rfl
@[simp] theorem hardReset_portLog (s : State) : (s.hardReset).portLog = s.portLog := rfl
@[simp] theorem hardReset_draws (s : State) : (s.hardReset).draws = s.draws := rfl

@[simp] theorem setRst_platform (b : Bool) (s : State) : (s.setRst b).platform = s.platform := rfl
@[simp] theorem setRst_rst (b : Bool) (s : State) : (s.setRst b).rst = b := rfl
@[simp] theorem setRst_engine (b : Bool) (s : State) : (s.setRst b).engine = State.reset.engine := rfl
@[simp] theorem setRst_status (b : Bool) (s : State) : (s.setRst b).status = State.reset.status := rfl
@[simp] theorem setRst_irqEn (b : Bool) (s : State) : (s.setRst b).irqEn = State.reset.irqEn := rfl
@[simp] theorem setRst_donePend (b : Bool) (s : State) : (s.setRst b).donePend = State.reset.donePend := rfl
@[simp] theorem setRst_srcAddr (b : Bool) (s : State) : (s.setRst b).srcAddr = State.reset.srcAddr := rfl
@[simp] theorem setRst_srcLen (b : Bool) (s : State) : (s.setRst b).srcLen = State.reset.srcLen := rfl
@[simp] theorem setRst_dstAddr (b : Bool) (s : State) : (s.setRst b).dstAddr = State.reset.dstAddr := rfl
@[simp] theorem setRst_dstCap (b : Bool) (s : State) : (s.setRst b).dstCap = State.reset.dstCap := rfl
@[simp] theorem setRst_consumed (b : Bool) (s : State) : (s.setRst b).consumed = State.reset.consumed := rfl
@[simp] theorem setRst_written (b : Bool) (s : State) : (s.setRst b).written = State.reset.written := rfl
@[simp] theorem setRst_lzWindow (b : Bool) (s : State) : (s.setRst b).lzWindow = State.reset.lzWindow := rfl
@[simp] theorem setRst_lzMaxlen (b : Bool) (s : State) : (s.setRst b).lzMaxlen = State.reset.lzMaxlen := rfl
@[simp] theorem setRst_lzOverlap (b : Bool) (s : State) : (s.setRst b).lzOverlap = State.reset.lzOverlap := rfl
@[simp] theorem setRst_brBase (b : Bool) (s : State) : (s.setRst b).brBase = State.reset.brBase := rfl
@[simp] theorem setRst_brLen (b : Bool) (s : State) : (s.setRst b).brLen = State.reset.brLen := rfl
@[simp] theorem setRst_brByte (b : Bool) (s : State) : (s.setRst b).brByte = State.reset.brByte := rfl
@[simp] theorem setRst_brBit (b : Bool) (s : State) : (s.setRst b).brBit = State.reset.brBit := rfl
@[simp] theorem setRst_brLook (b : Bool) (s : State) : (s.setRst b).brLook = State.reset.brLook := rfl
@[simp] theorem setRst_bwBase (b : Bool) (s : State) : (s.setRst b).bwBase = State.reset.bwBase := rfl
@[simp] theorem setRst_bwCap (b : Bool) (s : State) : (s.setRst b).bwCap = State.reset.bwCap := rfl
@[simp] theorem setRst_bwByte (b : Bool) (s : State) : (s.setRst b).bwByte = State.reset.bwByte := rfl
@[simp] theorem setRst_bwBit (b : Bool) (s : State) : (s.setRst b).bwBit = State.reset.bwBit := rfl
@[simp] theorem setRst_bwAcc (b : Bool) (s : State) : (s.setRst b).bwAcc = State.reset.bwAcc := rfl
@[simp] theorem setRst_bwVal (b : Bool) (s : State) : (s.setRst b).bwVal = State.reset.bwVal := rfl
@[simp] theorem setRst_hufSym (b : Bool) (s : State) : (s.setRst b).hufSym = State.reset.hufSym := rfl
@[simp] theorem setRst_hufRes (b : Bool) (s : State) : (s.setRst b).hufRes = State.reset.hufRes := rfl
@[simp] theorem setRst_slots (b : Bool) (s : State) : (s.setRst b).slots = State.reset.slots := rfl
@[simp] theorem setRst_mem (b : Bool) (s : State) : (s.setRst b).mem = s.mem := rfl
@[simp] theorem setRst_inbox (b : Bool) (s : State) : (s.setRst b).inbox = s.inbox := rfl
@[simp] theorem setRst_portLog (b : Bool) (s : State) : (s.setRst b).portLog = s.portLog := rfl
@[simp] theorem setRst_draws (b : Bool) (s : State) : (s.setRst b).draws = s.draws := rfl

@[simp] theorem scramble_platform (r : Option Region) (s : State) : (s.scramble r).platform = s.platform := by cases r <;> rfl
@[simp] theorem scramble_rst (r : Option Region) (s : State) : (s.scramble r).rst = s.rst := by cases r <;> rfl
@[simp] theorem scramble_engine (r : Option Region) (s : State) : (s.scramble r).engine = s.engine := by cases r <;> rfl
@[simp] theorem scramble_status (r : Option Region) (s : State) : (s.scramble r).status = s.status := by cases r <;> rfl
@[simp] theorem scramble_irqEn (r : Option Region) (s : State) : (s.scramble r).irqEn = s.irqEn := by cases r <;> rfl
@[simp] theorem scramble_donePend (r : Option Region) (s : State) : (s.scramble r).donePend = s.donePend := by cases r <;> rfl
@[simp] theorem scramble_srcAddr (r : Option Region) (s : State) : (s.scramble r).srcAddr = s.srcAddr := by cases r <;> rfl
@[simp] theorem scramble_srcLen (r : Option Region) (s : State) : (s.scramble r).srcLen = s.srcLen := by cases r <;> rfl
@[simp] theorem scramble_dstAddr (r : Option Region) (s : State) : (s.scramble r).dstAddr = s.dstAddr := by cases r <;> rfl
@[simp] theorem scramble_dstCap (r : Option Region) (s : State) : (s.scramble r).dstCap = s.dstCap := by cases r <;> rfl
@[simp] theorem scramble_consumed (r : Option Region) (s : State) : (s.scramble r).consumed = s.consumed := by cases r <;> rfl
@[simp] theorem scramble_written (r : Option Region) (s : State) : (s.scramble r).written = s.written := by cases r <;> rfl
@[simp] theorem scramble_lzWindow (r : Option Region) (s : State) : (s.scramble r).lzWindow = s.lzWindow := by cases r <;> rfl
@[simp] theorem scramble_lzMaxlen (r : Option Region) (s : State) : (s.scramble r).lzMaxlen = s.lzMaxlen := by cases r <;> rfl
@[simp] theorem scramble_lzOverlap (r : Option Region) (s : State) : (s.scramble r).lzOverlap = s.lzOverlap := by cases r <;> rfl
@[simp] theorem scramble_brBase (r : Option Region) (s : State) : (s.scramble r).brBase = s.brBase := by cases r <;> rfl
@[simp] theorem scramble_brLen (r : Option Region) (s : State) : (s.scramble r).brLen = s.brLen := by cases r <;> rfl
@[simp] theorem scramble_brByte (r : Option Region) (s : State) : (s.scramble r).brByte = s.brByte := by cases r <;> rfl
@[simp] theorem scramble_brBit (r : Option Region) (s : State) : (s.scramble r).brBit = s.brBit := by cases r <;> rfl
@[simp] theorem scramble_brLook (r : Option Region) (s : State) : (s.scramble r).brLook = s.brLook := by cases r <;> rfl
@[simp] theorem scramble_bwBase (r : Option Region) (s : State) : (s.scramble r).bwBase = s.bwBase := by cases r <;> rfl
@[simp] theorem scramble_bwCap (r : Option Region) (s : State) : (s.scramble r).bwCap = s.bwCap := by cases r <;> rfl
@[simp] theorem scramble_bwByte (r : Option Region) (s : State) : (s.scramble r).bwByte = s.bwByte := by cases r <;> rfl
@[simp] theorem scramble_bwBit (r : Option Region) (s : State) : (s.scramble r).bwBit = s.bwBit := by cases r <;> rfl
@[simp] theorem scramble_bwAcc (r : Option Region) (s : State) : (s.scramble r).bwAcc = s.bwAcc := by cases r <;> rfl
@[simp] theorem scramble_bwVal (r : Option Region) (s : State) : (s.scramble r).bwVal = s.bwVal := by cases r <;> rfl
@[simp] theorem scramble_hufSym (r : Option Region) (s : State) : (s.scramble r).hufSym = s.hufSym := by cases r <;> rfl
@[simp] theorem scramble_hufRes (r : Option Region) (s : State) : (s.scramble r).hufRes = s.hufRes := by cases r <;> rfl
@[simp] theorem scramble_slots (r : Option Region) (s : State) : (s.scramble r).slots = s.slots := by cases r <;> rfl
@[simp] theorem scramble_inbox (r : Option Region) (s : State) : (s.scramble r).inbox = s.inbox := by cases r <;> rfl
@[simp] theorem scramble_portLog (r : Option Region) (s : State) : (s.scramble r).portLog = s.portLog := by cases r <;> rfl

@[simp] theorem scramble_none (s : State) : s.scramble none = s := rfl
@[simp] theorem scramble_some_mem (r : Region) (s : State) :
    (s.scramble (some r)).mem = s.mem.scramble r.base s.draws r.size := rfl
@[simp] theorem scramble_some_draws (r : Region) (s : State) : (s.scramble (some r)).draws = s.draws + r.size := rfl

@[simp] theorem failBuffer_platform (c : Cause) (r : Option Region) (s : State) : (s.failBuffer c r).platform = s.platform := by cases r <;> rfl
@[simp] theorem failBuffer_rst (c : Cause) (r : Option Region) (s : State) : (s.failBuffer c r).rst = s.rst := by cases r <;> rfl
@[simp] theorem failBuffer_engine (c : Cause) (r : Option Region) (s : State) : (s.failBuffer c r).engine = .idle := rfl
@[simp] theorem failBuffer_status (c : Cause) (r : Option Region) (s : State) : (s.failBuffer c r).status = { s.status.noteFailure c with done := true, result := c.result, cause := c } := by cases r <;> rfl
@[simp] theorem failBuffer_irqEn (c : Cause) (r : Option Region) (s : State) : (s.failBuffer c r).irqEn = s.irqEn := by cases r <;> rfl
@[simp] theorem failBuffer_donePend (c : Cause) (r : Option Region) (s : State) : (s.failBuffer c r).donePend = true := rfl
@[simp] theorem failBuffer_srcAddr (c : Cause) (r : Option Region) (s : State) : (s.failBuffer c r).srcAddr = s.srcAddr := by cases r <;> rfl
@[simp] theorem failBuffer_srcLen (c : Cause) (r : Option Region) (s : State) : (s.failBuffer c r).srcLen = s.srcLen := by cases r <;> rfl
@[simp] theorem failBuffer_dstAddr (c : Cause) (r : Option Region) (s : State) : (s.failBuffer c r).dstAddr = s.dstAddr := by cases r <;> rfl
@[simp] theorem failBuffer_dstCap (c : Cause) (r : Option Region) (s : State) : (s.failBuffer c r).dstCap = s.dstCap := by cases r <;> rfl
@[simp] theorem failBuffer_consumed (c : Cause) (r : Option Region) (s : State) : (s.failBuffer c r).consumed = 0 := rfl
@[simp] theorem failBuffer_written (c : Cause) (r : Option Region) (s : State) : (s.failBuffer c r).written = 0 := rfl
@[simp] theorem failBuffer_lzWindow (c : Cause) (r : Option Region) (s : State) : (s.failBuffer c r).lzWindow = s.lzWindow := by cases r <;> rfl
@[simp] theorem failBuffer_lzMaxlen (c : Cause) (r : Option Region) (s : State) : (s.failBuffer c r).lzMaxlen = s.lzMaxlen := by cases r <;> rfl
@[simp] theorem failBuffer_lzOverlap (c : Cause) (r : Option Region) (s : State) : (s.failBuffer c r).lzOverlap = s.lzOverlap := by cases r <;> rfl
@[simp] theorem failBuffer_brBase (c : Cause) (r : Option Region) (s : State) : (s.failBuffer c r).brBase = s.brBase := by cases r <;> rfl
@[simp] theorem failBuffer_brLen (c : Cause) (r : Option Region) (s : State) : (s.failBuffer c r).brLen = s.brLen := by cases r <;> rfl
@[simp] theorem failBuffer_brByte (c : Cause) (r : Option Region) (s : State) : (s.failBuffer c r).brByte = s.brByte := by cases r <;> rfl
@[simp] theorem failBuffer_brBit (c : Cause) (r : Option Region) (s : State) : (s.failBuffer c r).brBit = s.brBit := by cases r <;> rfl
@[simp] theorem failBuffer_brLook (c : Cause) (r : Option Region) (s : State) : (s.failBuffer c r).brLook = s.brLook := by cases r <;> rfl
@[simp] theorem failBuffer_bwBase (c : Cause) (r : Option Region) (s : State) : (s.failBuffer c r).bwBase = s.bwBase := by cases r <;> rfl
@[simp] theorem failBuffer_bwCap (c : Cause) (r : Option Region) (s : State) : (s.failBuffer c r).bwCap = s.bwCap := by cases r <;> rfl
@[simp] theorem failBuffer_bwByte (c : Cause) (r : Option Region) (s : State) : (s.failBuffer c r).bwByte = s.bwByte := by cases r <;> rfl
@[simp] theorem failBuffer_bwBit (c : Cause) (r : Option Region) (s : State) : (s.failBuffer c r).bwBit = s.bwBit := by cases r <;> rfl
@[simp] theorem failBuffer_bwAcc (c : Cause) (r : Option Region) (s : State) : (s.failBuffer c r).bwAcc = s.bwAcc := by cases r <;> rfl
@[simp] theorem failBuffer_bwVal (c : Cause) (r : Option Region) (s : State) : (s.failBuffer c r).bwVal = s.bwVal := by cases r <;> rfl
@[simp] theorem failBuffer_hufSym (c : Cause) (r : Option Region) (s : State) : (s.failBuffer c r).hufSym = s.hufSym := by cases r <;> rfl
@[simp] theorem failBuffer_hufRes (c : Cause) (r : Option Region) (s : State) : (s.failBuffer c r).hufRes = s.hufRes := by cases r <;> rfl
@[simp] theorem failBuffer_slots (c : Cause) (r : Option Region) (s : State) : (s.failBuffer c r).slots = s.slots := by cases r <;> rfl
@[simp] theorem failBuffer_mem (c : Cause) (r : Option Region) (s : State) : (s.failBuffer c r).mem = (s.scramble r).mem := rfl
@[simp] theorem failBuffer_inbox (c : Cause) (r : Option Region) (s : State) : (s.failBuffer c r).inbox = s.inbox := by cases r <;> rfl
@[simp] theorem failBuffer_portLog (c : Cause) (r : Option Region) (s : State) : (s.failBuffer c r).portLog = s.portLog := by cases r <;> rfl
@[simp] theorem failBuffer_draws (c : Cause) (r : Option Region) (s : State) : (s.failBuffer c r).draws = (s.scramble r).draws := rfl

end Sys2Proof.Machine
end

