-- ==== Sys2Proof/Laws/Memory.lean ====
section
/-! SUPPORT. What each memory operation does: read after write, what it leaves alone, and that it keeps the canonical
form. -/

namespace Sys2Proof.Machine

/-! ### Listing and reading -/

theorem get?_write (m : Memory) (a : Nat) (b : Byte) (x : Nat) :
    (m.write a b).get? x = if x = a then some b else m.get? x := by
  induction m with
  | nil => simp [Memory.write, Memory.get?]
  | cons c m ih =>
    obtain ⟨k, v⟩ := c
    simp only [Memory.write]
    split
    · simp [Memory.get?]
    · split
      · next h => subst h; simp only [Memory.get?]; split <;> rfl
      · next h => simp only [Memory.get?, ih]; split <;> split <;> simp_all

theorem read_write (m : Memory) (a : Nat) (b : Byte) (x : Nat) :
    (m.write a b).read x = if x = a then b else m.read x := by
  simp only [Memory.read, get?_write]; split <;> rfl

@[simp] theorem read_write_same (m : Memory) (a : Nat) (b : Byte) : (m.write a b).read a = b := by simp [read_write]

theorem read_write_other {m : Memory} {a x : Nat} (b : Byte) (h : x ≠ a) : (m.write a b).read x = m.read x := by
  simp [read_write, h]

theorem read_writeBytes (bs : List Byte) (m : Memory) (a x : Nat) :
    (m.writeBytes a bs).read x = if a ≤ x ∧ x < a + bs.length then bs.getD (x - a) 0 else m.read x := by
  induction bs generalizing m a with
  | nil => simp [Memory.writeBytes]
  | cons b bs ih =>
    simp only [Memory.writeBytes, ih, read_write, List.length_cons]
    by_cases hx : x = a
    · subst hx; simp
    · by_cases h1 : a + 1 ≤ x ∧ x < a + 1 + bs.length
      · rw [if_pos h1, if_pos (by omega)]
        obtain ⟨k, hk⟩ : ∃ k, x - a = k + 1 := ⟨x - a - 1, by omega⟩
        rw [show x - (a + 1) = k by omega, hk]; rfl
      · rw [if_neg h1, if_neg hx, if_neg (by omega)]

theorem read_writeBytes_outside {m : Memory} {a x : Nat} {bs : List Byte} (h : x < a ∨ a + bs.length ≤ x) :
    (m.writeBytes a bs).read x = m.read x := by
  rw [read_writeBytes, if_neg (by omega)]

theorem read_scramble_outside {m : Memory} {a d n x : Nat} (h : x < a ∨ a + n ≤ x) :
    (m.scramble a d n).read x = m.read x := by
  induction n generalizing m a d with
  | zero => rfl
  | succ n ih => rw [Memory.scramble, ih (by omega), read_write_other _ (by omega)]

theorem read_scramble_inside {m : Memory} {a d n x : Nat} (h : a ≤ x) (h' : x < a + n) :
    (m.scramble a d n).read x = Config.freeByte (d + (x - a)) := by
  induction n generalizing m a d with
  | zero => omega
  | succ n ih =>
    rw [Memory.scramble]
    by_cases hx : x = a
    · subst hx; rw [read_scramble_outside (by omega)]; simp
    · rw [ih (by omega) (by omega)]; congr 1; omega

theorem read_applyWrites_outside {ws : List Host.Cell} {m : Memory} {x : Nat} (h : ∀ c ∈ ws, c.1 ≠ x) :
    (m.applyWrites ws).read x = m.read x := by
  induction ws with
  | nil => rfl
  | cons c ws ih =>
    simp only [List.mem_cons, forall_eq_or_imp] at h
    rw [Memory.applyWrites, read_write_other _ (Ne.symm h.1), ih h.2]

theorem readBytes_length (m : Memory) (a n : Nat) : (m.readBytes a n).length = n := by
  induction n generalizing a with
  | zero => rfl
  | succ n ih => simp [Memory.readBytes, ih]

theorem readBytes_getD (m : Memory) (a n k : Nat) (h : k < n) : (m.readBytes a n).getD k 0 = m.read (a + k) := by
  induction n generalizing a k with
  | zero => omega
  | succ n ih =>
    cases k with
    | zero => rfl
    | succ k =>
      have := ih (a + 1) k (by omega)
      simp only [Memory.readBytes, List.getD_cons_succ, this]
      congr 1; omega

theorem readBytes_congr {m m' : Memory} {a n : Nat} (h : ∀ x, a ≤ x → x < a + n → m.read x = m'.read x) :
    m.readBytes a n = m'.readBytes a n := by
  induction n generalizing a with
  | zero => rfl
  | succ n ih =>
    rw [Memory.readBytes, Memory.readBytes, h a (by omega) (by omega), ih fun x h1 h2 => h x (by omega) (by omega)]

/-! ### The canonical form -/

theorem wf_tail {c : Host.Cell} {m : Memory} (h : Memory.wf (c :: m) = true) : m.wf = true := by
  cases m with
  | nil => rfl
  | cons d m => simp_all [Memory.wf]

/-- The canonical form, read as: every listed address is above the ones before it. -/
theorem wf_cons (k : Nat) (v : Byte) (m : Memory) :
    Memory.wf ((k, v) :: m) = true ↔ (∀ c ∈ m, k < c.1) ∧ m.wf = true := by
  induction m generalizing k v with
  | nil => simp [Memory.wf]
  | cons d m ih =>
    obtain ⟨l, w⟩ := d
    simp only [Memory.wf, Bool.and_eq_true, decide_eq_true_eq, List.mem_cons, forall_eq_or_imp]
    constructor
    · rintro ⟨h, hw⟩
      exact ⟨⟨h, fun c hc => Nat.lt_trans h (((ih l w).1 hw).1 c hc)⟩, hw⟩
    · rintro ⟨⟨h, _⟩, hw⟩
      exact ⟨h, hw⟩

theorem mem_write {m : Memory} {a : Nat} {b : Byte} {c : Host.Cell} (h : c ∈ m.write a b) : c.1 = a ∨ c ∈ m := by
  induction m with
  | nil => simp only [Memory.write, List.mem_singleton] at h; simp [h]
  | cons d m ih =>
    obtain ⟨k, v⟩ := d
    simp only [Memory.write] at h
    split at h
    · simp only [List.mem_cons] at h ⊢; rcases h with rfl | h
      · exact .inl rfl
      · exact .inr h
    · split at h
      · simp only [List.mem_cons] at h ⊢; rcases h with rfl | h
        · exact .inl rfl
        · exact .inr (.inr h)
      · simp only [List.mem_cons] at h ⊢; rcases h with h | h
        · exact .inr (.inl h)
        · exact (ih h).imp id .inr

theorem write_wf {m : Memory} (h : m.wf = true) (a : Nat) (b : Byte) : (m.write a b).wf = true := by
  induction m with
  | nil => rfl
  | cons d m ih =>
    obtain ⟨k, v⟩ := d
    have hm := (wf_cons k v m).1 h
    simp only [Memory.write]
    split
    · next hlt =>
      exact (wf_cons a b _).2 ⟨by
        simp only [List.mem_cons, forall_eq_or_imp]
        exact ⟨hlt, fun c hc => Nat.lt_trans hlt (hm.1 c hc)⟩, h⟩
    · split
      · next heq => subst heq; exact (wf_cons a b _).2 hm
      · refine (wf_cons k v _).2 ⟨fun c hc => ?_, ih hm.2⟩
        rcases mem_write hc with hc | hc
        · omega
        · exact hm.1 c hc

theorem writeBytes_wf {m : Memory} (h : m.wf = true) (a : Nat) (bs : List Byte) : (m.writeBytes a bs).wf = true := by
  induction bs generalizing m a with
  | nil => exact h
  | cons b bs ih => exact ih (write_wf h a b) _

theorem scramble_wf {m : Memory} (h : m.wf = true) (a d n : Nat) : (m.scramble a d n).wf = true := by
  induction n generalizing m a d with
  | zero => exact h
  | succ n ih => exact ih (write_wf h a _) _ _

theorem applyWrites_wf {m : Memory} (h : m.wf = true) (ws : List Host.Cell) : (m.applyWrites ws).wf = true := by
  induction ws with
  | nil => exact h
  | cons c ws ih => exact write_wf ih _ _

theorem state_scramble_wf {s : State} (h : s.mem.wf = true) (r : Option Region) : (s.scramble r).mem.wf = true := by
  cases r with
  | none => exact h
  | some r => exact scramble_wf h _ _ _

/-- Memory right after reset is in canonical form. -/
theorem reset_mem_wf : State.reset.mem.wf = true := rfl

end Sys2Proof.Machine
end

