-- ==== Sys2Proof/Laws/Bitstream.lean ====
section
/-! SUPPORT. What each bitstream primitive does (R160 to R165), once. -/

namespace Sys2Proof.Machine

/-! ### Numbers made of bits -/

theorem bitsValue_lt (f : Nat → Bool) (n : Nat) : bitsValue f n < 2 ^ n := by
  induction n with
  | zero => simp [bitsValue]
  | succ n ih => simp only [bitsValue, Nat.pow_succ]; split <;> omega

theorem bitsValue_testBit (f : Nat → Bool) (n k : Nat) : (bitsValue f n).testBit k = (decide (k < n) && f k) := by
  induction n with
  | zero => simp [bitsValue]
  | succ n ih =>
    have h := Nat.testBit_two_pow_mul_add (if f n then 1 else 0) (bitsValue_lt f n) k
    rw [show 2 ^ n * (if f n then 1 else 0) + bitsValue f n = bitsValue f (n + 1) by
      simp only [bitsValue]; split <;> omega] at h
    rw [h]
    rcases Nat.lt_trichotomy k n with hk | hk | hk
    · rw [if_pos hk, ih]; simp [hk, show k < n + 1 by omega]
    · subst hk; simp; cases f k <;> simp
    · rw [if_neg (by omega), decide_eq_false (by omega : ¬ k < n + 1)]
      obtain ⟨j, hj⟩ : ∃ j, k - n = j + 1 := ⟨k - n - 1, by omega⟩
      rw [hj]; cases f n <;> simp [Nat.testBit_add_one]

theorem bitsValue_congr {f g : Nat → Bool} {n : Nat} (h : ∀ k < n, f k = g k) : bitsValue f n = bitsValue g n := by
  induction n with
  | zero => rfl
  | succ n ih => rw [bitsValue, bitsValue, ih fun k hk => h k (by omega), h n (by omega)]

theorem bitrev_lt (c n : Nat) : bitrev c n < 2 ^ n := by
  induction n generalizing c with
  | zero => simp [bitrev]
  | succ n ih =>
    have := ih (c / 2)
    have h2 : c % 2 = 0 ∨ c % 2 = 1 := by omega
    rw [bitrev, Nat.pow_succ]
    rcases h2 with h | h <;> rw [h] <;> omega

/-- R11: bit k of `bitrev(c, n)` is bit n-1-k of `c`. -/
theorem bitrev_testBit (c n k : Nat) : (bitrev c n).testBit k = (decide (k < n) && c.testBit (n - 1 - k)) := by
  induction n generalizing c k with
  | zero => simp [bitrev]
  | succ n ih =>
    rw [bitrev, Nat.mul_comm, Nat.testBit_two_pow_mul_add _ (bitrev_lt _ _)]
    rcases Nat.lt_trichotomy k n with hk | hk | hk
    · rw [if_pos hk, ih]
      simp only [hk, show k < n + 1 by omega, decide_true, Bool.true_and]
      rw [← Nat.testBit_add_one]; congr 1; omega
    · subst hk
      have h2 : c % 2 = 0 ∨ c % 2 = 1 := by omega
      rcases h2 with h | h <;> simp [h, Nat.testBit_zero]
    · rw [if_neg (by omega), decide_eq_false (by omega : ¬ k < n + 1)]
      obtain ⟨j, hj⟩ : ∃ j, k - n = j + 1 := ⟨k - n - 1, by omega⟩
      have h2 : c % 2 = 0 ∨ c % 2 = 1 := by omega
      rw [hj]; rcases h2 with h | h <;> simp [h, Nat.testBit_add_one]

theorem ceil8_le {b k : Nat} : ceil8 b ≤ k ↔ b ≤ 8 * k := by simp only [ceil8]; omega

/-! ### The reader -/

/-- R160: bit k of the lookahead. -/
theorem brBits_testBit (m : Memory) (c : ReadCursor) (k : Nat) :
    (brBits m c).testBit k = (decide (k < 64) && streamBit m c (c.pos + k)) := bitsValue_testBit _ _ _

theorem brBits_lt (m : Memory) (c : ReadCursor) : brBits m c < 2 ^ 64 := bitsValue_lt _ _

/-- R160, R175: the lookahead reads no byte outside the buffer. -/
theorem brBits_congr {m m' : Memory} {c : ReadCursor}
    (h : ∀ a, c.base ≤ a → a < c.base + c.len → m.read a = m'.read a) : brBits m c = brBits m' c := by
  refine bitsValue_congr fun k _ => ?_
  simp only [streamBit]
  by_cases hp : c.pos + k < 8 * c.len
  · rw [h _ (by omega) (by omega)]
  · simp [hp]

/-- R161: everything `br_advance` can do. -/
theorem brAdvance_ok {n : Nat} {c c' : ReadCursor} :
    brAdvance n c = .ok c' ↔ n ≤ c.remaining ∧ c' = { c with byte := (c.pos + n) / 8, bit := (c.pos + n) % 8 } := by
  simp only [brAdvance]
  split
  · simp; omega
  · simp only [Except.ok.injEq]; exact ⟨fun h => ⟨by omega, h.symm⟩, fun h => h.2.symm⟩

theorem brAdvance_error {n : Nat} {c : ReadCursor} {e : Cause} :
    brAdvance n c = .error e ↔ c.remaining < n ∧ e = .brOverrun := by
  simp only [brAdvance]
  split
  · next h => simp [h, eq_comm]
  · next h => simp [h]

/-- R161: an advance moves the position by n, inside the buffer, and nothing else. -/
theorem brAdvance_pos {n : Nat} {c c' : ReadCursor} (h : brAdvance n c = .ok c') :
    c'.pos = c.pos + n ∧ c'.base = c.base ∧ c'.len = c.len ∧ c'.bit < 8 ∧
      (c.pos ≤ 8 * c.len → c'.pos ≤ 8 * c.len) ∧ n ≤ c.remaining := by
  obtain ⟨hn, rfl⟩ := brAdvance_ok.1 h
  simp only [ReadCursor.pos, ReadCursor.remaining] at *
  refine ⟨by omega, trivial, trivial, by omega, by omega, hn⟩

/-- R162: everything `br_read` can do. -/
theorem brRead_ok {m : Memory} {n v : Nat} {c c' : ReadCursor} :
    brRead m n c = .ok (v, c') ↔ v = brBits m c % 2 ^ n ∧ brAdvance n c = .ok c' := by
  simp only [brRead]
  split
  · next h => simp [h]
  · next h => simp [h, eq_comm]

theorem brRead_error {m : Memory} {n : Nat} {c : ReadCursor} {e : Cause} :
    brRead m n c = .error e ↔ c.remaining < n ∧ e = .brOverrun := by
  rw [← brAdvance_error (c := c)]
  simp only [brRead]
  split <;> next h => simp [h]

/-- R163: alignment moves to the next byte boundary and never past the end of the buffer. -/
theorem brAlign_pos {c : ReadCursor} (hb : c.bit < 8) :
    (brAlign c).pos = 8 * ceil8 c.pos ∧ (brAlign c).base = c.base ∧ (brAlign c).len = c.len ∧ (brAlign c).bit < 8 ∧
      (c.pos ≤ 8 * c.len → (brAlign c).pos ≤ 8 * c.len) := by
  simp only [brAlign, ReadCursor.pos, ceil8]
  split
  · refine ⟨by omega, rfl, rfl, hb, id⟩
  · refine ⟨by simp only; omega, rfl, rfl, by simp, by simp only; omega⟩

/-! ### The writer -/

/-- Bit `p` of what a cursor has been given over a memory: committed bytes in memory, the rest in the accumulator. -/
def WriteCursor.bitAt (m : Memory) (c : WriteCursor) (p : Nat) : Bool :=
  if p / 8 < c.byte then ((m.applyWrites c.writes).read (c.base + p / 8)).toNat.testBit (p % 8)
  else c.acc.getLsbD (p % 8)

theorem setAccBit_getLsbD (acc : BitVec 8) (k : Nat) (b : Bool) (hk : k < 8) (j : Nat) (hj : j < 8) :
    (setAccBit acc k b).getLsbD j = if j = k then b else acc.getLsbD j := by
  have : ∀ k < 8, ∀ j < 8, ∀ b : Bool, ∀ acc : BitVec 8,
      (setAccBit acc k b).getLsbD j = if j = k then b else acc.getLsbD j := by
    intro k hk j hj b acc
    interval_cases k <;> interval_cases j <;> cases b <;> simp [setAccBit]
  exact this k hk j hj b acc

/-- What a run of `bw_write`'s loop leaves (R164): the position n further, in the same buffer, the byte writes so far
kept and the new ones between the old and the new committed count. -/
structure Pushed (n : Nat) (c c' : WriteCursor) : Prop where
  pos : c'.pos = c.pos + n
  base : c'.base = c.base
  cap : c'.cap = c.cap
  bit : c'.bit < 8
  byte : c.byte ≤ c'.byte
  writes : ∃ new, c'.writes = new ++ c.writes ∧ ∀ x ∈ new, c.base + c.byte ≤ x.1 ∧ x.1 < c.base + c'.byte

theorem Pushed.refl {c : WriteCursor} (h : c.bit < 8) : Pushed 0 c c :=
  ⟨rfl, rfl, rfl, h, Nat.le_refl _, [], rfl, by simp⟩

theorem Pushed.trans {n k : Nat} {a b c : WriteCursor} (h : Pushed n a b) (h' : Pushed k b c) : Pushed (n + k) a c := by
  obtain ⟨w, hw, hin⟩ := h.writes
  obtain ⟨w', hw', hin'⟩ := h'.writes
  refine ⟨by rw [h'.pos, h.pos]; omega, h'.base.trans h.base, h'.cap.trans h.cap, h'.bit, h.byte.trans h'.byte, w' ++ w,
    by rw [hw', hw, List.append_assoc], fun x hx => ?_⟩
  have := h.base; have := h.byte; have := h'.byte
  rcases List.mem_append.1 hx with hx | hx
  · have := hin' x hx; omega
  · have := hin x hx; omega

theorem bwPush_pushed {c : WriteCursor} (b : Bool) (h : c.bit < 8) : Pushed 1 c (bwPush b c) := by
  simp only [bwPush]
  split
  · refine ⟨by simp only [WriteCursor.pos]; omega, rfl, rfl, by simp, by simp, [_], rfl, by simp⟩
  · refine ⟨by simp only [WriteCursor.pos]; omega, rfl, rfl, by simp only; omega, by simp, [], rfl, by simp⟩

theorem bwPushBits_pushed {c : WriteCursor} (v n : Nat) (h : c.bit < 8) : Pushed n c (bwPushBits v n c) := by
  induction n generalizing v c with
  | zero => exact Pushed.refl h
  | succ n ih =>
    have h1 := bwPush_pushed (decide (v % 2 = 1)) h
    have := h1.trans (ih (v / 2) h1.bit)
    rwa [Nat.add_comm] at this

theorem applyWrites_append (m : Memory) (new old : List Host.Cell) :
    m.applyWrites (new ++ old) = (m.applyWrites old).applyWrites new := by
  induction new with
  | nil => rfl
  | cons c new ih => simp only [List.cons_append, Memory.applyWrites, ih]

/-- R164: one pushed bit is the bit at the old position, and no earlier bit changes. -/
theorem bwPush_bitAt {c : WriteCursor} (m : Memory) (b : Bool) (h : c.bit < 8) (p : Nat) (hp : p ≤ c.pos) :
    (bwPush b c).bitAt m p = if p = c.pos then b else c.bitAt m p := by
  have hpos : c.pos = 8 * c.byte + c.bit := rfl
  simp only [bwPush]
  split
  · next h8 =>
    simp only [WriteCursor.bitAt, Memory.applyWrites]
    rw [if_pos (by omega)]
    by_cases hb : p / 8 < c.byte
    · rw [read_write_other _ (by omega), if_neg (by omega), if_pos hb]
    · rw [show p / 8 = c.byte by omega, read_write_same, if_neg (Nat.lt_irrefl _), BitVec.testBit_toNat,
        setAccBit_getLsbD _ _ _ h _ (by omega)]
      by_cases hq : p = c.pos
      · rw [if_pos hq, if_pos (by omega)]
      · rw [if_neg hq, if_neg (by omega)]
  · next h8 =>
    simp only [WriteCursor.bitAt]
    by_cases hb : p / 8 < c.byte
    · rw [if_pos hb, if_pos hb, if_neg (by omega)]
    · rw [if_neg hb, if_neg hb, setAccBit_getLsbD _ _ _ h _ (by omega)]
      by_cases hq : p = c.pos
      · rw [if_pos hq, if_pos (by omega)]
      · rw [if_neg hq, if_neg (by omega)]

/-- R164: the n bits pushed are the low n bits of the value, and no earlier bit changes. -/
theorem bwPushBits_bitAt {c : WriteCursor} (m : Memory) (v n : Nat) (h : c.bit < 8) :
    (∀ p < c.pos, (bwPushBits v n c).bitAt m p = c.bitAt m p) ∧
      ∀ k < n, (bwPushBits v n c).bitAt m (c.pos + k) = v.testBit k := by
  induction n generalizing v c with
  | zero => exact ⟨fun _ _ => rfl, fun k hk => absurd hk (by omega)⟩
  | succ n ih =>
    have h1 := bwPush_pushed (decide (v % 2 = 1)) h
    obtain ⟨hold, hnew⟩ := ih (v / 2) h1.bit
    rw [h1.pos] at hold hnew
    refine ⟨fun p hp => ?_, fun k hk => ?_⟩
    · rw [bwPushBits, hold p (by omega), bwPush_bitAt m _ h p (by omega), if_neg (by omega)]
    · rw [bwPushBits]
      cases k with
      | zero =>
        rw [Nat.add_zero, hold _ (by omega), bwPush_bitAt m _ h _ (Nat.le_refl _), if_pos rfl, Nat.testBit_zero]
      | succ k =>
        rw [show c.pos + (k + 1) = c.pos + 1 + k by omega, hnew k (by omega), Nat.testBit_add_one]

/-- R164: everything `bw_write` can do. -/
theorem bwWrite_ok {v n : Nat} {c c' : WriteCursor} :
    bwWrite v n c = .ok c' ↔ ceil8 (c.pos + n) ≤ c.cap ∧ c' = bwPushBits v n c := by
  simp only [bwWrite]
  split
  · simp; omega
  · simp only [Except.ok.injEq]; exact ⟨fun h => ⟨by omega, h.symm⟩, fun h => h.2.symm⟩

theorem bwWrite_error {v n : Nat} {c : WriteCursor} {e : Cause} :
    bwWrite v n c = .error e ↔ c.cap < ceil8 (c.pos + n) ∧ e = .bwOverflow := by
  simp only [bwWrite]
  split
  · next h => simp [h, eq_comm]
  · next h => simp [h]

/-- R165: everything `bw_flush` can do. -/
theorem bwFlush_ok {c c' : WriteCursor} :
    bwFlush c = .ok c' ↔ (c.bit = 0 ∧ c' = c) ∨
      (c.bit ≠ 0 ∧ c.byte + 1 ≤ c.cap ∧
        c' = { c with writes := (c.base + c.byte, c.acc) :: c.writes, byte := c.byte + 1, acc := 0, bit := 0 }) := by
  simp only [bwFlush]
  split
  · next h => simp [h, eq_comm]
  · next h =>
    split
    · next h' => simp [h]; omega
    · next h' => simp [h, show c.byte + 1 ≤ c.cap by omega, eq_comm]

theorem bwFlush_error {c : WriteCursor} {e : Cause} :
    bwFlush c = .error e ↔ c.bit ≠ 0 ∧ c.cap < c.byte + 1 ∧ e = .bwOverflow := by
  simp only [bwFlush]
  split
  · next h => simp [h]
  · next h =>
    split
    · next h' => simp [h, h', eq_comm]
    · next h' => simp [h, h']

/-- A writer within its capacity, with its byte writes inside its buffer (R176). -/
structure WriteCursor.Inside (c : WriteCursor) : Prop where
  bit : c.bit < 8
  fits : ceil8 c.pos ≤ c.cap
  writes : ∀ x ∈ c.writes, c.base ≤ x.1 ∧ x.1 < c.base + c.byte

theorem bwWrite_inside {v n : Nat} {c c' : WriteCursor} (h : bwWrite v n c = .ok c') (hc : c.Inside) :
    c'.Inside ∧ c'.base = c.base ∧ c'.cap = c.cap ∧ c'.pos = c.pos + n := by
  obtain ⟨hn, rfl⟩ := bwWrite_ok.1 h
  have hp := bwPushBits_pushed v n hc.bit
  obtain ⟨w, hw, hin⟩ := hp.writes
  refine ⟨⟨hp.bit, by rw [hp.pos, hp.cap]; exact hn, fun x hx => ?_⟩, hp.base, hp.cap, hp.pos⟩
  have := hp.base; have := hp.byte
  rw [hw] at hx
  rcases List.mem_append.1 hx with hx | hx
  · have := hin x hx; omega
  · have := hc.writes x hx; omega

theorem bwFlush_inside {c c' : WriteCursor} (h : bwFlush c = .ok c') (hc : c.Inside) :
    c'.Inside ∧ c'.base = c.base ∧ c'.cap = c.cap ∧ c'.bit = 0 ∧ c'.byte = ceil8 c.pos ∧ c'.byte ≤ c.cap := by
  have hb := hc.bit
  have hf := ceil8_le.1 hc.fits
  simp only [WriteCursor.pos] at hf
  rcases bwFlush_ok.1 h with ⟨h0, rfl⟩ | ⟨h0, hcap, rfl⟩
  · refine ⟨hc, rfl, rfl, h0, ?_, by omega⟩
    simp only [ceil8, WriteCursor.pos]; omega
  · refine ⟨⟨by simp, ceil8_le.2 (by simp only [WriteCursor.pos]; omega), fun x hx => ?_⟩, rfl, rfl, rfl, ?_, hcap⟩
    · simp only [List.mem_cons] at hx
      rcases hx with rfl | hx
      · simp
      · have := hc.writes x hx; simp only; omega
    · simp only [ceil8, WriteCursor.pos]; omega

/-- The private writer starts inside its buffer (R179). -/
theorem privateWriter_inside (s : State) : s.privateWriter.Inside :=
  ⟨by simp [State.privateWriter], by simp [State.privateWriter, WriteCursor.pos, ceil8], by simp [State.privateWriter]⟩

/-- The writes of an inside writer change no byte outside its buffer (R176). -/
theorem inside_read_outside {c : WriteCursor} (hc : c.Inside) (m : Memory) {x : Nat}
    (hx : x < c.base ∨ c.base + c.cap ≤ x) : (m.applyWrites c.writes).read x = m.read x := by
  refine read_applyWrites_outside fun w hw => ?_
  have := hc.writes w hw
  have := ceil8_le.1 hc.fits
  simp only [WriteCursor.pos] at this
  omega

end Sys2Proof.Machine
end

