-- ==== Sys2Proof/Laws/Exec.lean ====
section
/-! SUPPORT. What the shared operations around a meaning do, once: the buffer refusal, the ends of a command, and the
checks on operands in the words of the rules. -/

namespace Sys2Proof.Machine

/-! ### Ends -/

/-- R35: `finish` is the completion with the cause's RESULT. -/
theorem finish_eq (c : Cause) (s : State) : s.finish c = s.ended c.result c := rfl

theorem finishOk_eq (s : State) : s.finishOk = s.ended .ok .noCause := rfl

theorem illegal_eq (c : Cause) (s : State) : s.illegal c = .next (s.ended c.result c) := rfl

/-- R434 item 3: a failing `br_advance` sets BR_FAIL. -/
theorem failPlain_brOverrun (s : State) :
    s.failPlain .brOverrun = { s with status := { s.status with brFail := true } }.ended .format .brOverrun := by
  simp [State.failPlain, Status.noteFailure, finish_eq, Cause.result]

/-- R434 item 3: a failing `bw_write` or `bw_flush` sets BW_FAIL. -/
theorem failPlain_bwOverflow (s : State) :
    s.failPlain .bwOverflow = { s with status := { s.status with bwFail := true } }.ended .capacity .bwOverflow := by
  simp [State.failPlain, Status.noteFailure, finish_eq, Cause.result]

/-- R434 item 3: any other raise sets no sticky bit. -/
theorem failPlain_other {c : Cause} (s : State) (h : c ≠ .brOverrun) (h' : c ≠ .bwOverflow) :
    s.failPlain c = s.ended c.result c := by
  simp [State.failPlain, Status.noteFailure, finish_eq, h, h']

/-- What a plain failure leaves: its completion, with the sticky bits its cause sets. -/
theorem failPlain_eq (c : Cause) (s : State) :
    s.failPlain c = { s with
      status := { s.status with
        brFail := s.status.brFail || decide (c = Cause.brOverrun),
        bwFail := s.status.bwFail || decide (c = Cause.bwOverflow) } }.ended c.result c := rfl

/-- R434 item 2: what a failing buffer command leaves, its destination bytes apart. -/
theorem failBuffer_eq (c : Cause) (d : Option Region) (s : State) :
    s.failBuffer c d = { s with
      consumed := 0, written := 0, mem := (s.scramble d).mem, draws := (s.scramble d).draws,
      status := { s.status with
        brFail := s.status.brFail || decide (c = Cause.brOverrun),
        bwFail := s.status.bwFail || decide (c = Cause.bwOverflow) } }.ended c.result c := by
  cases d <;> rfl

/-- U1: no byte outside the destination changes. -/
theorem scramble_read_outside {s : State} {d : Option Region} {a : Nat} (h : (d.any fun r => r.holds a) = false) :
    (s.scramble d).mem.read a = s.mem.read a := by
  cases d with
  | none => rfl
  | some r =>
    refine read_scramble_outside ?_
    simp only [Option.any_some, Region.holds, Bool.and_eq_false_iff, decide_eq_false_iff_not] at h
    omega

/-- The part of a range that exists lies in the range. -/
theorem inSpace_holds {r : Region} {a : Nat} (h : r.inSpace.holds a = true) : r.holds a = true := by
  have e : r.inSpace.size ≤ r.size := Nat.min_le_left _ _
  have b : r.inSpace.base = r.base := rfl
  simp only [Region.holds, Bool.and_eq_true, decide_eq_true_eq] at h ⊢
  omega

/-- A range that does not wrap exists whole. -/
theorem inSpace_of_wellFormed {r : Region} (h : r.wellFormed = true) : r.inSpace = r := by
  have h' : r.base + r.size ≤ addressSpace := by simpa [Region.wellFormed] using h
  have e : min r.size (addressSpace - r.base) = r.size := by omega
  rw [Region.inSpace, e]

/-- U1: a byte outside the range is outside the part of it that exists, so a failure leaves it alone. -/
theorem scramble_inSpace_read {s : State} {r : Region} {a : Nat} (h : a < r.base ∨ r.base + r.size ≤ a) :
    (s.scramble (some r.inSpace)).mem.read a = s.mem.read a := by
  have e : r.inSpace.size ≤ r.size := Nat.min_le_left _ _
  have b : r.inSpace.base = r.base := rfl
  exact read_scramble_outside (by omega)

/-! ### The reset input (R471, R451) -/

theorem driveRst_asserted (s : State) : s.driveRst true = s.setRst true := rfl

theorem driveRst_released {s : State} (h : s.rst = true) : s.driveRst false = s.setRst false := by
  simp [State.driveRst, h]

theorem driveRst_stays_released {s : State} (h : s.rst = false) : s.driveRst false = s := by simp [State.driveRst, h]

/-! ### The buffers of a command -/

theorem sourceOf_mem_buffersOf {s : State} {i : Instr} {r : Region} (h : s.sourceOf i = some r) :
    r ∈ s.buffersOf i := by
  cases i <;> simp_all [State.sourceOf, State.buffersOf]

theorem destOf_mem_buffersOf {s : State} {i : Instr} {r : Region} (h : s.destOf i = some r) :
    r ∈ s.buffersOf i := by
  cases i <;> simp_all [State.destOf, State.buffersOf]

/-! ### Buffers a model refuses -/

theorem withBuffers_next {s t u : State} {rs : List Region} :
    s.withBuffers rs t = .next u ↔ s.plainBuffers rs ∧ u = t := by
  simp only [State.withBuffers, State.plainBuffers]
  split <;> next h => simp [h, eq_comm]

theorem withBuffers_plain {s t : State} {rs : List Region} (h : s.plainBuffers rs) : s.withBuffers rs t = .next t :=
  withBuffers_next.2 ⟨h, rfl⟩

theorem withBuffers_refused {s t : State} {rs : List Region} {r : Refusal} :
    s.withBuffers rs t = .refused r ↔ s.bufferRefusal rs = some r := by
  simp only [State.withBuffers]
  split <;> next h => simp [h]

theorem withBuffers_not_fault {s t : State} {rs : List Region} {f : Fault} : s.withBuffers rs t ≠ .fault f := by
  simp only [State.withBuffers]
  split <;> simp

/-! ### Sequencing -/

theorem andThen_next {o : Out} {k : State → Out} {t : State} :
    o.andThen k = .next t ↔ ∃ u, o = .next u ∧ k u = .next t := by
  cases o <;> simp [Out.andThen]

@[simp] theorem andThen_of_next (s : State) (k : State → Out) : Out.andThen (.next s) k = k s := rfl

/-- An outcome with nothing after it. -/
theorem andThen_endWrites_nil (o : Out) : o.andThen (endWrites []) = o := by cases o <;> rfl

/-! ### Operand checks in the words of the rules -/

theorem brFits_iff (s : State) : s.brBuffer.wellFormed = true ↔ s.brFits := by
  rw [Region.wellFormed, decide_eq_true_eq]; rfl

theorem bwFits_iff (s : State) : s.bwBuffer.wellFormed = true ↔ s.bwFits := by
  rw [Region.wellFormed, decide_eq_true_eq]; rfl

theorem wellFormed_iff (r : Region) : r.wellFormed = true ↔ r.base + r.size ≤ 4294967296 := by
  rw [Region.wellFormed, decide_eq_true_eq]

theorem overlaps_iff (r q : Region) : r.overlaps q = true ↔
    0 < r.size ∧ 0 < q.size ∧ r.base < q.base + q.size ∧ q.base < r.base + r.size := by
  rw [Region.overlaps]
  simp only [Bool.and_eq_true, decide_eq_true_eq, and_assoc]

theorem srcDstOk_iff (s : State) : s.srcDstOk = true ↔ s.buffersApart := by
  have h : s.srcDstOk = true ↔ s.srcBuffer.wellFormed = true ∧ s.dstBuffer.wellFormed = true ∧
      ¬ s.srcBuffer.overlaps s.dstBuffer = true := by simp [State.srcDstOk, and_assoc]
  rw [h, wellFormed_iff, wellFormed_iff, overlaps_iff]
  simp only [State.srcBuffer, State.dstBuffer, State.buffersApart]
  omega

/-- R111: the source bytes of a buffer command are the bytes at SRC. -/
theorem srcBytes_eq (s : State) : s.srcBytes = s.sourceString := by
  have h : ∀ (m : Memory) (a n : Nat), m.readBytes a n = (List.range n).map fun j => m.read (a + j) := by
    intro m a n
    induction n generalizing a with
    | zero => rfl
    | succ n ih =>
      rw [Memory.readBytes, ih, List.range_succ_eq_map, List.map_cons, List.map_map]
      refine congrArg _ (List.map_congr_left fun j _ => ?_)
      simp [Nat.add_comm, Nat.add_left_comm]
  exact h _ _ _

theorem srcBytes_length (s : State) : s.srcBytes.length = s.srcLen.toNat := readBytes_length _ _ _

/-! ### Cursors on registers -/

theorem readCursor_pos (s : State) : s.readCursor.pos = s.rpos := rfl

theorem readCursor_remaining (s : State) : s.readCursor.remaining = s.rrem := rfl

theorem writeCursor_pos (s : State) : s.writeCursor.pos = s.wpos := rfl

theorem writeCursor_bit_lt (s : State) : s.writeCursor.bit < 8 := s.bwBit.isLt

/-- R160: the lookahead of the reader's registers. -/
theorem brBits_readCursor (s : State) (k : Nat) (h : k < 64) :
    (brBits s.mem s.readCursor).testBit k = s.lookBit k := by
  rw [brBits_testBit, decide_eq_true h, Bool.true_and]
  rfl

/-- R178: after a successful `br_advance` on the registers the position is N further, and no register write wraps. -/
theorem setReadCursor_pos {n : Nat} {c : ReadCursor} {s : State} (h : brAdvance n s.readCursor = .ok c) :
    (s.setReadCursor c).rpos = s.rpos + n ∧ c.byte < 2 ^ 32 ∧ c.bit < 8 := by
  obtain ⟨hp, _, _, hb, _, hn⟩ := brAdvance_pos h
  have h1 : s.readCursor.pos = s.rpos := rfl
  have h2 : s.readCursor.remaining = 8 * s.brLen.toNat - s.rpos := rfl
  have h3 : s.rpos = 8 * s.brByte.toNat + s.brBit.toNat := rfl
  have h4 := s.brLen.isLt
  have h5 := s.brByte.isLt
  have h6 := s.brBit.isLt
  have hpos : c.pos = 8 * c.byte + c.bit := rfl
  have hbyte : c.byte < 2 ^ 32 := by omega
  refine ⟨?_, hbyte, hb⟩
  simp only [State.rpos, State.setReadCursor, BitVec.toNat_ofNat]
  rw [Nat.mod_eq_of_lt hbyte, Nat.mod_eq_of_lt (by omega : c.bit < 2 ^ 3)]
  omega

end Sys2Proof.Machine
end

