-- ==== Sys2Proof/Laws/PerInstr.lean ====
section
/-! SUPPORT. Laws that hold of each instruction as syntax, one lemma per constructor. `Reserved`: the word of a command
has every reserved bit 0 (R132). -/

namespace Sys2Proof.Laws.Reserved

/-- Bits [15], [19:18] and [31:24] of the command's word are 0 (R132). -/
def Statement (i : Instr) : Prop := reservedBits (encode i) = 0

/-- A word packed from OP, N, SLOT and MAXLEN has no reserved bit set (R130, R132). -/
theorem reserved_packWord (op : BitVec 8) (n : BitVec 7) (slot : BitVec 2) (maxlen : BitVec 4) :
    reservedBits (packWord op n slot maxlen) = 0 := by
  unfold reservedBits packWord
  ext k hk
  simp only [BitVec.getElem_and, BitVec.getElem_or]
  interval_cases k <;> simp

theorem nop : Statement .nop := reserved_packWord _ _ _ _
theorem clear : Statement .clear := reserved_packWord _ _ _ _
theorem softReset : Statement .softReset := reserved_packWord _ _ _ _
theorem brInit : Statement .brInit := reserved_packWord _ _ _ _
theorem brPeek : Statement .brPeek := reserved_packWord _ _ _ _
theorem brAdvance (n : BitVec 7) : Statement (.brAdvance n) := reserved_packWord _ _ _ _
theorem brRead (n : BitVec 7) : Statement (.brRead n) := reserved_packWord _ _ _ _
theorem brAlign : Statement .brAlign := reserved_packWord _ _ _ _
theorem bwInit : Statement .bwInit := reserved_packWord _ _ _ _
theorem bwWrite (n : BitVec 7) : Statement (.bwWrite n) := reserved_packWord _ _ _ _
theorem bwFlush : Statement .bwFlush := reserved_packWord _ _ _ _
theorem hufBuildEnc (slot : BitVec 2) (maxlen : BitVec 4) : Statement (.hufBuildEnc slot maxlen) := reserved_packWord _ _ _ _
theorem hufBuildDec (slot : BitVec 2) : Statement (.hufBuildDec slot) := reserved_packWord _ _ _ _
theorem hufDecode (slot : BitVec 2) : Statement (.hufDecode slot) := reserved_packWord _ _ _ _
theorem hufReadSym (slot : BitVec 2) : Statement (.hufReadSym slot) := reserved_packWord _ _ _ _
theorem hufWriteSym (slot : BitVec 2) : Statement (.hufWriteSym slot) := reserved_packWord _ _ _ _
theorem hufLoadFixed (n : BitVec 7) (slot : BitVec 2) : Statement (.hufLoadFixed n slot) := reserved_packWord _ _ _ _
theorem lzCompress : Statement .lzCompress := reserved_packWord _ _ _ _
theorem deflate : Statement .deflate := reserved_packWord _ _ _ _
theorem inflate : Statement .inflate := reserved_packWord _ _ _ _
theorem shrink : Statement .shrink := reserved_packWord _ _ _ _
theorem unshrink : Statement .unshrink := reserved_packWord _ _ _ _

end Sys2Proof.Laws.Reserved
end

