-- ==== Sys2Proof/Tests/Slice0.lean ====
section
/-! SUPPORT. Tests on fixed values: ill-formed terms, decoding of words written out from 30_encoding.md R130 and R133,
one or two steps per command with the results of the spec's examples and of 95_test_vectors.md, and a witness for the
hypotheses of each statement. -/

namespace Sys2Proof.Tests

open Sys2Proof Sys2Proof.Machine

/-! ### Helpers -/

/-- A block out of reset with a register block at 0xF0000000 and only ordinary memory. -/
def st : State := { State.reset with platform := ⟨0xF0000000, 0x12345678, []⟩ }

/-- The given bytes at `a`, `a+1`, ... -/
def bytes (a : Nat) : List Nat → Memory
  | [] => []
  | b :: bs => (a, BitVec.ofNat 8 b) :: bytes (a + 1) bs

/-- An outcome is a next state with the given property. -/
def nextWith (o : Out) (p : State → Bool) : Bool :=
  match o with
  | .next t => p t
  | .fault _ => false
  | .refused _ => false

/-- A result is a value with the given property. -/
def okWith {α : Type} (r : Except Cause α) (p : α → Bool) : Bool :=
  match r with
  | .ok a => p a
  | .error _ => false

/-- The bytes of memory at `a`, `a+1`, ... are the given ones. -/
def holdsBytes (m : Memory) (a : Nat) : List Nat → Bool
  | [] => true
  | b :: bs => m.get? a == some (BitVec.ofNat 8 b) && holdsBytes m (a + 1) bs

/-- A reader on the bytes B5 0F at 0x1000 (the examples of R167 to R170), at bit position `8*byte + bit`. -/
def rd (byte : Word) (bit : BitVec 3) : State :=
  { st with mem := bytes 0x1000 [0xB5, 0x0F], brBase := 0x1000, brLen := 2, brByte := byte, brBit := bit }

/-- A writer on the two bytes at 0x2000 (the examples of R171 to R173). -/
def wr : State := { st with bwBase := 0x2000, bwCap := 2 }

/-- A buffer command: `src` at 0x1000, DST of `cap` bytes at 0x2000. -/
def buf (src : List Nat) (cap : Word) : State :=
  { st with
    mem := bytes 0x1000 src, srcAddr := 0x1000, srcLen := BitVec.ofNat 32 src.length, dstAddr := 0x2000,
    dstCap := cap }

/-- Slot 0 built from the lengths 2, 1, 3, 3 (the example of R208). -/
def built : Vector (Option HufCode) 4 := #v[some (hufInstall [2, 1, 3, 3]), none, none, none]

/-! ### WellFormed: each check refuses an ill-formed term (R134) -/

theorem test_wellFormed_brAdvance : (Instr.brAdvance 65).wellFormed = false ∧ (Instr.brAdvance 64).wellFormed := by
  decide
theorem test_wellFormed_brRead : (Instr.brRead 127).wellFormed = false ∧ (Instr.brRead 0).wellFormed := by decide
theorem test_wellFormed_bwWrite : (Instr.bwWrite 65).wellFormed = false ∧ (Instr.bwWrite 64).wellFormed := by decide
theorem test_wellFormed_hufBuildEnc :
    (Instr.hufBuildEnc 3 0).wellFormed = false ∧ (Instr.hufBuildEnc 3 1).wellFormed := by decide
theorem test_wellFormed_hufLoadFixed :
    (Instr.hufLoadFixed 2 0).wellFormed = false ∧ (Instr.hufLoadFixed 1 3).wellFormed := by decide

/-! ### Decoding: words from the format of R130, `OP | (N << 8) | (SLOT << 16) | (MAXLEN << 20)` -/

theorem test_decode_nop : decode 0b00000000_0000_0000_0_0000000_00000000 = .ok .nop := by decide
theorem test_decode_clear : decode 0b00000000_0000_0000_0_0000000_00000001 = .ok .clear := by decide
theorem test_decode_softReset : decode 0b00000000_0000_0000_0_0000000_00000010 = .ok .softReset := by decide
theorem test_decode_brInit : decode 0b00000000_0000_0000_0_0000000_00010000 = .ok .brInit := by decide
theorem test_decode_brPeek : decode 0b00000000_0000_0000_0_0000000_00010001 = .ok .brPeek := by decide
theorem test_decode_brAdvance : decode 0b00000000_0000_0000_0_0000110_00010010 = .ok (.brAdvance 6) := by decide
theorem test_decode_brRead : decode 0b00000000_0000_0000_0_1000000_00010011 = .ok (.brRead 64) := by decide
theorem test_decode_brAlign : decode 0b00000000_0000_0000_0_0000000_00010100 = .ok .brAlign := by decide
theorem test_decode_bwInit : decode 0b00000000_0000_0000_0_0000000_00011000 = .ok .bwInit := by decide
theorem test_decode_bwWrite : decode 0b00000000_0000_0000_0_0000111_00011001 = .ok (.bwWrite 7) := by decide
theorem test_decode_bwFlush : decode 0b00000000_0000_0000_0_0000000_00011010 = .ok .bwFlush := by decide
theorem test_decode_hufBuildEnc :
    decode 0b00000000_0111_0001_0_0000000_00100000 = .ok (.hufBuildEnc 1 7) := by decide
theorem test_decode_hufBuildDec : decode 0b00000000_0000_0010_0_0000000_00100001 = .ok (.hufBuildDec 2) := by decide
theorem test_decode_hufDecode : decode 0b00000000_0000_0011_0_0000000_00100010 = .ok (.hufDecode 3) := by decide
theorem test_decode_hufReadSym : decode 0b00000000_0000_0001_0_0000000_00100011 = .ok (.hufReadSym 1) := by decide
theorem test_decode_hufWriteSym : decode 0b00000000_0000_0010_0_0000000_00100100 = .ok (.hufWriteSym 2) := by decide
theorem test_decode_hufLoadFixed :
    decode 0b00000000_0000_0011_0_0000001_00100101 = .ok (.hufLoadFixed 1 3) := by decide
theorem test_decode_lzCompress : decode 0b00000000_0000_0000_0_0000000_00110000 = .ok .lzCompress := by decide
theorem test_decode_deflate : decode 0b00000000_0000_0000_0_0000000_01000000 = .ok .deflate := by decide
theorem test_decode_inflate : decode 0b00000000_0000_0000_0_0000000_01000001 = .ok .inflate := by decide
theorem test_decode_shrink : decode 0b00000000_0000_0000_0_0000000_01010000 = .ok .shrink := by decide
theorem test_decode_unshrink : decode 0b00000000_0000_0000_0_0000000_01010001 = .ok .unshrink := by decide

/-- R139: check 1 comes before check 2; each reserved bit and each unused field is checked (R132). -/
theorem test_decode_refuses :
    decode 0x00008003 = .error .illegalOpcode ∧ decode 0x00008012 = .error .reservedField ∧
      decode 0x00040022 = .error .reservedField ∧ decode 0x01000030 = .error .reservedField ∧
      decode 0x00000100 = .error .reservedField ∧ decode 0x00010012 = .error .reservedField ∧
      decode 0x00100021 = .error .reservedField := by decide

theorem test_encode : encode (.hufBuildEnc 1 7) = 0x00710020 ∧ encode (.hufLoadFixed 0 3) = 0x00030025 := by decide

/-! ### One step per command: the spec's examples -/

/-- R410: with IRQ_EN = 1, STATUS = 2, IRQ = 1 and irq asserted. -/
theorem test_nop : nextWith (step (({ st with irqEn := true } : State).issue 0)) fun t =>
    t.statusWord == 2 && t.donePend && t.irq := by decide
/-- R411: STATUS 0x0001_100A becomes 0x0000_0002. -/
theorem test_clear :
    ({ st with status := ⟨true, .format, .brOverrun, true, false, false⟩ } : State).statusWord = 0x1100A ∧
    nextWith (step (({ st with status := ⟨true, .format, .brOverrun, true, false, false⟩ } : State).issue 1))
      (fun t => t.statusWord == 2) = true := by decide
/-- R412: LZ_WINDOW, LZ_MAXLEN and HUF_VALID after SOFT_RESET, from other values. -/
theorem test_softReset :
    nextWith (step (({ st with lzWindow := 1, lzMaxlen := 3, slots := built, donePend := true } : State).issue 2))
      fun t => t.regRead .lzWindow == 0x8000 && t.regRead .lzMaxlen == 0x102 && t.regRead .hufValid == 0 &&
        t.statusWord == 0 && !t.donePend := by decide +kernel
/-- R166. -/
theorem test_brInit : nextWith (exec .brInit { rd 1 2 with brLook := 5 }) fun t =>
    t.brByte == 0 && t.brBit == 0 && t.brLook == 0 && t.status.result == .ok := by decide
/-- R167: B5 0F at position 3 give 0x1F6. -/
theorem test_brPeek : nextWith (exec .brPeek (rd 0 3)) fun t => t.brLook == 0x1F6 && t.rpos == 3 := by decide +kernel
/-- R168: from 10, ADVANCE 6 gives 16, and then ADVANCE 1 fails with CAUSE 0x10 and STATUS 0x0001_100A. -/
theorem test_brAdvance : nextWith (exec (.brAdvance 6) (rd 1 2)) (fun t => t.rpos == 16) = true ∧
    nextWith (exec (.brAdvance 1) (rd 2 0)) (fun t => t.rpos == 16 && t.statusWord == 0x1100A) = true := by decide
/-- R169: READ 3 at 0 gives 5, then READ 7 at 3 gives 0x76. -/
theorem test_brRead : nextWith (exec (.brRead 3) (rd 0 0)) (fun t => t.brLook == 5 && t.rpos == 3) = true ∧
    nextWith (exec (.brRead 7) (rd 0 3)) (fun t => t.brLook == 0x76 && t.rpos == 10) = true := by decide +kernel
/-- R169: on BR_OVERRUN, BR_LOOK holds the zero-padded field. -/
theorem test_brRead_overrun : nextWith (exec (.brRead 8) (rd 1 2)) fun t =>
    t.brLook == 3 && t.rpos == 10 && t.status.cause == .brOverrun := by decide +kernel
/-- R170: from 10 to BR_BYTE = 2, BR_BIT = 0. -/
theorem test_brAlign : nextWith (exec .brAlign (rd 1 2)) fun t => t.brByte == 2 && t.brBit == 0 := by decide
/-- R171: a pending partial byte is dropped. -/
theorem test_bwInit : nextWith (exec .bwInit { wr with bwByte := 1, bwBit := 2, bwAcc := 3 }) fun t =>
    t.wpos == 0 && t.bwAcc == 0 && t.mem == [] := by decide
/-- R172: after 5 in 3 bits, 0x76 in 7 bits leaves B5 at BW_BASE, BW_BYTE 1, BW_BIT 2, BW_ACC 3. -/
theorem test_bwWrite :
    nextWith (exec (.bwWrite 7) { wr with bwVal := 0x76, bwBit := 3, bwAcc := 5 }) fun t =>
      t.bwByte == 1 && t.bwBit == 2 && t.bwAcc == 3 && t.mem == [(0x2000, 0xB5)] := by decide +kernel
/-- R172: what does not fit is not written. -/
theorem test_bwWrite_overflow :
    nextWith (exec (.bwWrite 7) { wr with bwByte := 1, bwBit := 2, bwAcc := 3 }) fun t =>
      t.wpos == 10 && t.status.cause == .bwOverflow && t.status.bwFail && t.mem == [] := by decide
/-- R173: then 03 at BW_BASE+1 and BW_BYTE 2. -/
theorem test_bwFlush : nextWith (exec .bwFlush { wr with bwByte := 1, bwBit := 2, bwAcc := 3 }) fun t =>
    t.bwByte == 2 && t.bwBit == 0 && t.bwAcc == 0 && t.mem == [(0x2001, 0x03)] := by decide
/-- R207: frequencies 10, 1, 1, 5, 0, 3 give the lengths 1, 4, 4, 2, 0, 3. -/
theorem test_hufBuildEnc :
    nextWith (exec (.hufBuildEnc 0 15)
      (buf ([10, 0, 0, 0] ++ [1, 0, 0, 0] ++ [1, 0, 0, 0] ++ [5, 0, 0, 0] ++ [0, 0, 0, 0] ++ [3, 0, 0, 0]) 6)) fun t =>
      holdsBytes t.mem 0x2000 [1, 4, 4, 2, 0, 3] && t.written == 6 && t.consumed == 24 &&
        ((t.slot 0).map HufCode.code == some [0, 14, 15, 2, 0, 6]) := by decide +kernel
/-- R208: lengths 2, 1, 3, 3 build maxl 3; 1, 1, 1 end with CAUSE 0x13. -/
theorem test_hufBuildDec :
    nextWith (exec (.hufBuildDec 2) (buf [2, 1, 3, 3] 0)) (fun t =>
      (t.slot 2).map HufCode.code == some [2, 0, 6, 7] && (t.slot 2).map HufCode.maxl == some 3 &&
        t.consumed == 4 && t.written == 0) = true ∧
    nextWith (exec (.hufBuildDec 2) (buf [1, 1, 1] 0)) (fun t =>
      t.slot 2 == none && t.statusWord == 0x130A) = true := by decide +kernel
/-- R434 item 2: a FORMAT end frees the bytes of DST, here two, of which one exists. -/
theorem test_hufBuildDec_frees_dst :
    nextWith (exec (.hufBuildDec 2) { buf [1, 1, 1] 2 with dstAddr := 0xFFFFFFFF }) fun t =>
      (t.mem.map Prod.fst) == [0x1000, 0x1001, 0x1002, 0xFFFFFFFF] && t.draws == 1 := by decide +kernel
/-- R210: the byte 03 gives symbol 2 with length 3. -/
theorem test_hufDecode :
    nextWith (exec (.hufDecode 0)
      { st with slots := built, mem := bytes 0x1000 [3], brBase := 0x1000, brLen := 1 }) fun t =>
        t.hufRes == 0x80030002 && t.rpos == 0 := by decide +kernel
/-- R211: the same codeword consumed. -/
theorem test_hufReadSym :
    nextWith (exec (.hufReadSym 0)
      { st with slots := built, mem := bytes 0x1000 [3], brBase := 0x1000, brLen := 1 }) fun t =>
        t.hufRes == 0x80030002 && t.rpos == 3 := by decide +kernel
/-- R212: symbol 3 is 111; symbol 4 is not in the code. -/
theorem test_hufWriteSym :
    nextWith (exec (.hufWriteSym 0) { wr with slots := built, hufSym := 3 }) (fun t =>
      t.bwBit == 3 && t.bwAcc == 7) = true ∧
    nextWith (exec (.hufWriteSym 0) { wr with slots := built, hufSym := 4 }) (fun t =>
      t.bwBit == 0 && t.status.cause == .badOperand) = true := by decide +kernel
/-- R209: the fixed distance code has maxl 5. -/
theorem test_hufLoadFixed : nextWith (exec (.hufLoadFixed 1 3) st) fun t =>
    (t.slot 3).map HufCode.maxl == some 5 && t.regRead .hufValid == 8 := by decide +kernel
/-- R253: twelve "a" give Lit(0x61) and Match(1, 11). -/
theorem test_lzCompress : nextWith (exec .lzCompress (buf (List.replicate 12 0x61) 8)) fun t =>
    holdsBytes t.mem 0x2000 [0x61, 0, 0, 0, 0, 0, 0x0b, 0x80] && t.written == 8 && t.consumed == 12 := by
  decide +kernel
/-- R253: a DST too small by one byte. -/
theorem test_lzCompress_full : nextWith (exec .lzCompress (buf (List.replicate 12 0x61) 7)) fun t =>
    t.written == 0 && t.consumed == 0 && t.status.cause == .dstFull := by decide +kernel
/-- R330: "a" gives 4b 04 00. -/
theorem test_deflate : nextWith (exec .deflate (buf [0x61] 3)) fun t =>
    holdsBytes t.mem 0x2000 [0x4b, 0x04, 0x00] && t.written == 3 && t.consumed == 1 := by decide +kernel
/-- R473: DEFLATE of nothing does not fit in no bytes. -/
theorem test_deflate_overflow : nextWith (exec .deflate (buf [] 0)) fun t =>
    t.status.cause == .bwOverflow && t.status.bwFail && t.written == 0 := by decide +kernel
/-- R310: 4b 44 02 00 gives twelve "a". -/
theorem test_inflate : nextWith (exec .inflate (buf [0x4b, 0x44, 0x02, 0x00] 12)) fun t =>
    holdsBytes t.mem 0x2000 (List.replicate 12 0x61) && t.written == 12 && t.consumed == 4 := by decide +kernel
/-- R473: INFLATE of nothing ends `Format(BR_OVERRUN)`. -/
theorem test_inflate_truncated : nextWith (exec .inflate (buf [] 0)) fun t =>
    t.status.cause == .brOverrun && t.status.brFail && t.written == 0 := by decide +kernel
/-- R370: the example of seventeen bytes, "ababcbababaaaaaaa". -/
theorem test_shrink :
    nextWith (exec .shrink
      (buf ([0x61, 0x62, 0x61, 0x62, 0x63, 0x62, 0x61, 0x62] ++ [0x61, 0x62] ++ List.replicate 7 0x61) 12)) fun t =>
      holdsBytes t.mem 0x2000 ([0x61, 0xc4, 0x04, 0x1c, 0x23, 0xb0] ++ [0x60, 0x98, 0x83, 0x08, 0xc3, 0x00]) &&
        t.written == 12 && t.consumed == 17 := by decide +kernel
/-- R371, R383 and R390 disagree (assumption 17). Both tables stand just after a partial clear that freed every code,
258 among them, which was the code just emitted. The encoder inserts 257 = (258, "b") and goes on from "b"; on the bytes
"b", "b", "b", "c" it emits 98 and then 257. The decoder, whose last code was 258, inserts the same 257 on the 98 and ends
LZW_FREE_CODE on the 257, since its 258 is still free. -/
theorem test_shrink_after_clear :
    okWith (shrinkInsert 0x62 (some 257) ⟨lzwInit, 9, 258, [], ⟨0x2000, 9, 0, 0, 0, []⟩⟩) (fun z =>
      okWith (shrinkBytes false [0x62, 0x62, 0x62, 0x63] { z with cur := 0x62 }) fun y =>
        okWith (writeFields [⟨98, 9⟩, ⟨257, 9⟩] ⟨0x2000, 9, 0, 0, 0, []⟩) fun w => y.wr == w) = true ∧
    okWith (unshrinkData 100 98 ⟨lzwInit, 9, some 258, [0x61, 0x61], ⟨0x1000, 9, 0, 0⟩, []⟩) (fun u =>
      lzwGet u.table 257 == ⟨true, some 258, 0x62⟩ &&
        (match unshrinkString 257 u with | .error c => c == .lzwFreeCode | .ok _ => false)) = true := by decide +kernel
/-- R380: "anbanana", whose last code is the KwKwK snag. -/
theorem test_unshrink : nextWith (exec .unshrink (buf [0x61, 0xdc, 0x88, 0x09, 0x48, 0x10] 8)) fun t =>
    holdsBytes t.mem 0x2000 [0x61, 0x6e, 0x62, 0x61, 0x6e, 0x61, 0x6e, 0x61] && t.written == 8 &&
      t.consumed == 6 := by decide +kernel
/-- R385: the self-referential entry ends LZW_CYCLE. -/
theorem test_unshrink_cycle :
    nextWith (exec .unshrink (buf [0x61, 0xc4, 0x04, 0x04, 0x28, 0x20, 0x4c, 0x40] 20)) fun t =>
      t.status.cause == .lzwCycle && t.written == 0 := by decide +kernel

/-! ### Witnesses: states and operands that meet the hypotheses of each statement, clause by clause -/

theorem exists_of_nextWith {o : Out} {p : State → Bool} (h : nextWith o p = true) : ∃ t, o = .next t ∧ p t = true := by
  cases o with
  | next t => exact ⟨t, rfl, h⟩
  | fault _ => cases h
  | refused _ => cases h

theorem exists_of_okWith {α : Type} {r : Except Cause α} {p : α → Bool} (h : okWith r p = true) :
    ∃ a, r = .ok a ∧ p a = true := by
  cases r with
  | ok a => exact ⟨a, rfl, h⟩
  | error _ => cases h

/-- Any next state at all. -/
abbrev runs (o : Out) : Bool := nextWith o fun _ => true

theorem next_of_runs {o : Out} (h : runs o = true) : ∃ t, o = .next t := by
  obtain ⟨t, e, _⟩ := exists_of_nextWith h
  exact ⟨t, e⟩

/-- Reader and writer buffers that end at the top of host memory. -/
def edge : State := { st with brBase := 0xFFFFFFFF, brLen := 1, bwBase := 0xFFFFFFFF, bwCap := 1 }

/-- Reader and writer buffers one byte too long for host memory. -/
def past : State := { st with brBase := 0xFFFFFFFF, brLen := 2, bwBase := 0xFFFFFFFF, bwCap := 2 }

theorem witness_UndefinedOpcodeEndsIllegal : st.ready ∧ undefinedOp (opField 0x03).toNat = true ∧
    undefinedOp (opField 0x52).toNat = true ∧ undefinedOp (opField 0xFFFFFFFF).toNat = true ∧
    (opField 0x51).toNat = 0x51 ∧ undefinedOp 0x51 = false := by decide
theorem witness_ReservedFieldEndsIllegal : st.ready ∧ (0x12, 0x7FFF#32) ∈ opcodeMasks ∧
    (opField 0x8012).toNat = 0x12 ∧ 0x8012#32 &&& ~~~0x7FFF#32 ≠ 0 ∧ (opField 0x7F12).toNat = 0x12 ∧
    0x7F12#32 &&& ~~~0x7FFF#32 = 0 := by decide
theorem witness_StepRunsTheDecodedCommand : st.ready ∧ decode 0x612 = .ok (.brAdvance 6) ∧
    decode 3 = .error .illegalOpcode := by decide
theorem witness_CompletionOfEveryCommand : (∃ t, exec .brInit st = .next t) ∧ ∃ t, exec .softReset st = .next t :=
  ⟨next_of_runs (by decide), next_of_runs (by decide)⟩
theorem witness_EveryCommandEnds : st.plainBuffers (st.buffersOf .deflate) ∧
    edge.plainBuffers (edge.buffersOf .bwInit) ∧
    exec .bwInit { st with bwBase := 0xF00000FF, bwCap := 1 } = .refused .bufferOnRegisterBlock :=
  ⟨by decide, by decide, rfl⟩
theorem witness_NopAndClear : st.ready ∧ opField 0x100 = 0 ∧ 0x100#32 >>> 8 ≠ 0 ∧ opField 0x80000001 = 1 ∧
    0x80000001#32 >>> 8 ≠ 0 := by decide
theorem witness_HardwareResetHolds : nextWith (step { st with inbox := .rstPin true :: st.inbox }) (·.rst) ∧
    ({ st with rst := true } : State).rst = true ∧ (rd 1 2).rst = false := by decide
/-- R471, R451: an input that stays released loses nothing; R108, R472: a reset during BW_INIT frees no byte. -/
theorem test_reset_input : nextWith (step { rd 1 2 with inbox := [.rstPin false] }) (fun t => t.brByte == 1) = true ∧
    nextWith (step { wr with mem := bytes 0x2000 [7], inbox := [.command 0x18 ⟨[], .reset⟩] }) (fun t =>
      t.rst && t.mem == bytes 0x2000 [7]) = true := by decide
theorem witness_ResetDuringCommand : (buf [0x61] 3).ready ∧ decode 0x40 = .ok .deflate ∧
    (buf [0x61] 3).plainBuffers ((buf [0x61] 3).buffersOf .deflate) ∧
    (((buf [0x61] 3).destOf .deflate).any fun r => r.holds 0x2002) = true ∧
    (((buf [0x61] 3).destOf .deflate).any fun r => r.holds 0x2003) = false := by decide

/-- BrInitResult, BrPeekResult, and the first clauses of the other commands on the reader. -/
theorem witness_reader_buffer : ¬ past.brFits ∧ edge.brFits ∧ edge.plainBuffers [edge.brBuffer] := by decide
theorem witness_BrAdvanceResult : 64 < (65 : BitVec 7).toNat ∧ (64 : BitVec 7).toNat ≤ 64 ∧ (rd 1 2).brFits ∧
    (rd 1 2).plainBuffers [(rd 1 2).brBuffer] ∧ (rd 1 2).rrem = (6 : BitVec 7).toNat ∧
    (rd 1 2).rrem < (7 : BitVec 7).toNat := by decide
theorem witness_BrReadResult : (rd 2 0).brFits ∧ (rd 2 0).plainBuffers [(rd 2 0).brBuffer] ∧
    (0 : BitVec 7).toNat ≤ (rd 2 0).rrem ∧ (rd 2 0).rrem < (1 : BitVec 7).toNat := by decide
theorem witness_BrAlignResult : (rd 1 2).brFits ∧ (rd 1 2).plainBuffers [(rd 1 2).brBuffer] ∧ (rd 1 2).brBit ≠ 0 ∧
    (rd 2 0).brFits ∧ (rd 2 0).brBit = 0 ∧ (rd 2 0).rpos = 8 * (rd 2 0).brLen.toNat ∧
    (rd 1 2).rpos ≤ 8 * (rd 1 2).brLen.toNat := by decide
theorem witness_ReaderNeverPassesEnd : (rd 1 2).rpos ≤ 8 * (rd 1 2).brLen.toNat ∧
    ∃ t, exec (.brAdvance 6) (rd 1 2) = .next t :=
  ⟨by decide, next_of_runs (by decide)⟩
theorem witness_ReaderFrame : (∃ t, exec .brInit (rd 0 3) = .next t) ∧ (∃ t, exec .brPeek (rd 0 3) = .next t) ∧
    (∃ t, exec (.brAdvance 64) (rd 0 3) = .next t) ∧ (∃ t, exec (.brRead 64) (rd 0 3) = .next t) ∧
    (∃ t, exec .brAlign (rd 0 3) = .next t) ∧ (∃ t, exec (.hufDecode 0) { rd 0 3 with slots := built } = .next t) ∧
    ∃ t, exec (.hufReadSym 0) { rd 0 3 with slots := built } = .next t :=
  ⟨next_of_runs (by decide), next_of_runs (by decide +kernel), next_of_runs (by decide),
    next_of_runs (by decide +kernel), next_of_runs (by decide), next_of_runs (by decide +kernel),
    next_of_runs (by decide +kernel)⟩

/-- BwInitResult, and the first clauses of the other commands on the writer. -/
theorem witness_writer_buffer : ¬ past.bwFits ∧ edge.bwFits ∧ edge.plainBuffers [edge.bwBuffer] := by decide

/-- The writer of `wr` with two bits of its second byte buffered. -/
def wr10 : State := { wr with bwByte := 1, bwBit := 2, bwAcc := 3 }

theorem witness_BwWriteResult : wr10.bwFits ∧ wr10.plainBuffers [wr10.bwBuffer] ∧ wr10.accOk = true ∧
    (wr10.wpos + (6 : BitVec 7).toNat + 7) / 8 = wr10.bwCap.toNat ∧
    wr10.bwCap.toNat < (wr10.wpos + (7 : BitVec 7).toNat + 7) / 8 := by decide
theorem witness_BwFlushResult : wr.bwFits ∧ wr.plainBuffers [wr.bwBuffer] ∧ wr.bwBit = 0 ∧ wr10.bwBit ≠ 0 ∧
    wr10.bwByte.toNat + 1 = wr10.bwCap.toNat ∧ ({ wr10 with bwCap := 1 } : State).bwFits ∧
    ({ wr10 with bwCap := 1 } : State).plainBuffers [({ wr10 with bwCap := 1 } : State).bwBuffer] ∧
    ({ wr10 with bwCap := 1 } : State).bwCap.toNat < ({ wr10 with bwCap := 1 } : State).bwByte.toNat + 1 := by decide
theorem witness_WriterFrame : (∃ t, exec .bwInit wr10 = .next t) ∧ (∃ t, exec (.bwWrite 6) wr10 = .next t) ∧
    (∃ t, exec .bwFlush wr10 = .next t) ∧
    ∃ t, exec (.hufWriteSym 0) { wr10 with slots := built, hufSym := 3 } = .next t :=
  ⟨next_of_runs (by decide), next_of_runs (by decide +kernel), next_of_runs (by decide),
    next_of_runs (by decide +kernel)⟩
theorem witness_BitstreamRoundTrip : (∀ f ∈ [BitField.mk 5 3, ⟨0x76, 7⟩, ⟨9, 64⟩, ⟨0, 0⟩], f.width ≤ 64) ∧
    ∃ wr, writeFields [⟨5, 3⟩, ⟨0x76, 7⟩, ⟨9, 64⟩, ⟨0, 0⟩] ⟨0x2000, 10, 0, 0, 0, []⟩ = .ok wr ∧
      okWith (bwFlush wr) (fun _ => true) = true :=
  ⟨by decide, exists_of_okWith (by decide +kernel)⟩

/-- `k` frequencies of 1, as little-endian words. -/
def freqs (k : Nat) : List Nat := (List.replicate k [1, 0, 0, 0]).flatten

theorem witness_HufBuildEncResult_bad : (1 : BitVec 4) ≠ 0 ∧ (buf [] 0).srcLen.toNat < 4 ∧
    (buf [1, 2, 3, 4, 5] 2).srcLen.toNat % 4 ≠ 0 ∧ ¬ ({ buf (freqs 2) 2 with dstAddr := 0x1007 } : State).buffersApart ∧
    ({ buf (freqs 2) 2 with dstAddr := 0x1008 } : State).buffersApart := by decide +kernel
theorem witness_HufBuildEncResult : (buf (freqs 2) 2).srcLen.toNat % 4 = 0 ∧ 4 ≤ (buf (freqs 2) 2).srcLen.toNat ∧
    (buf (freqs 2) 2).srcLen.toNat ≤ 4 * 288 ∧ (buf (freqs 2) 2).buffersApart ∧
    (buf (freqs 2) 2).plainBuffers [(buf (freqs 2) 2).srcBuffer, (buf (freqs 2) 2).dstBuffer] ∧
    (buf (freqs 2) 1).dstCap.toNat < (buf (freqs 2) 1).srcLen.toNat / 4 ∧
    (buf (freqs 2) 2).srcLen.toNat / 4 = (buf (freqs 2) 2).dstCap.toNat ∧
    usedSymbols ((List.range 2).map (buf (freqs 2) 2).sourceWord) = 2 ^ (1 : BitVec 4).toNat ∧
    2 ^ (1 : BitVec 4).toNat < usedSymbols ((List.range 3).map (buf (freqs 3) 3).sourceWord) := by decide +kernel
theorem witness_HufBuildDecResult : ¬ 1 ≤ (buf [] 0).srcLen.toNat ∧ (buf fixedLit 0).srcLen.toNat = 288 ∧
    (buf fixedLit 0).srcAddr.toNat + (buf fixedLit 0).srcLen.toNat ≤ 4294967296 ∧
    (buf fixedLit 0).plainBuffers [(buf fixedLit 0).srcBuffer] ∧
    hufCheck .oneMissing ((buf fixedLit 0).sourceString.map BitVec.toNat) = none ∧
    (buf [1] 0).srcLen.toNat = 1 ∧ hufCheck .oneMissing ((buf [1] 0).sourceString.map BitVec.toNat) = none ∧
    hufCheck .oneMissing ((buf [1, 1, 1] 0).sourceString.map BitVec.toNat) = some .hufOversubscribed ∧
    hufCheck .oneMissing ((buf [2, 2] 0).sourceString.map BitVec.toNat) = some .hufIncomplete ∧
    hufCheck .oneMissing ((buf [16] 0).sourceString.map BitVec.toNat) = some .hufLengthRange := by decide +kernel
theorem witness_HufLoadFixedResult : 2 ≤ (2 : BitVec 7).toNat ∧ (1 : BitVec 7).toNat ≤ 1 := by decide

/-- A reader at bit `bit` of the one byte `b`, with slot 0 holding the code of the single length 1, whose table has an
INVALID entry. -/
def one (b : Nat) (bit : BitVec 3) (len : Word) : State :=
  { st with
    slots := #v[some (hufInstall [1]), none, none, none], mem := bytes 0x1000 [b], brBase := 0x1000, brLen := len,
    brBit := bit }

/-- HufDecodeResult and HufReadSymResult: no code, INVALID, and a symbol with as many bits as it needs and fewer. -/
theorem witness_HufReadSymResult : (one 1 0 1).slotsOk = true ∧ (one 1 0 1).brFits ∧ (one 1 0 1).slot 1 = none ∧
    (one 1 0 1).plainBuffers [(one 1 0 1).brBuffer] ∧ (one 1 0 1).slot 0 = some (hufInstall [1]) ∧
    (one 1 0 1).isWindow 1 ∧ hufLookup (hufInstall [1]) 1 = none ∧ (one 1 7 1).isWindow 0 ∧
    hufLookup (hufInstall [1]) 0 = some ⟨0, 1⟩ ∧ (one 1 7 1).rrem = 1 ∧ (one 1 0 0).isWindow 0 ∧
    (one 1 0 0).rrem < 1 ∧ (one 1 0 0).slotsOk = true ∧ (one 1 0 0).brFits ∧
    (one 1 0 0).plainBuffers [(one 1 0 0).brBuffer] := by decide +kernel
theorem witness_reader_past_with_slots : ({ past with slots := built } : State).slotsOk = true ∧
    ¬ ({ past with slots := built } : State).brFits := by decide +kernel

/-- The writer of `wr10` and the code of `built`, with HUF_SYM and BW_CAP as given. -/
def put (sym : BitVec 9) (cap : Word) : State := { wr10 with slots := built, hufSym := sym, bwCap := cap }

theorem witness_HufWriteSymResult : (put 3 2).bwFits ∧ (put 3 2).slot 1 = none ∧
    (put 3 2).slot 0 = some (hufInstall [2, 1, 3, 3]) ∧ (hufInstall [2, 1, 3, 3]).n = (put 4 2).hufSym.toNat ∧
    (hufInstall [1, 0, 1]).len.getD 1 0 = 0 ∧ (put 3 2).hufSym.toNat < (hufInstall [2, 1, 3, 3]).n ∧
    (hufInstall [2, 1, 3, 3]).len.getD 3 0 = 3 ∧ (put 3 2).plainBuffers [(put 3 2).bwBuffer] ∧
    ((put 3 2).wpos + 3 + 7) / 8 = (put 3 2).bwCap.toNat ∧ (put 3 1).bwFits ∧
    (put 3 1).plainBuffers [(put 3 1).bwBuffer] ∧ (put 3 1).bwCap.toNat < ((put 3 1).wpos + 3 + 7) / 8 := by
  decide +kernel
theorem witness_CanonicalCodeRoundTrip : hufCheck .allowAny [2, 1, 3, 3] = none ∧
    ∃ wr1, hufPut (hufInstall [2, 1, 3, 3]) 2 ⟨0x2000, 2, 1, 2, 3, []⟩ = .ok wr1 ∧
      okWith (bwFlush wr1) (fun _ => true) = true :=
  ⟨by decide +kernel, exists_of_okWith (by decide +kernel)⟩
theorem witness_CodeLengthsAreComplete : usedSymbols [0, 7, 0] = 1 ∧ usedSymbols [3, 0, 4] = 2 ^ 1 ∧
    usedSymbols [] ≤ 2 ^ 15 := by decide

/-- The bytes of "aaaab". -/
def aaaab : List Byte := [0x61, 0x61, 0x61, 0x61, 0x62]

/-- The parameters of R331, and the same without overlap. -/
def params (overlap : Bool) : LzParams := ⟨32768, 258, overlap⟩

theorem witness_LzBestIsLongest : 1 < aaaab.length ∧ 1 ≤ min (params true).window 1 ∧
    3 ≤ min (params true).maxLen (aaaab.length - 1) ∧ (∀ j < 3, aaaab[1 - 1 + j]? = aaaab[1 + j]?) ∧
    lzBest aaaab 1 (params true) = ⟨3, 1⟩ ∧ (lzBest aaaab 0 (params true)).len = 0 ∧
    lzBest aaaab 1 (params false) = ⟨0, 0⟩ ∧
    lzBest [1, 2, 3, 1, 2, 3] 3 (params false) = ⟨3, 3⟩ := by decide
theorem witness_TokenValidity : lzTokens aaaab (params true) = [.lit 0x61] ++ .backRef 1 3 :: [.lit 0x62] ∧
    lzTokens [1, 2, 3, 1, 2, 3] (params false) = [.lit 1, .lit 2, .lit 3] ++ .backRef 3 3 :: [] := by decide
theorem witness_LzCompressResult :
    ({ buf [1, 2] 8 with lzWindow := 0x8000, lzMaxlen := 258 } : State).lzParams.legal = true ∧
    ({ buf [1, 2] 8 with lzWindow := 1, lzMaxlen := 3 } : State).lzParams.legal = true ∧
    ({ buf [1, 2] 8 with lzWindow := 0 } : State).lzParams.legal = false ∧
    ({ buf [1, 2] 8 with lzMaxlen := 259 } : State).lzParams.legal = false ∧ (buf [1, 2] 8).buffersApart ∧
    ¬ ({ buf [1, 2] 8 with dstAddr := 0x1001 } : State).buffersApart ∧
    (buf [1, 2] 8).plainBuffers [(buf [1, 2] 8).srcBuffer, (buf [1, 2] 8).dstBuffer] ∧
    lzTokens (buf [1, 2] 8).sourceString (buf [1, 2] 8).lzParams = [.lit 1, .lit 2] ∧
    (buf [1, 2] 7).dstCap.toNat < 4 * 2 := by decide +kernel
/-- R280, R281: the ends of the ranges of SymbolMapping. -/
theorem witness_SymbolMapping : lsym 3 = 257 ∧ lsym 257 = 284 ∧ lsym 258 = 285 ∧ dsym 1 = 0 ∧ dsym 32768 = 29 := by
  decide
theorem witness_BlockEstimatesAreExact : ∀ kind ∈ [BlockKind.fixed, .dynamic, .stored],
    rawLen [.lit 0x61] = [(0x61 : Byte)].length ∧ storedCost 13 [.lit 0x61] = some 43 ∧
    okWith (writeFields (blockFields true kind 13 (planDynamic [.lit 0x61]) [.lit 0x61] [0x61])
      ⟨0x2000, 100, 1, 5, 0, []⟩) (fun _ => true) = true := by decide +kernel
theorem witness_DeflateCompletes : (buf [] 2).buffersApart ∧
    (buf [] 2).plainBuffers [(buf [] 2).srcBuffer, (buf [] 2).dstBuffer] ∧
    2 * ((buf [] 2).srcLen.toNat + 1) = (buf [] 2).dstCap.toNat := by decide
theorem witness_EncoderCapacityBoundary : (buf [0x61] 2).buffersApart ∧
    (buf [0x61] 3).plainBuffers [(buf [0x61] 3).srcBuffer, ⟨0x2000, 2⟩] ∧
    (∃ t, exec .deflate (buf [0x61] 3) = .next t ∧ (t.status.result == .ok && t.written == 3) = true) ∧
    ∃ t, exec .shrink (buf [0x61] 3) = .next t ∧ (t.status.result == .ok && t.written == 2) = true :=
  ⟨by decide, by decide, exists_of_nextWith (by decide +kernel), exists_of_nextWith (by decide +kernel)⟩
theorem witness_InflateStoredBlock : ∀ s ∈ [buf [1, 0, 0, 0xFF, 0xFF] 0, buf [0xF9, 1, 0, 0xFE, 0xFF, 7] 1],
    s.buffersApart ∧ s.plainBuffers [s.srcBuffer, s.dstBuffer] ∧ s.dstCap.toNat + 5 = s.srcLen.toNat ∧
    (s.mem.read s.srcAddr.toNat).toNat % 8 = 1 ∧
    (s.mem.read (s.srcAddr.toNat + 1)).toNat + 256 * (s.mem.read (s.srcAddr.toNat + 2)).toNat = s.dstCap.toNat ∧
    (s.mem.read (s.srcAddr.toNat + 3)).toNat + 256 * (s.mem.read (s.srcAddr.toNat + 4)).toNat =
      65535 - s.dstCap.toNat := by decide +kernel
theorem witness_FixedBlockRoundTrip : tokensFit 0 [.lit 0x61, .backRef 1 258] = true ∧
    rawLen [.lit 0x61, .backRef 1 258] ≤ 259 ∧
    ∃ wr, writeFields (blockFields true .fixed 0 (planDynamic [.lit 0x61, .backRef 1 258])
        [.lit 0x61, .backRef 1 258] []) ⟨0x2000, 5, 0, 0, 0, []⟩ = .ok wr ∧
      okWith (bwFlush wr) (fun _ => true) = true :=
  ⟨by decide, by decide, exists_of_okWith (by decide +kernel)⟩
/-- "a" compressed to 4b 04 00, which stands at the second state's SRC. -/
theorem witness_DeflateInflateRoundTrip :
    (∃ t, exec .deflate (buf [0x61] 3) = .next t ∧
      (t.status.result == .ok && t.written == (buf [0x4b, 0x04, 0x00] 1).srcLen &&
        holdsBytes t.mem 0x2000 [0x4b, 0x04, 0x00]) = true) ∧
    holdsBytes (buf [0x4b, 0x04, 0x00] 1).mem 0x1000 [0x4b, 0x04, 0x00] = true ∧
    (buf [0x4b, 0x04, 0x00] 1).buffersApart ∧
    (buf [0x4b, 0x04, 0x00] 1).plainBuffers
      [(buf [0x4b, 0x04, 0x00] 1).srcBuffer, (buf [0x4b, 0x04, 0x00] 1).dstBuffer] ∧
    (buf [0x61] 3).srcLen.toNat = (buf [0x4b, 0x04, 0x00] 1).dstCap.toNat :=
  ⟨exists_of_nextWith (by decide +kernel), by decide, by decide, by decide, by decide⟩
theorem witness_ShrinkCompletes : (buf [] 13).buffersApart ∧
    (buf [] 13).plainBuffers [(buf [] 13).srcBuffer, (buf [] 13).dstBuffer] ∧
    5 * (buf [] 13).srcLen.toNat + 13 = (buf [] 13).dstCap.toNat ∧ (buf [] 13).srcLen = 0 := by decide
theorem witness_UnshrinkLiterals : (buf [0x61, 0] 1).buffersApart ∧
    (buf [0x61, 0] 1).plainBuffers [(buf [0x61, 0] 1).srcBuffer, (buf [0x61, 0] 1).dstBuffer] ∧
    8 * (buf [0x61, 0] 1).srcLen.toNat / 9 = (buf [0x61, 0] 1).dstCap.toNat ∧
    (∀ k < 1, (buf [0x61, 0] 1).memBit (buf [0x61, 0] 1).srcAddr.toNat (9 * k + 8) = false) := by decide +kernel
theorem witness_PartialClearFreesUnreferenced : lzwInit.length = 8192 ∧ (lzwInsert lzwInit 257 97 98).length = 8192 ∧
    (lzwGet (lzwInsert lzwInit 257 97 98) 257).used = true ∧ (lzwGet lzwInit 8191).used = false := by decide +kernel
theorem witness_ShrinkRoundTrip :
    ∃ wr, shrinkRun false [0x61] ⟨0x2000, 2, 0, 0, 0, []⟩ = .ok wr ∧ (wr.byte == 2) = true :=
  exists_of_okWith (by decide +kernel)

theorem witness_BufferCommandFrame : isBufferCommand (.hufBuildDec 2) = true ∧
    (∃ t, exec (.hufBuildDec 2) (buf [2, 1, 3, 3] 0) = .next t ∧ (t.status.result == .ok) = true) ∧
    ∃ t, exec .inflate (buf [0x4b, 0x04, 0x00] 1) = .next t ∧ (t.status.result == .ok) = true :=
  ⟨rfl, exists_of_nextWith (by decide +kernel), exists_of_nextWith (by decide +kernel)⟩
theorem witness_NonOkOutputs :
    (∃ t, exec .inflate { buf [1] 1 with dstAddr := 0x1000 } = .next t ∧ (t.status.result == .illegal) = true) ∧
    (∃ t, exec .lzCompress (buf [1] 3) = .next t ∧ (t.status.result == .capacity) = true) ∧
    (∃ t, exec .inflate (buf [] 0) = .next t ∧ (t.status.result == .format) = true) ∧
    (∃ t, exec (.bwWrite 7) wr10 = .next t ∧ (t.status.result == .capacity) = true) ∧
    ∃ t, exec (.brRead 8) (rd 1 2) = .next t ∧ (t.status.result == .format) = true :=
  ⟨exists_of_nextWith (by decide +kernel), exists_of_nextWith (by decide +kernel),
    exists_of_nextWith (by decide +kernel), exists_of_nextWith (by decide), exists_of_nextWith (by decide +kernel)⟩
/-- CausesOfEachCommand and CommandWritesOnlyItsDestination. -/
theorem witness_CommandWritesOnlyItsDestination : (∃ t, exec .bwFlush wr10 = .next t) ∧
    ((wr10.destOf .bwFlush).any fun r => r.holds 0x2002) = false ∧
    (∃ t, exec (.hufBuildDec 0) (buf [1, 1, 1] 2) = .next t ∧ (t.status.result == .format) = true) ∧
    (buf [1, 1, 1] 2).dstBuffer.holds 0x2001 = true ∧ (buf [1, 1, 1] 2).dstBuffer.holds 0x2002 = false :=
  ⟨next_of_runs (by decide), by decide, exists_of_nextWith (by decide +kernel), by decide, by decide⟩
/-- The other memory has another byte just past the source. -/
theorem witness_CommandReadsOnlyItsSource : (∃ t, exec .lzCompress (buf [1] 4) = .next t) ∧
    ∀ a, (((buf [1] 4).sourceOf .lzCompress).any fun r => r.holds a) = true →
      Memory.read [(0x1000, 1), (0x1001, 9)] a = (buf [1] 4).mem.read a := by
  refine ⟨next_of_runs (by decide +kernel), fun a h => ?_⟩
  have e : a = 0x1000 := by
    simp [State.sourceOf, State.srcBuffer, Region.holds, buf] at h
    omega
  subst e
  decide
theorem witness_RegisterReadBack : st.ready ∧ (0x44, .lzMaxlen, .rw) ∈ regMap ∧ (0x08, .status, .ro) ∈ regMap ∧
    (0x14 : BitVec 8).toNat ∉ regMap.map Prod.fst ∧ (0xFC : BitVec 8).toNat ∉ regMap.map Prod.fst := by decide
theorem witness_AccessesWhileBusy : ({ st with engine := .busy 0x40 } : State).rst = false ∧
    ({ st with engine := .busy 0x40 } : State).busy = true ∧ (0x04, .cmd, .wo) ∈ regMap ∧
    (0x30, .consumed, .ro) ∈ regMap ∧ (0x10, .irq, .rw1c) ∈ regMap ∧ (0x0C, .ctrl, .rw) ∈ regMap := by decide
theorem witness_InterruptIsLevel : st.ready ∧ decode 0 = .ok .nop ∧ ∃ t, exec .nop (st.start 0) = .next t :=
  ⟨by decide, by decide, next_of_runs (by decide)⟩
/-- StepKeepsCanonicalMemory, StepKeepsStatusInvariants and StepKeepsSlots. -/
theorem witness_StepKeeps : (rd 1 2).mem.wf = true ∧ (rd 1 2).engine = .idle ∧ (rd 1 2).outcomeOk = true ∧
    wr10.accOk = true ∧ (rd 1 2).accOk = true ∧ (rd 1 2).hufResOk = true ∧
    ({ st with slots := built } : State).slotsOk = true ∧ ∃ t, step ((rd 1 2).issue 0x612) = .next t :=
  ⟨by decide, by decide, by decide, by decide, by decide, by decide, by decide +kernel, next_of_runs (by decide)⟩

end Sys2Proof.Tests
end

/-! SUPPORT. Said once: what a command that passed its checks can leave (`Effect`), so that a proof over every command
is a case split on it, and what one step of the block can be (`StepEffect`), so that an invariant is proved from a
command's effect and from what the host's own accesses can touch. -/

namespace Sys2Proof.Machine

/-! ### What a command can leave -/

/-- Every state a command can leave once its ILLEGAL checks have passed (R166 to R173, R207 to R212, R253, R310, R330,
R370, R380, R410 to R412), with the outcome of the primitive it ran. -/
inductive Effect (s : State) : Instr → State → Prop
  | nop : Effect s .nop s.finishOk
  | clear : Effect s .clear
      { s with status := { s.status with brFail := false, bwFail := false, wrBusy := false } }.finishOk
  | softReset : Effect s .softReset s.hardReset
  | brInit : Effect s .brInit { s with brByte := 0, brBit := 0, brLook := 0 }.finishOk
  | brPeek : Effect s .brPeek (s.latchLook (brBits s.mem s.readCursor)).finishOk
  | brAdvance {n : BitVec 7} {rd : ReadCursor} (adv : brAdvance n.toNat s.readCursor = .ok rd) :
      Effect s (.brAdvance n) (s.setReadCursor rd).finishOk
  | brAdvanceOverrun {n : BitVec 7} (short : s.rrem < n.toNat) : Effect s (.brAdvance n) (s.failPlain .brOverrun)
  | brRead {n : BitVec 7} {rd : ReadCursor} (adv : brAdvance n.toNat s.readCursor = .ok rd) :
      Effect s (.brRead n) ((s.latchLook (brBits s.mem s.readCursor % 2 ^ n.toNat)).setReadCursor rd).finishOk
  | brReadOverrun {n : BitVec 7} (short : s.rrem < n.toNat) :
      Effect s (.brRead n) ((s.latchLook (brBits s.mem s.readCursor % 2 ^ n.toNat)).failPlain .brOverrun)
  | brAlign : Effect s .brAlign (s.setReadCursor (brAlign s.readCursor)).finishOk
  | bwInit : Effect s .bwInit { s with bwByte := 0, bwBit := 0, bwAcc := 0 }.finishOk
  | bwWrite {n : BitVec 7} {wr : WriteCursor} (write : bwWrite s.bwVal.toNat n.toNat s.writeCursor = .ok wr) :
      Effect s (.bwWrite n) (s.setWriteCursor wr).finishOk
  | bwWriteOverflow {n : BitVec 7} (full : bwWrite s.bwVal.toNat n.toNat s.writeCursor = .error .bwOverflow) :
      Effect s (.bwWrite n) (s.failPlain .bwOverflow)
  | bwFlush {wr : WriteCursor} (flush : bwFlush s.writeCursor = .ok wr) :
      Effect s .bwFlush (s.setWriteCursor wr).finishOk
  | bwFlushOverflow (full : bwFlush s.writeCursor = .error .bwOverflow) : Effect s .bwFlush (s.failPlain .bwOverflow)
  | hufBuildEncFull {k : BitVec 2} {l : BitVec 4} (full : s.dstCap.toNat < s.srcLen.toNat / 4) :
      Effect s (.hufBuildEnc k l) (s.failBuffer .dstFull (some s.dstBuffer))
  | hufBuildEncTooMany {k : BitVec 2} {l : BitVec 4} : Effect s (.hufBuildEnc k l) (s.finish .hufTooManySymbols)
  | hufBuildEnc {k : BitVec 2} {l : BitVec 4} (args : s.hufBuildEncOk = true)
      (room : s.srcLen.toNat / 4 ≤ s.dstCap.toNat) :
      Effect s (.hufBuildEnc k l)
        ((({ s with
            mem := s.mem.writeBytes s.dstAddr.toNat
              ((hufLengths (leWords s.srcBytes) l.toNat).map (BitVec.ofNat 8)) }).setSlot k
          (hufInstall (hufLengths (leWords s.srcBytes) l.toNat))).report s.srcLen.toNat
            (s.srcLen.toNat / 4)).finishOk
  | hufBuildDecFail {k : BitVec 2} {c : Cause}
      (bad : hufCheck Config.incompletePolicy (s.srcBytes.map BitVec.toNat) = some c) :
      Effect s (.hufBuildDec k) (s.failBuffer c (some s.dstBuffer.inSpace))
  | hufBuildDec {k : BitVec 2} (args : s.hufBuildDecOk = true)
      (good : hufCheck Config.incompletePolicy (s.srcBytes.map BitVec.toNat) = none) :
      Effect s (.hufBuildDec k)
        ((s.setSlot k (hufInstall (s.srcBytes.map BitVec.toNat))).report s.srcLen.toNat 0).finishOk
  | hufDecode {k : BitVec 2} {code : HufCode} (built : s.slot k = some code) :
      Effect s (.hufDecode k) { s with hufRes := hufResWord (hufLookup code (brBits s.mem s.readCursor)) }.finishOk
  | hufReadSymInvalid {k : BitVec 2} {code : HufCode} (built : s.slot k = some code)
      (invalid : hufLookup code (brBits s.mem s.readCursor) = none) :
      Effect s (.hufReadSym k) ({ s with hufRes := hufResWord none }.failPlain .hufInvalidCode)
  | hufReadSymOverrun {k : BitVec 2} {code : HufCode} {e : HufEntry} (built : s.slot k = some code)
      (found : hufLookup code (brBits s.mem s.readCursor) = some e) (short : s.rrem < e.len) :
      Effect s (.hufReadSym k) ({ s with hufRes := hufResWord (some e) }.failPlain .brOverrun)
  | hufReadSym {k : BitVec 2} {code : HufCode} {e : HufEntry} {rd : ReadCursor} (built : s.slot k = some code)
      (found : hufLookup code (brBits s.mem s.readCursor) = some e)
      (adv : brAdvance e.len s.readCursor = .ok rd) :
      Effect s (.hufReadSym k) ({ s with hufRes := hufResWord (some e) }.setReadCursor rd).finishOk
  | hufWriteSym {k : BitVec 2} {code : HufCode} {wr : WriteCursor} (built : s.slot k = some code)
      (write : hufPut code s.hufSym.toNat s.writeCursor = .ok wr) :
      Effect s (.hufWriteSym k) (s.setWriteCursor wr).finishOk
  | hufWriteSymOverflow {k : BitVec 2} {code : HufCode} (built : s.slot k = some code)
      (full : hufPut code s.hufSym.toNat s.writeCursor = .error .bwOverflow) :
      Effect s (.hufWriteSym k) (s.failPlain .bwOverflow)
  | hufLoadFixed {n : BitVec 7} {k : BitVec 2} :
      Effect s (.hufLoadFixed n k) (s.setSlot k (hufInstall (if n.toNat = 0 then fixedLit else fixedDist))).finishOk
  | lzCompressFail {c : Cause} (run : lzRecords s.dstCap.toNat 0 (lzTokens s.srcBytes s.lzParams) = .error c) :
      Effect s .lzCompress (s.failBuffer c (some s.dstBuffer))
  | lzCompress {out : List Byte} (run : lzRecords s.dstCap.toNat 0 (lzTokens s.srcBytes s.lzParams) = .ok out) :
      Effect s .lzCompress (s.deliver out s.srcLen.toNat)
  | deflateFail {c : Cause} (run : deflateRun s.srcBytes s.privateWriter = .error c) :
      Effect s .deflate (s.failBuffer c (some s.dstBuffer))
  | deflate {wr : WriteCursor} (run : deflateRun s.srcBytes s.privateWriter = .ok wr) :
      Effect s .deflate (s.deliverWrites wr)
  | inflateFail {c : Cause} (run : inflateRun s.mem s.privateReader s.dstCap.toNat = .error c) :
      Effect s .inflate (s.failBuffer c (some s.dstBuffer))
  | inflate {d : DflState} (run : inflateRun s.mem s.privateReader s.dstCap.toNat = .ok d) :
      Effect s .inflate (s.deliver d.out.reverse (ceil8 d.rd.pos))
  | shrinkFail {c : Cause} (run : shrinkRun Config.lzwSelfPrefixSurvives s.srcBytes s.privateWriter = .error c) :
      Effect s .shrink (s.failBuffer c (some s.dstBuffer))
  | shrink {wr : WriteCursor} (run : shrinkRun Config.lzwSelfPrefixSurvives s.srcBytes s.privateWriter = .ok wr) :
      Effect s .shrink (s.deliverWrites wr)
  | unshrinkFail {c : Cause}
      (run : unshrinkRun Config.lzwSelfPrefixSurvives s.mem s.privateReader s.dstCap.toNat = .error c) :
      Effect s .unshrink (s.failBuffer c (some s.dstBuffer))
  | unshrink {u : UnshrinkState}
      (run : unshrinkRun Config.lzwSelfPrefixSurvives s.mem s.privateReader s.dstCap.toNat = .ok u) :
      Effect s .unshrink (s.deliver u.out.reverse (ceil8 u.rd.pos))

/-- How a command's meaning answers: an ILLEGAL end with a cause of its row of R431, or, unless the model refuses its
buffers, one of its effects. -/
def Runs (s : State) (i : Instr) (o : Out) : Prop :=
  (∃ c ∈ mayRecord i, c.result = .illegal ∧ o = s.illegal c) ∨ ∃ t, Effect s i t ∧ o = s.withBuffers (s.buffersOf i) t

theorem runs_illegal {s : State} {i : Instr} {c : Cause} (hc : c ∈ mayRecord i) (hr : c.result = .illegal) :
    Runs s i (s.illegal c) := .inl ⟨c, hc, hr, rfl⟩

theorem runs_effect {s t : State} {i : Instr} (h : Effect s i t) : Runs s i (s.withBuffers (s.buffersOf i) t) :=
  .inr ⟨t, h, rfl⟩

/-- A check of R139 before a meaning: it ends ILLEGAL, or the meaning goes on. -/
theorem runs_check {s : State} {i : Instr} {c : Cause} {p : Prop} [Decidable p] {o : Out} (hc : c ∈ mayRecord i)
    (ho : ¬ p → Runs s i o) (hr : c.result = .illegal := by rfl) : Runs s i (if p then s.illegal c else o) := by
  split
  · exact runs_illegal hc hr
  · next hp => exact ho hp

/-- The check that a slot is built (R139, SLOT_NOT_BUILT). -/
theorem runs_slot {s : State} {i : Instr} {k : BitVec 2} {f : HufCode → Out}
    (hc : Cause.slotNotBuilt ∈ mayRecord i) (hf : ∀ code, s.slot k = some code → Runs s i (f code)) :
    Runs s i (match s.slot k with | none => s.illegal .slotNotBuilt | some code => f code) := by
  cases h : s.slot k with
  | none => exact runs_illegal hc rfl
  | some code => exact hf code h

theorem effect_brAdvance (s : State) (n : BitVec 7) : Effect s (.brAdvance n)
    (match brAdvance n.toNat s.readCursor with
      | .error c => s.failPlain c
      | .ok rd => (s.setReadCursor rd).finishOk) := by
  cases h : brAdvance n.toNat s.readCursor with
  | error c => obtain ⟨short, rfl⟩ := brAdvance_error.1 h; exact .brAdvanceOverrun short
  | ok rd => exact .brAdvance h

theorem effect_brRead (s : State) (n : BitVec 7) : Effect s (.brRead n)
    (match brAdvance n.toNat s.readCursor with
      | .error c => (s.latchLook (brBits s.mem s.readCursor % 2 ^ n.toNat)).failPlain c
      | .ok rd => ((s.latchLook (brBits s.mem s.readCursor % 2 ^ n.toNat)).setReadCursor rd).finishOk) := by
  cases h : brAdvance n.toNat s.readCursor with
  | error c => obtain ⟨short, rfl⟩ := brAdvance_error.1 h; exact .brReadOverrun short
  | ok rd => exact .brRead h

theorem effect_bwWrite (s : State) (n : BitVec 7) :
    Effect s (.bwWrite n) (s.onWriter (bwWrite s.bwVal.toNat n.toNat s.writeCursor)) := by
  cases h : bwWrite s.bwVal.toNat n.toNat s.writeCursor with
  | error c => obtain ⟨_, rfl⟩ := bwWrite_error.1 h; exact .bwWriteOverflow h
  | ok wr => exact .bwWrite h

theorem effect_bwFlush (s : State) : Effect s .bwFlush (s.onWriter (bwFlush s.writeCursor)) := by
  cases h : bwFlush s.writeCursor with
  | error c => obtain ⟨_, _, rfl⟩ := bwFlush_error.1 h; exact .bwFlushOverflow h
  | ok wr => exact .bwFlush h

theorem effect_hufWriteSym {s : State} {k : BitVec 2} {code : HufCode} (built : s.slot k = some code) :
    Effect s (.hufWriteSym k) (s.onWriter (hufPut code s.hufSym.toNat s.writeCursor)) := by
  cases h : hufPut code s.hufSym.toNat s.writeCursor with
  | error c => obtain ⟨_, rfl⟩ := bwWrite_error.1 h; exact .hufWriteSymOverflow built h
  | ok wr => exact .hufWriteSym built h

theorem effect_hufReadSym {s : State} {k : BitVec 2} {code : HufCode} (built : s.slot k = some code) :
    Effect s (.hufReadSym k)
      (match hufLookup code (brBits s.mem s.readCursor) with
        | none => { s with hufRes := hufResWord (hufLookup code (brBits s.mem s.readCursor)) }.failPlain .hufInvalidCode
        | some e =>
          match brAdvance e.len s.readCursor with
          | .error c => { s with hufRes := hufResWord (hufLookup code (brBits s.mem s.readCursor)) }.failPlain c
          | .ok rd => ({ s with
              hufRes := hufResWord (hufLookup code (brBits s.mem s.readCursor)) }.setReadCursor rd).finishOk) := by
  cases found : hufLookup code (brBits s.mem s.readCursor) with
  | none => exact .hufReadSymInvalid built found
  | some e =>
    cases adv : brAdvance e.len s.readCursor with
    | error c =>
      obtain ⟨short, rfl⟩ := brAdvance_error.1 adv
      simp only [adv]
      exact .hufReadSymOverrun built found short
    | ok rd =>
      simp only [adv]
      exact .hufReadSym built found adv

theorem effect_hufBuildDec (s : State) (k : BitVec 2) (args : s.hufBuildDecOk = true) : Effect s (.hufBuildDec k)
    (match hufCheck Config.incompletePolicy (s.srcBytes.map BitVec.toNat) with
      | some c => s.failBuffer c (some s.dstBuffer.inSpace)
      | none => ((s.setSlot k (hufInstall (s.srcBytes.map BitVec.toNat))).report s.srcLen.toNat 0).finishOk) := by
  cases h : hufCheck Config.incompletePolicy (s.srcBytes.map BitVec.toNat) with
  | some c => exact .hufBuildDecFail h
  | none => exact .hufBuildDec args h

theorem runs_hufBuildEnc (s : State) (k : BitVec 2) (l : BitVec 4) :
    Runs s (.hufBuildEnc k l) (execHufBuildEnc k l s) := by
  refine runs_check (by simp [mayRecord]) fun _ => runs_check (by simp [mayRecord]) fun args => runs_effect ?_
  simp only [Bool.not_eq_true', Bool.not_eq_false] at args
  show Effect s _ (if s.dstCap.toNat < s.srcLen.toNat / 4 then _ else if _ then _ else _)
  split
  · next full => exact .hufBuildEncFull full
  · next room =>
    split
    · exact .hufBuildEncTooMany
    · exact .hufBuildEnc args (Nat.le_of_not_lt room)

theorem runs_hufBuildDec (s : State) (k : BitVec 2) : Runs s (.hufBuildDec k) (execHufBuildDec k s) :=
  runs_check (by simp [mayRecord]) fun args =>
    runs_effect (effect_hufBuildDec s k (by simpa using args))

/-- R139, R434: everything a command's meaning can answer. -/
theorem exec_runs (i : Instr) (s : State) : Runs s i (exec i s) := by
  cases i with
  | nop => exact runs_effect .nop
  | clear => exact runs_effect .clear
  | softReset => exact runs_effect .softReset
  | brInit => exact runs_check (by simp [mayRecord]) fun _ => runs_effect .brInit
  | brPeek => exact runs_check (by simp [mayRecord]) fun _ => runs_effect .brPeek
  | brAdvance n =>
    exact runs_check (by simp [mayRecord]) fun _ => runs_check (by simp [mayRecord]) fun _ =>
      runs_effect (effect_brAdvance s n)
  | brRead n =>
    exact runs_check (by simp [mayRecord]) fun _ => runs_check (by simp [mayRecord]) fun _ =>
      runs_effect (effect_brRead s n)
  | brAlign => exact runs_check (by simp [mayRecord]) fun _ => runs_effect .brAlign
  | bwInit => exact runs_check (by simp [mayRecord]) fun _ => runs_effect .bwInit
  | bwWrite n =>
    exact runs_check (by simp [mayRecord]) fun _ => runs_check (by simp [mayRecord]) fun _ =>
      runs_effect (effect_bwWrite s n)
  | bwFlush => exact runs_check (by simp [mayRecord]) fun _ => runs_effect (effect_bwFlush s)
  | hufBuildEnc k l => exact runs_hufBuildEnc s k l
  | hufBuildDec k => exact runs_hufBuildDec s k
  | hufDecode k =>
    exact runs_check (by simp [mayRecord]) fun _ => runs_slot (by simp [mayRecord])
      fun _ built => runs_effect (.hufDecode built)
  | hufReadSym k =>
    exact runs_check (by simp [mayRecord]) fun _ => runs_slot (by simp [mayRecord])
      fun _ built => runs_effect (effect_hufReadSym built)
  | hufWriteSym k =>
    exact runs_check (by simp [mayRecord]) fun _ => runs_slot (by simp [mayRecord])
      fun _ built => runs_check (by simp [mayRecord]) fun _ => runs_effect (effect_hufWriteSym built)
  | hufLoadFixed n k => exact runs_check (by simp [mayRecord]) fun _ => runs_effect .hufLoadFixed
  | lzCompress =>
    refine runs_check (by simp [mayRecord]) fun _ => runs_effect ?_
    split
    · next run => exact .lzCompressFail run
    · next run => exact .lzCompress run
  | deflate =>
    refine runs_check (by simp [mayRecord]) fun _ => runs_effect ?_
    split
    · next run => exact .deflateFail run
    · next run => exact .deflate run
  | inflate =>
    refine runs_check (by simp [mayRecord]) fun _ => runs_effect ?_
    split
    · next run => exact .inflateFail run
    · next run => exact .inflate run
  | shrink =>
    refine runs_check (by simp [mayRecord]) fun _ => runs_effect ?_
    split
    · next run => exact .shrinkFail run
    · next run => exact .shrink run
  | unshrink =>
    refine runs_check (by simp [mayRecord]) fun _ => runs_effect ?_
    split
    · next run => exact .unshrinkFail run
    · next run => exact .unshrink run

/-- R139, R434: every next state of a command is an ILLEGAL end or one of its effects. -/
theorem exec_next {i : Instr} {s t : State} (h : exec i s = .next t) :
    (∃ c ∈ mayRecord i, c.result = .illegal ∧ t = s.finish c) ∨ Effect s i t := by
  rcases exec_runs i s with ⟨c, hc, hr, e⟩ | ⟨u, hu, e⟩
  · rw [e] at h
    injection h with h
    exact .inl ⟨c, hc, hr, h.symm⟩
  · rw [e] at h
    obtain ⟨_, rfl⟩ := withBuffers_next.1 h
    exact .inr hu

end Sys2Proof.Machine


namespace Sys2Proof.Machine

/-! ### What a step can be -/

/-- What the host's own accesses leave alone (R33, R53, R54, R119): no operation of the port or of host memory changes
the engine, RESULT, CAUSE, the code slots, HUF_RES or the writer's buffered bits, and memory keeps its canonical
form. -/
structure HostTouch (s t : State) : Prop where
  engine : t.engine = s.engine
  result : t.status.result = s.status.result
  cause : t.status.cause = s.status.cause
  slots : t.slots = s.slots
  hufRes : t.hufRes = s.hufRes
  bwBit : t.bwBit = s.bwBit
  bwAcc : t.bwAcc = s.bwAcc
  memWf : s.mem.wf = true → t.mem.wf = true

namespace HostTouch

theorem refl (s : State) : HostTouch s s := ⟨rfl, rfl, rfl, rfl, rfl, rfl, rfl, id⟩

theorem trans {s t u : State} (h : HostTouch s t) (h' : HostTouch t u) : HostTouch s u :=
  ⟨h'.engine.trans h.engine, h'.result.trans h.result, h'.cause.trans h.cause, h'.slots.trans h.slots,
    h'.hufRes.trans h.hufRes, h'.bwBit.trans h.bwBit, h'.bwAcc.trans h.bwAcc, fun w => h'.memWf (h.memWf w)⟩

theorem answer (v : Word) (s : State) : HostTouch s (s.answer v) := ⟨rfl, rfl, rfl, rfl, rfl, rfl, rfl, id⟩

theorem answerFreeWord (s : State) : HostTouch s s.answerFreeWord := ⟨rfl, rfl, rfl, rfl, rfl, rfl, rfl, id⟩

theorem answerFreeByte (s : State) : HostTouch s s.answerFreeByte := ⟨rfl, rfl, rfl, rfl, rfl, rfl, rfl, id⟩

theorem store (a : Nat) (b : Byte) (s : State) : HostTouch s { s with mem := s.mem.write a b } :=
  ⟨rfl, rfl, rfl, rfl, rfl, rfl, rfl, fun h => write_wf h a b⟩

theorem regWrite (v : Word) (s : State) (r : Reg) : HostTouch s (s.regWrite v r) := by
  cases r <;> exact ⟨rfl, rfl, rfl, rfl, rfl, rfl, rfl, id⟩

theorem busyWrite (v : Word) (s : State) (r : Reg) : HostTouch s (s.busyWrite v r) := by
  rw [State.busyWrite]
  split
  · exact regWrite v s r
  · exact ⟨rfl, rfl, rfl, rfl, rfl, rfl, rfl, id⟩

theorem busyRead (s : State) (r : Reg) (k : AccessKind) : HostTouch s (s.busyRead r k) := by
  rw [State.busyRead]
  split
  · exact answerFreeWord s
  · exact answer _ s

theorem endWrite (v : Word) (s : State) (r : Reg) : HostTouch s (s.endWrite v r) := by
  rw [State.endWrite]
  split
  · exact refl s
  · exact busyWrite v s r

end HostTouch

/-- An access the port takes goes on with the register at its offset. -/
theorem withPort_next {a : Access} {k : Option (Reg × AccessKind) → Out} {t : State} (h : withPort a k = .next t) :
    k (regAt a.off.toNat) = .next t := by
  rw [withPort] at h
  split at h
  · exact h
  · cases h

theorem onMemory_next {addr : Nat} {s t : State} {o : Out} (h : s.onMemory addr o = .next t) : o = .next t := by
  rw [State.onMemory] at h
  split at h
  · cases h
  · split at h
    · cases h
    · exact h

theorem busyEvent_touch {bufs : List Region} {dst : Option Region} {e : BusyEvent} {s t : State}
    (h : busyEvent bufs dst e s = .next t) : HostTouch s t := by
  cases e with
  | read a =>
    rw [busyEvent] at h
    have h := withPort_next h
    cases hr : regAt a.off.toNat with
    | none => rw [hr] at h; injection h with h; exact h ▸ .answer 0 s
    | some row => rw [hr] at h; injection h with h; exact h ▸ .busyRead s row.1 row.2
  | write a v =>
    rw [busyEvent] at h
    have h := withPort_next h
    cases hr : regAt a.off.toNat with
    | none => rw [hr] at h; injection h with h; exact h ▸ .refl s
    | some row => rw [hr] at h; injection h with h; exact h ▸ .busyWrite v s row.1
  | load addr =>
    have h := onMemory_next h
    split at h <;> injection h with h
    · exact h ▸ .answerFreeByte s
    · exact h ▸ .answer _ s
  | store addr b =>
    have h := onMemory_next h
    split at h
    · cases h
    · injection h with h; exact h ▸ .store addr b s

theorem busyEvents_touch {bufs : List Region} {dst : Option Region} {es : List BusyEvent} {s t : State}
    (h : busyEvents bufs dst es s = .next t) : HostTouch s t := by
  induction es generalizing s with
  | nil => injection h with h; exact h ▸ .refl s
  | cons e es ih =>
    obtain ⟨u, hu, ht⟩ := andThen_next.1 h
    exact (busyEvent_touch hu).trans (ih ht)

theorem endWrites_touch {ws : List (Access × Word)} {s t : State} (h : endWrites ws s = .next t) : HostTouch s t := by
  induction ws generalizing s with
  | nil => injection h with h; exact h ▸ .refl s
  | cons w ws ih =>
    obtain ⟨u, hu, ht⟩ := andThen_next.1 h
    refine HostTouch.trans ?_ (ih ht)
    have hu := withPort_next hu
    cases hr : regAt w.1.off.toNat with
    | none => rw [hr] at hu; injection hu with hu; exact hu ▸ .refl s
    | some row => rw [hr] at hu; injection hu with hu; exact hu ▸ .endWrite w.2 s row.1

/-- Everything one step can be: accesses of the host alone, the reset input driven, or a command from its start to its
completion, to its ILLEGAL end as a word that is no command, or to a reset that abandons it (R36, R119, R139, R471,
R472). -/
inductive StepEffect (s : State) : State → Prop
  | host {t : State} (touch : HostTouch s t) : StepEffect s t
  | reset {u : State} (level : Bool) (touch : HostTouch s u) : StepEffect s (u.setRst level)
  | command {w : Word} {i : Instr} {u v t : State} (window : HostTouch (s.start w) u) (run : exec i u = .next v)
      (ending : HostTouch v t) : StepEffect s t
  | noCommand {w : Word} {c : Cause} {u t : State} (window : HostTouch (s.start w) u)
      (ending : HostTouch (u.finish c) t) : StepEffect s t
  | abandoned {w : Word} {u : State} (dst : Option Region) (window : HostTouch (s.start w) u) :
      StepEffect s ((u.scramble dst).setRst true)

/-- The next event taken from the inbox is no state of the block's own, so what the step does is an effect of the state
before. -/
theorem StepEffect.of_inbox {s t : State} {l : List HostEvent} (h : StepEffect { s with inbox := l } t) :
    StepEffect s t := by
  have pop : HostTouch s { s with inbox := l } := ⟨rfl, rfl, rfl, rfl, rfl, rfl, rfl, id⟩
  have start (w : Word) : HostTouch (s.start w) (State.start w { s with inbox := l }) :=
    ⟨rfl, rfl, rfl, rfl, rfl, rfl, rfl, id⟩
  cases h with
  | host touch => exact .host (pop.trans touch)
  | reset level touch => exact .reset level (pop.trans touch)
  | command window run ending => exact .command ((start _).trans window) run ending
  | noCommand window ending => exact .noCommand ((start _).trans window) ending
  | abandoned dst window => exact .abandoned dst ((start _).trans window)

theorem abandon_next {bufs : List Region} {dst : Option Region} {s t : State} (h : s.abandon bufs dst = .next t) :
    t = (s.scramble (dst.filter Region.wellFormed)).setRst true := (withBuffers_next.1 h).2

theorem runCommand_effect {w : Word} {win : Window} {s t : State} (h : runCommand w win s = .next t) :
    StepEffect s t := by
  rw [runCommand] at h
  cases hd : decode w with
  | error e =>
    rw [hd] at h
    obtain ⟨u, hu, ht⟩ := andThen_next.1 h
    cases he : win.ending with
    | completes ws => rw [he] at ht; exact .noCommand (busyEvents_touch hu) (endWrites_touch ht)
    | reset => rw [he] at ht; exact abandon_next ht ▸ .abandoned _ (busyEvents_touch hu)
  | ok i =>
    rw [hd] at h
    obtain ⟨u, hu, ht⟩ := andThen_next.1 h
    cases he : win.ending with
    | completes ws =>
      rw [he] at ht
      obtain ⟨v, hv, ht⟩ := andThen_next.1 ht
      exact .command (busyEvents_touch hu) hv (endWrites_touch ht)
    | reset => rw [he] at ht; exact abandon_next ht ▸ .abandoned _ (busyEvents_touch hu)

theorem hostWrite_effect {win : Window} {v : Word} {r : Option (Reg × AccessKind)} {s t : State}
    (h : hostWrite win v r s = .next t) : StepEffect s t := by
  unfold hostWrite at h
  split at h
  · injection h with h; exact h ▸ .host (.refl s)
  · cases r with
    | none => injection h with h; exact h ▸ .host (.refl s)
    | some row =>
      dsimp only at h
      split at h
      · injection h with h; exact h ▸ .host (.busyWrite v s row.1)
      · split at h
        · exact runCommand_effect h
        · injection h with h; exact h ▸ .host (.regWrite v s row.1)

theorem hostRead_touch {r : Option (Reg × AccessKind)} {s t : State} (h : hostRead r s = .next t) : HostTouch s t := by
  unfold hostRead at h
  split at h
  · injection h with h; exact h ▸ .answerFreeWord s
  · cases r with
    | none => injection h with h; exact h ▸ .answer 0 s
    | some row =>
      dsimp only at h
      split at h <;> injection h with h
      · exact h ▸ .busyRead s row.1 row.2
      · exact h ▸ .answer _ s

theorem hostEvent_effect {e : HostEvent} {s t : State} (h : hostEvent e s = .next t) : StepEffect s t := by
  cases e with
  | read a => rw [hostEvent] at h; exact .host (hostRead_touch (withPort_next h))
  | write a v => rw [hostEvent] at h; exact hostWrite_effect (withPort_next h)
  | command w win => rw [hostEvent] at h; exact hostWrite_effect h
  | load addr => have h := onMemory_next h; injection h with h; exact h ▸ .host (.answer _ s)
  | store addr b => have h := onMemory_next h; injection h with h; exact h ▸ .host (.store addr b s)
  | rstPin level =>
    injection h with h
    rw [State.driveRst] at h
    split at h
    · exact h ▸ .reset _ (.refl s)
    · exact h ▸ .host (.refl s)

/-- R8, R30, R119: what one step can be. -/
theorem step_effect {s t : State} (h : step s = .next t) : StepEffect s t := by
  rw [step] at h
  cases hi : s.inbox with
  | nil => rw [hi] at h; injection h with h; exact h ▸ .host (.refl s)
  | cons e rest => rw [hi] at h; exact (hostEvent_effect h).of_inbox

end Sys2Proof.Machine


namespace Sys2Proof.Machine

/-! ### Package-merge respects its limit (R200) -/

theorem pmInsert_perm (x : PmItem) (l : List PmItem) : (pmInsert x l).Perm (x :: l) := by
  induction l with
  | nil => exact .refl _
  | cons y ys ih =>
    rw [pmInsert]
    split
    · exact .refl _
    · exact (ih.cons y).trans (.swap x y ys)

theorem pmSort_perm (l : List PmItem) : (pmSort l).Perm l := by
  induction l with
  | nil => exact .refl _
  | cons x xs ih => exact (pmInsert_perm x _).trans (ih.cons x)

/-- How often a list of items counts a symbol. -/
def pmCount (s : Nat) (l : List PmItem) : Nat := (l.flatMap PmItem.syms).count s

theorem pmCount_cons (s : Nat) (x : PmItem) (l : List PmItem) : pmCount s (x :: l) = x.syms.count s + pmCount s l := by
  simp [pmCount, List.flatMap_cons, List.count_append]

theorem pmCount_append (s : Nat) (l l' : List PmItem) : pmCount s (l ++ l') = pmCount s l + pmCount s l' := by
  simp [pmCount, List.flatMap_append, List.count_append]

theorem pmCount_sort (s : Nat) (l : List PmItem) : pmCount s (pmSort l) = pmCount s l :=
  ((pmSort_perm l).flatMap_right _).count_eq s

/-- Packaging two by two counts each symbol at most as often: only an odd last item is dropped. -/
theorem pmCount_pair_le (s : Nat) (l : List PmItem) (k : Nat) : pmCount s (pmPair k l) ≤ pmCount s l := by
  fun_induction pmPair k l with
  | case1 k a b rest ih =>
    simp only [pmCount_cons, List.count_append] at ih ⊢
    omega
  | case2 k l h => exact Nat.zero_le _

/-- Each round counts a symbol once more than the leaves do. -/
theorem pmCount_rounds_le (s : Nat) (leaves : List PmItem) (r : Nat) (l : List PmItem) :
    pmCount s (pmRounds leaves r l) ≤ r * pmCount s leaves + pmCount s l := by
  induction r generalizing l with
  | zero => simp [pmRounds]
  | succ r ih =>
    have step : pmCount s (pmSort (leaves ++ pmPair 0 l)) ≤ pmCount s leaves + pmCount s l := by
      rw [pmCount_sort, pmCount_append]
      exact Nat.add_le_add_left (pmCount_pair_le s l 0) _
    calc pmCount s (pmRounds leaves (r + 1) l)
        ≤ r * pmCount s leaves + pmCount s (pmSort (leaves ++ pmPair 0 l)) := ih _
      _ ≤ r * pmCount s leaves + (pmCount s leaves + pmCount s l) := Nat.add_le_add_left step _
      _ = (r + 1) * pmCount s leaves + pmCount s l := by rw [Nat.succ_mul, Nat.add_assoc]

/-- Each symbol has at most one leaf. -/
theorem pmCount_leaves_le (s : Nat) (freq : List Nat) : pmCount s (pmLeaves freq) ≤ 1 := by
  have leaves : (pmLeaves freq).flatMap PmItem.syms = (pmUsed freq).flatMap PmItem.syms := by
    have h : ((pmUsed freq).zipIdx.map Prod.fst).flatMap PmItem.syms = (pmUsed freq).flatMap PmItem.syms := by
      rw [List.zipIdx_map_fst]
    rw [← h, pmLeaves, List.flatMap_map, List.flatMap_map]
  have used : pmCount s (pmUsed freq) =
      ((freq.zipIdx.filter fun p => decide (0 < p.1)).map Prod.snd).count s := by
    rw [pmUsed, pmCount_sort, pmCount, List.flatMap_map, List.map_eq_flatMap]
  have nodup : (freq.zipIdx.map Prod.snd).Nodup := by
    rw [List.zipIdx_map_snd]
    exact List.nodup_range'
  rw [pmCount, leaves, ← pmCount, used]
  exact List.nodup_iff_count_le_one.1 (nodup.sublist (List.filter_sublist.map _)) s

theorem hufLengths_length (freq : List Nat) (limit : Nat) : (hufLengths freq limit).length = freq.length := by
  unfold hufLengths
  dsimp only
  split <;> simp

/-- R200: no code length is above the limit. -/
theorem hufLengths_le {freq : List Nat} {limit l : Nat} (hl : l ∈ hufLengths freq limit) : l ≤ max limit 1 := by
  unfold hufLengths at hl
  dsimp only at hl
  split at hl
  · obtain ⟨_, _, rfl⟩ := List.mem_map.1 hl
    exact Nat.zero_le _
  · obtain ⟨_, _, rfl⟩ := List.mem_map.1 hl
    split <;> omega
  · obtain ⟨s, _, rfl⟩ := List.mem_map.1 hl
    have chosen := (((pmRounds (pmLeaves freq) (limit - 1) (pmLeaves freq)).take_sublist
      (2 * ((pmLeaves freq).length - 1))).flatMap PmItem.syms).count_le s
    have rounds := pmCount_rounds_le s (pmLeaves freq) (limit - 1) (pmLeaves freq)
    have leaves := pmCount_leaves_le s freq
    have := Nat.mul_le_mul_left (limit - 1) leaves
    simp only [pmCount] at *
    omega

/-! ### An installed code is within the bounds of R55 -/

theorem assignCodes_length (len next : List Nat) : (assignCodes len next).length = len.length := by
  induction len generalizing next with
  | nil => rfl
  | cons l ls ih =>
    rw [assignCodes]
    split <;> simp [ih]

theorem hufCanon_length (len : List Nat) : (hufCanon len).length = len.length := assignCodes_length _ _

theorem fillEntries_length (r l : Nat) (e : HufEntry) (h : Nat) (t : List (Option HufEntry)) :
    (fillEntries r l e h t).length = t.length := by
  induction h with
  | zero => rfl
  | succ h ih => rw [fillEntries, List.length_set, ih]

theorem mem_fillEntries {r l h : Nat} {e : HufEntry} {t : List (Option HufEntry)} {o : Option HufEntry}
    (ho : o ∈ fillEntries r l e h t) : o = some e ∨ o ∈ t := by
  induction h with
  | zero => exact .inr ho
  | succ h ih =>
    rw [fillEntries] at ho
    rcases List.mem_or_eq_of_mem_set ho with ho | ho
    · exact ih ho
    · exact .inl ho

theorem fillTable_length (maxl s : Nat) (ls cs : List Nat) (t : List (Option HufEntry)) :
    (fillTable maxl s ls cs t).length = t.length := by
  induction ls generalizing s cs t with
  | nil => simp [fillTable]
  | cons l ls ih =>
    cases cs with
    | nil => simp [fillTable]
    | cons c cs =>
      rw [fillTable, ih]
      split
      · rfl
      · exact fillEntries_length _ _ _ _ _

/-- R203: an entry of the table is one of before or a symbol of the code with its nonzero length. -/
theorem mem_fillTable {maxl s : Nat} {ls cs : List Nat} {t : List (Option HufEntry)} {o : Option HufEntry}
    (ho : o ∈ fillTable maxl s ls cs t) :
    o ∈ t ∨ ∃ e : HufEntry, o = some e ∧ e.sym < s + ls.length ∧ e.len ∈ ls ∧ e.len ≠ 0 := by
  induction ls generalizing s cs t with
  | nil => exact .inl (by simpa [fillTable] using ho)
  | cons l ls ih =>
    cases cs with
    | nil => exact .inl (by simpa [fillTable] using ho)
    | cons c cs =>
      rw [fillTable] at ho
      rcases ih ho with ho | ⟨e, rfl, hsym, hmem, hne⟩
      · split at ho
        · exact .inl ho
        · next hl =>
          rcases mem_fillEntries ho with rfl | ho
          · exact .inr ⟨_, rfl, by simp, by simp, hl⟩
          · exact .inl ho
      · exact .inr ⟨e, rfl, by rw [List.length_cons]; omega, List.mem_cons_of_mem _ hmem, hne⟩

theorem le_maxLen {len : List Nat} {l : Nat} (h : l ∈ len) : l ≤ maxLen len := by
  have key : ∀ (xs : List Nat) (a : Nat), a ≤ xs.foldl max a ∧ ∀ x ∈ xs, x ≤ xs.foldl max a := by
    intro xs
    induction xs with
    | nil => exact fun a => ⟨Nat.le_refl _, by simp⟩
    | cons x xs ih =>
      intro a
      obtain ⟨hacc, hmem⟩ := ih (max a x)
      refine ⟨(Nat.le_max_left a x).trans hacc, fun y hy => ?_⟩
      rcases List.mem_cons.1 hy with rfl | hy
      · exact (Nat.le_max_right a y).trans hacc
      · exact hmem y hy
  exact (key len 0).2 l h

/-- R55, R203: a code installed from at most 288 lengths of at most 15 is within its bounds. -/
theorem hufInstall_ok {len : List Nat} (hn : len.length ≤ 288) (hl : ∀ l ∈ len, l ≤ 15) :
    (hufInstall len).ok = true := by
  have entries : ∀ o ∈ (hufInstall len).table, (hufInstall len).entryOk o = true := by
    intro o ho
    rcases mem_fillTable ho with ho | ⟨e, rfl, hsym, hmem, hne⟩
    · rw [List.eq_of_mem_replicate ho]; rfl
    · have hsym : e.sym < (hufInstall len).n := by simpa [hufInstall] using hsym
      have hmax : e.len ≤ (hufInstall len).maxl := le_maxLen hmem
      simp only [HufCode.entryOk, Bool.and_eq_true, decide_eq_true_eq]
      exact ⟨⟨hsym, by omega⟩, hmax⟩
  simp only [HufCode.ok, Bool.and_eq_true, decide_eq_true_eq, List.all_eq_true]
  exact ⟨⟨⟨⟨⟨⟨hn, rfl⟩, hufCanon_length len⟩, hl⟩, rfl⟩, by simp [hufInstall, fillTable_length]⟩, entries⟩

/-! ### The lengths that commands install -/

theorem leWords_length (bs : List Byte) : (leWords bs).length = bs.length / 4 := by
  fun_induction leWords bs with
  | case1 a b c d rest ih => simp only [List.length_cons, ih]; omega
  | case2 bs h =>
    match bs, h with
    | [], _ | [_], _ | [_, _], _ | [_, _, _], _ => simp
    | a :: b :: c :: d :: rest, h => exact absurd rfl (h a b c d rest)

/-- R207: the code of HUF_BUILD_ENC. -/
theorem hufBuildEnc_code_ok {s : State} (args : s.hufBuildEncOk = true) (l : BitVec 4) :
    (hufInstall (hufLengths (leWords s.srcBytes) l.toNat)).ok = true := by
  simp only [State.hufBuildEncOk, Config.hufMaxSyms, Bool.and_eq_true, decide_eq_true_eq] at args
  refine hufInstall_ok ?_ fun x hx => ?_
  · rw [hufLengths_length, leWords_length, srcBytes_length]; omega
  · have := hufLengths_le hx
    omega

/-- R202: a length list that passes the check has no length above 15. -/
theorem le_of_hufCheck_none {policy : IncompletePolicy} {len : List Nat} (h : hufCheck policy len = none) :
    ∀ l ∈ len, l ≤ 15 := by
  unfold hufCheck at h
  dsimp only at h
  split at h
  · cases h
  · next hall => simpa using hall

/-- R208: the code of HUF_BUILD_DEC. -/
theorem hufBuildDec_code_ok {s : State} (args : s.hufBuildDecOk = true)
    (good : hufCheck Config.incompletePolicy (s.srcBytes.map BitVec.toNat) = none) :
    (hufInstall (s.srcBytes.map BitVec.toNat)).ok = true := by
  simp only [State.hufBuildDecOk, Config.hufMaxSyms, Bool.and_eq_true, decide_eq_true_eq] at args
  refine hufInstall_ok ?_ (le_of_hufCheck_none good)
  rw [List.length_map, srcBytes_length]
  omega

/-- R209, R283: the two fixed codes. -/
theorem hufLoadFixed_code_ok (n : BitVec 7) :
    (hufInstall (if n.toNat = 0 then fixedLit else fixedDist)).ok = true := by
  split
  · refine hufInstall_ok ?_ fun l hl => ?_
    · simp only [fixedLit, List.length_append, List.length_replicate]
      omega
    simp only [fixedLit, List.mem_append, List.mem_replicate] at hl
    omega
  · refine hufInstall_ok (by simp [fixedDist]) fun l hl => ?_
    simp only [fixedDist, List.mem_replicate] at hl
    omega

/-! ### The slots along a step -/

/-- What a command does to the slots: nothing, a reset, or one slot built within the bounds of R55. -/
theorem effect_slots {s t : State} {i : Instr} (h : Effect s i t) :
    t.slots = s.slots ∨ t.slots = State.reset.slots ∨
      ∃ k code, code.ok = true ∧ t.slots = (s.setSlot k code).slots := by
  cases h with
  | softReset => exact .inr (.inl rfl)
  | @hufBuildEnc k l args room => exact .inr (.inr ⟨k, _, hufBuildEnc_code_ok args l, rfl⟩)
  | @hufBuildDec k args good => exact .inr (.inr ⟨k, _, hufBuildDec_code_ok args good, rfl⟩)
  | @hufLoadFixed n k => exact .inr (.inr ⟨k, _, hufLoadFixed_code_ok n, rfl⟩)
  | _ => exact .inl rfl

theorem slotsOk_of_slots_eq {s t : State} (h : t.slots = s.slots) (hs : s.slotsOk = true) : t.slotsOk = true := by
  rwa [State.slotsOk, h]

theorem slotsOk_of_slots_reset {t : State} (h : t.slots = State.reset.slots) : t.slotsOk = true :=
  slotsOk_of_slots_eq h rfl

theorem slotsOk_setSlot {s : State} {code : HufCode} (k : BitVec 2) (hs : s.slotsOk = true) (hc : code.ok = true) :
    (s.setSlot k code).slotsOk = true := by
  simp only [State.slotsOk, List.all_eq_true] at hs ⊢
  intro o ho
  rw [State.setSlot, Vector.toList_set] at ho
  rcases List.mem_or_eq_of_mem_set ho with ho | rfl
  · exact hs o ho
  · exact hc

/-- R55, R203: a command keeps every built slot within its bounds. -/
theorem exec_slotsOk {i : Instr} {s t : State} (hs : s.slotsOk = true) (h : exec i s = .next t) : t.slotsOk = true := by
  rcases exec_next h with ⟨c, _, _, rfl⟩ | h
  · exact hs
  · rcases effect_slots h with h | h | ⟨k, code, hc, h⟩
    · exact slotsOk_of_slots_eq h hs
    · exact slotsOk_of_slots_reset h
    · exact slotsOk_of_slots_eq h (slotsOk_setSlot k hs hc)

/-- Settles O59: the host's own accesses touch no slot, a reset empties them, and a command installs codes within the
bounds only. -/
theorem stepKeepsSlots : Obligations.StepKeepsSlots := by
  intro s t hs h
  cases step_effect h with
  | host touch => exact slotsOk_of_slots_eq touch.slots hs
  | reset level touch => exact slotsOk_of_slots_reset rfl
  | command window run ending =>
    exact slotsOk_of_slots_eq ending.slots (exec_slotsOk (slotsOk_of_slots_eq window.slots hs) run)
  | noCommand window ending => exact slotsOk_of_slots_eq (ending.slots.trans window.slots) hs
  | abandoned dst window => exact slotsOk_of_slots_reset rfl

end Sys2Proof.Machine


namespace Sys2Proof.Machine

/-! ### Completion (R35) and the end of every command (R30, R136) -/

/-- R35: every effect but SOFT_RESET's is a completion. -/
theorem effect_finish {s t : State} {i : Instr} (h : Effect s i t) :
    (i = .softReset ∧ t = s.hardReset) ∨ ∃ (c : Cause) (u : State), t = u.finish c := by
  cases h with
  | softReset => exact .inl ⟨rfl, rfl⟩
  | _ => exact .inr ⟨_, _, rfl⟩

theorem exec_finish {i : Instr} {s t : State} (hi : i ≠ .softReset) (h : exec i s = .next t) :
    ∃ (c : Cause) (u : State), t = u.finish c := by
  rcases exec_next h with ⟨c, _, _, rfl⟩ | h
  · exact ⟨c, s, rfl⟩
  · exact (effect_finish h).resolve_left fun h => hi h.1

/-- Settles O7: every command but SOFT_RESET ends by `finish`. -/
theorem completionOfEveryCommand : Obligations.CompletionOfEveryCommand := by
  refine ⟨fun i s t hi h => ?_, fun s t h => ?_⟩
  · obtain ⟨c, u, rfl⟩ := exec_finish hi h
    exact ⟨rfl, rfl, rfl, rfl, rfl⟩
  · injection h with h
    subst h
    exact ⟨rfl, rfl, rfl, rfl⟩

/-- Settles O8: a meaning is an ILLEGAL end or an effect behind the look at the command's buffers. -/
theorem everyCommandEnds : Obligations.EveryCommandEnds := by
  intro i s
  rcases exec_runs i s with ⟨c, _, _, e⟩ | ⟨t, _, e⟩ <;> rw [e]
  · exact ⟨fun _ => ⟨_, rfl⟩, fun r h => (by cases h), fun f h => by cases h⟩
  · exact ⟨fun plain => ⟨t, withBuffers_plain plain⟩, fun _ => withBuffers_refused.1, fun _ => withBuffers_not_fault⟩

/-! ### The reader (R44, R45) -/

/-- The cursor registers cut a position to their widths, so they never hold a larger one. -/
theorem setReadCursor_rpos_le (c : ReadCursor) (s : State) : (s.setReadCursor c).rpos ≤ c.pos := by
  have := Nat.mod_le c.byte (2 ^ 32)
  have := Nat.mod_le c.bit (2 ^ 3)
  simp only [State.rpos, setReadCursor_brByte, setReadCursor_brBit, BitVec.toNat_ofNat, ReadCursor.pos]
  omega

theorem setReadCursor_rpos_le_of_advance {s : State} {n : Nat} {rd : ReadCursor} (hs : s.rpos ≤ 8 * s.brLen.toNat)
    (h : brAdvance n s.readCursor = .ok rd) : (s.setReadCursor rd).rpos ≤ 8 * s.brLen.toNat := by
  obtain ⟨_, _, _, _, inside, _⟩ := brAdvance_pos h
  exact (setReadCursor_rpos_le rd s).trans (inside hs)

/-- R45: no effect moves the reader past the end of its buffer. -/
theorem effect_rpos_le {s t : State} {i : Instr} (hs : s.rpos ≤ 8 * s.brLen.toNat) (h : Effect s i t) :
    t.rpos ≤ 8 * t.brLen.toNat := by
  cases h with
  | softReset => exact Nat.le_refl 0
  | brInit => exact Nat.zero_le _
  | brAdvance adv => exact (setReadCursor_rpos_le_of_advance hs adv :)
  | brRead adv => exact (setReadCursor_rpos_le_of_advance hs adv :)
  | hufReadSym _ _ adv => exact (setReadCursor_rpos_le_of_advance hs adv :)
  | brAlign =>
    obtain ⟨_, _, _, _, inside⟩ := brAlign_pos (c := s.readCursor) s.brBit.isLt
    exact (setReadCursor_rpos_le _ s).trans (inside hs)
  | _ => exact hs

/-- Settles O19: an advance or an alignment stays inside the buffer, and no other effect moves the cursor forward. -/
theorem readerNeverPassesEnd : Obligations.ReaderNeverPassesEnd := by
  intro i s t hs h
  rcases exec_next h with ⟨c, _, _, rfl⟩ | h
  · exact hs
  · exact effect_rpos_le hs h

/-- R108: a command without a destination writes no memory, but for the FORMAT end of HUF_BUILD_DEC. -/
theorem effect_mem {s t : State} {i : Instr} (h : Effect s i t) (hd : s.destOf i = none)
    (hi : ∀ k, i ≠ .hufBuildDec k) : t.mem = s.mem := by
  cases h with
  | hufBuildDecFail | hufBuildDec => exact absurd rfl (hi _)
  | bwWrite | bwWriteOverflow | bwFlush | bwFlushOverflow | hufWriteSym | hufWriteSymOverflow
  | hufBuildEncFull | hufBuildEncTooMany | hufBuildEnc | lzCompressFail | lzCompress | deflateFail | deflate
  | inflateFail | inflate | shrinkFail | shrink | unshrinkFail | unshrink => cases hd
  | _ => rfl

theorem exec_mem {s t : State} {i : Instr} (h : exec i s = .next t) (hd : s.destOf i = none)
    (hi : ∀ k, i ≠ .hufBuildDec k) : t.mem = s.mem := by
  rcases exec_next h with ⟨c, _, _, rfl⟩ | h
  · rfl
  · exact effect_mem h hd hi

/-- Settles O20: each end of a reading command is the state before with the fields it names. -/
theorem readerFrame : Obligations.ReaderFrame := by
  intro s t n k
  refine ⟨fun h => ?_, fun h => ?_, fun h => ?_, fun h => ?_, fun h => ?_, fun h => ?_, fun h => ?_, fun h a => ?_⟩
  · rcases exec_next h with ⟨c, _, _, rfl⟩ | h
    · rfl
    · cases h; rfl
  · rcases exec_next h with ⟨c, _, _, rfl⟩ | h
    · rfl
    · cases h; rfl
  · rcases exec_next h with ⟨c, _, _, rfl⟩ | h
    · rfl
    · cases h with
      | brAdvance adv => rfl
      | brAdvanceOverrun short => rw [failPlain_brOverrun]; rfl
  · rcases exec_next h with ⟨c, _, _, rfl⟩ | h
    · rfl
    · cases h with
      | brRead adv => rfl
      | brReadOverrun short => rw [failPlain_brOverrun]; rfl
  · rcases exec_next h with ⟨c, _, _, rfl⟩ | h
    · rfl
    · cases h; rfl
  · rcases exec_next h with ⟨c, _, _, rfl⟩ | h
    · rfl
    · cases h; rfl
  · rcases exec_next h with ⟨c, _, _, rfl⟩ | h
    · rfl
    · cases h with
      | hufReadSymInvalid built invalid => rw [failPlain_other _ (by decide) (by decide)]; rfl
      | hufReadSymOverrun built found short => rw [failPlain_brOverrun]; rfl
      | hufReadSym built found adv => rfl
  · rcases h with h | h | h | h | h | h | h <;> rw [exec_mem h rfl (by simp)]

/-! ### The writer (R47, R108) -/

/-- What a writer primitive leaves (R164, R165): a cursor in the same buffer, its new byte writes between the old and
the new committed count, and no bit buffered above the position. -/
structure WriterMoved (c c' : WriteCursor) : Prop where
  base : c'.base = c.base
  byte_le : c'.byte ≤ c.cap ∨ c' = c
  writes : ∃ new, c'.writes = new ++ c.writes ∧ ∀ x ∈ new, c.base + c.byte ≤ x.1 ∧ x.1 < c.base + c'.byte
  acc : c.acc.toNat < 2 ^ c.bit → c'.acc.toNat < 2 ^ c'.bit
  bit : c.bit < 8 → c'.bit < 8

/-- A bit put at `k` into an accumulator with nothing from `k` on leaves nothing above it. -/
theorem setAccBit_lt {acc : BitVec 8} {k : Nat} (b : Bool) (hk : k + 1 < 8) (h : acc.toNat < 2 ^ k) :
    (setAccBit acc k b).toNat < 2 ^ (k + 1) := by
  refine Nat.lt_pow_two_of_testBit _ fun j hj => ?_
  rw [BitVec.testBit_toNat]
  by_cases hj8 : j < 8
  · rw [setAccBit_getLsbD _ _ _ (by omega) _ hj8, if_neg (by omega), ← BitVec.testBit_toNat]
    exact Nat.testBit_lt_two_pow (h.trans_le (Nat.pow_le_pow_right (by omega) (by omega)))
  · exact BitVec.getLsbD_of_ge _ _ (by omega)

theorem bwPush_acc {c : WriteCursor} (b : Bool) (hb : c.bit < 8) (h : c.acc.toNat < 2 ^ c.bit) :
    (bwPush b c).acc.toNat < 2 ^ (bwPush b c).bit := by
  rw [bwPush]
  split
  · exact Nat.one_pos
  · exact setAccBit_lt b (by omega) h

theorem bwPushBits_acc {c : WriteCursor} (v n : Nat) (hb : c.bit < 8) (h : c.acc.toNat < 2 ^ c.bit) :
    (bwPushBits v n c).acc.toNat < 2 ^ (bwPushBits v n c).bit := by
  induction n generalizing v c with
  | zero => exact h
  | succ n ih => exact ih (v / 2) (bwPush_pushed _ hb).bit (bwPush_acc _ hb h)

theorem bwWrite_moved {v n : Nat} {c c' : WriteCursor} (hb : c.bit < 8) (h : bwWrite v n c = .ok c') :
    WriterMoved c c' := by
  obtain ⟨room, rfl⟩ := bwWrite_ok.1 h
  have hp := bwPushBits_pushed v n hb
  have hpos := hp.pos
  simp only [ceil8, WriteCursor.pos] at room hpos
  exact ⟨hp.base, .inl (by omega), hp.writes, bwPushBits_acc v n hb, fun _ => hp.bit⟩

theorem bwFlush_moved {c c' : WriteCursor} (h : bwFlush c = .ok c') : WriterMoved c c' := by
  rcases bwFlush_ok.1 h with ⟨_, rfl⟩ | ⟨_, room, rfl⟩
  · exact ⟨rfl, .inr rfl, ⟨[], rfl, by simp⟩, id, id⟩
  · exact ⟨rfl, .inl room, ⟨[_], rfl, by simp⟩, fun _ => Nat.one_pos, fun _ => Nat.succ_pos 7⟩

/-- What the writing commands leave when their primitive succeeds, whichever it is. -/
theorem setWriteCursor_read {s : State} {wr : WriteCursor} (h : WriterMoved s.writeCursor wr) {a : Nat}
    (ha : a < s.bwBase.toNat + s.bwByte.toNat ∨
      s.bwBase.toNat + (s.setWriteCursor wr).bwByte.toNat ≤ a ∨ s.bwBase.toNat + s.bwCap.toNat ≤ a) :
    (s.setWriteCursor wr).mem.read a = s.mem.read a := by
  obtain ⟨new, hw, hin⟩ := h.writes
  rcases h.byte_le with hcap | rfl
  · have hcap : wr.byte ≤ s.bwCap.toNat := hcap
    have := s.bwCap.isLt
    refine read_applyWrites_outside fun x hx e => ?_
    have hx : x ∈ new := by simpa [hw, State.writeCursor] using hx
    have lo : s.bwBase.toNat + s.bwByte.toNat ≤ x.1 := (hin x hx).1
    have hi : x.1 < s.bwBase.toNat + wr.byte := (hin x hx).2
    rw [setWriteCursor_bwByte, BitVec.toNat_ofNat, Nat.mod_eq_of_lt (by omega)] at ha
    omega
  · rfl

/-- An end of a writing command that leaves every byte outside what it committed. -/
def WriterEnd (s t : State) : Prop :=
  t = { s with
    bwByte := t.bwByte, bwBit := t.bwBit, bwAcc := t.bwAcc, mem := t.mem,
    status := { s.status with bwFail := t.status.bwFail } }.ended t.status.result t.status.cause ∧
  ∀ a, (a < s.bwBase.toNat + s.bwByte.toNat ∨ s.bwBase.toNat + t.bwByte.toNat ≤ a ∨
    s.bwBase.toNat + s.bwCap.toNat ≤ a) → t.mem.read a = s.mem.read a

theorem writerEnd_finish (s : State) (c : Cause) : WriterEnd s (s.finish c) := ⟨rfl, fun _ _ => rfl⟩

theorem writerEnd_overflow (s : State) : WriterEnd s (s.failPlain .bwOverflow) := by
  rw [failPlain_bwOverflow]
  exact ⟨rfl, fun _ _ => rfl⟩

theorem writerEnd_moved {s : State} {wr : WriteCursor} (h : WriterMoved s.writeCursor wr) :
    WriterEnd s (s.setWriteCursor wr).finishOk := ⟨rfl, fun _ ha => setWriteCursor_read h ha⟩

/-- Settles O24: a writer primitive commits bytes between the old and the new BW_BYTE, and a failure commits none. -/
theorem writerFrame : Obligations.WriterFrame := by
  intro s t n k
  have hb := writeCursor_bit_lt s
  refine ⟨fun h => ?_, fun h => ?_⟩
  · rcases exec_next h with ⟨c, _, _, rfl⟩ | h
    · rfl
    · cases h; rfl
  · show WriterEnd s t
    rcases h with h | h | h <;> rcases exec_next h with ⟨c, _, _, rfl⟩ | h
    · exact writerEnd_finish s c
    · cases h with
      | bwWrite write => exact writerEnd_moved (bwWrite_moved hb write)
      | bwWriteOverflow full => exact writerEnd_overflow s
    · exact writerEnd_finish s c
    · cases h with
      | bwFlush flush => exact writerEnd_moved (bwFlush_moved flush)
      | bwFlushOverflow full => exact writerEnd_overflow s
    · exact writerEnd_finish s c
    · cases h with
      | hufWriteSym built write => exact writerEnd_moved (bwWrite_moved hb write)
      | hufWriteSymOverflow built full => exact writerEnd_overflow s

/-! ### The engine, RESULT and CAUSE, BW_ACC and HUF_RES along a step (R30, R34, R47, R50) -/

theorem hufResWord_ok (o : Option HufEntry) : hufResWord o &&& 0x7FF0FE00#32 = 0 := by
  cases o with
  | none => rfl
  | some e =>
    rw [hufResWord]
    ext k hk
    simp only [BitVec.getElem_and, BitVec.getElem_or]
    interval_cases k <;> simp

theorem setWriteCursor_accOk {s : State} {wr : WriteCursor} (h : WriterMoved s.writeCursor wr)
    (hs : s.accOk = true) : (s.setWriteCursor wr).accOk = true := by
  have hbit : wr.bit < 8 := h.bit (writeCursor_bit_lt s)
  have hacc : wr.acc.toNat < 2 ^ wr.bit := h.acc (of_decide_eq_true hs)
  rw [State.accOk, decide_eq_true_eq, setWriteCursor_bwAcc, setWriteCursor_bwBit, BitVec.toNat_ofNat,
    Nat.mod_eq_of_lt hbit]
  exact hacc

/-- R47: no effect buffers a bit above BW_BIT. -/
theorem effect_accOk {s t : State} {i : Instr} (hs : s.accOk = true) (h : Effect s i t) : t.accOk = true := by
  cases h with
  | softReset | bwInit => rfl
  | bwWrite write => exact (setWriteCursor_accOk (bwWrite_moved (writeCursor_bit_lt s) write) hs :)
  | bwFlush flush => exact (setWriteCursor_accOk (bwFlush_moved flush) hs :)
  | hufWriteSym _ write => exact (setWriteCursor_accOk (bwWrite_moved (writeCursor_bit_lt s) write) hs :)
  | _ => exact hs

theorem hufResOk_of_zero {s : State} (h : s.hufRes = 0) : s.hufResOk = true := by
  rw [State.hufResOk, h]
  decide

/-- R50: no effect sets a reserved bit of HUF_RES. -/
theorem effect_hufResOk {s t : State} {i : Instr} (hs : s.hufResOk = true) (h : Effect s i t) : t.hufResOk = true := by
  cases h with
  | softReset => exact hufResOk_of_zero rfl
  | hufDecode | hufReadSymInvalid | hufReadSymOverrun | hufReadSym => exact beq_iff_eq.2 (hufResWord_ok _)
  | _ => exact hs

/-- R34, R431: no effect leaves a RESULT that is not the one of its CAUSE. -/
theorem effect_outcome {s t : State} {i : Instr} (h : Effect s i t) : t.engine = .idle ∧ t.outcomeOk = true := by
  rcases effect_finish h with ⟨_, rfl⟩ | ⟨c, u, rfl⟩
  · exact ⟨rfl, rfl⟩
  · exact ⟨rfl, decide_eq_true rfl⟩

/-- The registers' invariants while a command runs or none does: RESULT goes with CAUSE, no bit of BW_ACC from
BW_BIT on, no reserved bit of HUF_RES. -/
structure RegistersOk (s : State) : Prop where
  outcome : s.outcomeOk = true
  acc : s.accOk = true
  hufRes : s.hufResOk = true

theorem RegistersOk.touch {s t : State} (h : RegistersOk s) (touch : HostTouch s t) : RegistersOk t := by
  obtain ⟨outcome, acc, hufRes⟩ := h
  exact ⟨by rwa [State.outcomeOk, touch.result, touch.cause], by rwa [State.accOk, touch.bwAcc, touch.bwBit],
    by rwa [State.hufResOk, touch.hufRes]⟩

theorem RegistersOk.start {s : State} (h : RegistersOk s) (w : Word) : RegistersOk (s.start w) :=
  ⟨rfl, h.acc, h.hufRes⟩

theorem RegistersOk.finish {s : State} (h : RegistersOk s) (c : Cause) : RegistersOk (s.finish c) :=
  ⟨decide_eq_true rfl, h.acc, h.hufRes⟩

theorem registersOk_setRst (level : Bool) (s : State) : RegistersOk (s.setRst level) :=
  ⟨rfl, rfl, hufResOk_of_zero rfl⟩

theorem RegistersOk.exec {s t : State} {i : Instr} (h : RegistersOk s) (run : exec i s = .next t) :
    t.engine = .idle ∧ RegistersOk t := by
  rcases exec_next run with ⟨c, _, _, rfl⟩ | e
  · exact ⟨rfl, h.finish c⟩
  · exact ⟨(effect_outcome e).1, (effect_outcome e).2, effect_accOk h.acc e, effect_hufResOk h.hufRes e⟩

/-- From an idle block, a step ends idle with the registers' invariants. -/
theorem step_registersOk {s t : State} (idle : s.engine = .idle) (h : RegistersOk s) (run : step s = .next t) :
    t.engine = .idle ∧ RegistersOk t := by
  cases step_effect run with
  | host touch => exact ⟨touch.engine.trans idle, h.touch touch⟩
  | reset level touch => exact ⟨rfl, registersOk_setRst level _⟩
  | command window run ending =>
    obtain ⟨idle, hv⟩ := ((h.start _).touch window).exec run
    exact ⟨ending.engine.trans idle, hv.touch ending⟩
  | noCommand window ending => exact ⟨ending.engine, (((h.start _).touch window).finish _).touch ending⟩
  | abandoned dst window => exact ⟨rfl, registersOk_setRst true _⟩

/-- Settles O58: the host's own accesses touch none of these fields, and every command and reset leaves them right. -/
theorem stepKeepsStatusInvariants : Obligations.StepKeepsStatusInvariants := by
  intro s t idle outcome acc hufRes run
  obtain ⟨idle', outcome', acc', hufRes'⟩ := step_registersOk idle ⟨outcome, acc, hufRes⟩ run
  exact ⟨idle', outcome', acc', hufRes'⟩

end Sys2Proof.Machine


namespace Sys2Proof.Machine

/-! ### Runs of the codecs: causes they fail with, bounds they keep -/

/-- A run ends in a result with `Q` or fails with a listed cause. -/
inductive Ends {α : Type} (cs : List Cause) (Q : α → Prop) : Except Cause α → Prop
  | ok {a : α} (h : Q a) : Ends cs Q (.ok a)
  | error {c : Cause} (h : c ∈ cs) : Ends cs Q (.error c)

theorem Ends.bind {α β : Type} {cs : List Cause} {P : α → Prop} {Q : β → Prop} {x : Except Cause α}
    {f : α → Except Cause β} (hx : Ends cs P x) (hf : ∀ a, P a → Ends cs Q (f a)) : Ends cs Q (x >>= f) := by
  cases hx with
  | ok h => exact hf _ h
  | error h => exact .error h

theorem Ends.of_ok {α : Type} {cs : List Cause} {Q : α → Prop} {x : Except Cause α} {a : α} (hx : Ends cs Q x)
    (e : x = .ok a) : Q a := by
  subst e
  cases hx with | ok h => exact h

theorem Ends.of_error {α : Type} {cs : List Cause} {Q : α → Prop} {x : Except Cause α} {c : Cause} (hx : Ends cs Q x)
    (e : x = .error c) : c ∈ cs := by
  subst e
  cases hx with | error h => exact h

/-- A failure is passed on, whatever the result would have been. -/
theorem Ends.fail {α β : Type} {cs : List Cause} {P : α → Prop} {Q : β → Prop} {x : Except Cause α} {c : Cause}
    (hx : Ends cs P x) (e : x = .error c) : Ends cs Q (.error c : Except Cause β) := .error (hx.of_error e)

theorem Ends.widen {α : Type} {cs cs' : List Cause} {Q : α → Prop} {x : Except Cause α} (hx : Ends cs Q x)
    (sub : ∀ c ∈ cs, c ∈ cs') : Ends cs' Q x := by
  cases hx with
  | ok h => exact .ok h
  | error h => exact .error (sub _ h)

/-- The causes a command's run can fail with: those of its row of R431 without NONE, and the INTERNAL that a run out of
fuel would record. -/
def failCauses (i : Instr) : List Cause := .internal :: (mayRecord i).tail

/-! ### The matcher's records -/

theorem wordBytes_length (w : Nat) : (wordBytes w).length = 4 := rfl

/-- R253: the records fit in the buffer, or the sink rejects one. -/
theorem lzRecords_ends (cap t : Nat) (xs : List Token) :
    Ends [.dstFull] (fun bs => bs.length ≤ cap - 4 * t) (lzRecords cap t xs) := by
  induction xs generalizing t with
  | nil => exact .ok (Nat.zero_le _)
  | cons x xs ih =>
    rw [lzRecords]
    split
    · exact .error (List.mem_singleton.2 rfl)
    · split
      · next h => exact (ih (t + 1)).fail h
      · next bs h =>
        have := (ih (t + 1)).of_ok h
        refine .ok (?_ : (wordBytes x.record ++ bs).length ≤ cap - 4 * t)
        rw [List.length_append, wordBytes_length]
        omega

/-! ### Encoders -/

/-- A writer inside the given buffer. -/
structure WriteCursor.InBuffer (base cap : Nat) (c : WriteCursor) : Prop where
  inside : c.Inside
  base_eq : c.base = base
  cap_eq : c.cap = cap

theorem privateWriter_inBuffer (s : State) : s.privateWriter.InBuffer s.dstAddr.toNat s.dstCap.toNat :=
  ⟨privateWriter_inside s, rfl, rfl⟩

section Writer
variable {base cap : Nat}

theorem bwWrite_ends (v n : Nat) {c : WriteCursor} (h : c.InBuffer base cap) :
    Ends [.bwOverflow] (WriteCursor.InBuffer base cap) (bwWrite v n c) := by
  cases hw : bwWrite v n c with
  | error e => exact .error (List.mem_singleton.2 (bwWrite_error.1 hw).2)
  | ok c' =>
    obtain ⟨inside, hb, hc, _⟩ := bwWrite_inside hw h.inside
    exact .ok ⟨inside, hb.trans h.base_eq, hc.trans h.cap_eq⟩

theorem bwFlush_ends {c : WriteCursor} (h : c.InBuffer base cap) :
    Ends [.bwOverflow] (WriteCursor.InBuffer base cap) (bwFlush c) := by
  cases hw : bwFlush c with
  | error e => exact .error (List.mem_singleton.2 (bwFlush_error.1 hw).2.2)
  | ok c' =>
    obtain ⟨inside, hb, hc, _⟩ := bwFlush_inside hw h.inside
    exact .ok ⟨inside, hb.trans h.base_eq, hc.trans h.cap_eq⟩

theorem writeFields_ends (fs : List BitField) {c : WriteCursor} (h : c.InBuffer base cap) :
    Ends [.bwOverflow] (WriteCursor.InBuffer base cap) (writeFields fs c) := by
  induction fs generalizing c with
  | nil => exact .ok h
  | cons f fs ih =>
    rw [writeFields]
    have hw := bwWrite_ends f.value f.width h
    split
    · next e => exact hw.fail e
    · next e => exact ih (hw.of_ok e)

theorem writeBlocks_ends (bs : List (List Token)) (src : List Byte) {c : WriteCursor} (h : c.InBuffer base cap) :
    Ends [.bwOverflow] (WriteCursor.InBuffer base cap) (writeBlocks bs src c) := by
  induction bs generalizing src c with
  | nil => exact .ok h
  | cons b bs ih =>
    rw [writeBlocks]
    split
    · next e => exact (writeFields_ends _ h).fail e
    · next e => exact ih _ ((writeFields_ends _ h).of_ok e)

/-- R330: DEFLATE stays inside its buffer or overflows it. -/
theorem deflateRun_ends (src : List Byte) {c : WriteCursor} (h : c.InBuffer base cap) :
    Ends [.bwOverflow] (WriteCursor.InBuffer base cap) (deflateRun src c) := by
  have hb := writeBlocks_ends (dflBlocks (lzTokens src dflLzParams)) src h
  rw [deflateRun]
  split
  · next e => exact hb.fail e
  · next e => exact bwFlush_ends (hb.of_ok e)

/-- SHRINK's writer is inside the given buffer. -/
abbrev ShrinkState.InBuffer (base cap : Nat) (z : ShrinkState) : Prop := z.wr.InBuffer base cap

theorem emit_ends (c : Nat) {z : ShrinkState} (h : z.InBuffer base cap) :
    Ends [.bwOverflow] (ShrinkState.InBuffer base cap) (z.emit c) := by
  have hw := bwWrite_ends c z.width h
  rw [ShrinkState.emit]
  split
  · next e => exact hw.fail e
  · next e => exact .ok (hw.of_ok e)

theorem shrinkClear_ends (survives : Bool) {z : ShrinkState} (h : z.InBuffer base cap) :
    Ends [.bwOverflow] (ShrinkState.InBuffer base cap) (shrinkClear survives z) :=
  (emit_ends 256 h).bind fun _ h => (emit_ends 2 h).bind fun _ h => .ok h

theorem shrinkWiden_ends (nc fuel : Nat) {z : ShrinkState} (h : z.InBuffer base cap) :
    Ends [.bwOverflow] (ShrinkState.InBuffer base cap) (shrinkWiden nc fuel z) := by
  induction fuel generalizing z with
  | zero => exact .ok h
  | succ fuel ih =>
    rw [shrinkWiden]
    split
    · exact (emit_ends 256 h).bind fun _ h => (emit_ends 1 h).bind fun _ h => ih h
    · exact .ok h

theorem shrinkInsert_ends (b : Byte) (nc : Option Nat) {z : ShrinkState} (h : z.InBuffer base cap) :
    Ends [.bwOverflow] (ShrinkState.InBuffer base cap) (shrinkInsert b nc z) := by
  cases nc with
  | none => exact .ok h
  | some nc => exact (shrinkWiden_ends nc _ h).bind fun _ h => .ok h

theorem shrinkByte_ends (survives : Bool) (b : Byte) {z : ShrinkState} (h : z.InBuffer base cap) :
    Ends [.bwOverflow] (ShrinkState.InBuffer base cap) (shrinkByte survives b z) := by
  rw [shrinkByte]
  split
  · exact .ok h
  · refine (emit_ends _ h).bind fun z h => ?_
    have insert (z : ShrinkState) (h : z.InBuffer base cap) : Ends [.bwOverflow] (ShrinkState.InBuffer base cap)
        (shrinkInsert b (lzwLowestFree z.table) z >>= fun z => .ok { z with cur := b.toNat }) :=
      (shrinkInsert_ends b _ h).bind fun _ h => .ok h
    dsimp only
    split
    · exact (shrinkClear_ends survives h).bind insert
    · exact insert z h

theorem shrinkBytes_ends (survives : Bool) (bs : List Byte) {z : ShrinkState} (h : z.InBuffer base cap) :
    Ends [.bwOverflow] (ShrinkState.InBuffer base cap) (shrinkBytes survives bs z) := by
  induction bs generalizing z with
  | nil => exact .ok h
  | cons b bs ih =>
    have hb := shrinkByte_ends survives b h
    rw [shrinkBytes]
    split
    · next e => exact hb.fail e
    · next e => exact ih (hb.of_ok e)

theorem shrinkBody_ends (survives : Bool) (src : List Byte) {c : WriteCursor} (h : c.InBuffer base cap) :
    Ends [.bwOverflow] (WriteCursor.InBuffer base cap) (shrinkBody survives src c) := by
  cases src with
  | nil => exact .ok h
  | cons b bs =>
    exact Ends.bind (P := ShrinkState.InBuffer base cap) (shrinkBytes_ends survives bs h)
      fun z h => (emit_ends z.cur h).bind fun _ h => .ok h

/-- R370: SHRINK stays inside its buffer or overflows it. -/
theorem shrinkRun_ends (survives : Bool) (src : List Byte) {c : WriteCursor} (h : c.InBuffer base cap) :
    Ends [.bwOverflow] (WriteCursor.InBuffer base cap) (shrinkRun survives src c) := by
  have hb := shrinkBody_ends survives src h
  rw [shrinkRun]
  split
  · next e => exact hb.fail e
  · next e => exact bwFlush_ends (hb.of_ok e)

end Writer

/-! ### Decoders -/

/-- A reader of a buffer of `len` bytes, at most at its end (R45). -/
structure ReadCursor.Inside (len : Nat) (c : ReadCursor) : Prop where
  len_eq : c.len = len
  bit : c.bit < 8
  pos : c.pos ≤ 8 * len

theorem privateReader_inside (s : State) : s.privateReader.Inside s.srcLen.toNat :=
  ⟨rfl, Nat.succ_pos 7, Nat.zero_le _⟩

section Reader
variable {len cap : Nat}

theorem brAdvance_inside {n : Nat} {c c' : ReadCursor} (h : c.Inside len) (adv : brAdvance n c = .ok c') :
    c'.Inside len := by
  obtain ⟨_, _, hl, hb, hpos, _⟩ := brAdvance_pos adv
  obtain ⟨rfl, _, pos⟩ := h
  exact ⟨hl, hb, hpos pos⟩

theorem brAlign_inside {c : ReadCursor} (h : c.Inside len) : (brAlign c).Inside len := by
  obtain ⟨_, _, hl, hb, hpos⟩ := brAlign_pos h.bit
  obtain ⟨rfl, _, pos⟩ := h
  exact ⟨hl, hb, hpos pos⟩

theorem brRead_ends (m : Memory) (n : Nat) {c : ReadCursor} (h : c.Inside len) :
    Ends [.brOverrun] (fun p => p.2.Inside len) (brRead m n c) := by
  cases hr : brRead m n c with
  | error e => exact .error (List.mem_singleton.2 (brRead_error.1 hr).2)
  | ok p => exact .ok (brAdvance_inside h (brRead_ok.1 hr).2)

/-- R203, R204: a lookup that is INVALID or an advance that fails is all that can go wrong. -/
theorem hufGet_ends (m : Memory) (code : HufCode) {c : ReadCursor} (h : c.Inside len) :
    Ends [.hufInvalidCode, .brOverrun] (fun p => p.2.Inside len) (hufGet m code c) := by
  rw [hufGet]
  split
  · exact .error List.mem_cons_self
  · split
    · next e => rw [(brAdvance_error.1 e).2]; exact .error (List.mem_cons_of_mem _ List.mem_cons_self)
    · next e => exact .ok (brAdvance_inside h e)

theorem putByte_ends (b : Byte) (out : List Byte) :
    Ends [.dstFull] (fun o => o.length ≤ cap) (putByte cap out b) := by
  rw [putByte]
  split
  · exact .error (List.mem_singleton.2 rfl)
  · refine .ok (?_ : (b :: out).length ≤ cap)
    rw [List.length_cons]
    omega

/-! #### INFLATE -/

/-- The sequencer within its buffers: the reader inside the source, the output no longer than the destination. -/
structure DflState.Within (len cap : Nat) (d : DflState) : Prop where
  rd : d.rd.Inside len
  out : d.out.length ≤ cap

/-- The causes the sequencer can fail with as far as its steps tell: the row of INFLATE, INTERNAL by a run out of fuel,
and HUF_LENGTH_RANGE, which the lengths it can decode do not reach. -/
def inflateCauses : List Cause := .hufLengthRange :: failCauses .inflate

/-- A run of the sequencer within its buffers. -/
abbrev DflRuns (len cap : Nat) : Except Cause DflState → Prop := Ends inflateCauses (DflState.Within len cap)

theorem dflRead_ends (m : Memory) (n : Nat) {d : DflState} (h : d.Within len cap) :
    Ends inflateCauses (fun p => p.2.Within len cap) (d.read m n) := by
  have hr := (brRead_ends m n h.rd).widen (by decide : ∀ c ∈ [Cause.brOverrun], c ∈ inflateCauses)
  rw [DflState.read]
  split
  · next e => exact hr.fail e
  · next e => exact .ok ⟨hr.of_ok e, h.out⟩

theorem dflGet_ends (m : Memory) (code : HufCode) {d : DflState} (h : d.Within len cap) :
    Ends inflateCauses (fun p => p.2.Within len cap) (d.get m code) := by
  have hg := (hufGet_ends m code h.rd).widen
    (by decide : ∀ c ∈ [Cause.hufInvalidCode, .brOverrun], c ∈ inflateCauses)
  rw [DflState.get]
  split
  · next e => exact hg.fail e
  · next e => exact .ok ⟨hg.of_ok e, h.out⟩

theorem dflPut_ends (b : Byte) {d : DflState} (h : d.Within len cap) : DflRuns len cap (d.put cap b) := by
  have hp := (putByte_ends (cap := cap) b d.out).widen (by decide : ∀ c ∈ [Cause.dstFull], c ∈ inflateCauses)
  rw [DflState.put]
  split
  · next e => exact hp.fail e
  · next e => exact .ok ⟨h.rd, hp.of_ok e⟩

theorem dflReadBlockHeader_ends (m : Memory) {d : DflState} (h : d.Within len cap) :
    DflRuns len cap (dflReadBlockHeader m d) := by
  refine (dflRead_ends m 1 h).bind fun ⟨f, d⟩ h => (dflRead_ends m 2 h).bind fun ⟨t, d⟩ h => ?_
  dsimp only at h ⊢
  split
  · exact .ok ⟨h.rd, h.out⟩
  · exact .ok ⟨h.rd, h.out⟩
  · exact .ok ⟨h.rd, h.out⟩
  · exact .error (by decide)

theorem dflCopyStored_ends (m : Memory) (n : Nat) {d : DflState} (h : d.Within len cap) :
    DflRuns len cap (dflCopyStored m cap n d) := by
  induction n generalizing d with
  | zero => exact .ok h
  | succ n ih => exact (dflRead_ends m 8 h).bind fun ⟨b, d⟩ h => (dflPut_ends _ h).bind fun _ h => ih h

theorem dflStored_ends (m : Memory) {d : DflState} (h : d.Within len cap) : DflRuns len cap (dflStored m cap d) := by
  have aligned : DflState.Within len cap { d with rd := brAlign d.rd } := ⟨brAlign_inside h.rd, h.out⟩
  refine (dflRead_ends m 16 aligned).bind fun ⟨n, d⟩ h => (dflRead_ends m 16 h).bind fun ⟨k, d⟩ h => ?_
  dsimp only at h ⊢
  split
  · exact (dflCopyStored_ends m n h).bind fun _ h => .ok ⟨h.rd, h.out⟩
  · exact .error (by decide)

theorem dflReadClLengths_ends (m : Memory) (ks cl : List Nat) {d : DflState} (h : d.Within len cap) :
    Ends inflateCauses (fun p => p.2.Within len cap) (dflReadClLengths m ks cl d) := by
  induction ks generalizing cl d with
  | nil => exact .ok h
  | cons k ks ih => exact (dflRead_ends m 3 h).bind fun ⟨v, d⟩ h => ih _ h

/-- R202: what the length check can raise. -/
theorem hufCheck_causes {policy : IncompletePolicy} {l : List Nat} {c : Cause} (h : hufCheck policy l = some c) :
    c ∈ [Cause.hufLengthRange, .hufOversubscribed, .hufIncomplete] := by
  have incomplete {p : Prop} [Decidable p] (h : (if p then none else some Cause.hufIncomplete) = some c) :
      c ∈ [Cause.hufLengthRange, .hufOversubscribed, .hufIncomplete] := by
    split at h
    · cases h
    · cases h; decide
  unfold hufCheck at h
  dsimp only at h
  split at h
  · cases h; decide
  split at h
  · cases h
  split at h
  · cases h; decide
  split at h
  · cases h
  cases policy with
  | allowAny => cases h
  | oneMissing => exact incomplete h
  | completeOnly => exact incomplete h

theorem checked_ends (policy : IncompletePolicy) (l : List Nat) :
    Ends inflateCauses (fun _ => True) (checked (hufCheck policy l)) := by
  have sub : ∀ c ∈ [Cause.hufLengthRange, .hufOversubscribed, .hufIncomplete], c ∈ inflateCauses := by decide
  cases h : hufCheck policy l with
  | none => exact .ok trivial
  | some c => exact .error (sub c (hufCheck_causes h))

theorem dflRun_ends (m : Memory) (seq : List Nat) (sym : Nat) {d : DflState} (h : d.Within len cap) :
    Ends inflateCauses (fun p => p.2.2.Within len cap) (dflRun m seq sym d) := by
  unfold dflRun
  split
  · split
    · exact .error (by decide)
    · exact (dflRead_ends m 2 h).bind fun ⟨_, _⟩ h => .ok h
  · exact (dflRead_ends m 3 h).bind fun ⟨_, _⟩ h => .ok h
  · exact (dflRead_ends m 7 h).bind fun ⟨_, _⟩ h => .ok h
  · exact .ok h

theorem dflReadLengths_ends (m : Memory) (total fuel : Nat) (seq : List Nat) {d : DflState} (h : d.Within len cap) :
    Ends inflateCauses (fun p => p.2.Within len cap) (dflReadLengths m total fuel seq d) := by
  induction fuel generalizing seq d with
  | zero =>
    rw [dflReadLengths]
    split
    · exact .error (by decide)
    · exact .ok h
  | succ fuel ih =>
    rw [dflReadLengths]
    split
    · refine (dflGet_ends m _ h).bind fun ⟨sym, d⟩ h => (dflRun_ends m seq sym h).bind fun ⟨v, r, d⟩ h => ?_
      dsimp only at h ⊢
      split
      · exact .error (by decide)
      · exact ih _ h
    · exact .ok h

theorem dflDynamicHuffman_ends (strict : Bool) (policy : IncompletePolicy) (m : Memory) {d : DflState}
    (h : d.Within len cap) : DflRuns len cap (dflDynamicHuffman strict policy m d) := by
  refine (dflRead_ends m 5 h).bind fun ⟨a, d⟩ h => (dflRead_ends m 5 h).bind fun ⟨b, d⟩ h =>
    (dflRead_ends m 4 h).bind fun ⟨c, d⟩ h => ?_
  dsimp only at h ⊢
  split
  · exact .error (by decide)
  · refine (dflReadClLengths_ends m _ _ h).bind fun ⟨cl, d⟩ h => (checked_ends policy cl).bind fun _ _ => ?_
    have named : DflState.Within len cap { d with clc := hufInstall cl } := ⟨h.rd, h.out⟩
    exact (dflReadLengths_ends m _ _ _ named).bind fun ⟨seq, d⟩ h => (checked_ends policy _).bind fun _ _ =>
      (checked_ends policy _).bind fun _ _ => .ok ⟨h.rd, h.out⟩

theorem dflCopyBytes_ends (dist n : Nat) {d : DflState} (h : d.Within len cap) :
    DflRuns len cap (dflCopyBytes cap dist n d) := by
  induction n generalizing d with
  | zero => exact .ok h
  | succ n ih => exact (dflPut_ends _ h).bind fun _ h => ih h

theorem dflCopy_ends (n dist : Nat) {d : DflState} (h : d.Within len cap) : DflRuns len cap (dflCopy cap n dist d) := by
  rw [dflCopy]
  split
  · exact .error (by decide)
  · exact dflCopyBytes_ends dist n h

theorem dflBackRef_ends (m : Memory) (sym : Nat) {d : DflState} (h : d.Within len cap) :
    DflRuns len cap (dflBackRef m cap sym d) := by
  rw [dflBackRef]
  refine (dflRead_ends m (lenExtra.getD (sym - 257) 0) h).bind fun ⟨e, d⟩ h =>
    (dflGet_ends m d.dist h).bind fun ⟨ds, d⟩ h => ?_
  dsimp only at h ⊢
  split
  · exact .error (by decide)
  · exact (dflRead_ends m _ h).bind fun ⟨f, d⟩ h => dflCopy_ends _ _ h

theorem dflDecodeSymbols_ends (m : Memory) (fuel : Nat) {d : DflState} (h : d.Within len cap) :
    DflRuns len cap (dflDecodeSymbols m cap fuel d) := by
  induction fuel generalizing d with
  | zero => exact .error (by decide)
  | succ fuel ih =>
    rw [dflDecodeSymbols]
    refine (dflGet_ends m _ h).bind fun ⟨sym, d⟩ h => ?_
    dsimp only at h ⊢
    split
    · exact (dflPut_ends _ h).bind fun _ h => ih h
    · split
      · exact .ok ⟨h.rd, h.out⟩
      · split
        · exact .error (by decide)
        · exact (dflBackRef_ends m sym h).bind fun _ h => ih h

theorem dflStep_ends (m : Memory) {d : DflState} (h : d.Within len cap) : DflRuns len cap (dflStep m cap d) := by
  rw [dflStep]
  split
  · exact dflReadBlockHeader_ends m h
  · exact dflStored_ends m h
  · exact .ok ⟨h.rd, h.out⟩
  · exact dflDynamicHuffman_ends _ _ m h
  · exact dflDecodeSymbols_ends m _ h
  · exact .ok h

theorem dflRunToDone_ends (m : Memory) (fuel : Nat) {d : DflState} (h : d.Within len cap) :
    DflRuns len cap (dflRunToDone m cap fuel d) := by
  induction fuel generalizing d with
  | zero => exact .error (by decide)
  | succ fuel ih =>
    rw [dflRunToDone]
    split
    · exact .ok h
    · have hs := dflStep_ends m h
      split
      · next e => exact hs.fail e
      · next e => exact ih (hs.of_ok e)

/-- R300, R301, R435: INFLATE reads inside its source, puts no more than its destination holds, and fails only with
one of `inflateCauses`. -/
theorem inflateRun_ends (m : Memory) {rd : ReadCursor} (h : rd.Inside len) :
    DflRuns len cap (inflateRun m rd cap) :=
  dflRunToDone_ends m _ ⟨h, Nat.zero_le _⟩

/-! #### UNSHRINK -/

/-- UNSHRINK within its buffers: the reader inside the source, the output no longer than the destination. -/
structure UnshrinkState.Within (len cap : Nat) (u : UnshrinkState) : Prop where
  rd : u.rd.Inside len
  out : u.out.length ≤ cap

/-- A run of UNSHRINK within its buffers. -/
abbrev UnshrinkRuns (len cap : Nat) : Except Cause UnshrinkState → Prop :=
  Ends (failCauses .unshrink) (UnshrinkState.Within len cap)

theorem unshrinkControl_ends (survives : Bool) (m : Memory) {u : UnshrinkState} (h : u.Within len cap) :
    UnshrinkRuns len cap (unshrinkControl survives m u) := by
  rw [unshrinkControl]
  split
  · exact .error (by decide)
  · next room =>
    split
    · next e => exact absurd (brRead_error.1 e).1 room
    · next sub rd e =>
      have hrd := (brRead_ends m u.width h.rd).of_ok e
      split
      · split
        · exact .error (by decide)
        · exact .ok ⟨hrd, h.out⟩
      · split
        · exact .ok ⟨hrd, h.out⟩
        · exact .error (by decide)

theorem lzwWalk_ends (t : LzwTable) (fuel c : Nat) (acc : List Byte) :
    Ends (failCauses .unshrink) (fun _ => True) (lzwWalk t fuel c acc) := by
  fun_induction lzwWalk t fuel c acc with
  | case1 => exact .ok trivial
  | case2 => exact .error (by decide)
  | case3 => exact .error (by decide)
  | case4 => exact .error (by decide)
  | case5 _ _ _ _ _ _ _ ih => exact ih

theorem unshrinkString_ends (c : Nat) (u : UnshrinkState) :
    Ends (failCauses .unshrink) (fun _ => True) (unshrinkString c u) := by
  rw [unshrinkString]
  split
  · exact .ok trivial
  · split
    · split
      · exact .error (by decide)
      · exact .ok trivial
    · exact lzwWalk_ends u.table _ c []

theorem putBytes_ends (bs out : List Byte) (h : out.length ≤ cap) :
    Ends [.dstFull] (fun o => o.length ≤ cap) (putBytes cap bs out) := by
  induction bs generalizing out with
  | nil => exact .ok h
  | cons b bs ih =>
    have hp := putByte_ends (cap := cap) b out
    rw [putBytes]
    split
    · next e => exact hp.fail e
    · next e => exact ih _ (hp.of_ok e)

theorem unshrinkData_ends (c : Nat) {u : UnshrinkState} (h : u.Within len cap) :
    UnshrinkRuns len cap (unshrinkData cap c u) := by
  rw [unshrinkData]
  split
  · next e => exact (unshrinkString_ends c u).fail e
  · next st e =>
    have hp := (putBytes_ends st u.out h.out).widen (by decide : ∀ c ∈ [Cause.dstFull], c ∈ failCauses .unshrink)
    split
    · next e => exact hp.fail e
    · next e => exact .ok ⟨h.rd, hp.of_ok e⟩

theorem unshrinkBody_ends (survives : Bool) (m : Memory) (fuel : Nat) {u : UnshrinkState} (h : u.Within len cap) :
    UnshrinkRuns len cap (unshrinkBody survives m cap fuel u) := by
  induction fuel generalizing u with
  | zero =>
    rw [unshrinkBody]
    split
    · exact .error (by decide)
    · exact .ok h
  | succ fuel ih =>
    rw [unshrinkBody]
    split
    · next room =>
      split
      · next e => exact absurd (brRead_error.1 e).1 (Nat.not_lt.2 room)
      · next c rd e =>
        have hu : UnshrinkState.Within len cap { u with rd := rd } := ⟨(brRead_ends m u.width h.rd).of_ok e, h.out⟩
        have hs : UnshrinkRuns len cap (if c = 256 then unshrinkControl survives m { u with rd := rd }
            else unshrinkData cap c { u with rd := rd }) := by
          split
          · exact unshrinkControl_ends survives m hu
          · exact unshrinkData_ends c hu
        dsimp only
        split
        · next e => exact hs.fail e
        · next e => exact ih (hs.of_ok e)
    · exact .ok h

/-- R381 to R384, R435: UNSHRINK reads inside its source, puts no more than its destination holds, and fails only with
one of `failCauses .unshrink`. -/
theorem unshrinkRun_ends (survives : Bool) (m : Memory) {rd : ReadCursor} (h : rd.Inside len) :
    UnshrinkRuns len cap (unshrinkRun survives m rd cap) :=
  unshrinkBody_ends survives m _ ⟨h, Nat.zero_le _⟩

end Reader

end Sys2Proof.Machine


namespace Sys2Proof.Machine

/-! ### The frame of the buffer commands (R40, R108, R434) -/

/-- What every end of a buffer command leaves alone, its slot apart: everything but the completion, the two failure
bits, the counts, the bytes of DST and the counter of free values; and what an OK end draws and counts. -/
structure BufferEnd (s t : State) : Prop where
  frame : t = { s with
    consumed := t.consumed, written := t.written, slots := t.slots, mem := t.mem, draws := t.draws,
    status := { s.status with brFail := t.status.brFail, bwFail := t.status.bwFail } }.ended t.status.result
      t.status.cause
  outside : ∀ a, (a < s.dstAddr.toNat ∨ s.dstAddr.toNat + s.dstCap.toNat ≤ a) → t.mem.read a = s.mem.read a
  counts : t.status.result = .ok → t.draws = s.draws ∧ t.written.toNat ≤ s.dstCap.toNat ∧
    t.consumed.toNat ≤ s.srcLen.toNat

theorem bufferEnd_finish (s : State) {c : Cause} (hc : c.result = .illegal) : BufferEnd s (s.finish c) where
  frame := rfl
  outside := fun _ _ => rfl
  counts := fun ok => absurd (hc.symm.trans ok) (by decide)

theorem bufferEnd_failBuffer (s : State) {c : Cause} (hc : c.result ≠ .ok) :
    BufferEnd s (s.failBuffer c (some s.dstBuffer)) where
  frame := rfl
  outside := fun _ ha => read_scramble_outside ha
  counts := fun ok => absurd ok hc

theorem bufferEnd_failBuildDec (s : State) {c : Cause} (hc : c.result ≠ .ok) :
    BufferEnd s (s.failBuffer c (some s.dstBuffer.inSpace)) where
  frame := rfl
  outside := fun _ ha => scramble_inSpace_read (r := s.dstBuffer) ha
  counts := fun ok => absurd ok hc

/-- A count that fits its register reads back at most as large. -/
theorem toNat_ofNat_le {n k : Nat} (h : n ≤ k) : (BitVec.ofNat 32 n).toNat ≤ k := by
  rw [BitVec.toNat_ofNat]
  exact (Nat.mod_le _ _).trans h

theorem bufferEnd_deliver (s : State) {out : List Byte} {k : Nat} (room : out.length ≤ s.dstCap.toNat)
    (hk : k ≤ s.srcLen.toNat) : BufferEnd s (s.deliver out k) where
  frame := rfl
  outside := fun _ ha => read_writeBytes_outside (by omega)
  counts := fun _ => ⟨rfl, toNat_ofNat_le room, toNat_ofNat_le hk⟩

theorem bufferEnd_deliverWrites (s : State) {wr : WriteCursor} (h : wr.InBuffer s.dstAddr.toNat s.dstCap.toNat) :
    BufferEnd s (s.deliverWrites wr) where
  frame := rfl
  outside := fun a ha => inside_read_outside h.inside s.mem (by rwa [h.base_eq, h.cap_eq])
  counts := fun _ => by
    have := ceil8_le.1 h.inside.fits
    have := h.cap_eq
    simp only [WriteCursor.pos] at *
    exact ⟨rfl, toNat_ofNat_le (by omega), toNat_ofNat_le (Nat.le_refl _)⟩

theorem bufferEnd_hufBuildEnc (s : State) (k : BitVec 2) (limit : Nat) (room : s.srcLen.toNat / 4 ≤ s.dstCap.toNat) :
    BufferEnd s ((({ s with
        mem := s.mem.writeBytes s.dstAddr.toNat
          ((hufLengths (leWords s.srcBytes) limit).map (BitVec.ofNat 8)) }).setSlot k
      (hufInstall (hufLengths (leWords s.srcBytes) limit))).report s.srcLen.toNat (s.srcLen.toNat / 4)).finishOk where
  frame := rfl
  outside := fun a ha => read_writeBytes_outside (by
    rw [List.length_map, hufLengths_length, leWords_length, srcBytes_length]
    omega)
  counts := fun _ => ⟨rfl, toNat_ofNat_le room, toNat_ofNat_le (Nat.le_refl _)⟩

theorem bufferEnd_hufBuildDec (s : State) (k : BitVec 2) (code : HufCode) :
    BufferEnd s ((s.setSlot k code).report s.srcLen.toNat 0).finishOk where
  frame := rfl
  outside := fun _ _ => rfl
  counts := fun _ => ⟨rfl, toNat_ofNat_le (Nat.zero_le _), toNat_ofNat_le (Nat.le_refl _)⟩

/-- A reader inside its source has consumed no more bytes than the source has. -/
theorem ReadCursor.Inside.ceil8_pos_le {len : Nat} {c : ReadCursor} (h : c.Inside len) : ceil8 c.pos ≤ len :=
  ceil8_le.2 h.pos

/-- No cause a run fails with is an OK end's. -/
theorem inflateCauses_result : ∀ c ∈ inflateCauses, c.result ≠ .ok := by decide

theorem unshrinkCauses_result : ∀ c ∈ failCauses .unshrink, c.result ≠ .ok := by decide

theorem hufCheck_result {policy : IncompletePolicy} {l : List Nat} {c : Cause} (h : hufCheck policy l = some c) :
    c.result = .format :=
  (by decide : ∀ c ∈ [Cause.hufLengthRange, .hufOversubscribed, .hufIncomplete], c.result = .format) c
    (hufCheck_causes h)

theorem effect_bufferEnd {s t : State} {i : Instr} (hi : isBufferCommand i = true) (h : Effect s i t) :
    BufferEnd s t := by
  have writer := privateWriter_inBuffer s
  have reader := privateReader_inside s
  cases h with
  | hufBuildEncFull full => exact bufferEnd_failBuffer s (by decide)
  | hufBuildEncTooMany => exact bufferEnd_finish s rfl
  | hufBuildEnc args room => exact bufferEnd_hufBuildEnc s _ _ room
  | hufBuildDecFail bad => exact bufferEnd_failBuildDec s (by rw [hufCheck_result bad]; decide)
  | hufBuildDec args good => exact bufferEnd_hufBuildDec s _ _
  | lzCompressFail run =>
    rw [List.mem_singleton.1 ((lzRecords_ends _ _ _).of_error run)]
    exact bufferEnd_failBuffer s (by decide)
  | lzCompress run => exact bufferEnd_deliver s ((lzRecords_ends _ _ _).of_ok run) (Nat.le_refl _)
  | deflateFail run =>
    rw [List.mem_singleton.1 ((deflateRun_ends _ writer).of_error run)]
    exact bufferEnd_failBuffer s (by decide)
  | deflate run => exact bufferEnd_deliverWrites s ((deflateRun_ends _ writer).of_ok run)
  | inflateFail run => exact bufferEnd_failBuffer s (inflateCauses_result _ ((inflateRun_ends _ reader).of_error run))
  | inflate run =>
    obtain ⟨rd, out⟩ := (inflateRun_ends _ reader).of_ok run
    exact bufferEnd_deliver s (by rwa [List.length_reverse]) rd.ceil8_pos_le
  | shrinkFail run =>
    rw [List.mem_singleton.1 ((shrinkRun_ends _ _ writer).of_error run)]
    exact bufferEnd_failBuffer s (by decide)
  | shrink run => exact bufferEnd_deliverWrites s ((shrinkRun_ends _ _ writer).of_ok run)
  | unshrinkFail run =>
    exact bufferEnd_failBuffer s (unshrinkCauses_result _ ((unshrinkRun_ends _ _ reader).of_error run))
  | unshrink run =>
    obtain ⟨rd, out⟩ := (unshrinkRun_ends _ _ reader).of_ok run
    exact bufferEnd_deliver s (by rwa [List.length_reverse]) rd.ceil8_pos_le
  | _ => cases hi

theorem slot_setSlot_of_ne (s : State) (code : HufCode) {j k : BitVec 2} (h : j ≠ k) :
    (s.setSlot k code).slot j = s.slot j :=
  Vector.getElem_set_ne (by omega) (by omega) fun e => h (BitVec.eq_of_toNat_eq e.symm)

/-- R485: a buffer command builds no slot but the one it names. -/
theorem effect_slot_of_ne {s t : State} {i : Instr} (hi : isBufferCommand i = true) (h : Effect s i t) {j : BitVec 2}
    (henc : ∀ m, i ≠ .hufBuildEnc j m) (hdec : i ≠ .hufBuildDec j) : t.slot j = s.slot j := by
  cases h with
  | @hufBuildEnc k l args room =>
    have ne : j ≠ k := fun e => henc l (e ▸ rfl)
    exact slot_setSlot_of_ne s _ ne
  | @hufBuildDec k args good =>
    have ne : j ≠ k := fun e => hdec (e ▸ rfl)
    exact slot_setSlot_of_ne s _ ne
  | softReset | hufLoadFixed => cases hi
  | _ => rfl

/-- Settles O49: each effect of a buffer command is a `BufferEnd`, with the runs of the codecs kept in their buffers. -/
theorem bufferCommandFrame : Obligations.BufferCommandFrame := by
  intro i s t hi h
  rcases exec_next h with ⟨c, _, hc, rfl⟩ | h
  · have e := bufferEnd_finish s hc
    exact ⟨e.frame, fun _ _ _ => rfl, e.outside, fun _ _ => ⟨rfl, rfl⟩, e.counts⟩
  · have e := effect_bufferEnd hi h
    refine ⟨e.frame, fun j henc hdec => effect_slot_of_ne hi h henc hdec, e.outside, ?_, e.counts⟩
    rintro ⟨j, rfl⟩ hr
    cases h with
    | hufBuildDecFail bad => exact absurd (hufCheck_result bad) hr
    | hufBuildDec args good => exact ⟨rfl, rfl⟩

end Sys2Proof.Machine


namespace Sys2Proof.Machine

/-! ### The register port (R33, R52 to R54) -/

/-- R33: each row is the one at its offset, and the offset is an aligned byte offset. -/
theorem regMap_offsets : ∀ row ∈ regMap, row.1 % 256 = row.1 ∧ row.1 % 4 = 0 ∧ regAt row.1 = some row.2 := by decide

/-- An aligned word access to a row goes on with its register. -/
theorem withPort_row {row : RegRow} (h : row ∈ regMap) (k : Option (Reg × AccessKind) → Out) :
    withPort ⟨BitVec.ofNat 8 row.1, 4⟩ k = k (some row.2) := by
  obtain ⟨byte, aligned, reg⟩ := regMap_offsets row h
  have off : (BitVec.ofNat 8 row.1).toNat = row.1 := by rw [BitVec.toNat_ofNat]; exact byte
  have ok : portAccessOk ⟨BitVec.ofNat 8 row.1, 4⟩ = true := by simp [portAccessOk, off, aligned]
  rw [withPort, if_pos ok, off, reg]

/-- R52: an aligned word access to an offset without a row goes on with no register. -/
theorem withPort_unmapped {off : BitVec 8} (aligned : off.toNat % 4 = 0) (h : off.toNat ∉ regMap.map Prod.fst)
    (k : Option (Reg × AccessKind) → Out) : withPort ⟨off, 4⟩ k = k none := by
  have ok : portAccessOk ⟨off, 4⟩ = true := by simp [portAccessOk, aligned]
  have none : regMap.find? (fun r => r.1 == off.toNat) = none := by
    refine List.find?_eq_none.2 fun row hrow e => h ?_
    exact List.mem_map.2 ⟨row, hrow, beq_iff_eq.1 e⟩
  rw [withPort, if_pos ok, regAt, none, Option.map_none]

theorem busy_of_idle {s : State} (h : s.engine = .idle) : s.busy = false := by rw [State.busy, h]

/-- R52: an idle read answers the register's value. -/
theorem step_read {s : State} (hs : s.ready) {row : RegRow} (h : row ∈ regMap) :
    step { s with inbox := .read ⟨BitVec.ofNat 8 row.1, 4⟩ :: s.inbox } = .next (s.answer (s.regRead row.2.1)) := by
  obtain ⟨rst, idle⟩ := hs
  show withPort _ (fun r => hostRead r s) = _
  rw [withPort_row h, hostRead.eq_def, rst, if_neg Bool.false_ne_true]
  show (if s.busy then _ else _) = _
  rw [busy_of_idle idle, if_neg Bool.false_ne_true]

/-- R52: an idle write to any register but CMD is the register's own write. -/
theorem step_write {s : State} (hs : s.ready) {row : RegRow} (h : row ∈ regMap) (hcmd : row.2.1 ≠ .cmd) (v : Word) :
    step { s with inbox := .write ⟨BitVec.ofNat 8 row.1, 4⟩ v :: s.inbox } = .next (s.regWrite v row.2.1) := by
  obtain ⟨rst, idle⟩ := hs
  show withPort _ (fun r => hostWrite quietWindow v r s) = _
  rw [withPort_row h, hostWrite.eq_def, rst, if_neg Bool.false_ne_true]
  show (if s.busy then _ else if row.2.1 = .cmd then _ else _) = _
  rw [busy_of_idle idle, if_neg Bool.false_ne_true, if_neg hcmd]

/-- R36, R139: a CMD write while idle runs the command with its window. -/
theorem step_command {s : State} (hs : s.ready) (w : Word) (win : Window) :
    step { s with inbox := .command w win :: s.inbox } = runCommand w win s := by
  obtain ⟨rst, idle⟩ := hs
  show hostWrite win w (some (.cmd, .wo)) s = _
  rw [hostWrite.eq_def, rst, if_neg Bool.false_ne_true]
  show (if s.busy then _ else if Reg.cmd = .cmd then _ else _) = _
  rw [busy_of_idle idle, if_neg Bool.false_ne_true, if_pos rfl]

/-- A command that the host leaves alone is its meaning from the start (R36). -/
theorem runCommand_quiet {w : Word} {i : Instr} (h : decode w = .ok i) (s : State) :
    runCommand w quietWindow s = exec i (s.start w) := by
  rw [runCommand, h]
  exact andThen_endWrites_nil _

theorem runCommand_quiet_error {w : Word} {e : DecodeError} (h : decode w = .error e) (s : State) :
    runCommand w quietWindow s = .next ((s.start w).finish (decodeCause e)) := by
  rw [runCommand, h]
  rfl

/-- R431: a word that is no command ends ILLEGAL. -/
theorem decodeCause_result (e : DecodeError) : (decodeCause e).result = .illegal := by cases e <;> rfl

/-- A command issued with no access while it runs, from a ready block. -/
theorem step_issue {s : State} (hs : s.ready) (w : Word) : step (s.issue w) = runCommand w quietWindow s :=
  step_command hs w quietWindow

/-- The fetch helper on a ready block is the issue of the word. -/
theorem withFetchWord_of_ready {s : State} (hs : s.ready) (w : Word) : s.withFetchWord 32 w.toNat = s.issue w := by
  obtain ⟨rst, idle⟩ := hs
  have word : BitVec.ofNat 32 (w.toNat % 2 ^ 32) = w := by
    rw [Nat.mod_eq_of_lt w.isLt, BitVec.ofNat_toNat, BitVec.setWidth_eq]
  simp only [State.withFetchWord, State.issue, word, rst, idle]

/-- Settles O6: a CMD write on a ready block is `runCommand`, whose start and effect stand one after the other. -/
theorem stepRunsTheDecodedCommand : Obligations.StepRunsTheDecodedCommand := by
  intro w s hs
  refine ⟨rfl, rfl, fun i h => ?_, fun e h => ?_, fun i win h => ?_, ?_⟩
  · rw [step_issue hs, runCommand_quiet h]
  · rw [step_issue hs, runCommand_quiet_error h, finish_eq, decodeCause_result]
    rfl
  · rw [step_command hs, runCommand, h]
  · rw [withFetchWord_of_ready hs]

/-- Settles O11: the reset state's fields are its own definition's. -/
theorem resetStateOfTheSpec : Obligations.ResetStateOfTheSpec := by
  refine ⟨fun r => ?_, rfl, fun k => ?_, rfl, rfl, rfl, rfl, rfl, hufResOk_of_zero rfl, rfl, Nat.zero_le _⟩
  · cases r <;> rfl
  · match k with | 0 | 1 | 2 | 3 => rfl

/-- R53: a write while BUSY, by the window's access or by the host's own. -/
theorem busy_write {s : State} (rst : s.rst = false) (busy : s.busy = true) (bufs : List Region) (dst : Option Region)
    (v : Word) {row : RegRow} (h : row ∈ regMap) :
    busyEvent bufs dst (.write ⟨BitVec.ofNat 8 row.1, 4⟩ v) s = .next (s.busyWrite v row.2.1) ∧
      hostWrite quietWindow v (some row.2) s = .next (s.busyWrite v row.2.1) := by
  refine ⟨by rw [busyEvent, withPort_row h], ?_⟩
  rw [hostWrite.eq_def, rst, if_neg Bool.false_ne_true]
  show (if s.busy then _ else _) = _
  rw [busy, if_pos rfl]

theorem busyWrite_other {s : State} {r : Reg} (hctrl : r ≠ .ctrl) (hirq : r ≠ .irq) (v : Word) :
    s.busyWrite v r = { s with status := { s.status with wrBusy := true } } := by
  rw [State.busyWrite, if_neg (by simp [hctrl, hirq])]

/-- Settles O55: each access of the window goes to `busyWrite` or `busyRead` of its row. -/
theorem accessesWhileBusy : Obligations.AccessesWhileBusy := by
  intro s bufs dst v rst busy row h
  have write := busy_write rst busy bufs dst v h
  have read : busyEvent bufs dst (.read ⟨BitVec.ofNat 8 row.1, 4⟩) s = .next (s.busyRead row.2.1 row.2.2) := by
    rw [busyEvent, withPort_row h]
  refine ⟨fun hctrl hirq => ?_, fun hctrl => ?_, fun hirq => ?_, fun ro hid hst => ?_, fun current => ?_⟩
  · rwa [busyWrite_other hctrl hirq] at write
  · rwa [hctrl] at write
  · rwa [hirq] at write
  · rw [read, State.busyRead, if_pos ⟨ro, hid, hst⟩]
    rfl
  · rw [read, State.busyRead, if_neg]
    rintro ⟨ro, hid, hst⟩
    rcases current with h | h | h
    · exact h ro
    · exact hid h
    · exact hst h

/-- Settles O56: IRQ and CMD writes in the step of a completion go to `endWrite`. -/
theorem interruptIsLevel : Obligations.InterruptIsLevel := by
  refine ⟨fun s => rfl, fun w s => rfl, fun s v hs => ?_, fun w v i s t hs hd run => ?_⟩
  · exact step_write hs (row := (0x10, .irq, .rw1c)) (by decide) (by decide) v
  · have command (ws : List (Access × Word)) :
        step { s with inbox := .command w ⟨[], .completes ws⟩ :: s.inbox } = endWrites ws t := by
      rw [step_command hs, runCommand, hd]
      show Out.andThen (exec i (s.start w)) (endWrites ws) = _
      rw [run]
      rfl
    refine ⟨command _, command _, fun hi => ?_⟩
    obtain ⟨c, u, rfl⟩ := exec_finish hi run
    rfl

/-! ### What the registers read (R33, R34, R51) -/

/-- Fields of a word that do not overlap read as their sum: one below bit `k`, one made of multiples of 2^k. -/
theorem toNat_or_field {x y : Word} {n m : Nat} (k : Nat) (hx : x.toNat = n) (hy : y.toNat = m) (hn : n < 2 ^ k)
    (hm : m % 2 ^ k = 0) : (x ||| y).toNat = n + m := by
  have e : m = 2 ^ k * (m / 2 ^ k) := by have := Nat.div_add_mod m (2 ^ k); omega
  rw [BitVec.toNat_or, hx, hy, e, Nat.lor_comm, ← Nat.two_pow_add_eq_or_of_lt hn, Nat.add_comm]

theorem flagBit_toNat (b : Bool) {k : Nat} (hk : k < 32) : (flagBit b k).toNat = b.toNat * 2 ^ k := by
  have := Nat.pow_lt_pow_right (by omega : 1 < 2) hk
  cases b with
  | false => simp [flagBit]
  | true => rw [flagBit, if_pos rfl, BitVec.toNat_shiftLeft, Nat.shiftLeft_eq]; exact Nat.mod_eq_of_lt (by simpa)

/-- A short field shifted to its place. -/
theorem field_toNat {n : Nat} (x : BitVec n) {k : Nat} (h : n + k ≤ 32) :
    (x.setWidth 32 <<< k : Word).toNat = x.toNat * 2 ^ k := by
  have small : x.toNat * 2 ^ k < 2 ^ 32 := calc
    x.toNat * 2 ^ k < 2 ^ n * 2 ^ k := Nat.mul_lt_mul_of_pos_right x.isLt (Nat.two_pow_pos k)
    _ = 2 ^ (n + k) := (Nat.pow_add 2 n k).symm
    _ ≤ 2 ^ 32 := Nat.pow_le_pow_right (by omega) h
  have wide := x.isLt.trans_le (Nat.pow_le_pow_right (n := 2) (by omega) (by omega : n ≤ 32))
  rw [BitVec.toNat_shiftLeft, BitVec.toNat_setWidth, Nat.mod_eq_of_lt wide, Nat.shiftLeft_eq, Nat.mod_eq_of_lt small]

/-- R34: STATUS is the sum of its fields at their places. -/
theorem statusWord_toNat (s : State) : s.statusWord.toNat = s.busy.toNat + 2 * s.status.done.toNat +
    4 * s.status.result.code.toNat + 256 * s.status.cause.code.toNat + 65536 * s.status.brFail.toNat +
      131072 * s.status.bwFail.toNat + 262144 * s.status.wrBusy.toNat := by
  have := s.status.result.code.isLt
  have := s.status.cause.code.isLt
  have := Bool.toNat_le s.busy
  have := Bool.toNat_le s.status.done
  have := Bool.toNat_le s.status.brFail
  have := Bool.toNat_le s.status.bwFail
  have done := toNat_or_field 1 (flagBit_toNat s.busy (k := 0) (by omega))
    (flagBit_toNat s.status.done (k := 1) (by omega)) (by omega) (by omega)
  have result := toNat_or_field 2 done (field_toNat s.status.result.code (k := 2) (by omega)) (by omega) (by omega)
  have cause := toNat_or_field 8 result (field_toNat s.status.cause.code (k := 8) (by omega)) (by omega) (by omega)
  have brFail := toNat_or_field 16 cause (flagBit_toNat s.status.brFail (k := 16) (by omega)) (by omega) (by omega)
  have bwFail := toNat_or_field 17 brFail (flagBit_toNat s.status.bwFail (k := 17) (by omega)) (by omega) (by omega)
  have wrBusy := toNat_or_field 18 bwFail (flagBit_toNat s.status.wrBusy (k := 18) (by omega)) (by omega) (by omega)
  rw [State.statusWord, wrBusy]
  omega

/-- R431, R430: every cause has its row. -/
theorem causeRows_row (c : Cause) : (c, c.code.toNat, c.result.code.toNat) ∈ causeRows := by
  cases c <;> decide

theorem flagBit_getLsbD (b : Bool) {k i : Nat} (hi : i < 32) : (flagBit b k).getLsbD i = (b && decide (i = k)) := by
  cases b with
  | false => simp [flagBit]
  | true =>
    rw [flagBit, if_pos rfl, ← BitVec.twoPow_eq, BitVec.getLsbD_twoPow]
    by_cases e : i = k
    · simp [e, e ▸ hi]
    · simp [e, Ne.symm e]

/-- R51: bit k of HUF_VALID is the valid bit of slot k. -/
theorem hufValidWord_bit (s : State) (k : BitVec 2) : s.hufValidWord.getLsbD k.toNat = (s.slot k).isSome := by
  have hk : k.toNat < 32 := k.isLt.trans (by decide)
  rw [State.hufValidWord, BitVec.getLsbD_or, BitVec.getLsbD_or, BitVec.getLsbD_or, flagBit_getLsbD _ hk,
    flagBit_getLsbD _ hk, flagBit_getLsbD _ hk, flagBit_getLsbD _ hk]
  match k with
  | 0 | 1 | 2 | 3 => simp [State.slot]

/-- R51: only the four valid bits of HUF_VALID can be set. -/
theorem hufValidWord_lt (s : State) : s.hufValidWord.toNat < 16 := by
  refine Nat.lt_pow_two_of_testBit (n := 4) _ fun i hi => ?_
  rw [BitVec.testBit_toNat]
  by_cases h : i < 32
  · rw [State.hufValidWord, BitVec.getLsbD_or, BitVec.getLsbD_or, BitVec.getLsbD_or, flagBit_getLsbD _ h,
      flagBit_getLsbD _ h, flagBit_getLsbD _ h, flagBit_getLsbD _ h]
    simp [show i ≠ 0 by omega, show i ≠ 1 by omega, show i ≠ 2 by omega, show i ≠ 3 by omega]
  · exact BitVec.getLsbD_of_ge _ _ (by omega)

/-- A short field read at its place reads back its bits of the word written (R52). -/
theorem setWidth_setWidth_eq_and {n : Nat} (v m : Word) (hm : ∀ i < 32, m.getLsbD i = decide (i < n)) :
    (v.setWidth n).setWidth 32 = v &&& m := by
  ext i hi
  rw [BitVec.getElem_and, BitVec.getElem_setWidth, BitVec.getLsbD_setWidth, ← BitVec.getLsbD_eq_getElem,
    ← BitVec.getLsbD_eq_getElem, hm i hi, Bool.and_comm]

/-- A flag at bit 0 reads back bit 0 of the word written (R52). -/
theorem flagBit_getLsbD_zero (v : Word) : flagBit (v.getLsbD 0) 0 = v &&& 1#32 := by
  ext i hi
  rw [BitVec.getElem_and, ← BitVec.getLsbD_eq_getElem, ← BitVec.getLsbD_eq_getElem, ← BitVec.getLsbD_eq_getElem,
    flagBit_getLsbD _ hi, BitVec.getLsbD_one]
  by_cases h : i = 0 <;> simp [h]

/-- R33: the RW registers. -/
def rwRegs : List Reg :=
  [.ctrl, .srcAddr, .srcLen, .dstAddr, .dstCap, .lzWindow, .lzMaxlen, .lzFlags, .brBase, .brLen, .bwBase, .bwCap,
    .bwValLo, .bwValHi, .hufSym]

theorem mem_rwRegs : ∀ row ∈ regMap, row.2.2 = .rw → row.2.1 ∈ rwRegs := by decide

/-- R48: the low half of BW_VAL written, the high half kept. -/
theorem bwVal_writeLo (x : BitVec 64) (v : Word) :
    (x.extractLsb' 32 32 ++ v).extractLsb' 0 32 = v ∧
      (x.extractLsb' 32 32 ++ v).extractLsb' 32 32 = x.extractLsb' 32 32 :=
  ⟨BitVec.extractLsb'_append_eq_right, BitVec.extractLsb'_append_eq_left⟩

/-- R48: the high half of BW_VAL written, the low half kept. -/
theorem bwVal_writeHi (x : BitVec 64) (v : Word) :
    (v ++ x.extractLsb' 0 32).extractLsb' 32 32 = v ∧
      (v ++ x.extractLsb' 0 32).extractLsb' 0 32 = x.extractLsb' 0 32 :=
  ⟨BitVec.extractLsb'_append_eq_left, BitVec.extractLsb'_append_eq_right⟩

/-- R52, R480: an RW register reads back what was written, reserved bits as 0. -/
theorem regRead_regWrite {r : Reg} (h : r ∈ rwRegs) (v : Word) (s : State) :
    (s.regWrite v r).regRead r = v &&& r.mask := by
  have whole : v = v &&& 0xFFFFFFFF#32 := BitVec.and_allOnes.symm
  cases r with
  | ctrl | lzFlags => exact flagBit_getLsbD_zero v
  | lzWindow => exact setWidth_setWidth_eq_and v 0xFFFF#32 (by decide)
  | lzMaxlen | hufSym => exact setWidth_setWidth_eq_and v 0x1FF#32 (by decide)
  | bwValLo => exact (bwVal_writeLo s.bwVal v).1.trans whole
  | bwValHi => exact (bwVal_writeHi s.bwVal v).1.trans whole
  | srcAddr | srcLen | dstAddr | dstCap | brBase | brLen | bwBase | bwCap => exact whole
  | _ => exact absurd h (by decide)

/-- R52: a register write changes what no other register reads. -/
theorem regRead_regWrite_other {r r' : Reg} (h : r' ≠ r) (v : Word) (s : State) :
    (s.regWrite v r).regRead r' = s.regRead r' := by
  cases r with
  | bwValLo =>
    cases r' with
    | bwValLo => exact absurd rfl h
    | bwValHi => exact (bwVal_writeLo s.bwVal v).2
    | _ => rfl
  | bwValHi =>
    cases r' with
    | bwValHi => exact absurd rfl h
    | bwValLo => exact (bwVal_writeHi s.bwVal v).2
    | _ => rfl
  | _ => cases r' <;> trivial

/-- R52: an idle register write leaves the block ready. -/
theorem regWrite_ready {s : State} (hs : s.ready) (v : Word) (r : Reg) : (s.regWrite v r).ready := by
  cases r <;> exact hs

theorem not_cmd_of_mem_rwRegs : ∀ r ∈ rwRegs, r ≠ .cmd := by decide

/-- R33: the RO registers. -/
def roRegs : List Reg :=
  [.id, .status, .consumed, .written, .brByte, .brBit, .brLookLo, .brLookHi, .bwByte, .bwBit, .bwAcc, .hufRes,
    .hufValid]

theorem mem_roRegs : ∀ row ∈ regMap, row.2.2 = .ro → row.2.1 ∈ roRegs := by decide

theorem not_cmd_of_mem_roRegs : ∀ r ∈ roRegs, r ≠ .cmd := by decide

/-- R52: an RO register ignores a write. -/
theorem regWrite_ro {r : Reg} (h : r ∈ roRegs) (v : Word) (s : State) : s.regWrite v r = s := by
  cases r with
  | id | status | consumed | written | brByte | brBit | brLookLo | brLookHi | bwByte | bwBit | bwAcc | hufRes
  | hufValid => rfl
  | _ => exact absurd h (by decide)

/-- R34, R431: the CAUSE field of STATUS is the cause's code. -/
theorem statusWord_cause (s : State) : s.statusWord.toNat / 256 % 256 = s.status.cause.code.toNat := by
  have := s.status.result.code.isLt
  have := s.status.cause.code.isLt
  have := Bool.toNat_le s.busy
  have := Bool.toNat_le s.status.done
  rw [statusWord_toNat]
  omega

/-- Settles O54: idle accesses go to the row's own read or write; the registers that are no plain field read their
fields at their places. -/
theorem registerReadBack : Obligations.RegisterReadBack := by
  refine ⟨fun s hs row h => step_read hs h, fun s => ?_, fun s v hs => ⟨fun row h kind => ?_, fun row h kind => ?_, ?_⟩⟩
  · refine ⟨rfl, rfl, rfl, rfl, rfl, ?_, ?_, rfl, ?_, ?_, rfl, ?_, hufValidWord_bit s, hufValidWord_lt s,
      _, causeRows_row s.status.cause, rfl, ?_, rfl, ?_⟩
    · exact BitVec.toNat_setWidth_of_le (by decide)
    · exact BitVec.extractLsb'_append_extractLsb'
    · exact BitVec.toNat_setWidth_of_le (by decide)
    · exact BitVec.toNat_setWidth_of_le (by decide)
    · exact (flagBit_toNat s.donePend (by decide)).trans (Nat.mul_one _)
    · exact statusWord_cause s
    · refine (statusWord_toNat s).trans ?_
      cases s.status.result <;> rfl
  · have mem := mem_rwRegs row h kind
    refine ⟨_, step_write hs h (not_cmd_of_mem_rwRegs _ mem) v, ?_, fun r hr => regRead_regWrite_other hr v s⟩
    rw [step_read (regWrite_ready hs v _) h, regRead_regWrite mem]
  · have mem := mem_roRegs row h kind
    rw [step_write hs h (not_cmd_of_mem_roRegs _ mem), regWrite_ro mem]
  · intro off aligned unmapped
    obtain ⟨rst, idle⟩ := hs
    constructor
    · show withPort _ (fun r => hostWrite quietWindow v r s) = _
      rw [withPort_unmapped aligned unmapped, hostWrite.eq_def, rst, if_neg Bool.false_ne_true]
    · show withPort _ (fun r => hostRead r s) = _
      rw [withPort_unmapped aligned unmapped, hostRead.eq_def, rst, if_neg Bool.false_ne_true]

end Sys2Proof.Machine


namespace Sys2Proof.Machine

/-! ### The canonical form of memory along a step (R100, R106) -/

/-- A command writes memory by the named operations only, so it keeps the canonical form. -/
theorem effect_memWf {s t : State} {i : Instr} (hs : s.mem.wf = true) (h : Effect s i t) : t.mem.wf = true := by
  cases h with
  | bwWrite | bwFlush | hufWriteSym | deflate | shrink => exact applyWrites_wf hs _
  | hufBuildEnc | lzCompress | inflate | unshrink => exact writeBytes_wf hs _ _
  | hufBuildEncFull | hufBuildDecFail | lzCompressFail | deflateFail | inflateFail | shrinkFail | unshrinkFail =>
    exact scramble_wf hs _ _ _
  | _ => exact hs

theorem exec_memWf {i : Instr} {s t : State} (hs : s.mem.wf = true) (h : exec i s = .next t) : t.mem.wf = true := by
  rcases exec_next h with ⟨c, _, _, rfl⟩ | h
  · exact hs
  · exact effect_memWf hs h

/-- Settles O57: host stores, command writes and unspecified bytes are all ordered insertions, and a reset leaves
memory alone. -/
theorem stepKeepsCanonicalMemory : Obligations.StepKeepsCanonicalMemory := by
  intro s t hs h
  cases step_effect h with
  | host touch => exact touch.memWf hs
  | reset level touch => exact touch.memWf hs
  | command window run ending => exact ending.memWf (exec_memWf (window.memWf hs) run)
  | noCommand window ending => exact ending.memWf (window.memWf hs)
  | abandoned dst window => exact state_scramble_wf (window.memWf hs) dst

end Sys2Proof.Machine


namespace Sys2Proof.Machine

/-! ### Where a command writes (R108, R176, R434) -/

theorem not_holds_iff {r : Region} {a : Nat} : r.holds a = false ↔ a < r.base ∨ r.base + r.size ≤ a := by
  rw [Region.holds, Bool.and_eq_false_iff, decide_eq_false_iff_not, decide_eq_false_iff_not, Nat.not_le, Nat.not_lt]

/-- R108: the destination of every buffer command but HUF_BUILD_DEC is DST. -/
theorem destOf_bufferCommand {i : Instr} (s : State) (hi : isBufferCommand i = true) (hd : ∀ k, i ≠ .hufBuildDec k) :
    s.destOf i = some s.dstBuffer := by
  cases i with
  | hufBuildDec k => exact absurd rfl (hd k)
  | hufBuildEnc | lzCompress | deflate | inflate | shrink | unshrink => rfl
  | _ => cases hi

/-- R176: a writer primitive on the BW registers changes no byte outside the BW buffer. -/
theorem setWriteCursor_read_outside {s : State} {wr : WriteCursor} (h : WriterMoved s.writeCursor wr) {a : Nat}
    (ha : s.bwBuffer.holds a = false) : (s.setWriteCursor wr).mem.read a = s.mem.read a := by
  refine setWriteCursor_read h ?_
  rcases not_holds_iff.1 ha with lo | hi
  · exact .inl (Nat.lt_add_right _ lo)
  · exact .inr (.inr hi)

/-- R108: a command that is no buffer command writes inside its destination or nowhere. -/
theorem effect_read_outside {s t : State} {i : Instr} (h : Effect s i t) (hi : isBufferCommand i = false) {a : Nat}
    (ha : ((s.destOf i).any fun r => r.holds a) = false) : t.mem.read a = s.mem.read a := by
  have hb := writeCursor_bit_lt s
  cases h with
  | bwWrite write => exact setWriteCursor_read_outside (bwWrite_moved hb write) ha
  | bwFlush flush => exact setWriteCursor_read_outside (bwFlush_moved flush) ha
  | hufWriteSym _ write => exact setWriteCursor_read_outside (bwWrite_moved hb write) ha
  | hufBuildEncFull | hufBuildEncTooMany | hufBuildEnc | hufBuildDecFail | hufBuildDec | lzCompressFail | lzCompress
  | deflateFail | deflate | inflateFail | inflate | shrinkFail | shrink | unshrinkFail | unshrink => cases hi
  | _ => rfl

/-- Settles O52: a buffer command stays in DST by its frame, of which HUF_BUILD_DEC may change only what a FORMAT end
leaves unspecified; the writer's commands stay in the BW buffer. -/
theorem commandWritesOnlyItsDestination : Obligations.CommandWritesOnlyItsDestination := by
  intro i s t h a ha hdec
  cases hi : isBufferCommand i with
  | false =>
    rcases exec_next h with ⟨c, _, _, rfl⟩ | h
    · rfl
    · exact effect_read_outside h hi ha
  | true =>
    obtain ⟨_, _, outside, buildDec, _⟩ := bufferCommandFrame i s t hi h
    by_cases hd : ∃ k, i = .hufBuildDec k
    · by_cases hr : t.status.result = .format
      · exact outside a (not_holds_iff.1 (hdec hd hr))
      · rw [(buildDec hd hr).1]
    · rw [destOf_bufferCommand s hi (not_exists.1 hd)] at ha
      exact outside a (not_holds_iff.1 ha)

end Sys2Proof.Machine


namespace Sys2Proof.Machine

/-! ### Reading through a source buffer only (R108, R175, R312) -/

/-- Two memories hold the same bytes in a range. -/
def Memory.AgreesOn (m m' : Memory) (r : Region) : Prop := ∀ a, r.holds a = true → m.read a = m'.read a

theorem Memory.AgreesOn.read_eq {m m' : Memory} {r : Region} (h : m.AgreesOn m' r) (a : Nat) (lo : r.base ≤ a)
    (hi : a < r.base + r.size) : m.read a = m'.read a := h a (by simp [Region.holds, lo, hi])

/-- Two memories hold the same bytes in a reader's buffer. -/
abbrev ReadCursor.SeesSame (m m' : Memory) (c : ReadCursor) : Prop := m.AgreesOn m' ⟨c.base, c.len⟩

/-- Two runs that end alike: in the same result, which has `P`, or with the same cause. -/
structure SameRun {α : Type} (P : α → Prop) (x y : Except Cause α) : Prop where
  eq : x = y
  keeps : ∀ a, x = .ok a → P a

theorem SameRun.ok {α : Type} {P : α → Prop} {a : α} (h : P a) : SameRun P (.ok a) (.ok a) :=
  ⟨rfl, fun _ e => by cases e; exact h⟩

theorem SameRun.error {α : Type} {P : α → Prop} (c : Cause) : SameRun P (.error c : Except Cause α) (.error c) :=
  ⟨rfl, fun _ e => by cases e⟩

theorem SameRun.bind {α β : Type} {P : α → Prop} {Q : β → Prop} {x y : Except Cause α} {f g : α → Except Cause β}
    (h : SameRun P x y) (hf : ∀ a, P a → SameRun Q (f a) (g a)) : SameRun Q (x >>= f) (y >>= g) := by
  obtain ⟨rfl, keeps⟩ := h
  cases x with
  | error c => exact .error c
  | ok a => exact hf a (keeps a rfl)

/-- A run that reads no memory ends like itself. -/
theorem SameRun.refl {α : Type} (x : Except Cause α) : SameRun (fun _ => True) x x := ⟨rfl, fun _ _ => trivial⟩

section Reader
variable {m m' : Memory}

theorem seesSame_of_buffer_eq {c c' : ReadCursor} (hb : c'.base = c.base) (hl : c'.len = c.len)
    (h : c.SeesSame m m') : c'.SeesSame m m' := by rwa [ReadCursor.SeesSame, hb, hl]

theorem brAdvance_seesSame {n : Nat} {c c' : ReadCursor} (h : c.SeesSame m m') (adv : brAdvance n c = .ok c') :
    c'.SeesSame m m' := by
  obtain ⟨_, hb, hl, _⟩ := brAdvance_pos adv
  exact seesSame_of_buffer_eq hb hl h

theorem brAlign_seesSame {c : ReadCursor} (h : c.SeesSame m m') : (brAlign c).SeesSame m m' := by
  rw [brAlign]
  split <;> exact h

theorem brBits_same {c : ReadCursor} (h : c.SeesSame m m') : brBits m c = brBits m' c :=
  brBits_congr h.read_eq

theorem brRead_same (n : Nat) {c : ReadCursor} (h : c.SeesSame m m') :
    SameRun (fun p => p.2.SeesSame m m') (brRead m n c) (brRead m' n c) where
  eq := by rw [brRead, brRead, brBits_same h]
  keeps p e := brAdvance_seesSame h (brRead_ok.1 e).2

theorem hufGet_same (code : HufCode) {c : ReadCursor} (h : c.SeesSame m m') :
    SameRun (fun p => p.2.SeesSame m m') (hufGet m code c) (hufGet m' code c) := by
  rw [hufGet, hufGet, ← brBits_same h]
  split
  · exact .error _
  · split
    · exact .error _
    · next adv => exact .ok (brAdvance_seesSame h adv)

/-! #### INFLATE -/

/-- The sequencer reads a buffer in which two memories agree. -/
abbrev DflState.SeesSame (m m' : Memory) (d : DflState) : Prop := d.rd.SeesSame m m'

theorem dflRead_same (n : Nat) {d : DflState} (h : d.SeesSame m m') :
    SameRun (fun p => p.2.SeesSame m m') (d.read m n) (d.read m' n) := by
  have hr := brRead_same n h
  rw [DflState.read, DflState.read, ← hr.eq]
  split
  · exact .error _
  · next e => exact .ok (hr.keeps _ e)

theorem dflGet_same (code : HufCode) {d : DflState} (h : d.SeesSame m m') :
    SameRun (fun p => p.2.SeesSame m m') (d.get m code) (d.get m' code) := by
  have hg := hufGet_same code h
  rw [DflState.get, DflState.get, ← hg.eq]
  split
  · exact .error _
  · next e => exact .ok (hg.keeps _ e)

theorem dflPut_same (cap : Nat) (b : Byte) {d : DflState} (h : d.SeesSame m m') :
    SameRun (DflState.SeesSame m m') (d.put cap b) (d.put cap b) := by
  rw [DflState.put]
  split
  · exact .error _
  · exact .ok h

theorem dflReadBlockHeader_same {d : DflState} (h : d.SeesSame m m') :
    SameRun (DflState.SeesSame m m') (dflReadBlockHeader m d) (dflReadBlockHeader m' d) := by
  refine (dflRead_same 1 h).bind fun ⟨f, d⟩ h => (dflRead_same 2 h).bind fun ⟨t, d⟩ h => ?_
  dsimp only at h ⊢
  split
  · exact .ok h
  · exact .ok h
  · exact .ok h
  · exact .error _

theorem dflCopyStored_same (cap n : Nat) {d : DflState} (h : d.SeesSame m m') :
    SameRun (DflState.SeesSame m m') (dflCopyStored m cap n d) (dflCopyStored m' cap n d) := by
  induction n generalizing d with
  | zero => exact .ok h
  | succ n ih => exact (dflRead_same 8 h).bind fun ⟨b, d⟩ h => (dflPut_same cap _ h).bind fun _ h => ih h

theorem dflStored_same (cap : Nat) {d : DflState} (h : d.SeesSame m m') :
    SameRun (DflState.SeesSame m m') (dflStored m cap d) (dflStored m' cap d) := by
  have aligned : DflState.SeesSame m m' { d with rd := brAlign d.rd } := brAlign_seesSame h
  refine (dflRead_same 16 aligned).bind fun ⟨n, d⟩ h => (dflRead_same 16 h).bind fun ⟨k, d⟩ h => ?_
  dsimp only at h ⊢
  split
  · exact (dflCopyStored_same cap n h).bind fun _ h => .ok h
  · exact .error _

theorem dflReadClLengths_same (ks cl : List Nat) {d : DflState} (h : d.SeesSame m m') :
    SameRun (fun p => p.2.SeesSame m m') (dflReadClLengths m ks cl d) (dflReadClLengths m' ks cl d) := by
  induction ks generalizing cl d with
  | nil => exact .ok h
  | cons k ks ih => exact (dflRead_same 3 h).bind fun ⟨v, d⟩ h => ih _ h

theorem dflRun_same (seq : List Nat) (sym : Nat) {d : DflState} (h : d.SeesSame m m') :
    SameRun (fun p => p.2.2.SeesSame m m') (dflRun m seq sym d) (dflRun m' seq sym d) := by
  unfold dflRun
  split
  · split
    · exact .error _
    · exact (dflRead_same 2 h).bind fun ⟨_, _⟩ h => .ok h
  · exact (dflRead_same 3 h).bind fun ⟨_, _⟩ h => .ok h
  · exact (dflRead_same 7 h).bind fun ⟨_, _⟩ h => .ok h
  · exact .ok h

theorem dflReadLengths_same (total fuel : Nat) (seq : List Nat) {d : DflState} (h : d.SeesSame m m') :
    SameRun (fun p => p.2.SeesSame m m') (dflReadLengths m total fuel seq d) (dflReadLengths m' total fuel seq d) := by
  induction fuel generalizing seq d with
  | zero =>
    rw [dflReadLengths, dflReadLengths]
    split
    · exact .error _
    · exact .ok h
  | succ fuel ih =>
    rw [dflReadLengths, dflReadLengths]
    split
    · refine (dflGet_same _ h).bind fun ⟨sym, d⟩ h => (dflRun_same seq sym h).bind fun ⟨v, r, d⟩ h => ?_
      dsimp only at h ⊢
      split
      · exact .error _
      · exact ih _ h
    · exact .ok h

theorem dflDynamicHuffman_same (strict : Bool) (policy : IncompletePolicy) {d : DflState} (h : d.SeesSame m m') :
    SameRun (DflState.SeesSame m m') (dflDynamicHuffman strict policy m d) (dflDynamicHuffman strict policy m' d) := by
  refine (dflRead_same 5 h).bind fun ⟨a, d⟩ h => (dflRead_same 5 h).bind fun ⟨b, d⟩ h =>
    (dflRead_same 4 h).bind fun ⟨c, d⟩ h => ?_
  dsimp only at h ⊢
  split
  · exact .error _
  · refine (dflReadClLengths_same _ _ h).bind fun ⟨cl, d⟩ h => (SameRun.refl _).bind fun _ _ => ?_
    have named : DflState.SeesSame m m' { d with clc := hufInstall cl } := h
    exact (dflReadLengths_same _ _ _ named).bind fun ⟨seq, d⟩ h => (SameRun.refl _).bind fun _ _ =>
      (SameRun.refl _).bind fun _ _ => .ok h

theorem dflCopyBytes_same (cap dist n : Nat) {d : DflState} (h : d.SeesSame m m') :
    SameRun (DflState.SeesSame m m') (dflCopyBytes cap dist n d) (dflCopyBytes cap dist n d) := by
  induction n generalizing d with
  | zero => exact .ok h
  | succ n ih => exact (dflPut_same cap _ h).bind fun _ h => ih h

theorem dflCopy_same (cap n dist : Nat) {d : DflState} (h : d.SeesSame m m') :
    SameRun (DflState.SeesSame m m') (dflCopy cap n dist d) (dflCopy cap n dist d) := by
  rw [dflCopy]
  split
  · exact .error _
  · exact dflCopyBytes_same cap dist n h

theorem dflBackRef_same (cap sym : Nat) {d : DflState} (h : d.SeesSame m m') :
    SameRun (DflState.SeesSame m m') (dflBackRef m cap sym d) (dflBackRef m' cap sym d) := by
  rw [dflBackRef, dflBackRef]
  refine (dflRead_same (lenExtra.getD (sym - 257) 0) h).bind fun ⟨e, d⟩ h =>
    (dflGet_same d.dist h).bind fun ⟨ds, d⟩ h => ?_
  dsimp only at h ⊢
  split
  · exact .error _
  · exact (dflRead_same _ h).bind fun ⟨f, d⟩ h => dflCopy_same cap _ _ h

theorem dflDecodeSymbols_same (cap fuel : Nat) {d : DflState} (h : d.SeesSame m m') :
    SameRun (DflState.SeesSame m m') (dflDecodeSymbols m cap fuel d) (dflDecodeSymbols m' cap fuel d) := by
  induction fuel generalizing d with
  | zero => exact .error _
  | succ fuel ih =>
    rw [dflDecodeSymbols, dflDecodeSymbols]
    refine (dflGet_same _ h).bind fun ⟨sym, d⟩ h => ?_
    dsimp only at h ⊢
    split
    · exact (dflPut_same cap _ h).bind fun _ h => ih h
    · split
      · exact .ok h
      · split
        · exact .error _
        · exact (dflBackRef_same cap sym h).bind fun _ h => ih h

theorem dflStep_same (cap : Nat) {d : DflState} (h : d.SeesSame m m') :
    SameRun (DflState.SeesSame m m') (dflStep m cap d) (dflStep m' cap d) := by
  rw [dflStep, dflStep]
  split
  · exact dflReadBlockHeader_same h
  · exact dflStored_same cap h
  · exact .ok h
  · exact dflDynamicHuffman_same _ _ h
  · exact dflDecodeSymbols_same cap _ h
  · exact .ok h

theorem dflRunToDone_same (cap fuel : Nat) {d : DflState} (h : d.SeesSame m m') :
    SameRun (DflState.SeesSame m m') (dflRunToDone m cap fuel d) (dflRunToDone m' cap fuel d) := by
  induction fuel generalizing d with
  | zero => exact .error _
  | succ fuel ih =>
    have hs := dflStep_same cap h
    rw [dflRunToDone, dflRunToDone, ← hs.eq]
    split
    · exact .ok h
    · split
      · exact .error _
      · next e => exact ih (hs.keeps _ e)

/-- R300, R312: INFLATE's run depends on memory only through the buffer of its reader. -/
theorem inflateRun_congr {rd : ReadCursor} (cap : Nat) (h : rd.SeesSame m m') :
    inflateRun m rd cap = inflateRun m' rd cap :=
  (dflRunToDone_same cap _ (d := dflInit rd) h).eq

/-! #### UNSHRINK -/

/-- UNSHRINK reads a buffer in which two memories agree. -/
abbrev UnshrinkState.SeesSame (m m' : Memory) (u : UnshrinkState) : Prop := u.rd.SeesSame m m'

theorem unshrinkControl_same (survives : Bool) {u : UnshrinkState} (h : u.SeesSame m m') :
    SameRun (UnshrinkState.SeesSame m m') (unshrinkControl survives m u) (unshrinkControl survives m' u) := by
  have hr := brRead_same u.width h
  rw [unshrinkControl, unshrinkControl, ← hr.eq]
  split
  · exact .error _
  · split
    · exact .error _
    · next sub rd e =>
      have hrd : rd.SeesSame m m' := hr.keeps _ e
      split
      · split
        · exact .error _
        · exact .ok hrd
      · split
        · exact .ok hrd
        · exact .error _

theorem unshrinkData_same (cap c : Nat) {u : UnshrinkState} (h : u.SeesSame m m') :
    SameRun (UnshrinkState.SeesSame m m') (unshrinkData cap c u) (unshrinkData cap c u) := by
  rw [unshrinkData]
  split
  · exact .error _
  · split
    · exact .error _
    · exact .ok h

theorem unshrinkBody_same (survives : Bool) (cap fuel : Nat) {u : UnshrinkState} (h : u.SeesSame m m') :
    SameRun (UnshrinkState.SeesSame m m') (unshrinkBody survives m cap fuel u)
      (unshrinkBody survives m' cap fuel u) := by
  induction fuel generalizing u with
  | zero =>
    rw [unshrinkBody, unshrinkBody]
    split
    · exact .error _
    · exact .ok h
  | succ fuel ih =>
    have hr := brRead_same u.width h
    rw [unshrinkBody, unshrinkBody, ← hr.eq]
    split
    · split
      · exact .error _
      · next c rd e =>
        have hu : UnshrinkState.SeesSame m m' { u with rd := rd } := hr.keeps _ e
        have hs : SameRun (UnshrinkState.SeesSame m m')
            (if c = 256 then unshrinkControl survives m { u with rd := rd } else unshrinkData cap c { u with rd := rd })
            (if c = 256 then unshrinkControl survives m' { u with rd := rd }
              else unshrinkData cap c { u with rd := rd }) := by
          split
          · exact unshrinkControl_same survives hu
          · exact unshrinkData_same cap c hu
        dsimp only
        rw [← hs.eq]
        split
        · exact .error _
        · next e => exact ih (hs.keeps _ e)
    · exact .ok h

/-- R381, R108: UNSHRINK's run depends on memory only through the buffer of its reader. -/
theorem unshrinkRun_congr (survives : Bool) {rd : ReadCursor} (cap : Nat) (h : rd.SeesSame m m') :
    unshrinkRun survives m rd cap = unshrinkRun survives m' rd cap :=
  (unshrinkBody_same survives cap _ (u := ⟨lzwInit, Config.lzwMinWidth, none, [], rd, []⟩) h).eq

end Reader

end Sys2Proof.Machine


namespace Sys2Proof.Machine

/-! ### A command from two memories that agree on its source (R108) -/

/-- `n` and `n'` come of `m` and `m'` by the same writes: each byte is the same in both, or left alone in both. -/
def WrittenAlike (m m' n n' : Memory) : Prop :=
  ∀ a, n'.read a = n.read a ∨ (n.read a = m.read a ∧ n'.read a = m'.read a)

theorem WrittenAlike.refl (m m' : Memory) : WrittenAlike m m' m m' := fun _ => .inr ⟨rfl, rfl⟩

section Writes
variable {m m' n n' : Memory}

theorem WrittenAlike.write (h : WrittenAlike m m' n n') (a : Nat) (b : Byte) :
    WrittenAlike m m' (n.write a b) (n'.write a b) := fun x => by
  rw [read_write, read_write]
  split
  · exact .inl rfl
  · exact h x

theorem WrittenAlike.writeBytes (h : WrittenAlike m m' n n') (a : Nat) (bs : List Byte) :
    WrittenAlike m m' (n.writeBytes a bs) (n'.writeBytes a bs) := by
  induction bs generalizing n n' a with
  | nil => exact h
  | cons b bs ih => exact ih (h.write a b) (a + 1)

theorem WrittenAlike.scramble (h : WrittenAlike m m' n n') (a d k : Nat) :
    WrittenAlike m m' (n.scramble a d k) (n'.scramble a d k) := by
  induction k generalizing n n' a d with
  | zero => exact h
  | succ k ih => exact ih (h.write a _) (a + 1) (d + 1)

theorem WrittenAlike.applyWrites (h : WrittenAlike m m' n n') (ws : List Host.Cell) :
    WrittenAlike m m' (n.applyWrites ws) (n'.applyWrites ws) := by
  induction ws with
  | nil => exact h
  | cons c ws ih => exact ih.write c.1 c.2

end Writes

/-- Two states alike but for memory, where the same writes were made on `m` and on `m'`. -/
structure EndsAlike (m m' : Memory) (t t' : State) : Prop where
  rest : t' = { t with mem := t'.mem }
  bytes : WrittenAlike m m' t.mem t'.mem

/-- If the first outcome is a next state, the second is one that is alike. -/
def OutcomesAlike (m m' : Memory) (o o' : Out) : Prop := ∀ t, o = .next t → ∃ t', o' = .next t' ∧ EndsAlike m m' t t'

section Outcomes
variable {s : State} {m : Memory}

theorem outcomesAlike_next {t t' : State} (h : EndsAlike s.mem m t t') :
    OutcomesAlike s.mem m (.next t) (.next t') := fun _ e => by
  injection e with e
  exact ⟨t', rfl, e ▸ h⟩

theorem outcomesAlike_illegal (c : Cause) : OutcomesAlike s.mem m (s.illegal c) ({ s with mem := m }.illegal c) :=
  outcomesAlike_next ⟨rfl, .refl _ _⟩

/-- The look at a command's buffers asks nothing of memory. -/
theorem outcomesAlike_withBuffers (rs : List Region) {t t' : State} (h : EndsAlike s.mem m t t') :
    OutcomesAlike s.mem m (s.withBuffers rs t) ({ s with mem := m }.withBuffers rs t') := fun _ e => by
  obtain ⟨plain, rfl⟩ := withBuffers_next.1 e
  exact ⟨t', withBuffers_plain plain, h⟩

/-- A check of R139 that asks nothing of memory. -/
theorem outcomesAlike_check {c : Cause} {p : Prop} [Decidable p] {o o' : Out}
    (h : OutcomesAlike s.mem m o o') :
    OutcomesAlike s.mem m (if p then s.illegal c else o) (if p then { s with mem := m }.illegal c else o') := by
  split
  · exact outcomesAlike_illegal c
  · exact h

/-- The check that a slot is built. -/
theorem outcomesAlike_slot {k : BitVec 2} {f f' : HufCode → Out}
    (h : ∀ code, OutcomesAlike s.mem m (f code) (f' code)) :
    OutcomesAlike s.mem m (match s.slot k with | none => s.illegal .slotNotBuilt | some code => f code)
      (match s.slot k with | none => { s with mem := m }.illegal .slotNotBuilt | some code => f' code) := by
  cases s.slot k with
  | none => exact outcomesAlike_illegal _
  | some code => exact h code

/-! #### Ends -/

theorem endsAlike_failBuffer (c : Cause) (r : Region) :
    EndsAlike s.mem m (s.failBuffer c (some r)) ({ s with mem := m }.failBuffer c (some r)) :=
  ⟨rfl, (WrittenAlike.refl _ _).scramble _ _ _⟩

theorem endsAlike_deliver (out : List Byte) (k : Nat) :
    EndsAlike s.mem m (s.deliver out k) ({ s with mem := m }.deliver out k) :=
  ⟨rfl, (WrittenAlike.refl _ _).writeBytes _ _⟩

theorem endsAlike_deliverWrites (wr : WriteCursor) :
    EndsAlike s.mem m (s.deliverWrites wr) ({ s with mem := m }.deliverWrites wr) :=
  ⟨rfl, (WrittenAlike.refl _ _).applyWrites _⟩

theorem endsAlike_onWriter (r : Except Cause WriteCursor) :
    EndsAlike s.mem m (s.onWriter r) ({ s with mem := m }.onWriter r) := by
  cases r with
  | error c => exact ⟨rfl, .refl _ _⟩
  | ok wr => exact ⟨rfl, (WrittenAlike.refl _ _).applyWrites _⟩

/-- The end of a reader command that advances the registers' cursor, from states alike but for memory. -/
theorem endsAlike_advance (x : Except Cause ReadCursor) (u : State) (hu : u.mem = s.mem) :
    EndsAlike s.mem m (match x with | .error c => u.failPlain c | .ok rd => (u.setReadCursor rd).finishOk)
      (match x with
        | .error c => { u with mem := m }.failPlain c
        | .ok rd => ({ u with mem := m }.setReadCursor rd).finishOk) := by
  cases x with
  | error c => exact ⟨rfl, hu ▸ .refl _ _⟩
  | ok rd => exact ⟨rfl, hu ▸ .refl _ _⟩

/-! #### Meanings that read SRC or the BR buffer -/

theorem srcBytes_congr (h : m.AgreesOn s.mem s.srcBuffer) : State.srcBytes { s with mem := m } = s.srcBytes :=
  readBytes_congr h.read_eq

/-- The lookahead of the reader's registers, as the meaning of a command reads it from the other memory. -/
theorem look_congr (h : m.AgreesOn s.mem s.brBuffer) :
    brBits m (State.readCursor { s with mem := m }) = brBits s.mem s.readCursor := brBits_same (c := s.readCursor) h

theorem execBrPeek_alike (h : m.AgreesOn s.mem s.brBuffer) :
    OutcomesAlike s.mem m (execBrPeek s) (execBrPeek { s with mem := m }) := by
  rw [execBrPeek, execBrPeek, look_congr h]
  exact outcomesAlike_check (outcomesAlike_withBuffers _ ⟨rfl, .refl _ _⟩)

theorem execBrRead_alike (n : BitVec 7) (h : m.AgreesOn s.mem s.brBuffer) :
    OutcomesAlike s.mem m (execBrRead n s) (execBrRead n { s with mem := m }) := by
  rw [execBrRead, execBrRead, look_congr h]
  exact outcomesAlike_check (outcomesAlike_check (outcomesAlike_withBuffers _
    (endsAlike_advance _ (s.latchLook (brBits s.mem s.readCursor % 2 ^ n.toNat)) rfl)))

theorem execHufDecode_alike (k : BitVec 2) (h : m.AgreesOn s.mem s.brBuffer) :
    OutcomesAlike s.mem m (execHufDecode k s) (execHufDecode k { s with mem := m }) := by
  simp only [execHufDecode, look_congr h]
  exact outcomesAlike_check (outcomesAlike_slot fun code => outcomesAlike_withBuffers _ ⟨rfl, .refl _ _⟩)

theorem execHufReadSym_alike (k : BitVec 2) (h : m.AgreesOn s.mem s.brBuffer) :
    OutcomesAlike s.mem m (execHufReadSym k s) (execHufReadSym k { s with mem := m }) := by
  simp only [execHufReadSym, look_congr h]
  refine outcomesAlike_check (outcomesAlike_slot fun code => outcomesAlike_withBuffers _ ?_)
  cases hufLookup code (brBits s.mem s.readCursor) with
  | none => exact ⟨rfl, .refl _ _⟩
  | some e => exact endsAlike_advance _ { s with hufRes := hufResWord (some e) } rfl

theorem execHufBuildEnc_alike (k : BitVec 2) (l : BitVec 4) (h : m.AgreesOn s.mem s.srcBuffer) :
    OutcomesAlike s.mem m (execHufBuildEnc k l s) (execHufBuildEnc k l { s with mem := m }) := by
  rw [execHufBuildEnc, execHufBuildEnc, srcBytes_congr h]
  refine outcomesAlike_check (outcomesAlike_check (outcomesAlike_withBuffers _ ?_))
  dsimp only
  split
  · exact endsAlike_failBuffer _ _
  · split
    · exact ⟨rfl, .refl _ _⟩
    · exact ⟨rfl, (WrittenAlike.refl _ _).writeBytes _ _⟩

theorem execHufBuildDec_alike (k : BitVec 2) (h : m.AgreesOn s.mem s.srcBuffer) :
    OutcomesAlike s.mem m (execHufBuildDec k s) (execHufBuildDec k { s with mem := m }) := by
  rw [execHufBuildDec, execHufBuildDec, srcBytes_congr h]
  refine outcomesAlike_check (outcomesAlike_withBuffers _ ?_)
  dsimp only
  cases hufCheck Config.incompletePolicy (s.srcBytes.map BitVec.toNat) with
  | some c => exact endsAlike_failBuffer c _
  | none => exact ⟨rfl, .refl _ _⟩

/-- The matcher's parameters and the private cursors of the codecs are made of registers. -/
theorem lzParams_setMem : State.lzParams { s with mem := m } = s.lzParams := rfl

theorem privateWriter_setMem : State.privateWriter { s with mem := m } = s.privateWriter := rfl

theorem privateReader_setMem : State.privateReader { s with mem := m } = s.privateReader := rfl

theorem execLzCompress_alike (h : m.AgreesOn s.mem s.srcBuffer) :
    OutcomesAlike s.mem m (execLzCompress s) (execLzCompress { s with mem := m }) := by
  simp only [execLzCompress, srcBytes_congr h, lzParams_setMem]
  refine outcomesAlike_check (outcomesAlike_withBuffers _ ?_)
  cases lzRecords s.dstCap.toNat 0 (lzTokens s.srcBytes s.lzParams) with
  | error c => exact endsAlike_failBuffer c _
  | ok out => exact endsAlike_deliver out _

theorem execDeflate_alike (h : m.AgreesOn s.mem s.srcBuffer) :
    OutcomesAlike s.mem m (execDeflate s) (execDeflate { s with mem := m }) := by
  simp only [execDeflate, srcBytes_congr h, privateWriter_setMem]
  refine outcomesAlike_check (outcomesAlike_withBuffers _ ?_)
  cases deflateRun s.srcBytes s.privateWriter with
  | error c => exact endsAlike_failBuffer c _
  | ok wr => exact endsAlike_deliverWrites wr

theorem execShrink_alike (h : m.AgreesOn s.mem s.srcBuffer) :
    OutcomesAlike s.mem m (execShrink s) (execShrink { s with mem := m }) := by
  simp only [execShrink, srcBytes_congr h, privateWriter_setMem]
  refine outcomesAlike_check (outcomesAlike_withBuffers _ ?_)
  cases shrinkRun Config.lzwSelfPrefixSurvives s.srcBytes s.privateWriter with
  | error c => exact endsAlike_failBuffer c _
  | ok wr => exact endsAlike_deliverWrites wr

theorem execInflate_alike (h : m.AgreesOn s.mem s.srcBuffer) :
    OutcomesAlike s.mem m (execInflate s) (execInflate { s with mem := m }) := by
  simp only [execInflate, privateReader_setMem, inflateRun_congr (rd := s.privateReader) _ h]
  refine outcomesAlike_check (outcomesAlike_withBuffers _ ?_)
  cases inflateRun s.mem s.privateReader s.dstCap.toNat with
  | error c => exact endsAlike_failBuffer c _
  | ok d => exact endsAlike_deliver d.out.reverse _

theorem execUnshrink_alike (h : m.AgreesOn s.mem s.srcBuffer) :
    OutcomesAlike s.mem m (execUnshrink s) (execUnshrink { s with mem := m }) := by
  simp only [execUnshrink, privateReader_setMem, unshrinkRun_congr (rd := s.privateReader) _ _ h]
  refine outcomesAlike_check (outcomesAlike_withBuffers _ ?_)
  cases unshrinkRun Config.lzwSelfPrefixSurvives s.mem s.privateReader s.dstCap.toNat with
  | error c => exact endsAlike_failBuffer c _
  | ok u => exact endsAlike_deliver u.out.reverse _

/-- R108: from two memories that agree on the source of a command, its meaning answers alike. -/
theorem exec_alike (i : Instr) (h : ∀ r, s.sourceOf i = some r → m.AgreesOn s.mem r) :
    OutcomesAlike s.mem m (exec i s) (exec i { s with mem := m }) := by
  cases i with
  | nop | clear | softReset => exact outcomesAlike_next ⟨rfl, .refl _ _⟩
  | brInit | bwInit => exact outcomesAlike_check (outcomesAlike_withBuffers _ ⟨rfl, .refl _ _⟩)
  | brPeek => exact execBrPeek_alike (h _ rfl)
  | brAdvance n =>
    exact outcomesAlike_check (outcomesAlike_check (outcomesAlike_withBuffers _ (endsAlike_advance _ s rfl)))
  | brRead n => exact execBrRead_alike n (h _ rfl)
  | brAlign => exact outcomesAlike_check (outcomesAlike_withBuffers _ ⟨rfl, .refl _ _⟩)
  | bwWrite n => exact outcomesAlike_check (outcomesAlike_check (outcomesAlike_withBuffers _ (endsAlike_onWriter _)))
  | bwFlush => exact outcomesAlike_check (outcomesAlike_withBuffers _ (endsAlike_onWriter _))
  | hufBuildEnc k l => exact execHufBuildEnc_alike k l (h _ rfl)
  | hufBuildDec k => exact execHufBuildDec_alike k (h _ rfl)
  | hufDecode k => exact execHufDecode_alike k (h _ rfl)
  | hufReadSym k => exact execHufReadSym_alike k (h _ rfl)
  | hufWriteSym k =>
    exact outcomesAlike_check (outcomesAlike_slot fun code =>
      outcomesAlike_check (outcomesAlike_withBuffers _ (endsAlike_onWriter _)))
  | hufLoadFixed n k => exact outcomesAlike_check (outcomesAlike_next ⟨rfl, .refl _ _⟩)
  | lzCompress => exact execLzCompress_alike (h _ rfl)
  | deflate => exact execDeflate_alike (h _ rfl)
  | inflate => exact execInflate_alike (h _ rfl)
  | shrink => exact execShrink_alike (h _ rfl)
  | unshrink => exact execUnshrink_alike (h _ rfl)

end Outcomes

/-- Settles O53: every check asks registers and slots only, every value read comes from the source, and the same writes
are made on both memories. -/
theorem commandReadsOnlyItsSource : Obligations.CommandReadsOnlyItsSource := by
  intro i s t m h agree
  have source (r : Region) (hr : s.sourceOf i = some r) : m.AgreesOn s.mem r := fun a ha =>
    agree a (by rw [hr]; exact ha)
  obtain ⟨t', h', rest, bytes⟩ := exec_alike i source t h
  exact ⟨t', h', rest, bytes⟩

end Sys2Proof.Machine

namespace Sys2Proof

/-! ### The fields of the command word (R130, R132) -/

section Fields

variable (op : BitVec 8) (n : BitVec 7) (slot : BitVec 2) (maxlen : BitVec 4)

@[simp] theorem opField_packWord : opField (packWord op n slot maxlen) = op := by
  ext k hk
  interval_cases k <;> simp [opField, packWord]

@[simp] theorem nField_packWord : nField (packWord op n slot maxlen) = n := by
  ext k hk
  interval_cases k <;> simp [nField, packWord]

@[simp] theorem slotField_packWord : slotField (packWord op n slot maxlen) = slot := by
  ext k hk
  interval_cases k <;> simp [slotField, packWord]

@[simp] theorem maxlenField_packWord : maxlenField (packWord op n slot maxlen) = maxlen := by
  ext k hk
  interval_cases k <;> simp [maxlenField, packWord]

end Fields

section Decoder

variable {hasShrink : Bool} {w : Word} {u : FieldUse} {i : Instr}

/-- Every bit of a word is in one of the four fields or reserved. -/
theorem packWord_or_reservedBits (w : Word) :
    packWord (opField w) (nField w) (slotField w) (maxlenField w) ||| reservedBits w = w := by
  ext k hk
  interval_cases k <;> simp [packWord, opField, nField, slotField, maxlenField, reservedBits]

theorem packWord_fields (reserved : reservedBits w = 0) :
    packWord (opField w) (nField w) (slotField w) (maxlenField w) = w := by
  have word := packWord_or_reservedBits w
  rwa [reserved, BitVec.ofNat_eq_ofNat, BitVec.or_zero] at word

theorem eq_zero_iff_fields : w = 0 ↔
    opField w = 0 ∧ reservedBits w = 0 ∧ nField w = 0 ∧ slotField w = 0 ∧ maxlenField w = 0 := by
  constructor
  · rintro rfl
    decide
  · rintro ⟨op, reserved, n, slot, maxlen⟩
    rw [← packWord_fields reserved, op, n, slot, maxlen]
    rfl

/-! ### Which words are clean (R132) -/

theorem fieldsClean_iff : fieldsClean u w = true ↔ reservedBits w = 0 ∧ (u.n = false → nField w = 0) ∧
    (u.slot = false → slotField w = 0) ∧ (u.maxlen = false → maxlenField w = 0) := by
  simp only [fieldsClean, Bool.and_eq_true, Bool.or_eq_true, beq_iff_eq, and_assoc, or_iff_not_imp_left,
    Bool.not_eq_true]

/-- The bits of a word that a command with these fields uses, OP among them. -/
def FieldUse.mask (u : FieldUse) : Word :=
  packWord 0xFF (if u.n then 0x7F else 0) (if u.slot then 0x3 else 0) (if u.maxlen then 0xF else 0)

/-- A mask that has all of a field or nothing of it, cleared from a word, empties the field or keeps it. -/
theorem extractLsb'_and_not_of_mask {start len : Nat} {m : Word} {b : Bool} (inside : start + len < 32)
    (mask : m.extractLsb' start len = if b then BitVec.allOnes len else 0) :
    (w &&& ~~~m).extractLsb' start len = if b then 0 else w.extractLsb' start len := by
  rw [BitVec.extractLsb'_and, BitVec.extractLsb'_not_of_lt inside, mask]
  cases b <;> simp

theorem opField_and_not_mask (u : FieldUse) (w : Word) : opField (w &&& ~~~u.mask) = 0 :=
  extractLsb'_and_not_of_mask (b := true) (by decide) (opField_packWord _ _ _ _)

theorem nField_and_not_mask (u : FieldUse) (w : Word) : nField (w &&& ~~~u.mask) = if u.n then 0 else nField w :=
  extractLsb'_and_not_of_mask (by decide) (nField_packWord _ _ _ _)

theorem slotField_and_not_mask (u : FieldUse) (w : Word) :
    slotField (w &&& ~~~u.mask) = if u.slot then 0 else slotField w :=
  extractLsb'_and_not_of_mask (by decide) (slotField_packWord _ _ _ _)

theorem maxlenField_and_not_mask (u : FieldUse) (w : Word) :
    maxlenField (w &&& ~~~u.mask) = if u.maxlen then 0 else maxlenField w :=
  extractLsb'_and_not_of_mask (by decide) (maxlenField_packWord _ _ _ _)

theorem reservedBits_and_not_mask (u : FieldUse) (w : Word) : reservedBits (w &&& ~~~u.mask) = reservedBits w := by
  have apart : ~~~u.mask &&& 0xFF0C8000#32 = 0xFF0C8000#32 := by
    obtain ⟨n, slot, maxlen⟩ := u
    revert n slot maxlen
    decide
  rw [reservedBits, BitVec.and_assoc, apart, reservedBits]

/-- A word is clean when it has no bit outside the mask of its command's fields. -/
theorem fieldsClean_iff_mask : fieldsClean u w = true ↔ w &&& ~~~u.mask = 0 := by
  rw [fieldsClean_iff, eq_zero_iff_fields (w := w &&& _), opField_and_not_mask, reservedBits_and_not_mask,
    nField_and_not_mask, slotField_and_not_mask, maxlenField_and_not_mask]
  simp

/-! ### The opcode map and the decoder (R133, R135, R139) -/

theorem decodeWith_of_row (row : opcodeRow hasShrink w = some (u, i)) :
    decodeWith hasShrink w = if fieldsClean u w then .ok i else .error .reservedField := by
  rw [decodeWith, row]

theorem decodeWith_of_no_row (none : opcodeRow hasShrink w = none) :
    decodeWith hasShrink w = .error .illegalOpcode := by
  rw [decodeWith, none]

/-- A word that decodes has its command's row and sets no bit that the row does not use. -/
theorem opcodeRow_of_decode (h : decode w = .ok i) :
    ∃ u, opcodeRow Config.hasShrink w = some (u, i) ∧ fieldsClean u w = true := by
  rw [decode, decodeWith] at h
  split at h
  next => cases h
  next u j row =>
    split at h
    next clean =>
      cases h
      exact ⟨u, row, clean⟩
    next => cases h

/-- The row of a command's own word is the command's, and the word is clean. -/
theorem opcodeRow_encode (i : Instr) :
    ∃ u, opcodeRow Config.hasShrink (encode i) = some (u, i) ∧ fieldsClean u (encode i) = true := by
  cases i <;> simp [opcodeRow, encode, fieldsClean, Laws.Reserved.reserved_packWord]

/-- A row's command packs the row's opcode and the fields it uses, each other field 0. -/
theorem encode_of_opcodeRow (row : opcodeRow Config.hasShrink w = some (u, i)) :
    encode i = packWord (opField w) (if u.n then nField w else 0) (if u.slot then slotField w else 0)
      (if u.maxlen then maxlenField w else 0) := by
  have op : BitVec.ofNat 8 (opField w).toNat = opField w := BitVec.ofNat_toNat ..
  rw [opcodeRow] at row
  rw [← op]
  generalize (opField w).toNat = op at row
  split at row <;> cases row <;> rfl

/-- A field that a clean word's command does not use is 0, so the word is packed from the used ones. -/
theorem packWord_used_of_fieldsClean (clean : fieldsClean u w = true) :
    packWord (opField w) (if u.n then nField w else 0) (if u.slot then slotField w else 0)
      (if u.maxlen then maxlenField w else 0) = w := by
  obtain ⟨reserved, n, slot, maxlen⟩ := fieldsClean_iff.1 clean
  have used {k : Nat} {b : Bool} {x : BitVec k} (unused : b = false → x = 0) : (if b then x else 0) = x := by
    cases b with
    | false => exact (unused rfl).symm
    | true => rfl
  rw [used n, used slot, used maxlen, packWord_fields reserved]

theorem opcodeRow_eq_none_of_undefinedOp (undefined : Machine.undefinedOp (opField w).toNat = true) :
    opcodeRow hasShrink w = none := by
  rw [opcodeRow]
  generalize (opField w).toNat = op at undefined
  split
  case h_23 => rfl
  all_goals exact absurd undefined (by decide)

/-- An OP of the table has a row, which uses the bits that the table gives it. -/
theorem opcodeRow_of_mem_opcodeMasks {row : Nat × Word} (mem : row ∈ Machine.opcodeMasks)
    (op : (opField w).toNat = row.1) : ∃ u i, opcodeRow Config.hasShrink w = some (u, i) ∧ u.mask = row.2 := by
  rw [opcodeRow, op]
  fin_cases mem <;> exact ⟨_, _, rfl, rfl⟩

end Decoder

end Sys2Proof

namespace Sys2Proof.Machine

/-! ### The statements of the encoding (R130 to R139) -/

/-- R135: the listed ranges are the complement of the opcodes of the table. -/
theorem undefinedOp_iff (op : Nat) : undefinedOp op = true ↔ op ∉ opcodeMasks.map Prod.fst := by
  simp only [undefinedOp, opcodeMasks, Bool.or_eq_true, Bool.and_eq_true, decide_eq_true_eq, List.cons_append,
    List.nil_append, List.map_cons, List.map_nil, List.mem_cons, List.not_mem_nil, or_false]
  omega

/-- Settles O1: the word of a command has the command's row and sets no other bit. -/
theorem decodeEncodeRoundTrip : Obligations.DecodeEncodeRoundTrip := by
  intro i
  obtain ⟨u, row, clean⟩ := opcodeRow_encode i
  rw [decode, decodeWith_of_row row, if_pos clean]

/-- Settles O2: the fields that the row uses, the others 0, are the whole of a clean word. -/
theorem decodedWordIsItsEncoding : Obligations.DecodedWordIsItsEncoding := by
  intro w i h
  obtain ⟨u, row, clean⟩ := opcodeRow_of_decode h
  rw [encode_of_opcodeRow row, packWord_used_of_fieldsClean clean]

/-- R139: a word that is no command ends ILLEGAL with the cause of the check that it fails. -/
theorem step_issue_error {s : State} {w : Word} {e : DecodeError} (hs : s.ready) (h : decode w = .error e) :
    step (s.issue w) = .next (s.ended .illegal (decodeCause e)) := by
  obtain ⟨-, -, -, error, -⟩ := stepRunsTheDecodedCommand w s hs
  exact error e h

/-- Settles O4: an OP of the listed ranges has no row, so check 1 of R139 fails. -/
theorem undefinedOpcodeEndsIllegal : Obligations.UndefinedOpcodeEndsIllegal := by
  refine ⟨fun w s hs undefined => ?_, fun w shrinkOp => ?_, fun op _ => undefinedOp_iff op⟩
  · exact step_issue_error hs (decodeWith_of_no_row (opcodeRow_eq_none_of_undefinedOp undefined))
  · have none : opcodeRow false w = none := by
      rw [opcodeRow]
      obtain op | op := shrinkOp <;> rw [op] <;> rfl
    exact decodeWith_of_no_row none

/-- Settles O5: the row of a defined OP decides cleanness by the mask of its fields. -/
theorem reservedFieldEndsIllegal : Obligations.ReservedFieldEndsIllegal := by
  intro w s hs row mem op
  obtain ⟨u, i, hrow, mask⟩ := opcodeRow_of_mem_opcodeMasks mem op
  rw [← mask, ne_eq, ← fieldsClean_iff_mask]
  refine ⟨fun dirty => ?_, fun clean => ⟨i, ?_⟩⟩
  · exact step_issue_error hs ((decodeWith_of_row hrow).trans (if_neg dirty))
  · exact (decodeWith_of_row hrow).trans (if_pos clean)

/-- Settles O3: the words are fixed. -/
theorem wordsOfTheSpecDecode : Obligations.WordsOfTheSpecDecode := by
  unfold Obligations.WordsOfTheSpecDecode
  decide

end Sys2Proof.Machine

namespace Sys2Proof.Machine

/-! ### Fields in a bit string (R103, R176) -/

/-- The bits `f` from position `p` on are the given fields, one after the other, least-significant bit first. -/
def holdsFields (f : Nat → Bool) : Nat → List BitField → Prop
  | _, [] => True
  | p, x :: xs => (∀ k < x.width, f (p + k) = x.value.testBit k) ∧ holdsFields f (p + x.width) xs

theorem holdsFields_congr {f g : Nat → Bool} {p : Nat} {fs : List BitField}
    (same : ∀ q, p ≤ q → q < p + (fs.map BitField.width).sum → f q = g q) (h : holdsFields f p fs) :
    holdsFields g p fs := by
  induction fs generalizing p with
  | nil => trivial
  | cons x xs ih =>
    rw [List.map_cons, List.sum_cons] at same
    obtain ⟨first, rest⟩ := h
    exact ⟨fun k hk => (same _ (by omega) (by omega)).symm.trans (first k hk),
      ih (fun q hq hq' => same q (by omega) (by omega)) rest⟩

/-! ### Fields written (R164, R165) -/

theorem writeFields_cons_ok {f : BitField} {fs : List BitField} {c c' : WriteCursor} :
    writeFields (f :: fs) c = .ok c' ↔
      ceil8 (c.pos + f.width) ≤ c.cap ∧ writeFields fs (bwPushBits f.value f.width c) = .ok c' := by
  rw [writeFields]
  split
  · next e => simp [bwWrite_error.1 e]
  · next e => simp [bwWrite_ok.1 e]

theorem writeFields_pushed {fs : List BitField} {c c' : WriteCursor} (hb : c.bit < 8)
    (h : writeFields fs c = .ok c') : Pushed (fs.map BitField.width).sum c c' := by
  induction fs generalizing c with
  | nil =>
    cases h
    exact Pushed.refl hb
  | cons f fs ih =>
    have first := bwPushBits_pushed f.value f.width hb
    exact first.trans (ih first.bit (writeFields_cons_ok.1 h).2)

/-- R164: the bits written before stay, and the fields follow them. -/
theorem writeFields_bitAt {fs : List BitField} {c c' : WriteCursor} (m : Memory) (hb : c.bit < 8)
    (h : writeFields fs c = .ok c') :
    (∀ p < c.pos, c'.bitAt m p = c.bitAt m p) ∧ holdsFields (c'.bitAt m) c.pos fs := by
  induction fs generalizing c with
  | nil =>
    cases h
    exact ⟨fun _ _ => rfl, trivial⟩
  | cons f fs ih =>
    have first := bwPushBits_pushed f.value f.width hb
    obtain ⟨kept, field⟩ := bwPushBits_bitAt m f.value f.width hb
    obtain ⟨kept', fields⟩ := ih first.bit (writeFields_cons_ok.1 h).2
    rw [first.pos] at kept' fields
    exact ⟨fun p hp => (kept' p (by omega)).trans (kept p hp),
      fun k hk => (kept' _ (by omega)).trans (field k hk), fields⟩

/-- R165: committing the partial byte changes no bit already written. -/
theorem bwFlush_bitAt {c c' : WriteCursor} (m : Memory) (h : bwFlush c = .ok c') {p : Nat} (hp : p < c.pos)
    (hb : c.bit < 8) : c'.bitAt m p = c.bitAt m p := by
  rw [WriteCursor.pos] at hp
  rcases bwFlush_ok.1 h with ⟨_, rfl⟩ | ⟨_, _, rfl⟩
  · rfl
  · simp only [WriteCursor.bitAt, Memory.applyWrites]
    rw [if_pos (by omega)]
    split
    · rw [read_write_other _ (by omega)]
    · rw [show p / 8 = c.byte by omega, read_write_same, BitVec.testBit_toNat]

/-- R103: what a writer has committed is the stream of a reader of those bytes. -/
theorem streamBit_applyWrites (m : Memory) (c : WriteCursor) (byte bit : Nat) {p : Nat} (hp : p < 8 * c.byte) :
    streamBit (m.applyWrites c.writes) ⟨c.base, c.byte, byte, bit⟩ p = c.bitAt m p := by
  rw [streamBit, decide_eq_true hp, Bool.true_and, WriteCursor.bitAt, if_pos (by omega)]

/-! ### Fields read (R162) -/

/-- R162: a field of the stream is its value, cut to its width. -/
theorem brBits_mod_eq {m : Memory} {c : ReadCursor} {v n : Nat} (hn : n ≤ 64)
    (h : ∀ k < n, streamBit m c (c.pos + k) = v.testBit k) : brBits m c % 2 ^ n = v % 2 ^ n := by
  refine Nat.eq_of_testBit_eq fun k => ?_
  rw [Nat.testBit_mod_two_pow, Nat.testBit_mod_two_pow, brBits_testBit]
  by_cases hk : k < n
  · rw [h k hk, decide_eq_true (by omega : k < 64), Bool.true_and]
  · simp [hk]

/-- R162: a stream that holds the fields, with that many bits left, is read back as their values. -/
theorem readFields_of_holdsFields {m : Memory} {fs : List BitField} {c : ReadCursor}
    (narrow : ∀ f ∈ fs, f.width ≤ 64) (room : (fs.map BitField.width).sum ≤ c.remaining) (h : holdsFields (streamBit m c) c.pos fs) :
    readFields m (fs.map BitField.width) c = .ok (fs.map fun f => f.value % 2 ^ f.width) := by
  induction fs generalizing c with
  | nil => rfl
  | cons f fs ih =>
    rw [List.map_cons, List.sum_cons] at room
    rw [List.forall_mem_cons] at narrow
    obtain ⟨field, fields⟩ := h
    obtain ⟨c', adv⟩ : ∃ c', brAdvance f.width c = .ok c' := ⟨_, brAdvance_ok.2 ⟨by omega, rfl⟩⟩
    obtain ⟨pos, base, len, -⟩ := brAdvance_pos adv
    have read : brRead m f.width c = .ok (f.value % 2 ^ f.width, c') :=
      brRead_ok.2 ⟨(brBits_mod_eq narrow.1 field).symm, adv⟩
    have stream : streamBit m c' = streamBit m c := by
      funext p
      rw [streamBit, streamBit, base, len]
    rw [← stream, ← pos] at fields
    have left : (fs.map BitField.width).sum ≤ c'.remaining := by
      simp only [ReadCursor.remaining, len, pos] at room ⊢
      omega
    simp only [List.map_cons, readFields, read, ih narrow.2 left fields]

/-- Settles O25: the flushed bytes hold the fields, by induction on the fields as they are written, and reading them
takes each field in turn, by induction again. -/
theorem bitstreamRoundTrip : Obligations.BitstreamRoundTrip := by
  intro m base cap fs wr wr' narrow write flush
  have start : WriteCursor.InBuffer base cap ⟨base, cap, 0, 0, 0, []⟩ :=
    ⟨⟨by simp, by simp [ceil8, WriteCursor.pos], by simp⟩, rfl, rfl⟩
  have written := (writeFields_ends fs start).of_ok write
  have pushed := writeFields_pushed start.inside.bit write
  obtain ⟨-, fields⟩ := writeFields_bitAt m start.inside.bit write
  obtain ⟨inside, base_eq, cap_eq, bit, byte, -⟩ := bwFlush_inside flush written.inside
  have pos : wr.pos = (fs.map BitField.width).sum := pushed.pos.trans (Nat.zero_add _)
  rw [pos] at byte
  have room : (fs.map BitField.width).sum ≤ 8 * wr'.byte := ceil8_le.1 byte.ge
  rw [written.base_eq] at base_eq
  rw [written.cap_eq] at cap_eq
  subst base_eq cap_eq
  refine ⟨byte, bit, readFields_of_holdsFields narrow room ?_, fun a ha => inside_read_outside inside m ha⟩
  refine holdsFields_congr (fun p _ hp => ?_) fields
  have hp : p < (fs.map BitField.width).sum := hp.trans_eq (Nat.zero_add _)
  rw [streamBit_applyWrites m wr' _ _ (by omega), bwFlush_bitAt m flush (by omega) written.inside.bit]

end Sys2Proof.Machine

namespace Sys2Proof.Machine

/-! ### The checks before a bitstream command (R139, R107) -/

section Checks

variable {s t : State} {r : Region} {n : Nat} {o : Out}

theorem operandCheck_large (large : 64 < n) :
    (if Config.bitOpMax < n then s.illegal .badOperand else o) = .next (s.ended .illegal .badOperand) := if_pos large

theorem operandCheck_ok (small : n ≤ 64) : (if Config.bitOpMax < n then s.illegal .badOperand else o) = o :=
  if_neg (Nat.not_lt.2 small)

theorem paramCheck_wraps (wraps : ¬ r.base + r.size ≤ 4294967296) :
    (if !r.wellFormed then s.illegal .badParam else o) = .next (s.ended .illegal .badParam) := by
  have bad : r.wellFormed = false := Bool.eq_false_iff.2 fun good => wraps ((wellFormed_iff r).1 good)
  rw [bad]
  rfl

theorem paramCheck_fits (fits : r.base + r.size ≤ 4294967296) (plain : s.plainBuffers [r]) :
    (if !r.wellFormed then s.illegal .badParam else s.withBuffers [r] t) = .next t := by
  rw [(wellFormed_iff r).2 fits]
  exact withBuffers_plain plain

end Checks

/-- A word with no field but N (R130). -/
theorem packWord_op_n (op : BitVec 8) (n : BitVec 7) :
    packWord op n 0 0 = op.setWidth 32 ||| (n.setWidth 32 <<< 8) := by simp [packWord]

/-- A byte count one higher, as a register holds it (R44, R47). -/
theorem ofNat_toNat_add_one (x : Word) : BitVec.ofNat 32 (x.toNat + 1) = x + 1 := by simp [BitVec.ofNat_add]

/-! ### BR_INIT and BR_PEEK (R166, R167) -/

/-- Settles O14: behind the look at the buffer, BR_INIT is its assignments. -/
theorem brInitResult : Obligations.BrInitResult :=
  ⟨rfl, fun _ => ⟨fun wraps => paramCheck_wraps wraps, fun fits plain => paramCheck_fits fits plain⟩⟩

/-- Settles O15: the lookahead's bit k is the stream bit at `rpos + k`. -/
theorem brPeekResult : Obligations.BrPeekResult := by
  refine ⟨rfl, fun s => ⟨fun wraps => paramCheck_wraps wraps, fun fits plain => ?_⟩⟩
  refine ⟨BitVec.ofNat 64 (brBits s.mem s.readCursor), paramCheck_fits fits plain, fun k hk => ?_⟩
  rw [BitVec.getLsbD_ofNat, decide_eq_true hk, Bool.true_and, brBits_readCursor s k hk]

/-! ### BR_ADVANCE and BR_READ (R168, R169) -/

section Advance

variable {s : State} {n : BitVec 7}

/-- R161: with N bits left the advance on the registers moves the position by N. -/
theorem brAdvance_readCursor_of_le (room : n.toNat ≤ s.rrem) : ∃ rd, brAdvance n.toNat s.readCursor = .ok rd ∧
    8 * (BitVec.ofNat 32 rd.byte).toNat + (BitVec.ofNat 3 rd.bit).toNat = s.rpos + n.toNat := by
  have adv := (brAdvance_ok (c := s.readCursor)).2 ⟨room, rfl⟩
  exact ⟨_, adv, (setReadCursor_pos adv).1⟩

theorem brAdvance_readCursor_of_lt (short : s.rrem < n.toNat) :
    brAdvance n.toNat s.readCursor = .error .brOverrun := brAdvance_error.2 ⟨short, rfl⟩

/-- R162: bit k of the field latched by `br_read` is bit k of the lookahead, for the N lowest. -/
theorem field_getLsbD {k : Nat} (hk : k < 64) :
    (BitVec.ofNat 64 (brBits s.mem s.readCursor % 2 ^ n.toNat)).getLsbD k = (decide (k < n.toNat) && s.lookBit k) := by
  rw [BitVec.getLsbD_ofNat, decide_eq_true hk, Bool.true_and, Nat.testBit_mod_two_pow, brBits_readCursor s k hk]

variable (small : n.toNat ≤ 64) (fits : s.brFits) (plain : s.plainBuffers [s.brBuffer])
include small fits plain

theorem exec_brAdvance : exec (.brAdvance n) s = .next (match brAdvance n.toNat s.readCursor with
    | .error c => s.failPlain c
    | .ok rd => (s.setReadCursor rd).finishOk) :=
  (operandCheck_ok small).trans (paramCheck_fits fits plain)

theorem exec_brRead : exec (.brRead n) s = .next (match brAdvance n.toNat s.readCursor with
    | .error c => (s.latchLook (brBits s.mem s.readCursor % 2 ^ n.toNat)).failPlain c
    | .ok rd => ((s.latchLook (brBits s.mem s.readCursor % 2 ^ n.toNat)).setReadCursor rd).finishOk) :=
  (operandCheck_ok small).trans (paramCheck_fits fits plain)

end Advance

/-- Settles O16: the advance is `br_advance` on the registers, which wraps none of them. -/
theorem brAdvanceResult : Obligations.BrAdvanceResult := by
  refine fun n s => ⟨packWord_op_n 0x12 n, fun large => operandCheck_large large, fun small wraps => ?_,
    fun small fits plain => ⟨fun room => ?_, fun short => ?_⟩⟩
  · exact (operandCheck_ok small).trans (paramCheck_wraps wraps)
  · obtain ⟨rd, adv, pos⟩ := brAdvance_readCursor_of_le room
    refine ⟨_, _, ?_, pos⟩
    rw [exec_brAdvance small fits plain, adv]
    rfl
  · rw [exec_brAdvance small fits plain, brAdvance_readCursor_of_lt short]
    exact congrArg _ (failPlain_brOverrun s)

/-- Settles O17: the field is latched on both ends of the advance. -/
theorem brReadResult : Obligations.BrReadResult := by
  refine fun n s => ⟨packWord_op_n 0x13 n, fun large => operandCheck_large large, fun small wraps => ?_,
    fun small fits plain => ⟨_, fun k hk => field_getLsbD hk, fun room => ?_, fun short => ?_⟩⟩
  · exact (operandCheck_ok small).trans (paramCheck_wraps wraps)
  · obtain ⟨rd, adv, pos⟩ := brAdvance_readCursor_of_le room
    refine ⟨_, _, ?_, pos⟩
    rw [exec_brRead small fits plain, adv]
    rfl
  · rw [exec_brRead small fits plain, brAdvance_readCursor_of_lt short]
    exact congrArg _ (failPlain_brOverrun _)

/-! ### BR_ALIGN (R170) -/

theorem setReadCursor_brAlign_of_aligned {s : State} (h : s.brBit = 0) :
    s.setReadCursor (brAlign s.readCursor) = s := by
  have aligned : brAlign s.readCursor = s.readCursor := if_pos (congrArg BitVec.toNat h)
  rw [aligned, State.setReadCursor, State.readCursor, BitVec.ofNat_toNat, BitVec.ofNat_toNat]
  simp

theorem setReadCursor_brAlign_of_unaligned {s : State} (h : s.brBit ≠ 0) :
    s.setReadCursor (brAlign s.readCursor) = { s with brByte := s.brByte + 1, brBit := 0 } := by
  have unaligned : s.readCursor.bit ≠ 0 := fun e => h (BitVec.eq_of_toNat_eq e)
  rw [brAlign, if_neg unaligned, State.setReadCursor, State.readCursor, ofNat_toNat_add_one]
  rfl

/-- R163: from inside the buffer the next byte boundary is still inside, so BR_BYTE does not wrap. -/
theorem setReadCursor_brAlign_rpos {s : State} (inside : s.rpos ≤ 8 * s.brLen.toNat) :
    (s.setReadCursor (brAlign s.readCursor)).rpos = 8 * ceil8 s.rpos := by
  obtain ⟨pos, -, -, bit, stays⟩ := brAlign_pos (c := s.readCursor) s.brBit.isLt
  have stays : (brAlign s.readCursor).pos ≤ 8 * s.brLen.toNat := stays inside
  rw [← readCursor_pos s, ← pos]
  rw [ReadCursor.pos] at stays ⊢
  have := s.brLen.isLt
  rw [State.rpos, setReadCursor_brByte, setReadCursor_brBit, BitVec.toNat_ofNat, BitVec.toNat_ofNat,
    Nat.mod_eq_of_lt (by omega), Nat.mod_eq_of_lt bit]

/-- Settles O18: `br_align` on the registers, which wraps BR_BYTE only from outside the buffer. -/
theorem brAlignResult : Obligations.BrAlignResult := by
  refine ⟨rfl, fun s => ⟨fun wraps => paramCheck_wraps wraps, fun fits plain => ?_⟩⟩
  have run : exec .brAlign s = .next (s.setReadCursor (brAlign s.readCursor)).finishOk := paramCheck_fits fits plain
  refine ⟨fun aligned => ?_, fun unaligned => ?_, fun inside t h => ?_⟩
  · rw [run, setReadCursor_brAlign_of_aligned aligned]
    rfl
  · rw [run, setReadCursor_brAlign_of_unaligned unaligned]
    rfl
  · rw [run] at h
    cases h
    exact ⟨setReadCursor_brAlign_rpos inside, readerNeverPassesEnd .brAlign s _ inside run⟩

/-! ### BW_INIT and BW_WRITE (R171, R172) -/

/-- Settles O21: behind the look at the buffer, BW_INIT is its assignments. -/
theorem bwInitResult : Obligations.BwInitResult :=
  ⟨rfl, fun _ => ⟨fun wraps => paramCheck_wraps wraps, fun fits plain => paramCheck_fits fits plain⟩⟩

/-- A bit of the writer's registers is the bit of the cursor they were set from, if its byte count fits in BW_BYTE. -/
theorem setWriteCursor_writtenBit {s : State} {wr : WriteCursor} (base : wr.base = s.bwBase.toNat)
    (byte : wr.byte < 2 ^ 32) (p : Nat) : (s.setWriteCursor wr).writtenBit p = wr.bitAt s.mem p := by
  rw [State.writtenBit, State.memBit, WriteCursor.bitAt, setWriteCursor_bwByte, BitVec.toNat_ofNat,
    Nat.mod_eq_of_lt byte, base]
  rfl

theorem setWriteCursor_wpos {s : State} {wr : WriteCursor} (bit : wr.bit < 8) (byte : wr.byte < 2 ^ 32) :
    (s.setWriteCursor wr).wpos = wr.pos := by
  rw [State.wpos, setWriteCursor_bwByte, setWriteCursor_bwBit, BitVec.toNat_ofNat, BitVec.toNat_ofNat,
    Nat.mod_eq_of_lt byte, Nat.mod_eq_of_lt bit, WriteCursor.pos]

/-- R164: what BW_WRITE leaves when the N bits fit. -/
structure BitsAppended (s : State) (n : BitVec 7) (t : State) : Prop where
  wpos : t.wpos = s.wpos + n.toNat
  old : ∀ p < s.wpos, t.writtenBit p = s.writtenBit p
  new : ∀ k < n.toNat, t.writtenBit (s.wpos + k) = s.bwVal.getLsbD k
  acc : s.accOk = true → t.accOk = true
  frame : ∀ a, (a < s.bwBase.toNat + s.bwByte.toNat ∨ s.bwBase.toNat + (s.wpos + n.toNat) / 8 ≤ a) →
    t.mem.read a = s.mem.read a

theorem setWriteCursor_bitsAppended {s : State} {n : BitVec 7} {wr : WriteCursor}
    (write : bwWrite s.bwVal.toNat n.toNat s.writeCursor = .ok wr) : BitsAppended s n (s.setWriteCursor wr) := by
  have bit := writeCursor_bit_lt s
  obtain ⟨room, rfl⟩ := bwWrite_ok.1 write
  have pushed := bwPushBits_pushed s.bwVal.toNat n.toNat bit
  obtain ⟨old, new⟩ := bwPushBits_bitAt s.mem s.bwVal.toNat n.toNat bit
  have moved := bwWrite_moved bit write
  generalize bwPushBits s.bwVal.toNat n.toNat s.writeCursor = wr at *
  have pos : wr.pos = s.wpos + n.toNat := pushed.pos
  have room : s.wpos + n.toNat ≤ 8 * s.bwCap.toNat := ceil8_le.1 room
  have count : wr.byte = (s.wpos + n.toNat) / 8 := by
    have := pushed.bit
    rw [← pos, WriteCursor.pos]
    omega
  have byte : wr.byte < 2 ^ 32 := by
    have := s.bwCap.isLt
    omega
  refine ⟨(setWriteCursor_wpos pushed.bit byte).trans pos, fun p hp => ?_, fun k hk => ?_,
    setWriteCursor_accOk moved, fun a ha => setWriteCursor_read moved ?_⟩
  · exact (setWriteCursor_writtenBit pushed.base byte p).trans (old p hp)
  · exact (setWriteCursor_writtenBit pushed.base byte _).trans ((new k hk).trans (BitVec.testBit_toNat _))
  · rw [setWriteCursor_bwByte, BitVec.toNat_ofNat, Nat.mod_eq_of_lt byte, count]
    omega

/-- Settles O22: BW_WRITE is `bw_write` on the registers, which wraps none of them when the bits fit. -/
theorem bwWriteResult : Obligations.BwWriteResult := by
  refine fun n s => ⟨packWord_op_n 0x19 n, fun large => operandCheck_large large, fun small wraps => ?_,
    fun small fits plain => ?_⟩
  · exact (operandCheck_ok small).trans (paramCheck_wraps wraps)
  have run : exec (.bwWrite n) s = .next (s.onWriter (bwWrite s.bwVal.toNat n.toNat s.writeCursor)) :=
    (operandCheck_ok small).trans (paramCheck_fits fits plain)
  refine ⟨fun room => ?_, fun full => ?_⟩
  · have write := (bwWrite_ok (v := s.bwVal.toNat) (c := s.writeCursor)).2 ⟨room, rfl⟩
    rw [write] at run
    obtain ⟨wpos, old, new, acc, frame⟩ := setWriteCursor_bitsAppended write
    exact ⟨_, run, rfl, wpos, old, new, acc, frame⟩
  · rw [run, bwWrite_error.2 ⟨full, rfl⟩]
    exact congrArg _ (failPlain_bwOverflow s)

/-! ### BW_FLUSH (R173) -/

theorem setWriteCursor_writeCursor (s : State) : s.setWriteCursor s.writeCursor = s := by
  rw [State.setWriteCursor, State.writeCursor, BitVec.ofNat_toNat, BitVec.ofNat_toNat]
  simp [Memory.applyWrites]

/-- Settles O23: BW_FLUSH is `bw_flush` on the registers. -/
theorem bwFlushResult : Obligations.BwFlushResult := by
  refine ⟨rfl, fun s => ⟨fun wraps => paramCheck_wraps wraps, fun fits plain => ?_⟩⟩
  have run : exec .bwFlush s = .next (s.onWriter (bwFlush s.writeCursor)) := paramCheck_fits fits plain
  have partialByte (h : s.bwBit ≠ 0) : s.writeCursor.bit ≠ 0 := fun e => h (BitVec.eq_of_toNat_eq e)
  refine ⟨fun empty => ?_, fun pending room => ?_, fun pending full => ?_⟩
  · rw [run, bwFlush_ok.2 (.inl ⟨congrArg BitVec.toNat empty, rfl⟩), State.onWriter, setWriteCursor_writeCursor]
    rfl
  · rw [run, bwFlush_ok.2 (.inr ⟨partialByte pending, room, rfl⟩), State.onWriter, ← ofNat_toNat_add_one]
    rfl
  · rw [run, bwFlush_error.2 ⟨partialByte pending, full, rfl⟩]
    exact congrArg _ (failPlain_bwOverflow s)

end Sys2Proof.Machine

namespace Sys2Proof.Machine

/-! ### Canonical codewords (R201, R202) -/

/-- The codeword after the last one of length `l`. -/
def endCode (len : List Nat) (l : Nat) : Nat := firstCode len l + if l = 0 then 0 else len.count l

theorem firstCode_succ (len : List Nat) (l : Nat) : firstCode len (l + 1) = 2 * endCode len l := rfl

theorem endCode_succ (len : List Nat) (l : Nat) : endCode len (l + 1) = 2 * endCode len l + len.count (l + 1) := rfl

theorem endCode_nil (l : Nat) : endCode [] l = 0 := by
  induction l with
  | zero => rfl
  | succ l ih => rw [endCode_succ, ih, List.count_nil]

/-- One more length `x` moves the codewords of length `l` on by its share of them. -/
theorem endCode_cons (x : Nat) (len : List Nat) (l : Nat) :
    endCode (x :: len) l = endCode len l + if 0 < x ∧ x ≤ l then 2 ^ (l - x) else 0 := by
  induction l with
  | zero => rw [if_neg (by omega)]; rfl
  | succ l ih =>
    rw [endCode_succ, endCode_succ, ih, List.count_cons]
    simp only [beq_iff_eq]
    rcases Nat.lt_trichotomy x (l + 1) with hx | rfl | hx
    · have same : 0 < x ∧ x ≤ l + 1 ↔ 0 < x ∧ x ≤ l := by omega
      rw [if_neg (by omega : x ≠ l + 1), Nat.succ_sub (by omega), Nat.pow_succ]
      simp only [same]
      split <;> omega
    · simp; omega
    · rw [if_neg (by omega), if_neg (by omega), if_neg (by omega)]
      omega

/-- R201, R202: the codewords of the largest length end at the Kraft sum. -/
theorem endCode_eq_kraftSum {len : List Nat} {top : Nat} (h : ∀ l ∈ len, l ≤ top) :
    endCode len top = kraftSum top len := by
  induction len with
  | nil => exact endCode_nil top
  | cons x xs ih =>
    rw [List.forall_mem_cons] at h
    rw [endCode_cons, ih h.2, kraftSum, kraftSum, List.filter_cons]
    by_cases hx : 0 < x
    · rw [if_pos ⟨hx, h.1⟩, if_pos (decide_eq_true hx), List.map_cons, List.sum_cons, Nat.add_comm]
    · rw [if_neg (by omega), if_neg (by simpa using hx), Nat.add_zero]

/-- The codewords of a length start after the continuations of every shorter one. -/
theorem endCode_mul_le_firstCode (len : List Nat) {l l' : Nat} (h : l < l') :
    endCode len l * 2 ^ (l' - l) ≤ firstCode len l' := by
  induction l', h using Nat.le_induction with
  | base => rw [firstCode_succ, Nat.sub_eq_of_eq_add (Nat.add_comm l 1)]; omega
  | succ k hk ih =>
    have grows : firstCode len k ≤ endCode len k := Nat.le_add_right _ _
    rw [firstCode_succ, Nat.succ_sub (by omega), Nat.pow_succ]
    calc endCode len l * (2 ^ (k - l) * 2) = 2 * (endCode len l * 2 ^ (k - l)) := by ring
      _ ≤ 2 * endCode len k := Nat.mul_le_mul_left 2 (ih.trans grows)

theorem getD_set_eq {α : Type} {l : List α} {i j : Nat} {v d : α} (h : j < l.length) :
    (l.set i v).getD j d = if i = j then v else l.getD j d := by
  simp only [List.getD_eq_getElem?_getD, List.getElem?_set]
  split
  · next e => rw [if_pos (e ▸ h), Option.getD_some]
  · rfl

/-- R201: a codeword is the next free one of its length, past the symbols of that length before it. -/
theorem assignCodes_getD {len next : List Nat} {s : Nat} (used : 0 < len.getD s 0) (h : len.getD s 0 < next.length) :
    (assignCodes len next).getD s 0 = next.getD (len.getD s 0) 0 + (len.take s).count (len.getD s 0) := by
  induction len generalizing next s with
  | nil => simp at used
  | cons l ls ih =>
    cases s with
    | zero =>
      rw [List.getD_cons_zero] at used h ⊢
      rw [assignCodes, if_neg (by omega)]
      simp
    | succ s =>
      rw [List.getD_cons_succ] at used h ⊢
      rw [assignCodes, List.take_succ_cons, List.count_cons]
      simp only [beq_iff_eq]
      split
      · rw [List.getD_cons_succ, ih used h, if_neg (by omega), Nat.add_zero]
      · rw [List.getD_cons_succ, ih used (by rwa [List.length_set]), getD_set_eq h]
        split
        · next e => rw [← e]; omega
        · rfl

theorem getD_mem_of_pos {l : List Nat} {i : Nat} (h : 0 < l.getD i 0) : i < l.length ∧ l.getD i 0 ∈ l := by
  rw [List.getD_eq_getElem?_getD] at h ⊢
  cases e : l[i]? with
  | none => simp [e] at h
  | some x => exact ⟨(List.getElem?_eq_some_iff.1 e).1, List.mem_of_getElem? e⟩

/-- Symbols of a length that lie further on have more of that length before them. -/
theorem count_take_lt {l : List Nat} {i j : Nat} (hi : 0 < l.getD i 0) (hij : i < j) :
    (l.take i).count (l.getD i 0) < (l.take j).count (l.getD i 0) := by
  have inside := (getD_mem_of_pos hi).1
  have sub : (l.take (i + 1)).Sublist (l.take j) := List.take_sublist_take_left hij
  calc (l.take i).count (l.getD i 0) < (l.take (i + 1)).count (l.getD i 0) := by
        rw [List.take_succ_eq_append_getElem inside, List.count_append, List.getD_eq_getElem _ _ inside]
        simp
    _ ≤ (l.take j).count (l.getD i 0) := sub.count_le _

section Canonical

variable {len : List Nat} {s s' : Nat} (short : ∀ l ∈ len, l ≤ 15) (used : 0 < len.getD s 0)
include short used

/-- R201: a codeword is the first one of its length plus the number of earlier symbols of that length. -/
theorem hufCanon_getD :
    (hufCanon len).getD s 0 = firstCode len (len.getD s 0) + (len.take s).count (len.getD s 0) := by
  have hl : len.getD s 0 < 16 := Nat.lt_succ_of_le (short _ (getD_mem_of_pos used).2)
  rw [hufCanon, assignCodes_getD used (by simpa using hl), List.getD_eq_getElem _ _ (by simpa using hl),
    List.getElem_map, List.getElem_range]

theorem firstCode_le_hufCanon : firstCode len (len.getD s 0) ≤ (hufCanon len).getD s 0 :=
  (Nat.le_add_right _ _).trans_eq (hufCanon_getD short used).symm

theorem hufCanon_lt_endCode : (hufCanon len).getD s 0 < endCode len (len.getD s 0) := by
  have later := count_take_lt used (getD_mem_of_pos used).1
  rw [List.take_length] at later
  rw [hufCanon_getD short used, endCode, if_neg (by omega)]
  omega

/-- R201, R202: where the code is not oversubscribed, a codeword fits in its length. -/
theorem hufCanon_lt (kraft : kraftSum 15 len ≤ 2 ^ 15) : (hufCanon len).getD s 0 < 2 ^ len.getD s 0 := by
  have le15 := short _ (getD_mem_of_pos used).2
  have below := hufCanon_lt_endCode short used
  rw [← endCode_eq_kraftSum short] at kraft
  refine below.trans_le ?_
  rcases le15.eq_or_lt with e | lt
  · rwa [e]
  · have room : endCode len (len.getD s 0) * 2 ^ (15 - len.getD s 0) ≤ 2 ^ len.getD s 0 * 2 ^ (15 - len.getD s 0) := by
      rw [← Nat.pow_add, Nat.add_sub_cancel' le15]
      exact (endCode_mul_le_firstCode len lt).trans ((Nat.le_add_right _ _).trans kraft)
    exact Nat.le_of_mul_le_mul_right room (Nat.two_pow_pos _)

/-- R201: no codeword is the start of another symbol's. -/
theorem hufCanon_not_start (used' : 0 < len.getD s' 0) (ne : s ≠ s') (le : len.getD s 0 ≤ len.getD s' 0) :
    (hufCanon len).getD s' 0 / 2 ^ (len.getD s' 0 - len.getD s 0) ≠ (hufCanon len).getD s 0 := by
  rcases le.eq_or_lt with e | lt
  · rw [e, Nat.sub_self, Nat.pow_zero, Nat.div_one, hufCanon_getD short used, hufCanon_getD short used', e]
    rcases Nat.lt_or_gt_of_ne ne with before | after
    · have := count_take_lt used before
      rw [e] at this
      omega
    · have := count_take_lt used' after
      omega
  · refine Nat.ne_of_gt ((Nat.le_div_iff_mul_le (Nat.two_pow_pos _)).2 ?_)
    calc ((hufCanon len).getD s 0 + 1) * 2 ^ (len.getD s' 0 - len.getD s 0)
        ≤ endCode len (len.getD s 0) * 2 ^ (len.getD s' 0 - len.getD s 0) :=
          Nat.mul_le_mul_right _ (hufCanon_lt_endCode short used)
      _ ≤ firstCode len (len.getD s' 0) := endCode_mul_le_firstCode len lt
      _ ≤ (hufCanon len).getD s' 0 := firstCode_le_hufCanon short used'

end Canonical

/-! ### Reversed codewords (R11, R203) -/

/-- A reversed codeword starts with the reversal of the codeword's own start. -/
theorem bitrev_mod (c : Nat) {n k : Nat} (h : k ≤ n) : bitrev c n % 2 ^ k = bitrev (c / 2 ^ (n - k)) k := by
  refine Nat.eq_of_testBit_eq fun j => ?_
  rw [Nat.testBit_mod_two_pow, bitrev_testBit, bitrev_testBit, Nat.testBit_div_two_pow]
  by_cases hj : j < k
  · rw [decide_eq_true hj, decide_eq_true (by omega : j < n), show n - 1 - j = n - k + (k - 1 - j) by omega]
    simp [Nat.add_comm]
  · simp [hj]

theorem bitrev_bitrev {c n : Nat} (h : c < 2 ^ n) : bitrev (bitrev c n) n = c := by
  refine Nat.eq_of_testBit_eq fun j => ?_
  rw [bitrev_testBit, bitrev_testBit]
  by_cases hj : j < n
  · rw [decide_eq_true hj, decide_eq_true (by omega : n - 1 - j < n), show n - 1 - (n - 1 - j) = j by omega]
    simp
  · have high : c < 2 ^ j := h.trans_le (Nat.pow_le_pow_right (by decide) (Nat.le_of_not_lt hj))
    rw [Nat.testBit_lt_two_pow high, decide_eq_false hj, Bool.false_and]

/-- The window `w` starts with the codeword of symbol `s`, in a code of lengths `len` and codewords `code` (R203). -/
def StartsWith (len code : List Nat) (w s : Nat) : Prop :=
  0 < len.getD s 0 ∧ w % 2 ^ len.getD s 0 = bitrev (code.getD s 0) (len.getD s 0)

/-- R201, R203: a window starts with the codeword of one symbol at most. -/
theorem startsWith_unique {len : List Nat} {s s' w : Nat} (short : ∀ l ∈ len, l ≤ 15)
    (kraft : kraftSum 15 len ≤ 2 ^ 15) (h : StartsWith len (hufCanon len) w s)
    (h' : StartsWith len (hufCanon len) w s') : s = s' := by
  wlog le : len.getD s 0 ≤ len.getD s' 0 generalizing s s'
  · exact (this h' h (by omega)).symm
  obtain ⟨used, starts⟩ := h
  obtain ⟨used', starts'⟩ := h'
  by_contra ne
  refine hufCanon_not_start short used used' ne le ?_
  have fits := hufCanon_lt short used kraft
  have cut : (hufCanon len).getD s' 0 / 2 ^ (len.getD s' 0 - len.getD s 0) < 2 ^ len.getD s 0 := by
    refine Nat.div_lt_of_lt_mul ?_
    rw [← Nat.pow_add, Nat.sub_add_cancel le]
    exact hufCanon_lt short used' kraft
  rw [← bitrev_bitrev cut, ← bitrev_mod _ le, ← starts', Nat.mod_mod_of_dvd _ (Nat.pow_dvd_pow 2 le), starts,
    bitrev_bitrev fits]

/-! ### The decode table (R203, R204) -/

/-- R203: the entry of a reversed codeword `r` is at the indices that start with it. -/
theorem fillEntries_getD {r l h i : Nat} {e : HufEntry} {t : List (Option HufEntry)} (hr : r < 2 ^ l)
    (hi : i < t.length) : (fillEntries r l e h t).getD i none =
      if i % 2 ^ l = r ∧ i / 2 ^ l < h then some e else t.getD i none := by
  induction h with
  | zero => rw [if_neg fun hi => Nat.not_lt_zero _ hi.2]; rfl
  | succ h ih =>
    have index : r ||| h <<< l = 2 ^ l * h + r := by
      rw [Nat.or_comm, Nat.shiftLeft_eq, Nat.mul_comm, Nat.two_pow_add_eq_or_of_lt hr]
    have at_index : 2 ^ l * h + r = i ↔ i % 2 ^ l = r ∧ i / 2 ^ l = h := by
      constructor
      · rintro rfl
        exact ⟨by rw [Nat.mul_add_mod, Nat.mod_eq_of_lt hr],
          by rw [Nat.mul_add_div (by omega), Nat.div_eq_of_lt hr, Nat.add_zero]⟩
      · rintro ⟨rfl, rfl⟩
        exact Nat.div_add_mod i (2 ^ l)
    rw [fillEntries, index, getD_set_eq (by rwa [fillEntries_length]), ih]
    by_cases start : i % 2 ^ l = r
    · simp only [at_index, start, true_and]
      rcases Nat.lt_trichotomy (i / 2 ^ l) h with lt | eq | gt
      · rw [if_neg (Nat.ne_of_lt lt), if_pos lt, if_pos (by omega)]
      · rw [if_pos eq, if_pos (by omega)]
      · rw [if_neg (Nat.ne_of_gt gt), if_neg (by omega), if_neg (by omega)]
    · simp only [at_index, start, false_and, if_false]

theorem fillTable_getD_of_not_startsWith {maxl s i : Nat} {ls cs : List Nat} {t : List (Option HufEntry)}
    (hi : i < t.length) (none_starts : ∀ k, ¬ StartsWith ls cs i k) :
    (fillTable maxl s ls cs t).getD i none = t.getD i none := by
  induction ls generalizing s cs t with
  | nil => simp [fillTable]
  | cons l ls ih =>
    cases cs with
    | nil => simp [fillTable]
    | cons c cs =>
      have rest : ∀ k, ¬ StartsWith ls cs i k := fun k => none_starts (k + 1)
      rw [fillTable]
      split
      · exact ih hi rest
      · next hl =>
        rw [ih (by rwa [fillEntries_length]) rest, fillEntries_getD (bitrev_lt c l) hi, if_neg]
        exact fun h => none_starts 0 ⟨Nat.pos_of_ne_zero hl, h.1⟩

/-- R203: where an index starts with the codeword of one symbol only, the table holds that symbol. -/
theorem fillTable_getD {maxl s i k : Nat} {ls cs : List Nat} {t : List (Option HufEntry)}
    (same : cs.length = ls.length) (size : t.length = 2 ^ maxl) (hi : i < 2 ^ maxl) (starts : StartsWith ls cs i k)
    (only : ∀ j, StartsWith ls cs i j → j = k) (fits : ls.getD k 0 ≤ maxl) :
    (fillTable maxl s ls cs t).getD i none = some ⟨s + k, ls.getD k 0⟩ := by
  induction ls generalizing s cs t k with
  | nil => exact absurd starts.1 (by simp)
  | cons l ls ih =>
    obtain ⟨c, cs, rfl⟩ := List.exists_cons_of_length_eq_add_one same
    have size' : (if l = 0 then t else fillEntries (bitrev c l) l ⟨s, l⟩ (2 ^ (maxl - l)) t).length = 2 ^ maxl := by
      split
      · exact size
      · rw [fillEntries_length, size]
    rw [fillTable]
    cases k with
    | zero =>
      obtain ⟨used, starts⟩ := starts
      rw [List.getD_cons_zero] at used starts fits
      have room : i / 2 ^ l < 2 ^ (maxl - l) := by
        refine Nat.div_lt_of_lt_mul ?_
        rwa [← Nat.pow_add, Nat.add_sub_cancel' fits]
      rw [fillTable_getD_of_not_startsWith (by rwa [size']) fun k h => absurd (only (k + 1) h) (by omega),
        if_neg (by omega), fillEntries_getD (bitrev_lt c l) (by rwa [size]), if_pos ⟨starts, room⟩]
      rfl
    | succ k =>
      rw [ih (by simpa using same) size' starts (fun j h => by simpa using only (j + 1) h) fits]
      rw [Nat.add_assoc, Nat.add_comm 1 k]
      rfl

/-- R204: a window that starts with a codeword is looked up as its symbol. -/
theorem hufLookup_of_startsWith {len : List Nat} {w s : Nat} (short : ∀ l ∈ len, l ≤ 15)
    (kraft : kraftSum 15 len ≤ 2 ^ 15) (starts : StartsWith len (hufCanon len) w s) :
    hufLookup (hufInstall len) w = some ⟨s, len.getD s 0⟩ := by
  have cut {k : Nat} (hk : 0 < len.getD k 0) : w % 2 ^ maxLen len % 2 ^ len.getD k 0 = w % 2 ^ len.getD k 0 :=
    Nat.mod_mod_of_dvd _ (Nat.pow_dvd_pow 2 (le_maxLen (getD_mem_of_pos hk).2))
  have same {k : Nat} : StartsWith len (hufCanon len) (w % 2 ^ maxLen len) k ↔ StartsWith len (hufCanon len) w k :=
    and_congr_right fun hk => by rw [cut hk]
  have entry := fillTable_getD (s := 0) (t := List.replicate (2 ^ maxLen len) none) (hufCanon_length len)
    List.length_replicate (Nat.mod_lt w (Nat.two_pow_pos _)) (same.2 starts)
    (fun j h => startsWith_unique short kraft (same.1 h) starts) (le_maxLen (getD_mem_of_pos starts.1).2)
  rwa [Nat.zero_add] at entry

/-- R202: a code with a codeword that passes the check is not oversubscribed. -/
theorem kraftSum_le_of_hufCheck_none {policy : IncompletePolicy} {len : List Nat} {s : Nat}
    (h : hufCheck policy len = none) (used : 0 < len.getD s 0) : kraftSum 15 len ≤ 2 ^ 15 := by
  have some_used : (len.filter fun l => decide (0 < l)).length ≠ 0 := by
    rw [Ne, List.length_eq_zero_iff, List.filter_eq_nil_iff]
    exact fun none_used => none_used _ (getD_mem_of_pos used).2 (decide_eq_true used)
  rw [hufCheck] at h
  dsimp only at h
  rw [if_neg some_used] at h
  split at h
  · cases h
  · split at h
    · cases h
    · next le => exact Nat.le_of_not_lt le

/-- R165: a flush commits every bit written. -/
theorem bwFlush_covers {c c' : WriteCursor} (h : bwFlush c = .ok c') (hb : c.bit < 8) :
    c'.base = c.base ∧ c.pos ≤ 8 * c'.byte := by
  rcases bwFlush_ok.1 h with ⟨_, rfl⟩ | ⟨_, _, rfl⟩
  · exact ⟨rfl, by rw [WriteCursor.pos]; omega⟩
  · exact ⟨rfl, by rw [WriteCursor.pos]; dsimp only; omega⟩

/-- R164, R165: bits written and flushed are the stream of a reader that starts where the writer did. -/
theorem streamBit_of_bwWrite_bwFlush {v n : Nat} {c c1 c2 : WriteCursor} (m : Memory) (hb : c.bit < 8)
    (write : bwWrite v n c = .ok c1) (flush : bwFlush c1 = .ok c2) {k : Nat} (hk : k < n) :
    streamBit (m.applyWrites c2.writes) ⟨c.base, c2.byte, c.byte, c.bit⟩ (c.pos + k) = v.testBit k := by
  obtain ⟨_, rfl⟩ := bwWrite_ok.1 write
  have pushed := bwPushBits_pushed v n hb
  obtain ⟨base, covers⟩ := bwFlush_covers flush pushed.bit
  rw [pushed.pos] at covers
  rw [← pushed.base, ← base, streamBit_applyWrites m c2 _ _ (by omega),
    bwFlush_bitAt m flush (by rw [pushed.pos]; omega) pushed.bit]
  exact (bwPushBits_bitAt m v n hb).2 k hk

/-- Settles O33: the flushed bytes start with the symbol's codeword, no other codeword starts them, so the table holds
the symbol there. -/
theorem canonicalCodeRoundTrip : Obligations.CanonicalCodeRoundTrip := by
  intro len sym m wr wr1 wr2 _ check used bit put flush
  have short := le_of_hufCheck_none check
  have kraft := kraftSum_le_of_hufCheck_none check used
  have le15 := short _ (getD_mem_of_pos used).2
  have write : bwWrite (bitrev ((hufCanon len).getD sym 0) (len.getD sym 0)) (len.getD sym 0) wr = .ok wr1 := put
  have window : brBits (m.applyWrites wr2.writes) ⟨wr.base, wr2.byte, wr.byte, wr.bit⟩ % 2 ^ len.getD sym 0 =
      bitrev ((hufCanon len).getD sym 0) (len.getD sym 0) := by
    rw [brBits_mod_eq (by omega) fun k hk => streamBit_of_bwWrite_bwFlush m bit write flush hk,
      Nat.mod_eq_of_lt (bitrev_lt _ _)]
  have lookup := hufLookup_of_startsWith short kraft ⟨used, window⟩
  have pushed : Pushed (len.getD sym 0) wr wr1 := (bwWrite_ok.1 write).2 ▸ bwPushBits_pushed _ _ bit
  have room : len.getD sym 0 ≤ ReadCursor.remaining ⟨wr.base, wr2.byte, wr.byte, wr.bit⟩ := by
    have covers := (bwFlush_covers flush pushed.bit).2
    rw [pushed.pos] at covers
    simp only [ReadCursor.remaining, ReadCursor.pos, WriteCursor.pos] at covers ⊢
    omega
  have adv := brAdvance_ok.2 ⟨room, rfl⟩
  refine ⟨_, ?_, (brAdvance_pos adv).1⟩
  rw [hufGet, lookup]
  simp only [adv]

end Sys2Proof.Machine

namespace Sys2Proof.Machine

/-! ### The order of package-merge (R200) -/

section Order

variable {x y z : PmItem}

theorem before_iff : x.before y = true ↔
    x.weight < y.weight ∨ x.weight = y.weight ∧ (x.kind < y.kind ∨ x.kind = y.kind ∧ x.idx ≤ y.idx) := by
  simp [PmItem.before]

theorem before_of_le (weight : x.weight ≤ y.weight) (kind : x.kind ≤ y.kind) (idx : x.idx ≤ y.idx) :
    x.before y = true := by
  rw [before_iff]
  omega

theorem weight_le_of_before (h : x.before y = true) : x.weight ≤ y.weight := by
  rw [before_iff] at h
  omega

theorem before_total (x y : PmItem) : x.before y = true ∨ y.before x = true := by
  simp only [before_iff]
  omega

theorem before_trans (h : x.before y = true) (h' : y.before z = true) : x.before z = true := by
  rw [before_iff] at *
  omega

end Order

/-- A list in the order of R200's tie-breaks. -/
abbrev PmSorted (l : List PmItem) : Prop := l.Pairwise fun x y => x.before y = true

theorem pmInsert_sorted (x : PmItem) {l : List PmItem} (h : PmSorted l) : PmSorted (pmInsert x l) := by
  induction l with
  | nil => exact List.pairwise_singleton _ _
  | cons y ys ih =>
    obtain ⟨first, rest⟩ := List.pairwise_cons.1 h
    rw [pmInsert]
    split
    · next xy =>
      refine List.pairwise_cons.2 ⟨fun z hz => ?_, h⟩
      rcases List.mem_cons.1 hz with rfl | hz
      · exact xy
      · exact before_trans xy (first z hz)
    · next xy =>
      refine List.pairwise_cons.2 ⟨fun z hz => ?_, ih rest⟩
      rcases List.mem_cons.1 ((pmInsert_perm x ys).mem_iff.1 hz) with rfl | hz
      · exact (before_total y z).resolve_right xy
      · exact first z hz

theorem pmSort_sorted (l : List PmItem) : PmSorted (pmSort l) := by
  induction l with
  | nil => exact List.Pairwise.nil
  | cons x xs ih => exact pmInsert_sorted x ih

theorem pmSort_of_sorted {l : List PmItem} (h : PmSorted l) : pmSort l = l := by
  induction l with
  | nil => rfl
  | cons x xs ih =>
    obtain ⟨first, rest⟩ := List.pairwise_cons.1 h
    rw [pmSort, ih rest]
    cases xs with
    | nil => rfl
    | cons y ys => rw [pmInsert, if_pos (first y List.mem_cons_self)]

theorem pmSort_length (l : List PmItem) : (pmSort l).length = l.length := (pmSort_perm l).length_eq

/-! ### The first items of a merge are the first of each part -/

theorem take_pmInsert (x : PmItem) (l : List PmItem) {n : Nat} (hn : n ≤ l.length + 1) :
    (n ≤ l.length ∧ (pmInsert x l).take n = l.take n ∧ ∀ y ∈ l.take n, ¬ x.before y = true) ∨
      ∃ k, n = k + 1 ∧ ((pmInsert x l).take n).Perm (x :: l.take k) := by
  induction l generalizing n with
  | nil =>
    cases n with
    | zero => exact .inl (by simp)
    | succ k => exact .inr ⟨k, rfl, by simp [pmInsert]⟩
  | cons y ys ih =>
    cases n with
    | zero => exact .inl (by simp)
    | succ k =>
      rw [pmInsert]
      split
      · exact .inr ⟨k, rfl, .refl _⟩
      · next xy =>
        rcases ih (n := k) (by simpa using hn) with ⟨hk, same, none_after⟩ | ⟨j, rfl, perm⟩
        · refine .inl ⟨by simpa using hk, by simp [same], ?_⟩
          rw [List.take_succ_cons, List.forall_mem_cons]
          exact ⟨xy, none_after⟩
        · exact .inr ⟨j + 1, rfl, (perm.cons y).trans (.swap x y _)⟩

theorem take_pmSort_append {as bs : List PmItem} (ha : PmSorted as) (hb : PmSorted bs) {n : Nat}
    (hn : n ≤ as.length + bs.length) : ∃ a p, a + p = n ∧ a ≤ as.length ∧ p ≤ bs.length ∧
      ((pmSort (as ++ bs)).take n).Perm (as.take a ++ bs.take p) := by
  induction as generalizing n with
  | nil => exact ⟨0, n, Nat.zero_add n, Nat.le_refl 0, by simpa using hn, by simp [pmSort_of_sorted hb]⟩
  | cons x xs ih =>
    obtain ⟨first, rest⟩ := List.pairwise_cons.1 ha
    have size : (pmSort (xs ++ bs)).length = xs.length + bs.length := by rw [pmSort_length, List.length_append]
    rw [List.length_cons] at hn
    rcases take_pmInsert x (pmSort (xs ++ bs)) (n := n) (by omega) with ⟨le, same, none_after⟩ | ⟨k, rfl, perm⟩
    · obtain ⟨a, p, sum, ha', hp, perm⟩ := ih rest (n := n) (by omega)
      have empty : xs.take a = [] := by
        refine List.eq_nil_iff_forall_not_mem.2 fun y hy => ?_
        exact none_after y (perm.mem_iff.2 (List.mem_append_left _ hy)) (first y (List.mem_of_mem_take hy))
      have zero : a = 0 := by
        have := congrArg List.length empty
        rw [List.length_take, List.length_nil] at this
        omega
      subst zero
      exact ⟨0, p, sum, Nat.zero_le _, hp, by rw [List.cons_append, pmSort, same]; exact perm⟩
    · obtain ⟨a, p, sum, ha', hp, perm'⟩ := ih rest (n := k) (by omega)
      exact ⟨a + 1, p, by omega, by simpa using ha', hp, perm.trans (perm'.cons x)⟩

/-- What is left of a merge is what is left of its parts. -/
theorem perm_drop_of_perm_take {l as bs : List PmItem} {n a p : Nat} (all : l.Perm (as ++ bs))
    (h : (l.take n).Perm (as.take a ++ bs.take p)) : (l.drop n).Perm (as.drop a ++ bs.drop p) := by
  refine List.perm_iff_count.2 fun x => ?_
  have cut (l : List PmItem) (k : Nat) : l.count x = (l.take k).count x + (l.drop k).count x := by
    rw [← List.count_append, List.take_append_drop]
  have all := all.count_eq x
  have taken := h.count_eq x
  rw [List.count_append] at all taken ⊢
  have := cut l n
  have := cut as a
  have := cut bs p
  omega

/-! ### Packages (R200) -/

/-- What a package is made of. -/
theorem mem_pmPair {k : Nat} {l : List PmItem} {q : PmItem} (hq : q ∈ pmPair k l) :
    q.kind = 1 ∧ k ≤ q.idx ∧ ∃ c ∈ l, ∃ d ∈ l, q.weight = c.weight + d.weight ∧ q.syms = c.syms ++ d.syms := by
  fun_induction pmPair k l with
  | case1 k a b rest ih =>
    rcases List.mem_cons.1 hq with rfl | hq
    · exact ⟨rfl, Nat.le_refl k, a, by simp, b, by simp, rfl, rfl⟩
    · obtain ⟨kind, idx, c, hc, d, hd, h⟩ := ih hq
      exact ⟨kind, by omega, c, by simp [hc], d, by simp [hd], h⟩
  | case2 => cases hq

theorem pmPair_sorted {l : List PmItem} (k : Nat) (h : PmSorted l) : PmSorted (pmPair k l) := by
  fun_induction pmPair k l with
  | case1 k a b rest ih =>
    obtain ⟨ha, h⟩ := List.pairwise_cons.1 h
    obtain ⟨hb, hrest⟩ := List.pairwise_cons.1 h
    refine List.pairwise_cons.2 ⟨fun q hq => ?_, ih hrest⟩
    obtain ⟨kind, idx, c, hc, d, hd, weight, -⟩ := mem_pmPair hq
    have hac := weight_le_of_before (ha c (List.mem_cons_of_mem _ hc))
    have hbd := weight_le_of_before (hb d hd)
    exact before_of_le (by rw [weight]; exact Nat.add_le_add hac hbd) kind.ge (by dsimp only; omega)
  | case2 => exact List.Pairwise.nil

theorem pmPair_length (k : Nat) (l : List PmItem) : (pmPair k l).length = l.length / 2 := by
  fun_induction pmPair k l with
  | case1 k a b rest ih => simp only [List.length_cons, ih]; omega
  | case2 l k h =>
    match l, h with
    | [], _ => rfl
    | [_], _ => simp
    | a :: b :: rest, h => exact absurd rfl (h a b rest)

theorem take_pmPair (k p : Nat) (l : List PmItem) : (pmPair k l).take p = pmPair k (l.take (2 * p)) := by
  induction p generalizing k l with
  | zero => simp [pmPair]
  | succ p ih =>
    match l with
    | [] => rfl
    | [_] => rfl
    | a :: b :: rest => simp [pmPair, Nat.mul_succ, ih]

section Even

variable {l : List PmItem} {p : Nat} (even : l.length = 2 * p)
include even

/-- Of an even list no item is dropped. -/
theorem pmCount_pmPair (s k : Nat) : pmCount s (pmPair k l) = pmCount s l := by
  induction p generalizing k l with
  | zero => rw [List.eq_nil_of_length_eq_zero even]; rfl
  | succ p ih =>
    match l, even with
    | a :: b :: rest, even =>
      rw [pmPair, pmCount_cons, pmCount_cons, pmCount_cons, ih (by simpa [Nat.mul_succ] using even), List.count_append,
        Nat.add_assoc]

/-- Of an even list every item is in a package at least as heavy. -/
theorem exists_package {x : PmItem} (hx : x ∈ l) (k : Nat) : ∃ q ∈ pmPair k l, x.weight ≤ q.weight := by
  induction p generalizing k l with
  | zero => rw [List.eq_nil_of_length_eq_zero even] at hx; cases hx
  | succ p ih =>
    match l, even with
    | a :: b :: rest, even =>
      rw [List.mem_cons, List.mem_cons, ← or_assoc] at hx
      rcases hx with hx | hx
      · refine ⟨_, List.mem_cons_self, ?_⟩
        rcases hx with rfl | rfl
        · exact Nat.le_add_right _ _
        · exact Nat.le_add_left _ _
      · obtain ⟨q, hq, le⟩ := ih (by simpa [Nat.mul_succ] using even) hx (k + 1)
        exact ⟨q, List.mem_cons_of_mem _ hq, le⟩

end Even

/-! ### The levels of package-merge (R200) -/

/-- The list after `r` mergings: R200's `l` from the empty list, so that level 1 is the leaves. -/
def pmLevel (leaves : List PmItem) : Nat → List PmItem
  | 0 => []
  | r + 1 => pmSort (leaves ++ pmPair 0 (pmLevel leaves r))

theorem pmRounds_pmLevel (leaves : List PmItem) (r k : Nat) :
    pmRounds leaves r (pmLevel leaves k) = pmLevel leaves (k + r) := by
  induction r generalizing k with
  | zero => rfl
  | succ r ih => rw [pmRounds, ← Nat.succ_add_eq_add_succ]; exact ih (k + 1)

theorem pmLevel_sorted (leaves : List PmItem) (r : Nat) : PmSorted (pmLevel leaves r) := by
  cases r with
  | zero => exact List.Pairwise.nil
  | succ r => exact pmSort_sorted _

/-- A level falls short of two items per leaf by a share that halves with every merging. -/
theorem le_pmLevel_length {leaves : List PmItem} {r e : Nat} (h : 2 * leaves.length ≤ e * 2 ^ r) :
    2 * leaves.length ≤ (pmLevel leaves r).length + e := by
  induction r generalizing e with
  | zero => simpa [pmLevel] using h
  | succ r ih =>
    have half := ih (e := 2 * e) (by rw [Nat.pow_succ] at h; linarith)
    rw [pmLevel, pmSort_length, List.length_append, pmPair_length]
    omega

/-- What the leaves of R200 are: sorted, each of one symbol with its frequency, no symbol twice. -/
structure PmLeaves (freq : Nat → Nat) (leaves : List PmItem) : Prop where
  sorted : PmSorted leaves
  leaf : ∀ x ∈ leaves, x.kind = 0 ∧ ∃ s, x.syms = [s] ∧ x.weight = freq s
  nodup : (leaves.flatMap PmItem.syms).Nodup

/-- `Σ 2^(top - length)` over the symbols `syms`, where a symbol's length is how often `chosen` counts it (R200). -/
def pmKraft (top : Nat) (chosen : List PmItem) (syms : List Nat) : Nat :=
  (syms.map fun s => 2 ^ (top - pmCount s chosen)).sum

theorem pmKraft_append (top : Nat) (chosen : List PmItem) (l l' : List Nat) :
    pmKraft top chosen (l ++ l') = pmKraft top chosen l + pmKraft top chosen l' := by
  rw [pmKraft, List.map_append, List.sum_append]
  rfl

/-- Symbols that are not counted take the whole of the code each. -/
theorem pmKraft_of_not_counted {top : Nat} {chosen : List PmItem} {l : List Nat} (h : ∀ s ∈ l, pmCount s chosen = 0) :
    pmKraft top chosen l = l.length * 2 ^ top := by
  rw [pmKraft, List.map_congr_left (g := fun _ => 2 ^ top) fun s hs => by rw [h s hs, Nat.sub_zero]]
  simp

section Levels

variable {freq : Nat → Nat} {leaves : List PmItem} (h : PmLeaves freq leaves)
include h

theorem pmLevel_one : pmLevel leaves 1 = leaves := by
  rw [pmLevel, pmLevel, pmPair, List.append_nil, pmSort_of_sorted h.sorted]
  simp

/-- An item weighs at least as much as each symbol it counts. -/
theorem freq_le_weight {r s : Nat} {y : PmItem} (hy : y ∈ pmLevel leaves r) (hs : s ∈ y.syms) : freq s ≤ y.weight := by
  induction r generalizing y with
  | zero => cases hy
  | succ r ih =>
    rw [pmLevel, (pmSort_perm _).mem_iff, List.mem_append] at hy
    rcases hy with hy | hy
    · obtain ⟨-, s', syms, weight⟩ := h.leaf y hy
      rw [syms, List.mem_singleton] at hs
      exact (hs ▸ weight).ge
    · obtain ⟨-, -, c, hc, d, hd, weight, syms⟩ := mem_pmPair hy
      rw [syms, List.mem_append] at hs
      rcases hs with hs | hs
      · have := ih hc hs; omega
      · have := ih hd hs; omega

/-- The first items of a level are the first leaves and packages of the first items of the level below, and a symbol
that those count has its leaf among the first leaves. -/
theorem take_pmLevel_succ {r n : Nat} (hn : n ≤ (pmLevel leaves (r + 1)).length) :
    ∃ a p, a + p = n ∧ a ≤ leaves.length ∧ 2 * p ≤ (pmLevel leaves r).length ∧
      (∀ s, pmCount s ((pmLevel leaves (r + 1)).take n) =
        pmCount s (leaves.take a) + pmCount s ((pmLevel leaves r).take (2 * p))) ∧
      ∀ s ∈ (leaves.drop a).flatMap PmItem.syms, pmCount s ((pmLevel leaves r).take (2 * p)) = 0 := by
  rw [pmLevel, pmSort_length, List.length_append] at hn
  obtain ⟨a, p, sum, ha, hp, perm⟩ := take_pmSort_append h.sorted (pmPair_sorted 0 (pmLevel_sorted leaves r)) hn
  rw [pmPair_length] at hp
  have even : ((pmLevel leaves r).take (2 * p)).length = 2 * p := by rw [List.length_take]; omega
  have rest : ((pmLevel leaves (r + 1)).drop n).Perm (leaves.drop a ++ (pmPair 0 (pmLevel leaves r)).drop p) := by
    exact perm_drop_of_perm_take (pmSort_perm _) perm
  refine ⟨a, p, sum, ha, by omega, fun s => ?_, fun s hs => ?_⟩
  · rw [pmLevel, pmCount, (perm.flatMap_right _).count_eq, ← pmCount, pmCount_append, take_pmPair, pmCount_pmPair even]
  · by_contra counted
    obtain ⟨y, hy, hsy⟩ := List.mem_flatMap.1 (List.count_pos_iff.1 (Nat.pos_of_ne_zero counted))
    obtain ⟨q, hq, heavy⟩ := exists_package even hy 0
    obtain ⟨x, hx, hsx⟩ := List.mem_flatMap.1 hs
    have light := freq_le_weight h (List.mem_of_mem_take hy) hsy
    obtain ⟨kind, s', syms, weight⟩ := h.leaf x (List.mem_of_mem_drop hx)
    have kind' := (mem_pmPair hq).1
    rw [← take_pmPair] at hq
    have sorted := pmLevel_sorted leaves (r + 1)
    rw [← List.take_append_drop n (pmLevel leaves (r + 1)), PmSorted, List.pairwise_append] at sorted
    have := sorted.2.2 q (perm.mem_iff.2 (List.mem_append_right _ hq)) x (rest.mem_iff.2 (List.mem_append_left _ hx))
    rw [syms, List.mem_singleton] at hsx
    rw [before_iff] at this
    subst hsx
    omega

/-- The first leaves have a symbol each. -/
theorem take_flatMap_syms_length {a : Nat} (ha : a ≤ leaves.length) :
    ((leaves.take a).flatMap PmItem.syms).length = a := by
  have single : (leaves.take a).map (fun x => x.syms.length) = (leaves.take a).map fun _ => 1 :=
    List.map_congr_left fun x hx => by
      obtain ⟨-, s, syms, -⟩ := h.leaf x (List.mem_of_mem_take hx)
      rw [syms, List.length_singleton]
  rw [List.length_flatMap, single]
  simpa using ha

/-- R200, R202: the first `n` items of level `r` leave a code that falls short of `2^r` per symbol by half of `2^r` per
item. By induction on the level: a symbol with its leaf among the first counts once more than on the level below, the
other symbols count nowhere. -/
theorem pmKraft_take_pmLevel {r n : Nat} (hn : n ≤ (pmLevel leaves r).length) :
    2 * pmKraft r ((pmLevel leaves r).take n) (leaves.flatMap PmItem.syms) + n * 2 ^ r =
      2 * ((leaves.flatMap PmItem.syms).length * 2 ^ r) := by
  induction r generalizing n with
  | zero =>
    rw [Nat.eq_zero_of_le_zero hn, pmKraft_of_not_counted fun s _ => rfl, Nat.zero_mul, Nat.add_zero]
  | succ r ih =>
    obtain ⟨a, p, rfl, ha, hp, count, unpicked⟩ := take_pmLevel_succ h hn
    have below := ih hp
    have symbols : leaves.flatMap PmItem.syms =
        (leaves.take a).flatMap PmItem.syms ++ (leaves.drop a).flatMap PmItem.syms := by
      rw [← List.flatMap_append, List.take_append_drop]
    have nodup := h.nodup
    rw [symbols, List.nodup_append] at nodup
    obtain ⟨once, -, apart⟩ := nodup
    have picked : pmKraft (r + 1) ((pmLevel leaves (r + 1)).take (a + p)) ((leaves.take a).flatMap PmItem.syms) =
        pmKraft r ((pmLevel leaves r).take (2 * p)) ((leaves.take a).flatMap PmItem.syms) := by
      refine congrArg List.sum (List.map_congr_left fun s hs => ?_)
      rw [count, pmCount, List.count_eq_one_of_mem once hs, Nat.add_comm 1, Nat.add_sub_add_right]
    have others : ∀ s ∈ (leaves.drop a).flatMap PmItem.syms,
        pmCount s ((pmLevel leaves (r + 1)).take (a + p)) = 0 := fun s hs => by
      rw [count, unpicked s hs, Nat.add_zero, pmCount, List.count_eq_zero]
      exact fun hs' => apart s hs' s hs rfl
    rw [symbols, pmKraft_append, List.length_append, take_flatMap_syms_length h ha] at below ⊢
    rw [picked, pmKraft_of_not_counted others, Nat.pow_succ]
    rw [pmKraft_of_not_counted unpicked] at below
    linarith

end Levels

/-! ### The leaves of a frequency list (R200) -/

section Lengths

variable {freq : List Nat} {limit s : Nat}

/-- The symbols of nonzero frequency. -/
def usedList (freq : List Nat) : List Nat := (List.range freq.length).filter fun s => decide (0 < freq.getD s 0)

theorem mem_usedList : s ∈ usedList freq ↔ 0 < freq.getD s 0 := by
  rw [usedList, List.mem_filter, List.mem_range, decide_eq_true_iff]
  exact ⟨And.right, fun h => ⟨(getD_mem_of_pos h).1, h⟩⟩

theorem usedList_nodup : (usedList freq).Nodup := List.nodup_range.filter _

theorem zipIdx_eq_map_range (freq : List Nat) :
    freq.zipIdx = (List.range freq.length).map fun s => (freq.getD s 0, s) := by
  refine List.ext_getElem (by simp) fun s hs _ => ?_
  simp [List.getElem?_eq_getElem (List.length_zipIdx ▸ hs)]

theorem usedList_length : (usedList freq).length = usedSymbols freq := by
  have values : freq = (List.range freq.length).map fun s => freq.getD s 0 := by
    conv_lhs => rw [← List.zipIdx_map_fst 0 freq, zipIdx_eq_map_range, List.map_map]
    rfl
  rw [usedSymbols]
  conv_rhs => rw [values, List.filter_map, List.length_map]
  rfl

/-- The used symbols as items, in R200's order. -/
theorem pmUsed_eq (freq : List Nat) :
    pmUsed freq = pmSort ((usedList freq).map fun s => ⟨freq.getD s 0, 0, s, [s]⟩) := by
  rw [pmUsed, zipIdx_eq_map_range, List.filter_map, List.map_map]
  rfl

theorem pmLeaves_length : (pmLeaves freq).length = usedSymbols freq := by
  rw [pmLeaves, List.length_map, List.length_zipIdx, pmUsed_eq, pmSort_length, List.length_map, usedList_length]

/-- The leaves' symbols are the used ones. -/
theorem pmLeaves_syms_perm (freq : List Nat) : ((pmLeaves freq).flatMap PmItem.syms).Perm (usedList freq) := by
  have unnumbered : (pmLeaves freq).flatMap PmItem.syms = (pmUsed freq).flatMap PmItem.syms := by
    conv_rhs => rw [← List.zipIdx_map_fst 0 (pmUsed freq), List.flatMap_map]
    rw [pmLeaves, List.flatMap_map]
  rw [unnumbered, pmUsed_eq]
  refine ((pmSort_perm _).flatMap_right _).trans ?_
  rw [List.flatMap_map]
  simp

theorem pmLeaves_pmLeaves (freq : List Nat) : PmLeaves (fun s => freq.getD s 0) (pmLeaves freq) := by
  have used {x : PmItem} (hx : x ∈ pmUsed freq) : x.kind = 0 ∧ ∃ s, x.syms = [s] ∧ x.weight = freq.getD s 0 := by
    rw [pmUsed_eq, (pmSort_perm _).mem_iff] at hx
    obtain ⟨s, -, rfl⟩ := List.mem_map.1 hx
    exact ⟨rfl, s, rfl, rfl⟩
  have sorted : PmSorted (pmUsed freq) := pmSort_sorted _
  refine ⟨?_, fun x hx => ?_, (pmLeaves_syms_perm freq).nodup_iff.2 usedList_nodup⟩
  · rw [pmLeaves]
    generalize pmUsed freq = l at used sorted
    rw [PmSorted, List.pairwise_iff_getElem] at sorted ⊢
    intro i j hi hj lt
    simp only [List.length_map, List.length_zipIdx] at hi hj
    have weight := weight_le_of_before (sorted i j hi hj lt)
    have kinds := (used (List.getElem_mem hi)).1.trans (used (List.getElem_mem hj)).1.symm
    simp only [List.getElem_map, List.getElem_zipIdx]
    exact before_of_le weight kinds.le (by dsimp only; omega)
  · obtain ⟨⟨y, j⟩, mem, rfl⟩ := List.mem_map.1 hx
    exact used (x := y) (List.fst_mem_of_mem_zipIdx mem)

theorem pmCount_pmLeaves_eq_zero (unused : ¬ 0 < freq.getD s 0) : pmCount s (pmLeaves freq) = 0 := by
  rw [pmCount, List.count_eq_zero, (pmLeaves_syms_perm freq).mem_iff, mem_usedList]
  exact unused

/-! ### The lengths are a complete code (R200, R202) -/

/-- The items that R200 selects, each of whose symbols gets one bit. -/
def pmChosen (freq : List Nat) (limit : Nat) : List PmItem :=
  (pmLevel (pmLeaves freq) limit).take (2 * (usedSymbols freq - 1))

theorem hufLengths_of_two_le (two : 2 ≤ usedSymbols freq) (hl : 1 ≤ limit) :
    hufLengths freq limit = (List.range freq.length).map fun s => pmCount s (pmChosen freq limit) := by
  have rounds := pmRounds_pmLevel (pmLeaves freq) (limit - 1) 1
  rw [pmLevel_one (pmLeaves_pmLeaves freq), Nat.add_sub_cancel' hl] at rounds
  rw [pmChosen, ← pmLeaves_length, ← rounds]
  rw [← pmLeaves_length] at two
  unfold hufLengths
  dsimp only
  split
  · next no_leaf => rw [no_leaf] at two; simp at two
  · next one_leaf => rw [one_leaf] at two; simp at two
  · rfl

theorem hufLengths_of_le_one (one : usedSymbols freq ≤ 1) :
    hufLengths freq limit = (List.range freq.length).map fun s => if 0 < freq.getD s 0 then 1 else 0 := by
  have used := fun s => ((pmLeaves_syms_perm freq).mem_iff (a := s)).trans mem_usedList
  rw [← pmLeaves_length] at one
  unfold hufLengths
  dsimp only
  split
  · next no_leaf =>
    simp only [no_leaf, List.flatMap_nil, List.not_mem_nil, false_iff] at used
    simp only [used, if_false, List.map_const', List.length_range]
  · next x one_leaf =>
    simp only [one_leaf, List.flatMap_singleton] at used
    simp only [List.contains_iff_mem, used]
  · next l no_leaf one_leaf =>
    match h : pmLeaves freq, one with
    | [], _ => exact absurd h no_leaf
    | [x], _ => exact absurd h (one_leaf x)

/-- R200: an unused symbol is in no item. -/
theorem pmCount_pmChosen_eq_zero (unused : ¬ 0 < freq.getD s 0) : pmCount s (pmChosen freq limit) = 0 := by
  have all := pmCount_rounds_le s (pmLeaves freq) limit (pmLevel (pmLeaves freq) 0)
  rw [pmCount_pmLeaves_eq_zero unused, pmRounds_pmLevel, Nat.zero_add] at all
  have part := ((List.take_sublist (2 * (usedSymbols freq - 1)) (pmLevel (pmLeaves freq) limit)).flatMap
    PmItem.syms).count_le s
  exact Nat.eq_zero_of_le_zero (part.trans (all.trans_eq (by rw [Nat.mul_zero]; rfl)))

section Complete

variable (two : 2 ≤ usedSymbols freq) (room : usedSymbols freq ≤ 2 ^ limit)
include two room

/-- R200, R202: the lengths of two or more used symbols make a complete code. -/
theorem pmKraft_pmChosen : pmKraft limit (pmChosen freq limit) (usedList freq) = 2 ^ limit := by
  have enough : 2 * (usedSymbols freq - 1) ≤ (pmLevel (pmLeaves freq) limit).length := by
    have := le_pmLevel_length (leaves := pmLeaves freq) (r := limit) (e := 2) (by rw [pmLeaves_length]; omega)
    rw [pmLeaves_length] at this
    omega
  have kraft := pmKraft_take_pmLevel (pmLeaves_pmLeaves freq) enough
  have perm := pmLeaves_syms_perm freq
  rw [perm.length_eq, usedList_length, pmKraft, (perm.map _).sum_eq] at kraft
  obtain ⟨m, hm⟩ : ∃ m, usedSymbols freq = m + 1 := ⟨usedSymbols freq - 1, by omega⟩
  rw [hm] at kraft
  rw [pmKraft, pmChosen, hm]
  simp only [Nat.add_sub_cancel] at kraft ⊢
  linarith

/-- R200, R202: a used symbol has a length, because 0 would take the whole of the code. -/
theorem pmCount_pmChosen_pos (used : 0 < freq.getD s 0) : 0 < pmCount s (pmChosen freq limit) := by
  by_contra zero
  have others := List.perm_cons_erase (mem_usedList.2 used)
  have kraft := pmKraft_pmChosen two room
  have size := others.length_eq
  rw [usedList_length, List.length_cons] at size
  rw [pmKraft, (others.map _).sum_eq, List.map_cons, List.sum_cons, Nat.eq_zero_of_not_pos zero, Nat.sub_zero] at kraft
  have each := List.length_le_sum_of_one_le
    (((usedList freq).erase s).map fun s => 2 ^ (limit - pmCount s (pmChosen freq limit)))
    (by simp [Nat.one_le_two_pow])
  rw [List.length_map] at each
  omega

end Complete

theorem getD_map_range (g : Nat → Nat) {n k : Nat} (hk : k < n) : ((List.range n).map g).getD k 0 = g k := by
  simp [List.getD_eq_getElem?_getD, hk]

/-- R200: a symbol has a length exactly if it is used. -/
theorem hufLengths_pos_iff (hl : 1 ≤ limit) (room : usedSymbols freq ≤ 2 ^ limit) :
    0 < (hufLengths freq limit).getD s 0 ↔ 0 < freq.getD s 0 := by
  by_cases inside : s < freq.length
  · rcases Nat.lt_or_ge (usedSymbols freq) 2 with one | two
    · rw [hufLengths_of_le_one (by omega), getD_map_range _ inside]
      split
      · next used => exact iff_of_true Nat.one_pos used
      · next unused => exact iff_of_false (Nat.lt_irrefl 0) unused
    · rw [hufLengths_of_two_le two hl, getD_map_range _ inside]
      refine ⟨fun counted => ?_, fun used => pmCount_pmChosen_pos two room used⟩
      by_contra unused
      rw [pmCount_pmChosen_eq_zero unused] at counted
      exact absurd counted (Nat.lt_irrefl 0)
  · have outside (l : List Nat) (h : l.length = freq.length) : ¬ 0 < l.getD s 0 :=
      fun pos => inside (h ▸ (getD_mem_of_pos pos).1)
    exact iff_of_false (outside _ (hufLengths_length freq limit)) (outside _ rfl)

/-- R202: the Kraft sum of the lengths is that of the counts of the used symbols. -/
theorem kraftSum_hufLengths (two : 2 ≤ usedSymbols freq) (hl : 1 ≤ limit) (room : usedSymbols freq ≤ 2 ^ limit) :
    kraftSum limit (hufLengths freq limit) = pmKraft limit (pmChosen freq limit) (usedList freq) := by
  have used : (List.range freq.length).filter (fun s => decide (0 < pmCount s (pmChosen freq limit))) =
      usedList freq := by
    refine List.filter_congr fun s hs => decide_eq_decide.2 ?_
    rw [← hufLengths_pos_iff hl room, hufLengths_of_two_le two hl, getD_map_range _ (List.mem_range.1 hs)]
  rw [kraftSum, hufLengths_of_two_le two hl, List.filter_map, List.map_map, pmKraft, ← used]
  rfl

end Lengths

/-- Settles O34: the items selected make a complete code, so no used symbol is left without a length. -/
theorem codeLengthsAreComplete : Obligations.CodeLengthsAreComplete := by
  intro freq limit hl _ room
  refine ⟨hufLengths_length freq limit, fun s unused => ?_, fun s used => ?_, fun one s used => ?_, fun two => ?_⟩
  · have := hufLengths_pos_iff (s := s) hl room
    omega
  · have pos := (hufLengths_pos_iff hl room).2 used
    have bound := hufLengths_le (getD_mem_of_pos pos).2
    omega
  · rw [hufLengths_of_le_one one.le, getD_map_range _ (getD_mem_of_pos used).1, if_pos used]
  · rw [kraftSum_hufLengths two hl room, pmKraft_pmChosen two room]

end Sys2Proof.Machine

namespace Sys2Proof.Machine

/-! ### The checks before a Huffman command (R139, R107) -/

theorem paramCheck_ok {s : State} {r : Region} {o : Out} (fits : r.base + r.size ≤ 4294967296) :
    (if !r.wellFormed then s.illegal .badParam else o) = o := by
  rw [(wellFormed_iff r).2 fits]
  rfl

theorem slot_setSlot_same (s : State) (k : BitVec 2) (code : HufCode) : (s.setSlot k code).slot k = some code :=
  Vector.getElem_set_self (by omega)

/-- A word with no field but SLOT (R130). -/
theorem packWord_op_slot (op : BitVec 8) (k : BitVec 2) :
    packWord op 0 k 0 = op.setWidth 32 ||| (k.setWidth 32 <<< 16) := by simp [packWord]

/-! ### HUF_LOAD_FIXED (R209, R283) -/

/-- Settles O28: the two codes are fixed, and installing one is all the command does. -/
theorem hufLoadFixedResult : Obligations.HufLoadFixedResult := by
  refine ⟨fun n k s => ⟨by simp [encode, packWord], fun large => if_pos large, fun small => ?_⟩, ?_, ?_, ?_, ?_⟩
  · have zero : n.toNat = 0 ↔ n = 0 := by rw [BitVec.toNat_eq]; rfl
    have run : exec (.hufLoadFixed n k) s =
        .next (s.setSlot k (hufInstall (if n = 0 then fixedLit else fixedDist))).finishOk := by
      simp only [← zero]
      exact if_neg (Nat.not_lt.2 small)
    exact ⟨_, run, rfl, slot_setSlot_same s k _, fun j ne => slot_setSlot_of_ne s _ ne⟩
  · decide +kernel
  · decide
  · decide +kernel
  · decide

/-! ### HUF_DECODE and HUF_READ_SYM (R210, R211) -/

section Lookup

variable {s : State} {k : BitVec 2} {code : HufCode} {e : HufEntry} {w : Nat}

/-- R160: the window is the lookahead of the reader's registers. -/
theorem isWindow_eq (h : s.isWindow w) : w = brBits s.mem s.readCursor := by
  obtain ⟨lt, bits⟩ := h
  refine Nat.eq_of_testBit_eq fun j => ?_
  by_cases hj : j < 64
  · rw [bits j hj, brBits_readCursor s j hj]
  · have high : 2 ^ 64 ≤ 2 ^ j := Nat.pow_le_pow_right (by decide) (Nat.le_of_not_lt hj)
    rw [Nat.testBit_lt_two_pow (lt.trans_le high), Nat.testBit_lt_two_pow ((brBits_lt _ _).trans_le high)]

theorem ok_of_slot (hs : s.slotsOk = true) (built : s.slot k = some code) : code.ok = true := by
  rw [State.slotsOk, List.all_eq_true] at hs
  exact hs (some code) (built ▸ Vector.mem_toList_iff.2 (Vector.getElem_mem _))

theorem maxLen_le {len : List Nat} {top : Nat} (h : ∀ l ∈ len, l ≤ top) : maxLen len ≤ top :=
  List.foldlRecOn (motive := (· ≤ top)) len max (Nat.zero_le top) fun _ ha l hl => Nat.max_le.2 ⟨ha, h l hl⟩

/-- R55: an entry found in a code within its bounds has a symbol of 9 bits and a length of 4. -/
theorem hufLookup_lt (ok : code.ok = true) (found : hufLookup code w = some e) : e.sym < 2 ^ 9 ∧ e.len < 2 ^ 4 := by
  simp only [HufCode.ok, Config.hufMaxSyms, Config.hufMaxLen, Bool.and_eq_true, decide_eq_true_eq,
    List.all_eq_true] at ok
  obtain ⟨⟨⟨⟨⟨⟨size, -⟩, -⟩, short⟩, maxl⟩, -⟩, entries⟩ := ok
  have mem : some e ∈ code.table := by
    rw [hufLookup, List.getD_eq_getElem?_getD] at found
    cases at_index : code.table[w % 2 ^ code.maxl]? with
    | none => simp [at_index] at found
    | some o =>
      rw [at_index, Option.getD_some] at found
      exact found ▸ List.mem_of_getElem? at_index
  have entry := entries _ mem
  simp only [HufCode.entryOk, Bool.and_eq_true, decide_eq_true_eq] at entry
  have := maxLen_le short
  omega

/-- R50: HUF_RES for an entry, in 32-bit words. -/
theorem hufResWord_some (sym : e.sym < 2 ^ 9) (len : e.len < 2 ^ 4) : hufResWord (some e) =
    (1 <<< 31) ||| (BitVec.ofNat 32 e.len <<< 16) ||| BitVec.ofNat 32 e.sym := by
  rw [hufResWord, BitVec.setWidth_ofNat_of_le_of_lt (by decide) sym, BitVec.setWidth_ofNat_of_le_of_lt (by decide) len]
  rfl

variable (fits : s.brFits)
include fits

theorem exec_hufDecode_none (none : s.slot k = none) :
    exec (.hufDecode k) s = .next (s.ended .illegal .slotNotBuilt) :=
  (paramCheck_ok fits).trans (by rw [none]; rfl)

theorem exec_hufReadSym_none (none : s.slot k = none) :
    exec (.hufReadSym k) s = .next (s.ended .illegal .slotNotBuilt) :=
  (paramCheck_ok fits).trans (by rw [none]; rfl)

variable (plain : s.plainBuffers [s.brBuffer]) (built : s.slot k = some code)
include plain built

theorem exec_hufDecode (window : s.isWindow w) :
    exec (.hufDecode k) s = .next { s with hufRes := hufResWord (hufLookup code w) }.finishOk := by
  rw [isWindow_eq window]
  refine (paramCheck_ok fits).trans ?_
  rw [built]
  exact withBuffers_plain plain

theorem exec_hufReadSym_invalid (window : s.isWindow w) (invalid : hufLookup code w = none) :
    exec (.hufReadSym k) s = .next ({ s with hufRes := 0 }.ended .format .hufInvalidCode) := by
  rw [isWindow_eq window] at invalid
  refine (paramCheck_ok fits).trans ?_
  rw [built]
  refine (withBuffers_plain plain).trans ?_
  simp only [invalid]
  exact congrArg _ (failPlain_other _ (by decide) (by decide))

theorem exec_hufReadSym_ok {rd : ReadCursor} (window : s.isWindow w) (found : hufLookup code w = some e)
    (adv : brAdvance e.len s.readCursor = .ok rd) :
    exec (.hufReadSym k) s = .next ({ s with hufRes := hufResWord (some e) }.setReadCursor rd).finishOk := by
  rw [isWindow_eq window] at found
  refine (paramCheck_ok fits).trans ?_
  rw [built]
  refine (withBuffers_plain plain).trans ?_
  simp only [found, adv]

theorem exec_hufReadSym_overrun (window : s.isWindow w) (found : hufLookup code w = some e) (short : s.rrem < e.len) :
    exec (.hufReadSym k) s = .next ({ s with
      hufRes := hufResWord (some e), status := { s.status with brFail := true } }.ended .format .brOverrun) := by
  have adv := brAdvance_error.2 ⟨(readCursor_remaining s).trans_lt short, rfl⟩
  rw [isWindow_eq window] at found
  refine (paramCheck_ok fits).trans ?_
  rw [built]
  refine (withBuffers_plain plain).trans ?_
  simp only [found, adv]
  exact congrArg _ (failPlain_brOverrun _)

end Lookup

/-- Settles O30: the window's entry goes to HUF_RES, whatever it is. -/
theorem hufDecodeResult : Obligations.HufDecodeResult := by
  refine fun k s hs => ⟨packWord_op_slot 0x22 k, fun wraps => paramCheck_wraps wraps, fun fits none =>
    exec_hufDecode_none fits none, fun fits plain code w built window => ⟨fun invalid => ?_, fun e found => ?_⟩⟩
  · rw [exec_hufDecode fits plain built window, invalid]
    rfl
  · obtain ⟨sym, len⟩ := hufLookup_lt (ok_of_slot hs built) found
    rw [exec_hufDecode fits plain built window, found, hufResWord_some sym len]
    rfl

/-- Settles O31: a valid entry is an advance by its length on the registers, which wraps none of them. -/
theorem hufReadSymResult : Obligations.HufReadSymResult := by
  refine fun k s hs => ⟨packWord_op_slot 0x23 k, fun wraps => paramCheck_wraps wraps, fun fits none =>
    exec_hufReadSym_none fits none, fun fits plain code w built window => ⟨fun invalid =>
      exec_hufReadSym_invalid fits plain built window invalid, fun e found room => ?_, fun e found short => ?_⟩⟩
  · obtain ⟨sym, len⟩ := hufLookup_lt (ok_of_slot hs built) found
    have adv := (brAdvance_ok (c := s.readCursor)).2 ⟨room, rfl⟩
    refine ⟨_, _, ?_, (setReadCursor_pos adv).1⟩
    rw [exec_hufReadSym_ok fits plain built window found adv, ← hufResWord_some sym len]
    rfl
  · obtain ⟨sym, len⟩ := hufLookup_lt (ok_of_slot hs built) found
    rw [exec_hufReadSym_overrun fits plain built window found short, hufResWord_some sym len]

/-! ### HUF_WRITE_SYM (R212) -/

/-- R164: the bits that a `bw_write` on the registers appends, and those it keeps. -/
theorem setWriteCursor_appends {s : State} {v n : Nat} {wr : WriteCursor}
    (write : bwWrite v n s.writeCursor = .ok wr) : (s.setWriteCursor wr).wpos = s.wpos + n ∧
      (∀ p < s.wpos, (s.setWriteCursor wr).writtenBit p = s.writtenBit p) ∧
      ∀ j < n, (s.setWriteCursor wr).writtenBit (s.wpos + j) = v.testBit j := by
  have bit := writeCursor_bit_lt s
  obtain ⟨room, rfl⟩ := bwWrite_ok.1 write
  have pushed := bwPushBits_pushed v n bit
  obtain ⟨old, new⟩ := bwPushBits_bitAt s.mem v n bit
  generalize bwPushBits v n s.writeCursor = wr at *
  have pos : wr.pos = s.wpos + n := pushed.pos
  have byte : wr.byte < 2 ^ 32 := by
    have room : s.wpos + n ≤ 8 * s.bwCap.toNat := ceil8_le.1 room
    have := s.bwCap.isLt
    rw [WriteCursor.pos] at pos
    omega
  have bits := setWriteCursor_writtenBit (s := s) pushed.base byte
  exact ⟨(setWriteCursor_wpos pushed.bit byte).trans pos, fun p hp => (bits p).trans (old p hp),
    fun j hj => (bits _).trans (new j hj)⟩

section WriteSym

variable {s : State} {k : BitVec 2} {code : HufCode} (fits : s.bwFits) (built : s.slot k = some code)
include fits built

theorem exec_hufWriteSym_badOperand (bad : code.n ≤ s.hufSym.toNat ∨ code.len.getD s.hufSym.toNat 0 = 0) :
    exec (.hufWriteSym k) s = .next (s.ended .illegal .badOperand) := by
  refine (paramCheck_ok fits).trans ?_
  rw [built]
  exact if_pos (by simpa using bad)

theorem exec_hufWriteSym (plain : s.plainBuffers [s.bwBuffer]) (sym : s.hufSym.toNat < code.n)
    (used : 0 < code.len.getD s.hufSym.toNat 0) :
    exec (.hufWriteSym k) s = .next (s.onWriter (hufPut code s.hufSym.toNat s.writeCursor)) := by
  refine (paramCheck_ok fits).trans ?_
  rw [built]
  refine (if_neg ?_).trans (withBuffers_plain plain)
  rw [Bool.or_eq_true, decide_eq_true_iff, beq_iff_eq]
  omega

end WriteSym

/-- Settles O32: the codeword is written reversed, so its most-significant bit comes first. -/
theorem hufWriteSymResult : Obligations.HufWriteSymResult := by
  refine fun k s => ⟨packWord_op_slot 0x24 k, fun wraps => paramCheck_wraps wraps, fun fits none =>
    (paramCheck_ok fits).trans (by rw [none]; rfl), fun fits code built => ⟨fun bad =>
      exec_hufWriteSym_badOperand fits built bad, fun sym l len used plain => ?_⟩⟩
  subst len
  have run := exec_hufWriteSym fits built plain sym used
  refine ⟨fun room => ?_, fun full => ?_⟩
  · have put := (bwWrite_ok (v := bitrev (code.code.getD s.hufSym.toNat 0) (code.len.getD s.hufSym.toNat 0))
      (c := s.writeCursor)).2 ⟨room, rfl⟩
    rw [hufPut, put] at run
    obtain ⟨wpos, old, new⟩ := setWriteCursor_appends put
    refine ⟨_, run, rfl, wpos, old, fun j hj => (new j hj).trans ?_⟩
    rw [bitrev_testBit, decide_eq_true hj, Bool.true_and]
  · rw [run, hufPut, bwWrite_error.2 ⟨full, rfl⟩]
    exact congrArg _ (failPlain_bwOverflow s)

/-! ### HUF_BUILD_DEC (R208, R434) -/

/-- R434 item 2: a buffer command whose failure sets no sticky bit. -/
theorem failBuffer_other {c : Cause} {r : Result} (d : Option Region) (s : State) (hr : c.result = r)
    (h : c ≠ .brOverrun) (h' : c ≠ .bwOverflow) : s.failBuffer c d = { s with
      consumed := 0, written := 0, mem := (s.failBuffer c d).mem, draws := (s.failBuffer c d).draws }.ended r c := by
  subst hr
  rw [failBuffer_eq, decide_eq_false h, decide_eq_false h', Bool.or_false, Bool.or_false]
  rfl

/-- R434: the length check raises nothing that sets a sticky bit. -/
theorem hufCheck_not_sticky {policy : IncompletePolicy} {l : List Nat} {c : Cause} (h : hufCheck policy l = some c) :
    c ≠ .brOverrun ∧ c ≠ .bwOverflow :=
  (by decide : ∀ c ∈ [Cause.hufLengthRange, .hufOversubscribed, .hufIncomplete], c ≠ .brOverrun ∧ c ≠ .bwOverflow) c
    (hufCheck_causes h)

theorem hufBuildDecOk_iff (s : State) : s.hufBuildDecOk = true ↔
    1 ≤ s.srcLen.toNat ∧ s.srcLen.toNat ≤ 288 ∧ s.srcAddr.toNat + s.srcLen.toNat ≤ 4294967296 := by
  rw [State.hufBuildDecOk, Bool.and_eq_true, Bool.and_eq_true, decide_eq_true_iff, decide_eq_true_iff, wellFormed_iff,
    and_assoc]
  rfl

section BuildDec

variable {s : State} {k : BitVec 2} (args : s.hufBuildDecOk = true) (plain : s.plainBuffers [s.srcBuffer])
include args plain

theorem exec_hufBuildDec_of_bad {c : Cause} (bad : hufCheck .oneMissing (s.sourceString.map BitVec.toNat) = some c) :
    exec (.hufBuildDec k) s = .next (s.failBuffer c (some s.dstBuffer.inSpace)) := by
  rw [← srcBytes_eq] at bad
  refine (if_neg (by simp [args])).trans ((withBuffers_plain plain).trans ?_)
  simp only [bad]

theorem exec_hufBuildDec_of_good (good : hufCheck .oneMissing (s.sourceString.map BitVec.toNat) = none) :
    exec (.hufBuildDec k) s =
      .next ((s.setSlot k (hufInstall (s.sourceString.map BitVec.toNat))).report s.srcLen.toNat 0).finishOk := by
  rw [← srcBytes_eq] at good ⊢
  refine (if_neg (by simp [args])).trans ((withBuffers_plain plain).trans ?_)
  simp only [good]

end BuildDec

/-- Settles O27: the check of the list decides between the two ends. -/
theorem hufBuildDecResult : Obligations.HufBuildDecResult := by
  refine fun k s => ⟨packWord_op_slot 0x21 k, fun bad => ?_, fun pos small fits plain => ?_⟩
  · exact if_pos (by simpa using mt (hufBuildDecOk_iff s).1 bad)
  have args := (hufBuildDecOk_iff s).2 ⟨pos, small, fits⟩
  refine ⟨fun c bad => ?_, fun good => ?_⟩
  · refine ⟨_, exec_hufBuildDec_of_bad args plain bad, ?_, fun a outside => ?_⟩
    · obtain ⟨reader, writer⟩ := hufCheck_not_sticky bad
      exact failBuffer_other _ s (hufCheck_result bad) reader writer
    · exact scramble_inSpace_read outside
  · refine ⟨_, exec_hufBuildDec_of_good args plain good, ?_, slot_setSlot_same s k _,
      fun j ne => slot_setSlot_of_ne s _ ne⟩
    rw [State.report, BitVec.ofNat_toNat, BitVec.setWidth_eq]
    rfl

/-! ### HUF_BUILD_ENC (R207) -/

/-- R207, R102: the words of a buffer of whole words. -/
theorem leWords_readBytes (m : Memory) (a q : Nat) :
    leWords (m.readBytes a (4 * q)) = (List.range q).map fun k => leWord (m.readBytes (a + 4 * k) 4) := by
  induction q generalizing a with
  | zero => rfl
  | succ q ih =>
    have rest := ih (a + 4)
    rw [List.range_succ_eq_map, List.map_cons, List.map_map]
    simp only [Nat.mul_succ, Memory.readBytes, leWords, Nat.add_assoc, Nat.reduceAdd, rest]
    refine congrArg _ (List.map_congr_left fun k _ => ?_)
    simp only [Function.comp_apply, Nat.succ_eq_add_one, Nat.mul_succ, Nat.add_left_comm, Nat.add_comm]

/-- R207: the frequencies of HUF_BUILD_ENC are the words of SRC. -/
theorem leWords_srcBytes {s : State} (whole : s.srcLen.toNat % 4 = 0) :
    leWords s.srcBytes = (List.range (s.srcLen.toNat / 4)).map s.sourceWord := by
  have size : s.srcLen.toNat = 4 * (s.srcLen.toNat / 4) := by omega
  rw [State.srcBytes, size, leWords_readBytes, ← size]
  refine List.map_congr_left fun k _ => ?_
  simp only [Memory.readBytes, leWord, State.sourceWord, Nat.add_assoc, Nat.reduceAdd]
  omega

theorem hufBuildEncOk_iff (s : State) : s.hufBuildEncOk = true ↔
    s.srcLen.toNat % 4 = 0 ∧ 4 ≤ s.srcLen.toNat ∧ s.srcLen.toNat ≤ 4 * 288 ∧ s.buffersApart := by
  rw [State.hufBuildEncOk, Bool.and_eq_true, Bool.and_eq_true, Bool.and_eq_true, decide_eq_true_iff, decide_eq_true_iff,
    decide_eq_true_iff, srcDstOk_iff, and_assoc, and_assoc]

/-- R207: behind the checks of its operands, HUF_BUILD_ENC looks at the room in DST, then at the number of symbols. -/
theorem exec_hufBuildEnc {s : State} {k : BitVec 2} {maxlen : BitVec 4} (limit : maxlen ≠ 0)
    (args : s.hufBuildEncOk = true) (plain : s.plainBuffers [s.srcBuffer, s.dstBuffer]) :
    exec (.hufBuildEnc k maxlen) s = .next (
      if s.dstCap.toNat < s.srcLen.toNat / 4 then s.failBuffer .dstFull (some s.dstBuffer)
      else if 2 ^ maxlen.toNat < usedSymbols (leWords s.srcBytes) then s.finish .hufTooManySymbols
      else (({ s with
          mem := s.mem.writeBytes s.dstAddr.toNat
            ((hufLengths (leWords s.srcBytes) maxlen.toNat).map (BitVec.ofNat 8)) }.setSlot k
        (hufInstall (hufLengths (leWords s.srcBytes) maxlen.toNat))).report s.srcLen.toNat
          (s.srcLen.toNat / 4)).finishOk) :=
  (if_neg fun zero => limit (BitVec.eq_of_toNat_eq zero)).trans
    ((if_neg (by simp [args])).trans (withBuffers_plain plain))

/-- R207: the lengths in DST. -/
theorem read_writeBytes_lengths {m : Memory} {a j : Nat} {len : List Nat} (hj : j < len.length) :
    (m.writeBytes a (len.map (BitVec.ofNat 8))).read (a + j) = BitVec.ofNat 8 (len.getD j 0) := by
  rw [read_writeBytes, if_pos (by rw [List.length_map]; omega), Nat.add_sub_cancel_left]
  exact List.getD_map (l := len) (d := 0) (BitVec.ofNat 8)

/-- Settles O26: the checks in the order of R207, then the lengths of the words of SRC. -/
theorem hufBuildEncResult : Obligations.HufBuildEncResult := by
  refine fun k maxlen s => ⟨by simp [encode, packWord], fun zero => if_pos (congrArg BitVec.toNat zero),
    fun limit bad => ?_, fun limit whole pos small apart plain => ?_⟩
  · exact (if_neg fun zero => limit (BitVec.eq_of_toNat_eq zero)).trans
      (if_pos (by simpa using mt (hufBuildEncOk_iff s).1 bad))
  have run := exec_hufBuildEnc (k := k) limit ((hufBuildEncOk_iff s).2 ⟨whole, pos, small, apart⟩) plain
  rw [leWords_srcBytes whole] at run
  refine ⟨fun full => ?_, fun room many => ?_, fun room few => ?_⟩
  · rw [if_pos full] at run
    exact ⟨_, run, failBuffer_other _ s rfl (by decide) (by decide)⟩
  · rw [run, if_neg (Nat.not_lt.2 room), if_pos many]
    rfl
  · rw [if_neg (Nat.not_lt.2 room), if_neg (Nat.not_lt.2 few)] at run
    refine ⟨_, run, ?_, slot_setSlot_same _ k _, fun j ne => slot_setSlot_of_ne _ _ ne,
      fun j hj => read_writeBytes_lengths ?_⟩
    · rw [State.report, BitVec.ofNat_toNat, BitVec.setWidth_eq]
      rfl
    · rwa [hufLengths_length, List.length_map, List.length_range]

end Sys2Proof.Machine

namespace Sys2Proof.Machine

/-! ### The match search (R250) -/

/-- R250: a run of `k` agreeing bytes within the limit and both strings is what `matchLen` counts. -/
theorem le_matchLen_iff {k lim : Nat} {xs ys : List Byte} : k ≤ matchLen lim xs ys ↔
    k ≤ lim ∧ k ≤ xs.length ∧ k ≤ ys.length ∧ ∀ j < k, xs[j]? = ys[j]? := by
  induction lim, xs, ys using matchLen.induct generalizing k with
  | case1 lim xs x ys ih =>
    rw [matchLen, if_pos rfl]
    cases k with
    | zero => simp
    | succ k =>
      rw [Nat.forall_lt_succ_left]
      simp [ih]
  | case2 lim x xs y ys ne =>
    rw [matchLen, if_neg ne]
    cases k with
    | zero => simp
    | succ k =>
      rw [Nat.forall_lt_succ_left]
      simp [ne]
  | case3 lim xs ys short =>
    rw [matchLen]
    · refine ⟨fun h => by simp [Nat.le_zero.1 h], fun ⟨h, hx, hy, _⟩ => ?_⟩
      match lim, xs, ys with
      | 0, _, _ => exact h
      | _ + 1, [], _ => exact hx
      | _ + 1, _ :: _, [] => exact hy
      | lim + 1, x :: xs, y :: ys => exact (short lim x xs y ys rfl rfl rfl).elim
    · exact short

/-- R249, R250, R254: `Match(d, l)` at position `i` of the source: in the window, within the length limits, on its own
side of `i` where overlap is not allowed, and a copy of what stands there. -/
structure LzMatch (src : List Byte) (p : LzParams) (i d l : Nat) : Prop where
  dist_pos : 1 ≤ d
  dist_le : d ≤ min p.window i
  len_min : 3 ≤ l
  len_le : l ≤ min p.maxLen (src.length - i)
  apart : p.overlap = false → l ≤ d
  agree : ∀ j < l, src[i - d + j]? = src[i + j]?

section Search

variable {src : List Byte} {p : LzParams} {i d l : Nat}

theorem le_lzLimit_iff {n : Nat} :
    l ≤ lzLimit p n i d ↔ l ≤ min p.maxLen (n - i) ∧ (p.overlap = false → l ≤ d) := by
  rw [lzLimit]
  cases p.overlap <;> simp [and_assoc]

theorem le_lzLenAt_iff : l ≤ lzLenAt src i p d ↔ l ≤ min p.maxLen (src.length - i) ∧ (p.overlap = false → l ≤ d) ∧
    ∀ j < l, src[i - d + j]? = src[i + j]? := by
  simp only [lzLenAt, le_matchLen_iff, le_lzLimit_iff, List.length_drop, List.getElem?_drop]
  constructor
  · exact fun ⟨⟨len, apart⟩, _, _, agree⟩ => ⟨len, apart, agree⟩
  · exact fun ⟨len, apart, agree⟩ => ⟨⟨len, apart⟩, by omega, by omega, agree⟩

/-- R250: the matches at a distance are the ones no longer than what the loop's turn at that distance counts. -/
theorem lzMatch_iff :
    LzMatch src p i d l ↔ 1 ≤ d ∧ d ≤ min p.window i ∧ 3 ≤ l ∧ l ≤ lzLenAt src i p d := by
  rw [le_lzLenAt_iff]
  exact ⟨fun ⟨pos, near, long, len, apart, agree⟩ => ⟨pos, near, long, len, apart, agree⟩,
    fun ⟨pos, near, long, len, apart, agree⟩ => ⟨pos, near, long, len, apart, agree⟩⟩

/-- R250: the loop holds no match, or what it counted at one of its distances. -/
theorem lzSearch_found (src : List Byte) (i : Nat) (p : LzParams) (k : Nat) : lzSearch src i p k = ⟨0, 0⟩ ∨
    ∃ d, 1 ≤ d ∧ d ≤ k ∧ lzSearch src i p k = ⟨lzLenAt src i p d, d⟩ := by
  induction k with
  | zero => exact .inl rfl
  | succ k ih =>
    rw [lzSearch]
    split
    · exact .inr ⟨k + 1, by omega, Nat.le_refl _, rfl⟩
    · exact ih.imp_right fun ⟨d, pos, le, found⟩ => ⟨d, pos, by omega, found⟩

/-- R250: the loop's match is no shorter than what any of its distances gives, and of the longest the nearest. -/
theorem lzSearch_best {k : Nat} (pos : 1 ≤ d) (le : d ≤ k) : lzLenAt src i p d ≤ (lzSearch src i p k).len ∧
    (lzLenAt src i p d = (lzSearch src i p k).len → (lzSearch src i p k).dist ≤ d) := by
  induction k with
  | zero => omega
  | succ k ih =>
    rw [lzSearch]
    obtain rfl | lt := Nat.eq_or_lt_of_le le
    · have near : (lzSearch src i p k).dist ≤ k := by
        obtain none | ⟨d, -, le, found⟩ := lzSearch_found src i p k
        · simp [none]
        · simpa [found] using le
      split
      · exact ⟨Nat.le_refl _, fun _ => Nat.le_refl _⟩
      · exact ⟨by omega, fun _ => by omega⟩
    · obtain ⟨longest, nearest⟩ := ih (by omega)
      split
      · next longer =>
        have shorter := Nat.lt_of_le_of_lt longest longer
        exact ⟨Nat.le_of_lt shorter, fun eq => absurd eq (Nat.ne_of_lt shorter)⟩
      · exact ⟨longest, nearest⟩

/-- R250: `lz_best` is a match, or none. -/
theorem lzBest_found (src : List Byte) (i : Nat) (p : LzParams) : lzBest src i p = ⟨0, 0⟩ ∨
    LzMatch src p i (lzBest src i p).dist (lzBest src i p).len := by
  rw [lzBest]
  split
  · next long =>
    refine .inr ?_
    obtain none | ⟨d, pos, le, found⟩ := lzSearch_found src i p (min p.window i)
    · exact absurd long (by simp [none])
    · rw [found] at long ⊢
      exact lzMatch_iff.2 ⟨pos, le, long, Nat.le_refl _⟩
  · exact .inl rfl

theorem lzBest_lzMatch (h : (lzBest src i p).len ≠ 0) : LzMatch src p i (lzBest src i p).dist (lzBest src i p).len :=
  (lzBest_found src i p).resolve_left fun none => h (by rw [none])

/-- R250: no match at the position is longer than the one found, and none of its length is nearer. -/
theorem LzMatch.le_lzBest (h : LzMatch src p i d l) :
    l ≤ (lzBest src i p).len ∧ (l = (lzBest src i p).len → (lzBest src i p).dist ≤ d) := by
  obtain ⟨pos, le, long, len⟩ := lzMatch_iff.1 h
  obtain ⟨longest, nearest⟩ := lzSearch_best (src := src) (i := i) (p := p) pos le
  rw [lzBest, if_pos (long.trans (len.trans longest))]
  exact ⟨len.trans longest, fun eq => nearest (by omega)⟩

end Search

/-- Settles O35: the loop's best over the distances, which are the matches' distances. -/
theorem lzBestIsLongest : Obligations.LzBestIsLongest := by
  refine fun src i p _ => ⟨fun d l pos near long len apart agree =>
    LzMatch.le_lzBest ⟨pos, near, long, len, apart, agree⟩, fun found => ?_, fun zero => ?_⟩
  · obtain ⟨pos, near, long, len, apart, agree⟩ := lzBest_lzMatch found
    exact ⟨pos, near, long, len, apart, agree⟩
  · obtain none | found := lzBest_found src i p
    · rw [none]
    · exact absurd found.len_min (by omega)

/-! ### Parses of the source (R251, R254) -/

/-- R251: a token sequence that goes through the source from position `i` to its end, each literal the byte at its
position and each back-reference a match there. -/
inductive LzParse (src : List Byte) (p : LzParams) : Nat → List Token → Prop
  | nil {i : Nat} (finished : src.length ≤ i) : LzParse src p i []
  | lit {i : Nat} {b : Byte} {ts : List Token} (byte : src[i]? = some b) (rest : LzParse src p (i + 1) ts) :
      LzParse src p i (.lit b :: ts)
  | backRef {i d l : Nat} {ts : List Token} (found : LzMatch src p i d l) (rest : LzParse src p (i + l) ts) :
      LzParse src p i (.backRef d l :: ts)

section Parse

variable {src : List Byte} {p : LzParams} {i d l : Nat} {ts : List Token}

/-- The next byte of the source onto the output so far, held newest first. -/
theorem cons_reverse_take {b : Byte} (byte : src[i]? = some b) :
    b :: (src.take i).reverse = (src.take (i + 1)).reverse := by
  simp [List.take_add_one, byte]

/-- R254: a copy byte by byte of bytes that agree with the source reproduces the source. -/
theorem copyBack_reverse_take (pos : 1 ≤ d) (le : d ≤ i) (inside : i + l ≤ src.length)
    (agree : ∀ j < l, src[i - d + j]? = src[i + j]?) :
    copyBack d l (src.take i).reverse = (src.take (i + l)).reverse := by
  induction l generalizing i with
  | zero => rfl
  | succ l ih =>
    have copied : (src.take i).reverse[d - 1]? = src[i]? := by
      rw [List.getElem?_reverse (by simp; omega), List.length_take_of_le (by omega),
        List.getElem?_take_of_lt (by omega), show i - 1 - (d - 1) = i - d + 0 by omega]
      exact agree 0 (Nat.succ_pos l)
    have byte : src[i]? = some ((src.take i).reverse.getD (d - 1) 0) := by
      rw [List.getD_eq_getElem?_getD, copied, List.getElem?_eq_getElem (by omega)]
      rfl
    rw [copyBack, cons_reverse_take byte, ih (by omega) (by omega), Nat.add_right_comm, Nat.add_assoc]
    intro j hj
    have := agree (j + 1) (by omega)
    rwa [show i - d + (j + 1) = i + 1 - d + j by omega, show i + (j + 1) = i + 1 + j by omega] at this

theorem LzMatch.copies (h : LzMatch src p i d l) :
    copyBack d l (src.take i).reverse = (src.take (i + l)).reverse := by
  obtain ⟨pos, near, long, len, -, agree⟩ := h
  exact copyBack_reverse_take pos (by omega) (by omega) agree

/-- R251: a parse expands to the source. -/
theorem LzParse.expands (h : LzParse src p i ts) :
    expandTokens ts (src.take i).reverse = src.reverse := by
  induction h with
  | nil finished => rw [expandTokens, List.take_of_length_le finished]
  | lit byte _ ih => rw [expandTokens, cons_reverse_take byte, ih]
  | backRef found _ ih => rw [expandTokens, found.copies, ih]

/-- R254: where a parse stands behind its first tokens. -/
theorem LzParse.of_append {before : List Token} (h : LzParse src p i (before ++ ts)) :
    LzParse src p (i + rawLen before) ts := by
  induction before generalizing i with
  | nil => exact h
  | cons x before ih =>
    have step : i + rawLen (x :: before) = i + x.rawLen + rawLen before := by simp [rawLen, Nat.add_assoc]
    rw [step]
    cases h with
    | lit _ rest => exact ih rest
    | backRef _ rest => exact ih rest

/-- R253: a parse has at most one token for each byte left. -/
theorem LzParse.length_le (h : LzParse src p i ts) : ts.length ≤ src.length - i := by
  induction h with
  | nil => exact Nat.zero_le _
  | lit byte _ ih =>
    obtain ⟨lt, -⟩ := List.getElem?_eq_some_iff.1 byte
    rw [List.length_cons]
    omega
  | backRef found _ ih =>
    have := found.len_min
    have := found.len_le
    rw [List.length_cons]
    omega

theorem getElem?_eq_some_getD (lt : i < src.length) : src[i]? = some (src.getD i 0) := by
  simp [List.getElem?_eq_getElem lt]

/-- R251: a match put out where it stands leaves the parse behind its bytes. -/
theorem LzMatch.parse (found : LzMatch src p i d l) :
    i < i + l ∧ (LzParse src p (i + l) ts → LzParse src p i (.backRef d l :: ts)) :=
  ⟨Nat.lt_add_of_pos_right (Nat.zero_lt_of_lt found.len_min), .backRef found⟩

/-- R251: the lazy loop from a match `f` at `i` puts out literals of the source and settles on a match, behind which
the parse is further than where the loop began. -/
theorem lzDefer_parse {fuel : Nat} {f : Found} {r : List Token × Nat × Found} (found : LzMatch src p i f.dist f.len)
    (run : lzDefer src p fuel i f = r) : i < r.2.1 + r.2.2.len ∧
      (LzParse src p (r.2.1 + r.2.2.len) ts → LzParse src p i (r.1 ++ .backRef r.2.2.dist r.2.2.len :: ts)) := by
  subst run
  induction fuel generalizing i f with
  | zero => exact found.parse
  | succ fuel ih =>
    rw [lzDefer]
    split
    · next inside =>
      dsimp only
      split
      · next longer =>
        obtain ⟨further, parse⟩ := ih (lzBest_lzMatch (Nat.ne_zero_of_lt longer))
        exact ⟨(Nat.lt_succ_self i).trans further,
          fun rest => .lit (getElem?_eq_some_getD (Nat.lt_of_succ_lt inside)) (parse rest)⟩
      · exact found.parse
    · exact found.parse

/-- R251: every turn of the loop passes at least one byte, so a turn for each byte left brings it to the end. -/
theorem lzTokensFrom_parse {fuel : Nat} (enough : src.length - i ≤ fuel) :
    LzParse src p i (lzTokensFrom src p fuel i) := by
  induction fuel generalizing i with
  | zero => exact .nil (by omega)
  | succ fuel ih =>
    rw [lzTokensFrom]
    split
    · next lt =>
      dsimp only
      split
      · exact .lit (getElem?_eq_some_getD lt) (ih (by omega))
      · next found =>
        obtain ⟨further, parse⟩ := lzDefer_parse (lzBest_lzMatch found) rfl
        exact parse (ih (by omega))
    · exact .nil (by omega)

end Parse

/-- R251: `lz_tokens` goes through the source from its start to its end. -/
theorem lzTokens_parse (src : List Byte) (p : LzParams) : LzParse src p 0 (lzTokens src p) :=
  lzTokensFrom_parse (Nat.sub_le _ _)

/-- Settles O36: the tokens are a parse of the source from position 0, where nothing has been put out. -/
theorem tokensReproduceSource : Obligations.TokensReproduceSource :=
  fun src p => (lzTokens_parse src p).expands

/-- Settles O37: behind the tokens before a match the parse stands at the match's position. -/
theorem tokenValidity : Obligations.TokenValidity := by
  intro src p before after d l cut
  have parse := (cut ▸ lzTokens_parse src p).of_append
  rw [Nat.zero_add] at parse
  cases parse with
  | backRef found _ =>
    have copy := found.copies
    obtain ⟨pos, near, long, len, apart, agree⟩ := found
    exact ⟨pos, near, long, len, fun j hj => (agree j hj).symm, apart, copy⟩

/-! ### The records (R252, R253) -/

/-- The records of the tokens, one after the other (R252). -/
def recordBytes (toks : List Token) : List Byte := toks.flatMap fun x => wordBytes x.record

theorem recordBytes_length (toks : List Token) : (recordBytes toks).length = 4 * toks.length := by
  induction toks with
  | nil => rfl
  | cons x toks ih =>
    rw [recordBytes, List.flatMap_cons, List.length_append, wordBytes_length, ← recordBytes, ih]
    exact Nat.add_comm _ _

/-- R253: the sink takes every record if all fit, and rejects one if not. -/
theorem lzRecords_eq {cap t : Nat} (toks : List Token) (h : 4 * t ≤ cap) : lzRecords cap t toks =
    if 4 * (t + toks.length) ≤ cap then .ok (recordBytes toks) else .error .dstFull := by
  induction toks generalizing t with
  | nil => exact (if_pos h).symm
  | cons x toks ih =>
    rw [lzRecords, List.length_cons, ← Nat.add_assoc, Nat.add_right_comm]
    split
    · rw [if_neg (by omega)]
    · rw [ih (by omega)]
      by_cases fits : 4 * (t + 1 + toks.length) ≤ cap
      · rw [if_pos fits, if_pos fits]
        rfl
      · rw [if_neg fits, if_neg fits]

theorem wordBytes_getD (w : Nat) {j : Nat} (hj : j < 4) : (wordBytes w).getD j 0 = BitVec.ofNat 8 (w / 256 ^ j) := by
  match j with
  | 0 | 1 | 2 | 3 => simp [wordBytes]

/-- R252: byte `j` of the `k`-th record, low byte first. -/
theorem recordBytes_getD {toks : List Token} {k j : Nat} (hk : k < toks.length) (hj : j < 4) :
    (recordBytes toks).getD (4 * k + j) 0 = BitVec.ofNat 8 (toks[k].record / 256 ^ j) := by
  induction toks generalizing k with
  | nil => exact absurd hk (Nat.not_lt_zero _)
  | cons x toks ih =>
    rw [recordBytes, List.flatMap_cons]
    cases k with
    | zero =>
      rw [Nat.mul_zero, Nat.zero_add, List.getD_append _ _ _ _ hj]
      exact wordBytes_getD _ hj
    | succ k =>
      rw [Nat.mul_succ, Nat.add_right_comm, List.getD_append_right _ _ _ _ (Nat.le_add_left 4 _),
        wordBytes_length, Nat.add_sub_cancel]
      exact ih (Nat.lt_of_succ_lt_succ hk)

/-- R252, R253: the records in DST. -/
theorem read_writeBytes_record {m : Memory} {a : Nat} {toks : List Token} {k j : Nat} (hk : k < toks.length)
    (hj : j < 4) :
    ((m.writeBytes a (recordBytes toks)).read (a + 4 * k + j)).toNat = toks[k].record / 256 ^ j % 256 := by
  rw [read_writeBytes, if_pos (by rw [recordBytes_length]; omega), Nat.add_assoc, Nat.add_sub_cancel_left,
    recordBytes_getD hk hj, BitVec.toNat_ofNat]

/-- R253: behind the checks of its operands, LZ_COMPRESS delivers the records if DST has room for all of them. -/
theorem exec_lzCompress {s : State} (legal : s.lzParams.legal = true) (apart : s.buffersApart)
    (plain : s.plainBuffers [s.srcBuffer, s.dstBuffer]) : exec .lzCompress s = .next (
      if 4 * (lzTokens s.sourceString s.lzParams).length ≤ s.dstCap.toNat then
        s.deliver (recordBytes (lzTokens s.sourceString s.lzParams)) s.srcLen.toNat
      else s.failBuffer .dstFull (some s.dstBuffer)) := by
  refine (if_neg (by simp [legal, (srcDstOk_iff s).2 apart])).trans ((withBuffers_plain plain).trans ?_)
  rw [srcBytes_eq, lzRecords_eq _ (Nat.zero_le _), Nat.zero_add]
  by_cases room : 4 * (lzTokens s.sourceString s.lzParams).length ≤ s.dstCap.toNat
  · rw [if_pos room, if_pos room]
  · rw [if_neg room, if_neg room]

/-- Settles O38: the records are those of the tokens, and the room for all of them decides between the two ends. -/
theorem lzCompressResult : Obligations.LzCompressResult := by
  refine ⟨by simp [encode, packWord], fun s => ⟨fun bad => ?_, fun legal apart plain => ?_⟩⟩
  · exact if_pos (by rwa [Bool.not_eq_true', ← Bool.not_eq_true, Bool.and_eq_true, srcDstOk_iff])
  rintro toks rfl
  have run := exec_lzCompress legal apart plain
  have few := (lzTokens_parse s.srcBytes s.lzParams).length_le
  rw [srcBytes_length, srcBytes_eq] at few
  refine ⟨few, fun _ => rfl, fun _ _ => rfl, fun room => ?_, fun full => ?_⟩
  · rw [if_pos room] at run
    refine ⟨_, run, ?_, fun k hk j hj => read_writeBytes_record hk hj, fun a outside => ?_⟩
    · rw [State.deliver, State.report, recordBytes_length, BitVec.ofNat_toNat, BitVec.setWidth_eq]
      rfl
    · exact read_writeBytes_outside (by rwa [recordBytes_length])
  · rw [if_neg (Nat.not_le.2 full)] at run
    exact ⟨_, run, failBuffer_other _ s rfl (by decide) (by decide)⟩

end Sys2Proof.Machine

namespace Sys2Proof.Machine

/-! ### Symbols (R339) -/

/-- In an ascending table the entries that are at most `x` are the first ones, as many as there are. -/
theorem getD_le_iff_lt_length_filter {t : List Nat} {x s : Nat} (asc : t.Pairwise (· < ·)) (hs : s < t.length) :
    t.getD s 0 ≤ x ↔ s < (t.filter fun b => decide (b ≤ x)).length := by
  induction t generalizing s with
  | nil => exact absurd hs (Nat.not_lt_zero s)
  | cons b t ih =>
    obtain ⟨above, asc⟩ := List.pairwise_cons.1 asc
    by_cases hb : b ≤ x
    · rw [List.filter_cons_of_pos (by simpa using hb)]
      cases s with
      | zero => simpa using hb
      | succ s => simpa using ih asc (Nat.lt_of_succ_lt_succ hs)
    · have larger : ∀ c ∈ b :: t, x < c :=
        List.forall_mem_cons.2 ⟨by omega, fun c hc => (by omega : x < b).trans (above c hc)⟩
      have none : (b :: t).filter (fun c => decide (c ≤ x)) = [] :=
        List.filter_eq_nil_iff.2 fun c hc => by simpa using larger c hc
      rw [none, List.getD_eq_getElem _ _ hs]
      exact iff_of_false (Nat.not_le.2 (larger _ (List.getElem_mem hs))) (Nat.not_lt_zero s)

section LargestAtMost

variable {t : List Nat} {x : Nat} (asc : t.Pairwise (· < ·)) (first : 0 < t.length ∧ t.getD 0 0 ≤ x)

include first in
theorem largestAtMost_lt : largestAtMost t x < t.length := by
  have := List.length_filter_le (fun b => decide (b ≤ x)) t
  rw [largestAtMost]
  omega

include asc

include first in
theorem getD_largestAtMost_le : t.getD (largestAtMost t x) 0 ≤ x := by
  refine (getD_le_iff_lt_length_filter asc (largestAtMost_lt first)).2 ?_
  have := (getD_le_iff_lt_length_filter asc first.1).1 first.2
  rw [largestAtMost]
  omega

theorem le_largestAtMost {s : Nat} (hs : s < t.length) (le : t.getD s 0 ≤ x) : s ≤ largestAtMost t x := by
  have := (getD_le_iff_lt_length_filter asc hs).1 le
  rw [largestAtMost]
  omega

include first in
/-- Where the extra bits of each entry reach the next one, and those of the last one reach `top`, what is left of a
value above its entry fits the entry's extra bits. -/
theorem sub_getD_largestAtMost_lt {extra : List Nat} {top : Nat} (le : x ≤ top)
    (gaps : ∀ s < t.length, (t ++ [top + 1]).getD (s + 1) 0 ≤ t.getD s 0 + 2 ^ extra.getD s 0) :
    x - t.getD (largestAtMost t x) 0 < 2 ^ extra.getD (largestAtMost t x) 0 := by
  have inside := largestAtMost_lt first
  have gap := gaps _ inside
  have below := getD_largestAtMost_le asc first
  rcases Nat.lt_or_ge (largestAtMost t x + 1) t.length with next | last
  · rw [List.getD_append _ _ _ _ next] at gap
    have above : ¬ t.getD (largestAtMost t x + 1) 0 ≤ x := fun le => absurd (le_largestAtMost asc next le) (by omega)
    omega
  · rw [List.getD_append_right _ _ _ _ last, Nat.sub_eq_zero_of_le (by omega)] at gap
    have : top + 1 ≤ t.getD (largestAtMost t x) 0 + 2 ^ extra.getD (largestAtMost t x) 0 := gap
    omega

end LargestAtMost

/-- R280: a length with its symbol: the base is the largest at most the length, and the rest fits the extra bits. -/
structure LengthSymbol (l : Nat) : Prop where
  min : 257 ≤ lsym l
  max : lsym l ≤ 285
  base_le : lenBase.getD (lsym l - 257) 0 ≤ l
  rest_lt : l - lenBase.getD (lsym l - 257) 0 < 2 ^ lextra l

/-- The length symbols but for the last one. -/
theorem lenBase_take_getD {s : Nat} (hs : s < 28) : (lenBase.take 28).getD s 0 = lenBase.getD s 0 := by
  simp only [List.getD_eq_getElem?_getD, List.getElem?_take_of_lt hs]

section Length

variable {l : Nat} (min : 3 ≤ l) (max : l ≤ 258)

include min in
theorem lsym_of_ne (ne : l ≠ 258) : lsym l = 257 + largestAtMost (lenBase.take 28) l ∧
    largestAtMost (lenBase.take 28) l < 28 := by
  refine ⟨if_neg ne, largestAtMost_lt ⟨by decide, ?_⟩⟩
  exact min

include min max in
theorem lengthSymbol : LengthSymbol l := by
  by_cases last : l = 258
  · subst last
    exact ⟨by decide, by decide, by decide, by decide⟩
  · obtain ⟨sym, inside⟩ := lsym_of_ne min last
    have asc : (lenBase.take 28).Pairwise (· < ·) := by decide
    have first : 0 < (lenBase.take 28).length ∧ (lenBase.take 28).getD 0 0 ≤ l := ⟨by decide, min⟩
    have below := getD_largestAtMost_le asc first
    have rest := sub_getD_largestAtMost_lt asc first (extra := lenExtra) (top := 257) (by omega) (by decide)
    rw [lenBase_take_getD inside] at below rest
    refine ⟨by omega, by omega, ?_, ?_⟩
    · rwa [sym, Nat.add_sub_cancel_left]
    · rwa [lextra, sym, Nat.add_sub_cancel_left]

end Length

/-- R281: a distance with its symbol, as `LengthSymbol`. -/
structure DistanceSymbol (d : Nat) : Prop where
  max : dsym d ≤ 29
  base_le : distBase.getD (dsym d) 0 ≤ d
  rest_lt : d - distBase.getD (dsym d) 0 < 2 ^ dextra d

theorem distBase_ascending : distBase.Pairwise (· < ·) := by decide

theorem distanceSymbol {d : Nat} (min : 1 ≤ d) (max : d ≤ 32768) : DistanceSymbol d := by
  have first : 0 < distBase.length ∧ distBase.getD 0 0 ≤ d := ⟨by decide, min⟩
  exact ⟨Nat.le_of_lt_succ (largestAtMost_lt first), getD_largestAtMost_le distBase_ascending first,
    sub_getD_largestAtMost_lt distBase_ascending first max (by decide)⟩

/-- Settles O39: each symbol is the largest base at most the value in an ascending table, whose gaps the extra bits
fill. -/
theorem symbolMapping : Obligations.SymbolMapping := by
  refine ⟨fun l min max => ?_, fun d min max => ?_⟩
  · obtain ⟨lo, hi, base, rest⟩ := lengthSymbol min max
    refine ⟨lo, hi, base, rest, ⟨fun last => ?_, fun last => if_pos last⟩, fun ne s hs hs' le => ?_⟩
    · by_contra ne
      have := lsym_of_ne min ne
      omega
    · rw [← lenBase_take_getD (by omega)] at le
      have := le_largestAtMost (t := lenBase.take 28) (by decide)
        ((by omega : s - 257 < 28).trans_eq (by decide)) le
      rw [(lsym_of_ne min ne).1]
      omega
  · obtain ⟨hi, base, rest⟩ := distanceSymbol min max
    exact ⟨hi, base, rest, fun s hs le => le_largestAtMost distBase_ascending hs le⟩

end Sys2Proof.Machine

namespace Sys2Proof.Machine

/-! ### The fixed codes (R283) -/

/-- R283: the codewords of the table, in symbol order. -/
theorem hufCanon_fixedLit : hufCanon fixedLit =
    List.range' 0x30 144 ++ List.range' 0x190 112 ++ List.range' 0 24 ++ List.range' 0xC0 8 := by decide +kernel

theorem hufCanon_fixedDist : hufCanon fixedDist = List.range 32 := by decide +kernel

theorem kraftSum_fixedLit : kraftSum 15 fixedLit = 2 ^ 15 := by decide +kernel

theorem kraftSum_fixedDist : kraftSum 15 fixedDist = 2 ^ 15 := by decide +kernel

theorem fixedLit_getD : ∀ s < 288, fixedLit.getD s 0 =
    if s ≤ 143 then 8 else if s ≤ 255 then 9 else if s ≤ 279 then 7 else 8 := by decide +kernel

theorem fixedDist_getD : ∀ s < 32, fixedDist.getD s 0 = 5 := by decide

/-- Settles O29: both lists are closed terms, the codewords those listed above. -/
theorem fixedCodesOfTheSpec : Obligations.FixedCodesOfTheSpec := by
  refine ⟨by decide +kernel, rfl, fixedLit_getD, fixedDist_getD, kraftSum_fixedLit, kraftSum_fixedDist, ?_, ?_⟩
  · rw [hufCanon_fixedLit]
    decide +kernel
  · rw [hufCanon_fixedDist]
    decide +kernel

/-! ### The bits of a block (R336, R338) -/

/-- How many bits a sequence of fields takes. -/
def fieldBits (fs : List BitField) : Nat := (fs.map BitField.width).sum

@[simp] theorem fieldBits_nil : fieldBits [] = 0 := rfl

@[simp] theorem fieldBits_cons (f : BitField) (fs : List BitField) : fieldBits (f :: fs) = f.width + fieldBits fs := rfl

@[simp] theorem fieldBits_append (fs gs : List BitField) : fieldBits (fs ++ gs) = fieldBits fs + fieldBits gs := by
  simp [fieldBits]

@[simp] theorem fieldBits_flatMap {α : Type} (f : α → List BitField) (xs : List α) :
    fieldBits (xs.flatMap f) = (xs.map fun x => fieldBits (f x)).sum := by
  induction xs with
  | nil => rfl
  | cons x xs ih => simp [ih]

/-- Fields of one width. -/
@[simp] theorem fieldBits_map {α : Type} (v : α → Nat) (n : Nat) (xs : List α) :
    fieldBits (xs.map fun x => ⟨v x, n⟩) = n * xs.length := by
  induction xs with
  | nil => rfl
  | cons x xs ih => rw [List.map_cons, fieldBits_cons, ih, List.length_cons, Nat.mul_succ, Nat.add_comm]

@[simp] theorem hufField_width (len : List Nat) (s : Nat) : (hufField (hufInstall len) s).width = len.getD s 0 := rfl

theorem fieldBits_token (ll dl : List Nat) (t : Token) :
    fieldBits (t.fields (hufInstall ll) (hufInstall dl)) = t.cost ll dl := by
  cases t with
  | lit b => rfl
  | backRef d l => simp [Token.fields, Token.cost, Nat.add_assoc]

theorem fieldBits_dataFields (ll dl : List Nat) (b : List Token) :
    fieldBits (dataFields (hufInstall ll) (hufInstall dl) b) = dataCost ll dl b := by
  simp [dataFields, dataCost, fieldBits_token, Nat.add_comm]

theorem fieldBits_rlItem (cl : List Nat) (x : RlItem) :
    fieldBits (x.fields (hufInstall cl)) = cl.getD x.sym 0 + rlExtraBits x.sym := by
  rw [RlItem.fields]
  split
  · next none => rw [none]; rfl
  · rfl

theorem usedCount_le (l : List Nat) : usedCount l ≤ l.length := by
  induction l with
  | nil => exact Nat.le_refl _
  | cons x l ih =>
    rw [usedCount, List.length_cons]
    split
    · omega
    · split <;> omega

/-- R335, R286: HCLEN is at most the number of code-length symbols. -/
theorem planDynamic_hclen_le (b : List Token) : (planDynamic b).hclen ≤ 19 :=
  Nat.max_le.2 ⟨by decide, usedCount_le _⟩

section Estimates

variable (final : Bool) (b : List Token) (raw : List Byte) (wpos : Nat)

/-- R336: the fixed estimate. -/
theorem fieldBits_fixed (p : DynPlan) :
    fieldBits (blockFields final .fixed wpos p b raw) = fixedCost b := by
  simp only [blockFields, fixedFields, fieldBits_cons, fieldBits_dataFields, fixedCost]
  omega

/-- R336: the dynamic estimate. -/
theorem fieldBits_dynamic :
    fieldBits (blockFields final .dynamic wpos (planDynamic b) b raw) = dynamicCost (planDynamic b) b := by
  have hclen : (clOrder.take (planDynamic b).hclen).length = (planDynamic b).hclen :=
    List.length_take_of_le (planDynamic_hclen_le b)
  simp only [blockFields, dynamicFields, fieldBits_cons, fieldBits_append, fieldBits_nil, fieldBits_flatMap,
    fieldBits_rlItem, fieldBits_dataFields, fieldBits_map, hclen, dynamicCost]
  omega

/-- R336: the stored estimate, from the bytes. -/
theorem fieldBits_stored (p : DynPlan) :
    fieldBits (blockFields final .stored wpos p b raw) = 3 + storedPad wpos + 32 + 8 * raw.length := by
  simp only [blockFields, storedFields, fieldBits_cons, fieldBits_append, fieldBits_nil, fieldBits_map]
  omega

end Estimates

/-- Settles O40: the writer moves by the fields' bits, which are the estimates term by term. -/
theorem blockEstimatesAreExact : Obligations.BlockEstimatesAreExact := by
  intro final b raw wr wr' bit
  have moved {fs : List BitField} (write : writeFields fs wr = .ok wr') : wr'.pos = wr.pos + fieldBits fs :=
    (writeFields_pushed bit write).pos
  refine ⟨fun write => ?_, fun write => ?_, fun whole write c cost => ?_⟩
  · rw [moved write, fieldBits_fixed]
  · rw [moved write, fieldBits_dynamic]
  · rw [storedCost] at cost
    split at cost
    · rw [moved write, fieldBits_stored, whole, Option.some.inj cost]
    · cases cost

end Sys2Proof.Machine

namespace Sys2Proof.Machine

/-! ### Reading fields (R162, R205) -/

/-- The reader `n` bits further on. -/
def ReadCursor.skip (n : Nat) (c : ReadCursor) : ReadCursor :=
  { c with byte := (c.pos + n) / 8, bit := (c.pos + n) % 8 }

section Skip

variable {m : Memory} {c : ReadCursor} {n k : Nat}

@[simp] theorem skip_len : (c.skip n).len = c.len := rfl

@[simp] theorem skip_pos : (c.skip n).pos = c.pos + n := Nat.div_add_mod _ 8

@[simp] theorem skip_skip : (c.skip n).skip k = c.skip (n + k) := by
  rw [ReadCursor.skip, skip_pos, Nat.add_assoc]
  rfl

theorem brAdvance_of_le (room : n ≤ c.remaining) : brAdvance n c = .ok (c.skip n) := brAdvance_ok.2 ⟨room, rfl⟩

/-- R163: behind the header of a block alignment passes the padding of a stored one. -/
theorem brAlign_skip_three : brAlign (c.skip 3) = c.skip (3 + storedPad c.pos) := by
  have bit : (c.skip 3).bit = (c.pos + 3) % 8 := rfl
  have byte : (c.skip 3).byte = (c.pos + 3) / 8 := rfl
  rw [brAlign, storedPad, bit, byte]
  split
  · next aligned => rw [aligned]
  · next unaligned =>
    rw [ReadCursor.skip, ReadCursor.skip]
    congr 1 <;> omega

end Skip

/-- The reader stands before the fields, and all their bits are in its buffer. -/
structure Ahead (m : Memory) (c : ReadCursor) (fs : List BitField) : Prop where
  fields : holdsFields (streamBit m c) c.pos fs
  room : fieldBits fs ≤ c.remaining

theorem holdsFields_append {f : Nat → Bool} {p : Nat} {fs gs : List BitField} :
    holdsFields f p (fs ++ gs) ↔ holdsFields f p fs ∧ holdsFields f (p + fieldBits fs) gs := by
  induction fs generalizing p with
  | nil => exact (iff_of_eq (true_and _)).symm
  | cons x fs ih => rw [List.cons_append, holdsFields, holdsFields, ih, fieldBits_cons, and_assoc, Nat.add_assoc]

section Ahead

variable {m : Memory} {c : ReadCursor} {fs gs : List BitField} {v n s : Nat} {len : List Nat}

theorem Ahead.append (h : Ahead m c (fs ++ gs)) : Ahead m c fs ∧ Ahead m (c.skip (fieldBits fs)) gs := by
  obtain ⟨fields, room⟩ := h
  obtain ⟨first, rest⟩ := holdsFields_append.1 fields
  rw [fieldBits_append, ReadCursor.remaining] at room
  refine ⟨⟨first, ?_⟩, ⟨by rwa [skip_pos], ?_⟩⟩
  · rw [ReadCursor.remaining]; omega
  · rw [ReadCursor.remaining, skip_pos, skip_len]; omega

theorem Ahead.rest (h : Ahead m c (⟨v, n⟩ :: fs)) : Ahead m (c.skip n) fs := (append (fs := [⟨v, n⟩]) h).2

/-- R162: `br_read` reads the field. -/
theorem brRead_of_ahead (narrow : n ≤ 64) (fits : v < 2 ^ n) (h : Ahead m c (⟨v, n⟩ :: fs)) :
    brRead m n c = .ok (v, c.skip n) := by
  obtain ⟨⟨field, -⟩, room⟩ := h
  have room : n ≤ c.remaining := (Nat.le_add_right _ _).trans room
  refine brRead_ok.2 ⟨?_, brAdvance_of_le room⟩
  rw [brBits_mod_eq narrow field, Nat.mod_eq_of_lt fits]

/-- Lengths whose codewords fit their widths and start no other one (R202). -/
structure Decodable (len : List Nat) : Prop where
  short : ∀ l ∈ len, l ≤ 15
  kraft : kraftSum 15 len ≤ 2 ^ 15

/-- R205, R206: `huf_get` reads the symbol whose codeword stands ahead. -/
theorem hufGet_of_ahead (code : Decodable len) (used : 0 < len.getD s 0)
    (h : Ahead m c (hufField (hufInstall len) s :: fs)) :
    hufGet m (hufInstall len) c = .ok (s, c.skip (len.getD s 0)) := by
  obtain ⟨⟨field, -⟩, room⟩ := h
  have room : len.getD s 0 ≤ c.remaining := (Nat.le_add_right _ _).trans room
  have narrow : len.getD s 0 ≤ 64 := (code.short _ (getD_mem_of_pos used).2).trans (by decide)
  have window : brBits m c % 2 ^ len.getD s 0 = bitrev ((hufCanon len).getD s 0) (len.getD s 0) :=
    (brBits_mod_eq narrow field).trans (Nat.mod_eq_of_lt (bitrev_lt _ _))
  rw [hufGet, hufLookup_of_startsWith code.short code.kraft ⟨used, window⟩]
  simp only [brAdvance_of_le room]

end Ahead

/-! ### Reading fields in the sequencer -/

/-- The sequencer with its reader `n` bits further on. -/
def DflState.skip (n : Nat) (d : DflState) : DflState := { d with rd := d.rd.skip n }

section Sequencer

variable {m : Memory} {d : DflState} {fs : List BitField} {v n k s : Nat} {len : List Nat}

@[simp] theorem dflSkip_rd : (d.skip n).rd = d.rd.skip n := rfl

@[simp] theorem dflSkip_skip : (d.skip n).skip k = d.skip (n + k) := by rw [DflState.skip, dflSkip_rd, skip_skip]; rfl

@[simp] theorem dflSkip_out : (d.skip n).out = d.out := rfl

theorem dflRead_of_ahead (narrow : n ≤ 64) (fits : v < 2 ^ n) (h : Ahead m d.rd (⟨v, n⟩ :: fs)) :
    d.read m n = .ok (v, d.skip n) := by
  rw [DflState.read, brRead_of_ahead narrow fits h]
  rfl

theorem dflGet_of_ahead (code : Decodable len) (used : 0 < len.getD s 0)
    (h : Ahead m d.rd (hufField (hufInstall len) s :: fs)) :
    d.get m (hufInstall len) = .ok (s, d.skip (len.getD s 0)) := by
  rw [DflState.get, hufGet_of_ahead code used h]
  rfl

theorem dflPut_of_room {cap : Nat} (b : Byte) (room : d.out.length < cap) :
    d.put cap b = .ok { d with out := b :: d.out } := by
  rw [DflState.put, putByte, if_neg (Nat.not_le.2 room)]

/-- A step that succeeds hands its result on. -/
theorem bind_of_ok {α β : Type} {x : Except Cause α} {a : α} {f : α → Except Cause β} (h : x = .ok a) :
    (x >>= f) = f a := by
  rw [h]
  rfl

end Sequencer

/-! ### Decoding the tokens of a block (R319, R320) -/

section Tokens

variable {m : Memory} {cap : Nat} {ll dl : List Nat}

theorem copyBack_length (d n : Nat) (out : List Byte) : (copyBack d n out).length = out.length + n := by
  induction n generalizing out with
  | zero => rfl
  | succ n ih => rw [copyBack, ih, List.length_cons]; omega

theorem getD_le {l : List Nat} {k : Nat} (h : ∀ x ∈ l, x ≤ k) (i : Nat) : l.getD i 0 ≤ k := by
  rcases Nat.eq_zero_or_pos (l.getD i 0) with zero | pos
  · omega
  · exact h _ (getD_mem_of_pos pos).2

theorem lextra_le (l : Nat) : lextra l ≤ 64 := getD_le (by decide) _

theorem dextra_le (d : Nat) : dextra d ≤ 64 := getD_le (by decide) _

/-- R320: with room for its bytes a copy puts out what the back-reference stands for. -/
theorem dflCopyBytes_of_room {dist n : Nat} {d : DflState} (room : d.out.length + n ≤ cap) :
    dflCopyBytes cap dist n d = .ok { d with out := copyBack dist n d.out } := by
  induction n generalizing d with
  | zero => rfl
  | succ n ih =>
    rw [dflCopyBytes, bind_of_ok (dflPut_of_room _ (by omega)), ih (by rw [List.length_cons]; omega)]
    rfl

/-- Both symbols of a token have a codeword. -/
structure Token.Coded (ll dl : List Nat) (t : Token) : Prop where
  lit : 0 < ll.getD t.litSym 0
  dist : ∀ s, t.distSym = some s → 0 < dl.getD s 0

theorem fits_backRef {n dist len : Nat} (h : (Token.backRef dist len).fits n = true) :
    LengthSymbol len ∧ DistanceSymbol dist ∧ dist ≤ n := by
  simp only [Token.fits, Bool.and_eq_true, decide_eq_true_eq] at h
  obtain ⟨⟨⟨⟨min, max⟩, near⟩, far⟩, inside⟩ := h
  exact ⟨lengthSymbol min max, distanceSymbol near far, inside⟩

/-- R319: behind a length symbol, the extra bits, the distance and its extra bits are read and the copy is made. -/
theorem dflBackRef_of_ahead {dist len : Nat} {d : DflState} {fs : List BitField} (code : Decodable dl)
    (installed : d.dist = hufInstall dl) (used : 0 < dl.getD (dsym dist) 0)
    (fits : (Token.backRef dist len).fits d.out.length = true) (room : d.out.length + len ≤ cap)
    (ahead : Ahead m d.rd (⟨len - lenBase.getD (lsym len - 257) 0, lextra len⟩ ::
      hufField (hufInstall dl) (dsym dist) :: ⟨dist - distBase.getD (dsym dist) 0, dextra dist⟩ :: fs)) :
    dflBackRef m cap (lsym len) d = .ok { d with
      rd := d.rd.skip (lextra len + (dl.getD (dsym dist) 0 + dextra dist)), out := copyBack dist len d.out } := by
  obtain ⟨length, distance, inside⟩ := fits_backRef fits
  refine (bind_of_ok (dflRead_of_ahead (lextra_le len) length.rest_lt ahead)).trans ?_
  refine (bind_of_ok ((congrArg (DflState.get m · _) installed).trans
    (dflGet_of_ahead code used ahead.rest))).trans ?_
  refine (if_neg (Nat.not_le.2 (Nat.lt_succ_of_le distance.max))).trans ?_
  refine (bind_of_ok (dflRead_of_ahead (dextra_le dist) distance.rest_lt ahead.rest.rest)).trans ?_
  dsimp only
  rw [Nat.add_sub_of_le length.base_le, Nat.add_sub_of_le distance.base_le, dflCopy,
    dflSkip_skip, dflSkip_skip, dflSkip_out, if_neg (Nat.not_lt.2 inside)]
  exact dflCopyBytes_of_room room

section Turn

variable {s fuel : Nat} {d d' : DflState} (get : d.get m d.lit = .ok (s, d'))
include get

theorem dflDecodeSymbols_byte (h : s ≤ 255) : dflDecodeSymbols m cap (fuel + 1) d =
    (d'.put cap (BitVec.ofNat 8 s) >>= dflDecodeSymbols m cap fuel) :=
  (bind_of_ok get).trans (if_pos h)

theorem dflDecodeSymbols_end (h : s = 256) : dflDecodeSymbols m cap (fuel + 1) d = .ok d'.blockEnd :=
  (bind_of_ok get).trans ((if_neg (by omega)).trans (if_pos h))

theorem dflDecodeSymbols_length (min : 257 ≤ s) (max : s ≤ 285) : dflDecodeSymbols m cap (fuel + 1) d =
    (dflBackRef m cap s d' >>= dflDecodeSymbols m cap fuel) :=
  (bind_of_ok get).trans ((if_neg (by omega)).trans ((if_neg (by omega)).trans (if_neg (by omega))))

end Turn

/-- Every token with its symbols coded takes a bit or more. -/
theorem length_lt_dataCost {b : List Token} (coded : ∀ t ∈ b, t.Coded ll dl) (eob : 0 < ll.getD 256 0) :
    b.length < dataCost ll dl b := by
  have each : (b.map fun _ => 1).sum ≤ (b.map (Token.cost ll dl)).sum := List.sum_le_sum fun t ht => by
    have lit := (coded t ht).lit
    cases t with
    | lit b => exact lit
    | backRef d l =>
      simp only [Token.litSym] at lit
      simp only [Token.cost]
      omega
  simp only [List.map_const', List.sum_replicate, smul_eq_mul, Nat.mul_one] at each
  rw [dataCost]
  omega

theorem rawLen_cons (t : Token) (b : List Token) : rawLen (t :: b) = t.rawLen + rawLen b := rfl

theorem expandTokens_single_length (t : Token) (out : List Byte) :
    (expandTokens [t] out).length = out.length + t.rawLen := by
  cases t with
  | lit x => rfl
  | backRef d l => exact copyBack_length d l out

theorem expandTokens_cons (t : Token) (b : List Token) (out : List Byte) :
    expandTokens (t :: b) out = expandTokens b (expandTokens [t] out) := by cases t <;> rfl

/-- R319, R338: one token is decoded. -/
theorem dflDecodeSymbols_token {t : Token} {fuel : Nat} {d : DflState} (lit : Decodable ll) (dist' : Decodable dl)
    (installed : d.lit = hufInstall ll ∧ d.dist = hufInstall dl) (coded : t.Coded ll dl)
    (fits : t.fits d.out.length = true) (room : d.out.length + t.rawLen ≤ cap)
    (ahead : Ahead m d.rd (t.fields (hufInstall ll) (hufInstall dl))) :
    dflDecodeSymbols m cap (fuel + 1) d = dflDecodeSymbols m cap fuel
      { d with rd := d.rd.skip (t.cost ll dl), out := expandTokens [t] d.out } := by
  cases t with
  | lit x =>
    have get := dflGet_of_ahead lit coded.lit ahead
    rw [← installed.1] at get
    have room : d.out.length + 1 ≤ cap := room
    have byte : (Token.lit x).litSym ≤ 255 := Nat.le_of_lt_succ x.isLt
    have value : BitVec.ofNat 8 (Token.lit x).litSym = x := (BitVec.ofNat_toNat ..).trans (BitVec.setWidth_eq x)
    rw [dflDecodeSymbols_byte get byte, bind_of_ok (dflPut_of_room _ (by rw [dflSkip_out]; omega)), value]
    rfl
  | backRef dist len =>
    have get := dflGet_of_ahead lit coded.lit ahead
    rw [← installed.1] at get
    obtain ⟨length, -, -⟩ := fits_backRef fits
    have copy := dflBackRef_of_ahead (d := d.skip (ll.getD (lsym len) 0)) (cap := cap) dist' installed.2
      (coded.dist _ rfl) fits room ahead.rest
    have moved : (d.skip (ll.getD (lsym len) 0)).rd.skip (lextra len + (dl.getD (dsym dist) 0 + dextra dist)) =
        d.rd.skip ((Token.backRef dist len).cost ll dl) := by
      rw [dflSkip_rd, skip_skip, Token.cost, Nat.add_assoc, Nat.add_assoc]
    rw [moved] at copy
    exact (dflDecodeSymbols_length get length.min length.max).trans (bind_of_ok copy)

/-- R319, R338: the decoder puts out what the tokens stand for and ends the block behind them. -/
theorem dflDecodeSymbols_of_ahead {b : List Token} {fuel : Nat} {d : DflState} (lit : Decodable ll)
    (dist' : Decodable dl) (installed : d.lit = hufInstall ll ∧ d.dist = hufInstall dl)
    (coded : ∀ t ∈ b, t.Coded ll dl) (eob : 0 < ll.getD 256 0) (fits : tokensFit d.out.length b = true)
    (room : d.out.length + rawLen b ≤ cap) (ahead : Ahead m d.rd (dataFields (hufInstall ll) (hufInstall dl) b))
    (enough : b.length < fuel) :
    dflDecodeSymbols m cap fuel d = .ok
      { d with rd := d.rd.skip (dataCost ll dl b), out := expandTokens b d.out }.blockEnd := by
  induction b generalizing d fuel with
  | nil =>
    obtain ⟨fuel, rfl⟩ := Nat.exists_eq_add_one_of_ne_zero (Nat.ne_zero_of_lt enough)
    have get := dflGet_of_ahead lit eob ahead
    rw [← installed.1] at get
    exact dflDecodeSymbols_end get rfl
  | cons t b ih =>
    obtain ⟨fuel, rfl⟩ := Nat.exists_eq_add_one_of_ne_zero (Nat.ne_zero_of_lt enough)
    have enough' : b.length < fuel := Nat.lt_of_succ_lt_succ enough
    rw [List.forall_mem_cons] at coded
    obtain ⟨this, coded⟩ := coded
    rw [tokensFit, Bool.and_eq_true] at fits
    obtain ⟨fits, fits'⟩ := fits
    rw [dataFields, List.flatMap_cons, List.append_assoc, ← dataFields] at ahead
    obtain ⟨ahead, ahead'⟩ := ahead.append
    rw [fieldBits_token] at ahead'
    rw [rawLen_cons] at room
    have cost : dataCost ll dl (t :: b) = t.cost ll dl + dataCost ll dl b := by
      simp only [dataCost, List.map_cons, List.sum_cons]
      omega
    have length := expandTokens_single_length t d.out
    rw [cost, ← skip_skip, expandTokens_cons,
      dflDecodeSymbols_token lit dist' installed this fits (by omega) ahead]
    exact ih (d := { d with rd := d.rd.skip (t.cost ll dl), out := expandTokens [t] d.out }) installed coded
      (by rwa [length]) (by dsimp only; omega) ahead' enough'

end Tokens

end Sys2Proof.Machine

namespace Sys2Proof.Machine

/-! ### Transitions of the sequencer (R300) -/

section Sequencer

variable {m : Memory} {cap : Nat}

/-- In at most `k` turns the sequencer gets from `d` to `e`, with the rest of its fuel left. -/
def Reaches (m : Memory) (cap k : Nat) (d e : DflState) : Prop :=
  ∀ fuel, k ≤ fuel → ∃ left, fuel ≤ k + left ∧ dflRunToDone m cap fuel d = dflRunToDone m cap left e

theorem Reaches.step {d e : DflState} (running : d.phase ≠ .done) (step : dflStep m cap d = .ok e) :
    Reaches m cap 1 d e := by
  intro fuel enough
  obtain ⟨left, rfl⟩ := Nat.exists_eq_add_of_le' enough
  refine ⟨left, Nat.le_of_eq (Nat.add_comm left 1), ?_⟩
  rw [dflRunToDone, if_neg running, step]

theorem Reaches.trans {j k : Nat} {d e f : DflState} (h : Reaches m cap j d e) (h' : Reaches m cap k e f) :
    Reaches m cap (j + k) d f := by
  intro fuel enough
  obtain ⟨left, rest, run⟩ := h fuel (by omega)
  obtain ⟨left', rest', run'⟩ := h' left (by omega)
  exact ⟨left', by omega, run.trans run'⟩

theorem Reaches.mono {j k : Nat} {d e : DflState} (h : Reaches m cap j d e) (le : j ≤ k) : Reaches m cap k d e := by
  intro fuel enough
  obtain ⟨left, rest, run⟩ := h fuel (by omega)
  exact ⟨left, by omega, run⟩

/-- R321: a sequencer that reaches `Done` ends there. -/
theorem Reaches.run {k fuel : Nat} {d e : DflState} (h : Reaches m cap k d e) (done : e.phase = .done)
    (enough : k < fuel) : dflRunToDone m cap fuel d = .ok e := by
  obtain ⟨left, rest, run⟩ := h fuel enough.le
  obtain ⟨left, rfl⟩ := Nat.exists_eq_add_one_of_ne_zero (by omega : left ≠ 0)
  rw [run, dflRunToDone, if_pos done]

/-- What reading a block leaves: the next phase, the reader `n` bits further on, and the output. -/
structure BlockRead (final : Bool) (n : Nat) (out : List Byte) (d e : DflState) : Prop where
  phase : e.phase = if final then .done else .readBlockHeader
  rd : e.rd = d.rd.skip n
  out_eq : e.out = out

/-! ### The block header (R311) -/

/-- BTYPE (R284). -/
def BlockKind.btype : BlockKind → Nat
  | .stored => 0
  | .fixed => 1
  | .dynamic => 2

/-- The phase behind a block header (R300). -/
def BlockKind.phase : BlockKind → DflPhase
  | .stored => .stored
  | .fixed => .fixedHuffman
  | .dynamic => .dynamicHuffman

/-- R311: the header's two fields choose the phase. -/
theorem header_reaches {final : Bool} {kind : BlockKind} {d : DflState} {fs : List BitField}
    (start : d.phase = .readBlockHeader)
    (ahead : Ahead m d.rd (⟨if final then 1 else 0, 1⟩ :: ⟨kind.btype, 2⟩ :: fs)) :
    Reaches m cap 1 d { d with rd := d.rd.skip 3, bfinal := final, phase := kind.phase } := by
  have bit : (if final then 1 else 0) < 2 ^ 1 := by cases final <;> decide
  have code : kind.btype < 2 ^ 2 := by cases kind <;> decide
  have fin : decide ((if final then 1 else 0) = 1) = final := by cases final <;> rfl
  have header : dflReadBlockHeader m d = .ok { d with rd := d.rd.skip 3, bfinal := final, phase := kind.phase } := by
    refine (bind_of_ok (dflRead_of_ahead (by decide) bit ahead)).trans
      ((bind_of_ok (dflRead_of_ahead (d := d.skip 1) (by decide) code ahead.rest)).trans ?_)
    rw [dflSkip_skip]
    cases kind <;> simp only [BlockKind.btype, fin] <;> rfl
  refine .step (by rw [start]; decide) ?_
  rw [dflStep, start]
  exact header

end Sequencer

/-! ### Stored blocks (R313) -/

section Stored

variable {m : Memory} {cap : Nat}

theorem skip_bit_lt {c : ReadCursor} {n : Nat} : (c.skip n).bit < 8 := Nat.mod_lt _ (by decide)

theorem skip_zero {c : ReadCursor} (bit : c.bit < 8) : c.skip 0 = c := by
  obtain ⟨base, len, byte, k⟩ := c
  simp only [ReadCursor.skip, ReadCursor.pos] at bit ⊢
  congr 1 <;> omega

/-- Bytes as the fields of a stored block (R285). -/
abbrev byteFields (raw : List Byte) : List BitField := raw.map fun x => ⟨x.toNat, 8⟩

/-- R313: the bytes ahead are read and put out one after the other. -/
theorem dflCopyStored_of_ahead {raw : List Byte} {d : DflState} (bit : d.rd.bit < 8)
    (room : d.out.length + raw.length ≤ cap) (ahead : Ahead m d.rd (byteFields raw)) :
    dflCopyStored m cap raw.length d =
      .ok { d with rd := d.rd.skip (8 * raw.length), out := raw.reverse ++ d.out } := by
  induction raw generalizing d with
  | nil =>
    rw [List.length_nil, Nat.mul_zero, skip_zero bit]
    rfl
  | cons x raw ih =>
    rw [List.length_cons] at room
    have byte : BitVec.ofNat 8 x.toNat = x := (BitVec.ofNat_toNat ..).trans (BitVec.setWidth_eq x)
    refine (bind_of_ok (dflRead_of_ahead (by decide) x.isLt ahead)).trans
      ((bind_of_ok (dflPut_of_room (d := d.skip 8) _ (by rw [dflSkip_out]; omega))).trans ?_)
    rw [byte]
    refine (ih skip_bit_lt ?_ ahead.rest).trans ?_
    · rw [dflSkip_out, List.length_cons]; omega
    · rw [dflSkip_rd, skip_skip, List.length_cons, Nat.mul_succ, Nat.add_comm 8, List.reverse_cons, List.append_assoc]
      rfl

/-- R313: behind the padding LEN, NLEN and the bytes are read, and the block ends. -/
theorem dflStored_of_ahead {raw : List Byte} {d : DflState} {c : ReadCursor} (header : d.rd = c.skip 3)
    (fits : raw.length ≤ 65535) (room : d.out.length + raw.length ≤ cap)
    (ahead : Ahead m (c.skip (3 + storedPad c.pos))
      (⟨raw.length, 16⟩ :: ⟨raw.length ^^^ 0xFFFF, 16⟩ :: byteFields raw)) :
    dflStored m cap d = .ok ({ d with
      rd := c.skip (3 + storedPad c.pos + 32 + 8 * raw.length), out := raw.reverse ++ d.out } : DflState).blockEnd := by
  have small : raw.length < 2 ^ 16 := by omega
  have len := dflRead_of_ahead (d := { d with rd := c.skip (3 + storedPad c.pos) }) (by decide) small ahead
  have nlen := dflRead_of_ahead (d := DflState.skip 16 { d with rd := c.skip (3 + storedPad c.pos) }) (by decide)
    (Nat.xor_lt_two_pow small (by decide : 0xFFFF < 2 ^ 16)) ahead.rest
  have bytes := dflCopyStored_of_ahead
    (d := DflState.skip 16 (DflState.skip 16 { d with rd := c.skip (3 + storedPad c.pos) }))
    skip_bit_lt room ahead.rest.rest
  rw [dflStored, header, brAlign_skip_three]
  refine (bind_of_ok len).trans ((bind_of_ok nlen).trans ((if_pos rfl).trans ((bind_of_ok bytes).trans ?_)))
  have bits : 3 + storedPad c.pos + 32 + 8 * raw.length = 3 + storedPad c.pos + (16 + (16 + 8 * raw.length)) := by omega
  rw [dflSkip_rd, dflSkip_rd, skip_skip, skip_skip, skip_skip, bits]
  rfl

/-- R313: a stored block, whatever its padding holds, is read as its bytes. -/
theorem storedBlock_reaches {final : Bool} {pad n : Nat} {raw : List Byte} {d : DflState}
    (start : d.phase = .readBlockHeader) (whole : raw.length = n) (fits : n ≤ 65535)
    (room : d.out.length + n ≤ cap)
    (ahead : Ahead m d.rd (⟨if final then 1 else 0, 1⟩ :: ⟨0, 2⟩ :: ⟨pad, storedPad d.rd.pos⟩ :: ⟨n, 16⟩ ::
      ⟨n ^^^ 0xFFFF, 16⟩ :: byteFields raw)) :
    ∃ e, Reaches m cap 2 d e ∧
      BlockRead final (3 + storedPad d.rd.pos + 32 + 8 * n) (raw.reverse ++ d.out) d e := by
  subst whole
  have header := header_reaches (cap := cap) (kind := .stored) start ahead
  have body := ahead.rest.rest.rest
  rw [skip_skip, skip_skip, ← Nat.add_assoc] at body
  have stored := dflStored_of_ahead (cap := cap)
    (d := { d with rd := d.rd.skip 3, bfinal := final, phase := .stored }) rfl fits room body
  refine ⟨_, header.trans (.step nofun stored), ?_, rfl, rfl⟩
  cases final <;> rfl

end Stored

/-! ### Fixed blocks (R314) -/

section Fixed

variable {m : Memory} {cap : Nat} {ll dl : List Nat} {b : List Token}

/-- R319: the tokens ahead bring the sequencer to the end of the block. -/
theorem decodeSymbols_reaches {d : DflState} (decoding : d.phase = .decodeSymbols) (lit : Decodable ll)
    (dist : Decodable dl) (installed : d.lit = hufInstall ll ∧ d.dist = hufInstall dl)
    (coded : ∀ t ∈ b, t.Coded ll dl) (eob : 0 < ll.getD 256 0) (fits : tokensFit d.out.length b = true)
    (room : d.out.length + rawLen b ≤ cap) (ahead : Ahead m d.rd (dataFields (hufInstall ll) (hufInstall dl) b)) :
    ∃ e, Reaches m cap 1 d e ∧ BlockRead d.bfinal (dataCost ll dl b) (expandTokens b d.out) d e := by
  have bits := ahead.room
  have tokens := length_lt_dataCost coded eob
  rw [fieldBits_dataFields, ReadCursor.remaining] at bits
  refine ⟨({ d with rd := d.rd.skip (dataCost ll dl b), out := expandTokens b d.out } : DflState).blockEnd,
    .step (by rw [decoding]; decide) ?_, rfl, rfl, rfl⟩
  rw [dflStep, decoding]
  exact dflDecodeSymbols_of_ahead lit dist installed coded eob fits room ahead (by omega)

theorem exists_fits_of_mem {n : Nat} {t : Token} (fits : tokensFit n b = true) (mem : t ∈ b) :
    ∃ k, t.fits k = true := by
  induction b generalizing n with
  | nil => cases mem
  | cons x b ih =>
    rw [tokensFit, Bool.and_eq_true] at fits
    rcases List.mem_cons.1 mem with rfl | mem
    · exact ⟨n, fits.1⟩
    · exact ih fits.2 mem

theorem decodable_fixedLit : Decodable fixedLit := ⟨by decide +kernel, kraftSum_fixedLit.le⟩

theorem decodable_fixedDist : Decodable fixedDist := ⟨by decide, kraftSum_fixedDist.le⟩

theorem fixedLit_pos {s : Nat} (h : s < 288) : 0 < fixedLit.getD s 0 := by
  rw [fixedLit_getD s h]
  split
  · decide
  · split
    · decide
    · split <;> decide

/-- R283: the fixed codes have a codeword for both symbols of every token. -/
theorem coded_fixed {n : Nat} (fits : tokensFit n b = true) : ∀ t ∈ b, t.Coded fixedLit fixedDist := by
  intro t mem
  obtain ⟨k, fits⟩ := exists_fits_of_mem fits mem
  cases t with
  | lit x =>
    have byte : x.toNat < 288 := x.isLt.trans (by decide)
    exact ⟨fixedLit_pos byte, fun s h => by cases h⟩
  | backRef d l =>
    obtain ⟨length, distance, -⟩ := fits_backRef fits
    have sym : lsym l < 288 := Nat.lt_of_le_of_lt length.max (by decide)
    have dist : dsym d < 32 := Nat.lt_of_le_of_lt distance.max (by decide)
    refine ⟨fixedLit_pos sym, fun s h => ?_⟩
    cases h
    rw [fixedDist_getD _ dist]
    decide

/-- R314, R319: a fixed block is read as what its tokens stand for. -/
theorem fixedBlock_reaches {final : Bool} {wpos : Nat} {p : DynPlan} {raw : List Byte} {d : DflState}
    (start : d.phase = .readBlockHeader) (fits : tokensFit d.out.length b = true)
    (room : d.out.length + rawLen b ≤ cap) (ahead : Ahead m d.rd (blockFields final .fixed wpos p b raw)) :
    ∃ e, Reaches m cap 3 d e ∧ BlockRead final (fixedCost b) (expandTokens b d.out) d e := by
  have header := header_reaches (cap := cap) (kind := .fixed) start ahead
  have data := ahead.rest.rest
  rw [skip_skip] at data
  have install : Reaches m cap 1 { d with rd := d.rd.skip 3, bfinal := final, phase := .fixedHuffman }
    (dflFixedHuffman { d with rd := d.rd.skip 3, bfinal := final, phase := .fixedHuffman }) := .step nofun rfl
  obtain ⟨e, decode, phase, rd, out⟩ := decodeSymbols_reaches (cap := cap)
    (d := dflFixedHuffman { d with rd := d.rd.skip 3, bfinal := final, phase := .fixedHuffman }) rfl decodable_fixedLit
    decodable_fixedDist ⟨rfl, rfl⟩ (coded_fixed fits) (fixedLit_pos (by decide)) fits room data
  exact ⟨e, header.trans (install.trans decode), phase, rd.trans skip_skip, out⟩

end Fixed

end Sys2Proof.Machine

namespace Sys2Proof.Machine

/-! ### A written stream, read from its start (R176, R179) -/

section Stream

variable {m : Memory} {base cap : Nat} {fs : List BitField} {wr wr' : WriteCursor}

theorem emptyWriter_inBuffer (base cap : Nat) : WriteCursor.InBuffer base cap ⟨base, cap, 0, 0, 0, []⟩ :=
  ⟨⟨Nat.succ_pos 7, ceil8_le.2 (Nat.zero_le _), by simp⟩, rfl, rfl⟩

/-- R165, R176: the flushed bytes hold the fields from the first bit on. -/
theorem ahead_of_write_flush (m : Memory) (write : writeFields fs ⟨base, cap, 0, 0, 0, []⟩ = .ok wr)
    (flush : bwFlush wr = .ok wr') :
    wr'.byte = ceil8 (fieldBits fs) ∧ Ahead (m.applyWrites wr'.writes) ⟨base, wr'.byte, 0, 0⟩ fs := by
  have start := emptyWriter_inBuffer base cap
  have written := (writeFields_ends fs start).of_ok write
  have pushed := writeFields_pushed start.inside.bit write
  obtain ⟨-, fields⟩ := writeFields_bitAt m start.inside.bit write
  obtain ⟨-, base_eq, -, -, byte, -⟩ := bwFlush_inside flush written.inside
  have pos : wr.pos = fieldBits fs := pushed.pos.trans (Nat.zero_add _)
  rw [pos] at byte
  have room : fieldBits fs ≤ 8 * wr'.byte := ceil8_le.1 byte.ge
  have base_eq : wr'.base = base := base_eq.trans written.base_eq
  refine ⟨byte, holdsFields_congr (fun p _ hp => ?_) fields, room⟩
  have hp : p < fieldBits fs := hp.trans_eq (Nat.zero_add _)
  rw [← base_eq, streamBit_applyWrites m wr' _ _ (by omega), bwFlush_bitAt m flush (by omega) written.inside.bit]

end Stream

theorem inflateRun_of_reaches {m : Memory} {rd : ReadCursor} {cap k : Nat} {e : DflState}
    (h : Reaches m cap k (dflInit rd) e) (done : e.phase = .done) (enough : k < 8 * rd.len + 4) :
    inflateRun m rd cap = .ok e := h.run done enough

/-- Settles O44: the flushed bytes hold the block's fields, and the decoder reads them as the tokens. -/
theorem fixedBlockRoundTrip : Obligations.FixedBlockRoundTrip := by
  intro b m base cap cap' wr wr' fits write flush room
  obtain ⟨byte, ahead⟩ := ahead_of_write_flush m write flush
  obtain ⟨e, reaches, phase, rd, out⟩ := fixedBlock_reaches (cap := cap') (d := dflInit ⟨base, wr'.byte, 0, 0⟩) rfl fits
    (by rwa [show (dflInit ⟨base, wr'.byte, 0, 0⟩).out.length = 0 from rfl, Nat.zero_add]) ahead
  refine ⟨e, inflateRun_of_reaches reaches phase (by omega), out, ?_⟩
  rw [rd, skip_pos, byte, fieldBits_fixed]
  exact congrArg ceil8 (Nat.zero_add _)

/-! ### Bytes of memory as fields (R103) -/

section Bytes

variable {m : Memory} {c : ReadCursor} {fs : List BitField}

theorem holdsFields_readBytes {q n : Nat} (inside : q + n ≤ c.len) :
    holdsFields (streamBit m c) (8 * q) (byteFields (m.readBytes (c.base + q) n)) := by
  induction n generalizing q with
  | zero => trivial
  | succ n ih =>
    refine ⟨fun k hk => ?_, ih (q := q + 1) (by omega)⟩
    have hk : k < 8 := hk
    rw [streamBit, decide_eq_true (by omega), Bool.true_and, show (8 * q + k) / 8 = q by omega,
      show (8 * q + k) % 8 = k by omega]

/-- A buffer's own bytes are ahead of a reader at its start. -/
theorem ahead_readBytes {base len n : Nat} (inside : n ≤ len) :
    Ahead m ⟨base, len, 0, 0⟩ (byteFields (m.readBytes base n)) := by
  refine ⟨holdsFields_readBytes (c := ⟨base, len, 0, 0⟩) (q := 0) (by rwa [Nat.zero_add]), ?_⟩
  rw [fieldBits_map, readBytes_length]
  exact Nat.mul_le_mul_left 8 inside

/-- The same bits, cut into fields in two ways. -/
structure SameBits (fs gs : List BitField) : Prop where
  bits : fieldBits fs = fieldBits gs
  holds : ∀ f p, holdsFields f p fs ↔ holdsFields f p gs

theorem SameBits.trans {gs hs : List BitField} (h : SameBits fs gs) (h' : SameBits gs hs) : SameBits fs hs :=
  ⟨h.bits.trans h'.bits, fun f p => (h.holds f p).trans (h'.holds f p)⟩

theorem SameBits.symm {gs : List BitField} (h : SameBits fs gs) : SameBits gs fs :=
  ⟨h.bits.symm, fun f p => (h.holds f p).symm⟩

theorem SameBits.cons {gs : List BitField} (x : BitField) (h : SameBits fs gs) : SameBits (x :: fs) (x :: gs) :=
  ⟨congrArg (x.width + ·) h.bits, fun f _ => and_congr_right fun _ => h.holds f _⟩

/-- Two fields, one after the other, are one field. -/
theorem sameBits_join {u v w j k n : Nat} (fs : List BitField) (fits : v < 2 ^ j) (value : u = 2 ^ j * w + v)
    (width : n = j + k) : SameBits (⟨v, j⟩ :: ⟨w, k⟩ :: fs) (⟨u, n⟩ :: fs) := by
  subst value width
  refine ⟨by simp [Nat.add_assoc], fun f p => ?_⟩
  rw [holdsFields, holdsFields, holdsFields, ← and_assoc, Nat.add_assoc]
  refine and_congr_left fun _ => ?_
  simp only [Nat.testBit_two_pow_mul_add _ fits]
  constructor
  · rintro ⟨low, high⟩ i hi
    split
    · next lt => exact low i lt
    · next ge =>
      have := high (i - j) (by omega)
      rwa [Nat.add_assoc, Nat.add_sub_cancel' (by omega)] at this
  · refine fun h => ⟨fun i hi => ?_, fun i hi => ?_⟩
    · rw [h i (by omega), if_pos hi]
    · rw [Nat.add_assoc, h (j + i) (by omega), if_neg (by omega), Nat.add_sub_cancel_left]

theorem Ahead.sameBits {gs : List BitField} (h : Ahead m c gs) (same : SameBits fs gs) : Ahead m c fs :=
  ⟨(same.holds _ _).2 h.fields, same.bits.trans_le h.room⟩

end Bytes

/-! ### INFLATE of a stream (R310, R321) -/

/-- R310, R321: a run that puts out `out` delivers it. -/
theorem exec_inflate_of_run {s : State} {d : DflState} {out : List Byte} (apart : s.buffersApart)
    (plain : s.plainBuffers [s.srcBuffer, s.dstBuffer])
    (run : inflateRun s.mem s.privateReader s.dstCap.toNat = .ok d) (puts : d.out = out.reverse) :
    ∃ t, exec .inflate s = .next t ∧
      t = { s with
        consumed := BitVec.ofNat 32 (ceil8 d.rd.pos), written := BitVec.ofNat 32 out.length,
        mem := t.mem }.ended .ok .noCause ∧
      (∀ k < out.length, t.mem.read (s.dstAddr.toNat + k) = out.getD k 0) ∧
      ∀ a, (a < s.dstAddr.toNat ∨ s.dstAddr.toNat + out.length ≤ a) → t.mem.read a = s.mem.read a := by
  refine ⟨s.deliver out (ceil8 d.rd.pos), ?_, rfl, fun k hk => ?_, fun a ha => read_writeBytes_outside ha⟩
  · refine (if_neg (by simp [(srcDstOk_iff s).2 apart])).trans ((withBuffers_plain plain).trans ?_)
    rw [run]
    dsimp only
    rw [puts, List.reverse_reverse]
  · exact (read_writeBytes _ _ _ _).trans (by rw [if_pos (by omega), Nat.add_sub_cancel_left])

/-- R285: NLEN of a length. -/
theorem xor_0xFFFF {n : Nat} (h : n ≤ 65535) : n ^^^ 0xFFFF = 65535 - n := by
  have complement := congrArg BitVec.toNat (BitVec.xor_allOnes (x := BitVec.ofNat 16 n))
  rw [BitVec.toNat_xor, BitVec.toNat_allOnes, BitVec.toNat_not, BitVec.toNat_ofNat,
    Nat.mod_eq_of_lt (by omega)] at complement
  exact complement.trans (by omega)

/-- R284, R285: the bytes of a final stored block are its fields. -/
theorem ahead_storedBlock {m : Memory} {base len n : Nat} (room : n + 5 ≤ len) (small : n ≤ 65535)
    (header : (m.read base).toNat % 8 = 1)
    (hlen : (m.read (base + 1)).toNat + 256 * (m.read (base + 2)).toNat = n)
    (hnlen : (m.read (base + 3)).toNat + 256 * (m.read (base + 4)).toNat = 65535 - n) :
    Ahead m ⟨base, len, 0, 0⟩ (⟨1, 1⟩ :: ⟨0, 2⟩ :: ⟨(m.read base).toNat / 8, 5⟩ :: ⟨n, 16⟩ :: ⟨n ^^^ 0xFFFF, 16⟩ ::
      byteFields (m.readBytes (base + 5) n)) := by
  have bytes := ahead_readBytes (m := m) (base := base) room
  have word {k x : Nat} (fs : List BitField) (value : (m.read k).toNat + 256 * (m.read (k + 1)).toNat = x) :
      SameBits (⟨x, 16⟩ :: fs) (⟨(m.read k).toNat, 8⟩ :: ⟨(m.read (k + 1)).toNat, 8⟩ :: fs) :=
    .symm (sameBits_join fs (m.read k).isLt (by omega) rfl)
  refine bytes.sameBits ((sameBits_join _ (by decide) rfl rfl).trans
    ((sameBits_join (u := (m.read base).toNat) (n := 8) _ (by decide) (by omega) rfl).trans (.cons _ ?_)))
  exact (word _ hlen).trans (.cons _ (.cons _ (word _ (hnlen.trans (xor_0xFFFF small).symm))))

/-- Settles O43: the source's bytes are the fields of a stored block, whose padding the decoder passes. -/
theorem inflateStoredBlock : Obligations.InflateStoredBlock := by
  intro s n apart plain small src dst header hlen hnlen
  have ahead := ahead_storedBlock src small header hlen hnlen
  obtain ⟨e, reaches, phase, rd, out⟩ := storedBlock_reaches (cap := s.dstCap.toNat) (final := true)
    (d := dflInit s.privateReader) rfl (readBytes_length _ _ _) small
    (by rwa [show (dflInit s.privateReader).out.length = 0 from rfl, Nat.zero_add]) ahead
  obtain ⟨t, exec, end_eq, bytes, frame⟩ := exec_inflate_of_run (out := s.mem.readBytes (s.srcAddr.toNat + 5) n) apart
    plain (inflateRun_of_reaches reaches phase (by omega)) (out.trans (List.append_nil _))
  have consumed : ceil8 e.rd.pos = n + 5 := by
    rw [rd, skip_pos]
    have : storedPad (dflInit s.privateReader).rd.pos = 5 := rfl
    have : (dflInit s.privateReader).rd.pos = 0 := rfl
    simp only [ceil8]
    omega
  rw [consumed, readBytes_length] at end_eq
  rw [readBytes_length] at bytes frame
  exact ⟨t, exec, end_eq, fun k hk => (bytes k hk).trans (readBytes_getD _ _ _ _ hk), frame⟩

end Sys2Proof.Machine

namespace Sys2Proof.Machine

/-! ### The encoders' ends (R330, R370, R434) -/

/-- What an encoder's run leaves: its writes delivered, or the failure. -/
def State.encoded (s : State) (r : Except Cause WriteCursor) : State :=
  match r with
  | .error c => s.failBuffer c (some s.dstBuffer)
  | .ok wr => s.deliverWrites wr

section Ends

variable {s t : State} (apart : s.buffersApart) (plain : s.plainBuffers [s.srcBuffer, s.dstBuffer])

include apart plain in
theorem exec_deflate : exec .deflate s = .next (s.encoded (deflateRun s.srcBytes s.privateWriter)) :=
  (if_neg (by simp [(srcDstOk_iff s).2 apart])).trans (withBuffers_plain plain)

include apart plain in
theorem exec_shrink : exec .shrink s =
    .next (s.encoded (shrinkRun Config.lzwSelfPrefixSurvives s.srcBytes s.privateWriter)) :=
  (if_neg (by simp [(srcDstOk_iff s).2 apart])).trans (withBuffers_plain plain)

/-- R330: an OK end of DEFLATE is a delivered run. -/
theorem deflate_of_ok (run : exec .deflate s = .next t) (ok : t.status.result = .ok) :
    ∃ wr, deflateRun s.srcBytes s.privateWriter = .ok wr ∧ t = s.deliverWrites wr := by
  rcases exec_next run with ⟨c, _, illegal, rfl⟩ | effect
  · exact absurd (illegal.symm.trans ok) (by decide)
  · cases effect with
    | deflateFail fail =>
      rw [List.mem_singleton.1 ((deflateRun_ends _ (privateWriter_inBuffer s)).of_error fail)] at ok
      cases ok
    | deflate written => exact ⟨_, written, rfl⟩

/-- R370: an OK end of SHRINK is a delivered run. -/
theorem shrink_of_ok (run : exec .shrink s = .next t) (ok : t.status.result = .ok) :
    ∃ wr, shrinkRun Config.lzwSelfPrefixSurvives s.srcBytes s.privateWriter = .ok wr ∧ t = s.deliverWrites wr := by
  rcases exec_next run with ⟨c, _, illegal, rfl⟩ | effect
  · exact absurd (illegal.symm.trans ok) (by decide)
  · cases effect with
    | shrinkFail fail =>
      rw [List.mem_singleton.1 ((shrinkRun_ends _ _ (privateWriter_inBuffer s)).of_error fail)] at ok
      cases ok
    | shrink written => exact ⟨_, written, rfl⟩

/-- R40: WRITTEN is the writer's byte count, which no DST_CAP lets wrap. -/
theorem deliverWrites_byte {wr : WriteCursor} (h : wr.InBuffer s.dstAddr.toNat s.dstCap.toNat) :
    (s.deliverWrites wr).written.toNat = wr.byte ∧ wr.byte ≤ s.dstCap.toNat := by
  have fits := ceil8_le.1 h.inside.fits
  have := h.cap_eq
  have := s.dstCap.isLt
  rw [WriteCursor.pos] at fits
  refine ⟨?_, by omega⟩
  exact (BitVec.toNat_ofNat _ _).trans (Nat.mod_eq_of_lt (by omega))

end Ends

/-! ### Another capacity (R341, R390) -/

/-- The writer with another capacity. -/
def WriteCursor.recap (k : Nat) (c : WriteCursor) : WriteCursor := { c with cap := k }

/-- A run `y` does with capacity `k`, from position `p`, what the run `x` does: where `x` succeeds, `y` makes the same
writes if the bits fit, and overflows if they do not. -/
def Recaps {α : Type} (writer : α → WriteCursor) (recap : Nat → α → α) (k p : Nat) (x y : Except Cause α) : Prop :=
  ∀ a, x = .ok a → (writer a).bit < 8 ∧ p ≤ (writer a).pos ∧ (ceil8 p ≤ k →
    y = if ceil8 (writer a).pos ≤ k then .ok (recap k a) else .error .bwOverflow)

section Recaps

variable {k p : Nat}

theorem ceil8_mono {a b : Nat} (h : a ≤ b) : ceil8 a ≤ ceil8 b := by
  simp only [ceil8]
  omega

theorem Recaps.bind {α β : Type} {wa : α → WriteCursor} {ra : Nat → α → α} {wb : β → WriteCursor}
    {rb : Nat → β → β} {x y : Except Cause α} {f g : α → Except Cause β} (h : Recaps wa ra k p x y)
    (rest : ∀ a, (wa a).bit < 8 → Recaps wb rb k (wa a).pos (f a) (g (ra k a))) :
    Recaps wb rb k p (x >>= f) (y >>= g) := by
  intro b run
  cases x with
  | error c => cases run
  | ok a =>
    obtain ⟨bit, further, same⟩ := h a rfl
    obtain ⟨bit', further', same'⟩ := rest a bit b run
    refine ⟨bit', further.trans further', fun room => ?_⟩
    rw [same room]
    by_cases fits : ceil8 (wa a).pos ≤ k
    · rw [if_pos fits]
      exact same' fits
    · rw [if_neg fits, if_neg fun fits' => fits ((ceil8_mono further').trans fits')]
      rfl

/-- A run that writes nothing. -/
theorem Recaps.pure {α : Type} {writer : α → WriteCursor} {recap : Nat → α → α} {a : α} (bit : (writer a).bit < 8) :
    Recaps writer recap k (writer a).pos (.ok a) (.ok (recap k a)) := by
  intro b run
  cases run
  exact ⟨bit, Nat.le_refl _, fun room => (if_pos room).symm⟩

abbrev WriterRecaps (k p : Nat) (x y : Except Cause WriteCursor) : Prop := Recaps id WriteCursor.recap k p x y

theorem bwPushBits_recap (v n : Nat) (c : WriteCursor) : bwPushBits v n (c.recap k) = (bwPushBits v n c).recap k := by
  have push (b : Bool) (c : WriteCursor) : bwPush b (c.recap k) = (bwPush b c).recap k := by
    rw [bwPush, bwPush, apply_ite (WriteCursor.recap k)]
    rfl
  induction n generalizing v c with
  | zero => rfl
  | succ n ih => rw [bwPushBits, push, ih, bwPushBits]

theorem bwWrite_recaps (v n : Nat) {c : WriteCursor} (bit : c.bit < 8) :
    WriterRecaps k c.pos (bwWrite v n c) (bwWrite v n (c.recap k)) := by
  intro c' run
  obtain ⟨-, rfl⟩ := bwWrite_ok.1 run
  have pushed := bwPushBits_pushed v n bit
  refine ⟨pushed.bit, pushed.pos.symm ▸ Nat.le_add_right _ _, fun _ => ?_⟩
  have pos : (bwPushBits v n c).pos = (c.recap k).pos + n := pushed.pos
  dsimp only [id]
  by_cases fits : ceil8 (bwPushBits v n c).pos ≤ k
  · rw [if_pos fits]
    exact bwWrite_ok.2 ⟨pos ▸ fits, (bwPushBits_recap v n c).symm⟩
  · rw [if_neg fits]
    exact bwWrite_error.2 ⟨Nat.lt_of_not_le (pos ▸ fits), rfl⟩

theorem bwFlush_recaps {c : WriteCursor} (bit : c.bit < 8) :
    WriterRecaps k c.pos (bwFlush c) (bwFlush (c.recap k)) := by
  intro c' run
  rcases bwFlush_ok.1 run with ⟨aligned, rfl⟩ | ⟨pending, -, rfl⟩
  · refine ⟨bit, Nat.le_refl _, fun room => ?_⟩
    exact Eq.trans (bwFlush_ok.2 (.inl ⟨aligned, rfl⟩)) (if_pos room).symm
  · refine ⟨Nat.succ_pos 7, ?_, fun _ => ?_⟩
    · simp only [id, WriteCursor.pos]
      omega
    · have pos : ceil8 (8 * (c.byte + 1) + 0) = c.byte + 1 := by simp only [ceil8]; omega
      simp only [id, WriteCursor.pos, pos]
      by_cases fits : c.byte + 1 ≤ k
      · rw [if_pos fits]
        exact bwFlush_ok.2 (.inr ⟨pending, fits, rfl⟩)
      · rw [if_neg fits]
        exact bwFlush_error.2 ⟨pending, Nat.lt_of_not_le fits, rfl⟩

/-! #### DEFLATE -/

theorem writeFields_cons (f : BitField) (fs : List BitField) (c : WriteCursor) :
    writeFields (f :: fs) c = (bwWrite f.value f.width c >>= writeFields fs) := by
  rw [writeFields]
  cases bwWrite f.value f.width c <;> rfl

theorem writeFields_recaps (fs : List BitField) {c : WriteCursor} (bit : c.bit < 8) :
    WriterRecaps k c.pos (writeFields fs c) (writeFields fs (c.recap k)) := by
  induction fs generalizing c with
  | nil => exact .pure bit
  | cons f fs ih =>
    rw [writeFields_cons, writeFields_cons]
    exact (bwWrite_recaps f.value f.width bit).bind fun _ bit => ih bit

/-- The fields of a block as R337 chooses its kind, at writer position `wpos`. -/
def chosenFields (final : Bool) (wpos : Nat) (b : List Token) (src : List Byte) : List BitField :=
  blockFields final (chooseKind wpos (planDynamic b) b) wpos (planDynamic b) b (src.take (rawLen b))

theorem writeBlocks_cons (b : List Token) (bs : List (List Token)) (src : List Byte) (c : WriteCursor) :
    writeBlocks (b :: bs) src c =
      (writeFields (chosenFields bs.isEmpty c.pos b src) c >>= writeBlocks bs (src.drop (rawLen b))) := by
  rw [writeBlocks]
  change (match writeFields (chosenFields bs.isEmpty c.pos b src) c with | .error e => _ | .ok c' => _) = _
  cases writeFields (chosenFields bs.isEmpty c.pos b src) c <;> rfl

theorem deflateRun_eq (src : List Byte) (c : WriteCursor) :
    deflateRun src c = (writeBlocks (dflBlocks (lzTokens src dflLzParams)) src c >>= bwFlush) := by
  rw [deflateRun]
  cases writeBlocks (dflBlocks (lzTokens src dflLzParams)) src c <;> rfl

theorem writeBlocks_recaps (bs : List (List Token)) (src : List Byte) {c : WriteCursor} (bit : c.bit < 8) :
    WriterRecaps k c.pos (writeBlocks bs src c) (writeBlocks bs src (c.recap k)) := by
  induction bs generalizing src c with
  | nil => exact .pure bit
  | cons b bs ih =>
    rw [writeBlocks_cons, writeBlocks_cons]
    exact (writeFields_recaps _ bit).bind fun _ bit => ih _ bit

theorem deflateRun_recaps (src : List Byte) {c : WriteCursor} (bit : c.bit < 8) :
    WriterRecaps k c.pos (deflateRun src c) (deflateRun src (c.recap k)) := by
  rw [deflateRun_eq, deflateRun_eq]
  exact (writeBlocks_recaps _ src bit).bind fun _ bit => bwFlush_recaps bit

/-! #### SHRINK -/

/-- SHRINK with another capacity. -/
def ShrinkState.recap (k : Nat) (z : ShrinkState) : ShrinkState := { z with wr := z.wr.recap k }

abbrev ShrinkRecaps (k p : Nat) (x y : Except Cause ShrinkState) : Prop :=
  Recaps ShrinkState.wr ShrinkState.recap k p x y

theorem emit_recaps (c : Nat) {z : ShrinkState} (bit : z.wr.bit < 8) :
    ShrinkRecaps k z.wr.pos (z.emit c) ((z.recap k).emit c) := by
  have emit (z : ShrinkState) : z.emit c = (bwWrite c z.width z.wr >>= fun wr => .ok { z with wr := wr }) := by
    rw [ShrinkState.emit]
    cases bwWrite c z.width z.wr <;> rfl
  rw [emit, emit]
  exact (bwWrite_recaps c z.width bit).bind fun wr bit =>
    Recaps.pure (writer := ShrinkState.wr) (recap := ShrinkState.recap) (a := { z with wr := wr }) bit

theorem shrinkClear_recaps (survives : Bool) {z : ShrinkState} (bit : z.wr.bit < 8) :
    ShrinkRecaps k z.wr.pos (shrinkClear survives z) (shrinkClear survives (z.recap k)) :=
  (emit_recaps 256 bit).bind fun _ bit => (emit_recaps 2 bit).bind fun z bit =>
    Recaps.pure (writer := ShrinkState.wr) (recap := ShrinkState.recap) (a := { z with
      table := lzwPartialClear survives z.table
      map := (lzwFreed survives z.table).foldl (lzwMapDrop z.table) z.map }) bit

theorem shrinkWiden_recaps (nc fuel : Nat) {z : ShrinkState} (bit : z.wr.bit < 8) :
    ShrinkRecaps k z.wr.pos (shrinkWiden nc fuel z) (shrinkWiden nc fuel (z.recap k)) := by
  induction fuel generalizing z with
  | zero => exact .pure bit
  | succ fuel ih =>
    have width : (z.recap k).width = z.width := rfl
    rw [shrinkWiden, shrinkWiden, width]
    split
    · exact (emit_recaps 256 bit).bind fun _ bit => (emit_recaps 1 bit).bind fun z bit =>
        ih (z := { z with width := z.width + 1 }) bit
    · exact .pure bit

theorem shrinkInsert_recaps (b : Byte) (nc : Option Nat) {z : ShrinkState} (bit : z.wr.bit < 8) :
    ShrinkRecaps k z.wr.pos (shrinkInsert b nc z) (shrinkInsert b nc (z.recap k)) := by
  cases nc with
  | none => exact .pure bit
  | some nc =>
    exact (shrinkWiden_recaps nc _ bit).bind fun z bit =>
      Recaps.pure (writer := ShrinkState.wr) (recap := ShrinkState.recap)
        (a := { z with table := lzwInsert z.table nc z.cur b, map := lzwMapSet z.map (z.cur, b) nc }) bit

theorem shrinkByte_recaps (survives : Bool) (b : Byte) {z : ShrinkState} (bit : z.wr.bit < 8) :
    ShrinkRecaps k z.wr.pos (shrinkByte survives b z) (shrinkByte survives b (z.recap k)) := by
  have hit : lzwMapGet (z.recap k).map ((z.recap k).cur, b) = lzwMapGet z.map (z.cur, b) := rfl
  rw [shrinkByte, shrinkByte, hit]
  split
  · next c _ =>
    exact Recaps.pure (writer := ShrinkState.wr) (recap := ShrinkState.recap) (a := { z with cur := c }) bit
  · refine (emit_recaps z.cur bit).bind fun z bit => ?_
    have insert (z : ShrinkState) (bit : z.wr.bit < 8) : ShrinkRecaps k z.wr.pos
        (shrinkInsert b (lzwLowestFree z.table) z >>= fun z => .ok { z with cur := b.toNat })
        (shrinkInsert b (lzwLowestFree z.table) (z.recap k) >>= fun z => .ok { z with cur := b.toNat }) :=
      (shrinkInsert_recaps b _ bit).bind fun z bit =>
        Recaps.pure (writer := ShrinkState.wr) (recap := ShrinkState.recap) (a := { z with cur := b.toNat }) bit
    have table : (z.recap k).table = z.table := rfl
    rw [table]
    dsimp only
    split
    · exact (shrinkClear_recaps survives bit).bind insert
    · exact insert z bit

theorem shrinkBytes_recaps (survives : Bool) (bs : List Byte) {z : ShrinkState} (bit : z.wr.bit < 8) :
    ShrinkRecaps k z.wr.pos (shrinkBytes survives bs z) (shrinkBytes survives bs (z.recap k)) := by
  induction bs generalizing z with
  | nil => exact .pure bit
  | cons b bs ih =>
    have step (z : ShrinkState) : shrinkBytes survives (b :: bs) z =
        (shrinkByte survives b z >>= shrinkBytes survives bs) := by
      rw [shrinkBytes]
      cases shrinkByte survives b z <;> rfl
    rw [step, step]
    exact (shrinkByte_recaps survives b bit).bind fun _ bit => ih bit

theorem shrinkRun_eq (survives : Bool) (src : List Byte) (c : WriteCursor) :
    shrinkRun survives src c = (shrinkBody survives src c >>= bwFlush) := by
  rw [shrinkRun]
  cases shrinkBody survives src c <;> rfl

theorem shrinkRun_recaps (survives : Bool) (src : List Byte) {c : WriteCursor} (bit : c.bit < 8) :
    WriterRecaps k c.pos (shrinkRun survives src c) (shrinkRun survives src (c.recap k)) := by
  rw [shrinkRun_eq, shrinkRun_eq]
  refine Recaps.bind ?_ fun _ bit => bwFlush_recaps bit
  cases src with
  | nil => exact .pure bit
  | cons b bs =>
    exact (shrinkBytes_recaps survives bs (z := ⟨lzwInit, Config.lzwMinWidth, b.toNat, [], c⟩) bit).bind fun z bit =>
      (emit_recaps z.cur bit).bind fun z bit => Recaps.pure (writer := id) (a := z.wr) bit

end Recaps

/-- R165: a flushed writer stands at a byte boundary. -/
theorem bwFlush_ceil8 {c c' : WriteCursor} (flush : bwFlush c = .ok c') : ceil8 c'.pos = c'.byte := by
  have bit : c'.bit = 0 := by
    rcases bwFlush_ok.1 flush with ⟨aligned, rfl⟩ | ⟨-, -, rfl⟩
    · exact aligned
    · rfl
  rw [WriteCursor.pos, bit, ceil8]
  omega

/-- A run that ends with a flush. -/
theorem ceil8_of_bind_bwFlush {x : Except Cause WriteCursor} {wr : WriteCursor} (run : (x >>= bwFlush) = .ok wr) :
    ceil8 wr.pos = wr.byte := by
  cases x with
  | error c => cases run
  | ok c => exact bwFlush_ceil8 run

section Boundary

variable {s t : State} {c : Word} {wr : WriteCursor} {r : Except Cause WriteCursor}

/-- R341, R390: what the ends of two runs that differ in capacity have in common. -/
theorem encoded_boundary (inside : wr.InBuffer s.dstAddr.toNat s.dstCap.toNat) (aligned : ceil8 wr.pos = wr.byte)
    (same : r = if ceil8 wr.pos ≤ c.toNat then .ok (wr.recap c.toNat) else .error .bwOverflow)
    (delivered : t = s.deliverWrites wr) {o : Out} (run : o = .next (State.encoded { s with dstCap := c } r)) :
    (t.written.toNat ≤ c.toNat → ∃ t', o = .next t' ∧ t'.status.result = .ok ∧ t'.written = t.written ∧
      t'.consumed = t.consumed ∧
      ∀ k < t.written.toNat, t'.mem.read (s.dstAddr.toNat + k) = t.mem.read (s.dstAddr.toNat + k)) ∧
    (c.toNat < t.written.toNat → ∃ t', o = .next t' ∧ t'.status.cause = .bwOverflow ∧ t'.status.bwFail = true ∧
      t'.consumed = 0 ∧ t'.written = 0) := by
  subst delivered
  rw [(deliverWrites_byte inside).1]
  rw [aligned] at same
  refine ⟨fun room => ⟨_, run, ?_⟩, fun short => ⟨_, run, ?_⟩⟩
  · rw [same, if_pos room]
    exact ⟨rfl, rfl, rfl, fun _ _ => rfl⟩
  · rw [same, if_neg (Nat.not_le.2 short), State.encoded, failBuffer_eq]
    exact ⟨rfl, Bool.or_true _, rfl, rfl⟩

end Boundary

/-- Settles O42: the two runs make the same writes as far as the smaller capacity goes. -/
theorem encoderCapacityBoundary : Obligations.EncoderCapacityBoundary := by
  intro i s t c encoder run ok apart plain
  have start : s.privateWriter.bit < 8 := Nat.succ_pos 7
  have writer := privateWriter_inBuffer s
  rcases encoder with rfl | rfl
  · obtain ⟨wr, written, delivered⟩ := deflate_of_ok run ok
    have inside := (deflateRun_ends _ writer).of_ok written
    obtain ⟨-, -, same⟩ := deflateRun_recaps (k := c.toNat) s.srcBytes start wr written
    rw [deflateRun_eq] at written
    exact encoded_boundary inside (ceil8_of_bind_bwFlush written) (same (ceil8_le.2 (Nat.zero_le _))) delivered
      (exec_deflate apart plain)
  · obtain ⟨wr, written, delivered⟩ := shrink_of_ok run ok
    have inside := (shrinkRun_ends _ _ writer).of_ok written
    obtain ⟨-, -, same⟩ := shrinkRun_recaps (k := c.toNat) Config.lzwSelfPrefixSurvives s.srcBytes start wr written
    rw [shrinkRun_eq] at written
    exact encoded_boundary inside (ceil8_of_bind_bwFlush written) (same (ceil8_le.2 (Nat.zero_le _))) delivered
      (exec_shrink apart plain)

end Sys2Proof.Machine

namespace Sys2Proof.Machine

/-! ### The stream of DEFLATE as fields (R330, R332, R337) -/

/-- The fields of the blocks, each of the kind chosen at its position, from writer position `wpos` on. -/
def streamFields : List (List Token) → List Byte → Nat → List BitField
  | [], _, _ => []
  | b :: bs, src, wpos =>
    chosenFields bs.isEmpty wpos b src ++
      streamFields bs (src.drop (rawLen b)) (wpos + fieldBits (chosenFields bs.isEmpty wpos b src))

theorem writeFields_append (fs gs : List BitField) (c : WriteCursor) :
    writeFields (fs ++ gs) c = (writeFields fs c >>= writeFields gs) := by
  induction fs generalizing c with
  | nil => rfl
  | cons f fs ih =>
    rw [List.cons_append, writeFields_cons, writeFields_cons]
    cases bwWrite f.value f.width c with
    | error e => rfl
    | ok c' => exact ih c'

/-- R338: writing the blocks is writing their fields. -/
theorem writeBlocks_eq (bs : List (List Token)) (src : List Byte) {c : WriteCursor} (bit : c.bit < 8) :
    writeBlocks bs src c = writeFields (streamFields bs src c.pos) c := by
  induction bs generalizing src c with
  | nil => rfl
  | cons b bs ih =>
    rw [writeBlocks_cons, streamFields, writeFields_append]
    cases write : writeFields (chosenFields bs.isEmpty c.pos b src) c with
    | error e => rfl
    | ok c' =>
      have pushed := writeFields_pushed bit write
      rw [← fieldBits] at pushed
      rw [← pushed.pos]
      exact ih _ pushed.bit

/-- R164: with room for all of their bits the fields are written. -/
theorem writeFields_of_room {fs : List BitField} {c : WriteCursor} (bit : c.bit < 8)
    (room : c.pos + fieldBits fs ≤ 8 * c.cap) : ∃ c', writeFields fs c = .ok c' := by
  induction fs generalizing c with
  | nil => exact ⟨c, rfl⟩
  | cons f fs ih =>
    rw [fieldBits_cons] at room
    have pushed := bwPushBits_pushed f.value f.width bit
    obtain ⟨c', write⟩ := ih pushed.bit (by rw [pushed.pos, pushed.cap]; omega)
    exact ⟨c', writeFields_cons_ok.2 ⟨ceil8_le.2 (by omega), write⟩⟩

theorem bwFlush_of_room {c : WriteCursor} (bit : c.bit < 8) (room : c.pos ≤ 8 * c.cap) : ∃ c', bwFlush c = .ok c' := by
  rw [WriteCursor.pos] at room
  by_cases aligned : c.bit = 0
  · exact ⟨_, bwFlush_ok.2 (.inl ⟨aligned, rfl⟩)⟩
  · exact ⟨_, bwFlush_ok.2 (.inr ⟨aligned, by omega, rfl⟩)⟩

/-! ### Blocks of tokens (R332) -/

section Blocks

variable {k fuel : Nat} {toks : List Token}

theorem splitTokens_flatten (k fuel : Nat) (toks : List Token) : (splitTokens k fuel toks).flatten = toks := by
  induction fuel generalizing toks with
  | zero => simp [splitTokens]
  | succ fuel ih =>
    rw [splitTokens]
    split
    · simp
    · rw [List.flatten_cons, ih, List.take_append_drop]

/-- Every block but the last one has `k` tokens. -/
theorem splitTokens_length_le (k fuel : Nat) (toks : List Token) :
    k * (splitTokens k fuel toks).length ≤ k + toks.length := by
  induction fuel generalizing toks with
  | zero => simp [splitTokens]
  | succ fuel ih =>
    rw [splitTokens]
    split
    · simp
    · have := ih (toks.drop k)
      rw [List.length_drop] at this
      rw [List.length_cons, Nat.mul_succ]
      omega

theorem splitTokens_ne_nil (k fuel : Nat) (toks : List Token) : splitTokens k fuel toks ≠ [] := by
  cases fuel with
  | zero => simp [splitTokens]
  | succ fuel =>
    rw [splitTokens]
    split <;> simp

end Blocks

/-! ### The tokens of DEFLATE fit its blocks (R331) -/

section Parse

variable {src : List Byte} {i : Nat} {b ts : List Token}

theorem rawLen_append (b ts : List Token) : rawLen (b ++ ts) = rawLen b + rawLen ts := by simp [rawLen]

/-- A parse covers the rest of the source. -/
theorem LzParse.rawLen_eq {p : LzParams} (h : LzParse src p i ts) (inside : i ≤ src.length) :
    i + rawLen ts = src.length := by
  induction h with
  | nil finished => exact Nat.le_antisymm inside finished
  | lit byte _ ih =>
    obtain ⟨lt, -⟩ := List.getElem?_eq_some_iff.1 byte
    rw [rawLen_cons, ← ih lt, Token.rawLen, Nat.add_assoc]
  | backRef found _ ih =>
    have := found.len_le
    rw [rawLen_cons, ← ih (by omega), Token.rawLen, Nat.add_assoc]

/-- R254, R331: the matches of DEFLATE are in the ranges of its symbols. -/
theorem LzParse.tokensFit (h : LzParse src dflLzParams i ts) : tokensFit i ts = true := by
  induction h with
  | nil => rfl
  | lit _ _ ih => exact (Bool.true_and _).trans ih
  | backRef found _ ih =>
    obtain ⟨pos, near, long, len, -, -⟩ := found
    have window : dflLzParams.window = 32768 := rfl
    have longest : dflLzParams.maxLen = 258 := rfl
    rw [Machine.tokensFit, Bool.and_eq_true]
    refine ⟨?_, ih⟩
    simp only [Token.fits, Bool.and_eq_true, decide_eq_true_eq]
    omega

end Parse

/-! ### The bound on the stream (R337) -/

section Bound

variable {src : List Byte} {b : List Token}

/-- R337: the block chosen is never larger than the fixed one. -/
theorem fieldBits_chosen_le (final : Bool) (wpos : Nat) (b : List Token) (src : List Byte) :
    fieldBits (chosenFields final wpos b src) ≤ fixedCost b := by
  have raw : (src.take (rawLen b)).length ≤ rawLen b := List.length_take_le _ _
  have huffman : fieldBits (blockFields final
      (if fixedCost b ≤ dynamicCost (planDynamic b) b then .fixed else .dynamic) wpos (planDynamic b) b
      (src.take (rawLen b))) ≤ fixedCost b := by
    split
    · exact (fieldBits_fixed ..).le
    · rw [fieldBits_dynamic]; omega
  rw [chosenFields, chooseKind]
  cases cost : storedCost wpos b with
  | none => exact huffman
  | some c =>
    dsimp only
    split
    · next smaller =>
      rw [storedCost] at cost
      split at cost
      · cases cost
        rw [fieldBits_stored]
        omega
      · cases cost
    · exact huffman

theorem fixedLit_le (s : Nat) : fixedLit.getD s 0 ≤ 9 := getD_le (by decide +kernel) s

theorem fixedDist_le (s : Nat) : fixedDist.getD s 0 ≤ 5 := getD_le (by decide) s

/-- Two bytes for each source byte hold a token of a fixed block with seven bits to spare. -/
theorem fixedToken_cost_le {n : Nat} {t : Token} (fits : t.fits n = true) :
    t.cost fixedLit fixedDist + 7 ≤ 16 * t.rawLen := by
  cases t with
  | lit x =>
    have := fixedLit_le x.toNat
    simp only [Token.cost, Token.rawLen]
    omega
  | backRef d l =>
    have lit := fixedLit_le (lsym l)
    have dist := fixedDist_le (dsym d)
    have lenBits : lextra l ≤ 5 := getD_le (by decide) _
    have distBits : dextra d ≤ 13 := getD_le (by decide) _
    simp only [Token.fits, Bool.and_eq_true, decide_eq_true_eq] at fits
    simp only [Token.cost, Token.rawLen]
    omega

theorem fixedCost_le (fits : ∀ t ∈ b, ∃ n, t.fits n = true) : fixedCost b + 7 * b.length ≤ 10 + 16 * rawLen b := by
  have eob : fixedLit.getD 256 0 = 7 := by decide +kernel
  have tokens : (b.map (Token.cost fixedLit fixedDist)).sum + 7 * b.length ≤ 16 * rawLen b := by
    induction b with
    | nil => exact Nat.le_refl _
    | cons t b ih =>
      rw [List.forall_mem_cons] at fits
      obtain ⟨⟨n, this⟩, fits⟩ := fits
      have := fixedToken_cost_le this
      have := ih fits
      rw [List.map_cons, List.sum_cons, List.length_cons, rawLen_cons]
      omega
  rw [fixedCost, dataCost, eob]
  omega

theorem streamFields_le {bs : List (List Token)} {wpos : Nat} (fits : ∀ t ∈ bs.flatten, ∃ n, t.fits n = true) :
    fieldBits (streamFields bs src wpos) + 7 * bs.flatten.length ≤ 10 * bs.length + 16 * rawLen bs.flatten := by
  induction bs generalizing src wpos with
  | nil => exact Nat.le_refl _
  | cons b bs ih =>
    rw [List.flatten_cons, List.forall_mem_append] at fits
    have block := fixedCost_le fits.1
    have chosen := fieldBits_chosen_le bs.isEmpty wpos b src
    have rest := ih (src := src.drop (rawLen b))
      (wpos := wpos + fieldBits (chosenFields bs.isEmpty wpos b src)) fits.2
    rw [streamFields, fieldBits_append, List.flatten_cons, rawLen_append, List.length_append, List.length_cons]
    omega

/-- R330, R337: two bytes for each source byte and two more hold the stream. -/
theorem deflateFields_le (src : List Byte) :
    fieldBits (streamFields (dflBlocks (lzTokens src dflLzParams)) src 0) ≤ 16 * src.length + 10 := by
  have parse := lzTokens_parse src dflLzParams
  have covers := parse.rawLen_eq (Nat.zero_le _)
  have blocks := splitTokens_length_le Config.dflBlockTokens (lzTokens src dflLzParams).length
    (lzTokens src dflLzParams)
  have flat : (dflBlocks (lzTokens src dflLzParams)).flatten = lzTokens src dflLzParams := splitTokens_flatten _ _ _
  have bits := streamFields_le (bs := dflBlocks (lzTokens src dflLzParams)) (src := src) (wpos := 0)
    (by rw [flat]; exact fun t mem => exists_fits_of_mem parse.tokensFit mem)
  rw [flat] at bits
  rw [← dflBlocks, Config.dflBlockTokens] at blocks
  omega

end Bound

/-- R330: with two bytes of room for each source byte and two more, DEFLATE writes its stream. -/
theorem deflateRun_of_room {src : List Byte} {base cap : Nat} (room : 2 * (src.length + 1) ≤ cap) :
    ∃ wr, deflateRun src ⟨base, cap, 0, 0, 0, []⟩ = .ok wr ∧ wr.byte ≤ 2 * (src.length + 1) := by
  have bits := deflateFields_le src
  have start := emptyWriter_inBuffer base cap
  have pos : WriteCursor.pos ⟨base, cap, 0, 0, 0, []⟩ = 0 := rfl
  have stream := writeBlocks_eq (dflBlocks (lzTokens src dflLzParams)) src start.inside.bit
  rw [pos] at stream
  obtain ⟨c, write⟩ := writeFields_of_room (fs := streamFields (dflBlocks (lzTokens src dflLzParams)) src 0)
    start.inside.bit (show 0 + _ ≤ 8 * cap by omega)
  have written := (writeFields_ends _ start).of_ok write
  have pushed : c.pos = 0 + fieldBits _ := (writeFields_pushed start.inside.bit write).pos
  obtain ⟨wr, flush⟩ := bwFlush_of_room written.inside.bit (by rw [pushed, written.cap_eq]; omega)
  obtain ⟨-, -, -, -, byte, -⟩ := bwFlush_inside flush written.inside
  refine ⟨wr, ?_, byte.trans_le (ceil8_le.2 (by omega))⟩
  rw [deflateRun_eq, stream, bind_of_ok write, flush]

/-- R176: delivered writes change no byte outside the ones written. -/
theorem deliverWrites_frame {s : State} {wr : WriteCursor} (inside : wr.InBuffer s.dstAddr.toNat s.dstCap.toNat)
    {a : Nat} (outside : a < s.dstAddr.toNat ∨ s.dstAddr.toNat + wr.byte ≤ a) :
    (s.deliverWrites wr).mem.read a = s.mem.read a := by
  refine read_applyWrites_outside fun x mem => ?_
  have := inside.inside.writes x mem
  rw [inside.base_eq] at this
  omega

/-- Settles O41: the bits of the stream are at most those of fixed blocks, whose tokens take at most 16 bits for each
byte they cover. -/
theorem deflateCompletes : Obligations.DeflateCompletes := by
  intro s apart plain room
  rw [← srcBytes_length] at room ⊢
  obtain ⟨wr, run, bound⟩ := deflateRun_of_room (base := s.dstAddr.toNat) room
  have run : deflateRun s.srcBytes s.privateWriter = .ok wr := run
  have inside := (deflateRun_ends _ (privateWriter_inBuffer s)).of_ok run
  have written := (deliverWrites_byte inside).1
  refine ⟨s.deliverWrites wr, ?_, ?_, by rwa [written], fun a outside => ?_⟩
  · rw [exec_deflate apart plain, run, State.encoded]
  · rw [State.deliverWrites, State.report, BitVec.ofNat_toNat, BitVec.setWidth_eq]
    rfl
  · rw [written] at outside
    exact deliverWrites_frame inside outside

end Sys2Proof.Machine

namespace Sys2Proof.Machine

/-! ### Complete lengths (R202) -/

/-- Lengths that a decoder accepts under every policy: within the limit, and a complete code unless at most one symbol
is used. -/
structure Complete (len : List Nat) : Prop where
  short : ∀ l ∈ len, l ≤ 15
  kraft : 2 ≤ usedSymbols len → kraftSum 15 len = 2 ^ 15

section Kraft

variable {len : List Nat} {top k : Nat}

theorem kraftSum_add (h : ∀ l ∈ len, l ≤ top) : kraftSum (top + k) len = 2 ^ k * kraftSum top len := by
  rw [kraftSum, kraftSum, ← List.sum_map_mul_left]
  refine congrArg List.sum (List.map_congr_left fun l hl => ?_)
  have := h l (List.mem_of_mem_filter hl)
  rw [← Nat.pow_add]
  congr 1
  omega

/-- A code that fills `2^top` fills every larger power of two as well. -/
theorem kraftSum_eq_iff (h : ∀ l ∈ len, l ≤ top) (le : top ≤ 15) :
    kraftSum 15 len = 2 ^ 15 ↔ kraftSum top len = 2 ^ top := by
  have scale := kraftSum_add (k := 15 - top) h
  have full : 2 ^ 15 = 2 ^ (15 - top) * 2 ^ top := by rw [← Nat.pow_add, Nat.sub_add_cancel le]
  rw [Nat.add_sub_cancel' le] at scale
  rw [scale, full, Nat.mul_right_inj (Nat.two_pow_pos _).ne']

theorem kraftSum_le_of_usedSymbols_le_one (one : usedSymbols len ≤ 1) : kraftSum top len ≤ 2 ^ top := by
  rw [usedSymbols] at one
  rw [kraftSum]
  match len.filter (fun l => decide (0 < l)), one with
  | [], _ => exact Nat.zero_le _
  | [l], _ => simpa using Nat.pow_le_pow_right (by decide) (Nat.sub_le top l)

theorem Complete.decodable (h : Complete len) : Decodable len := by
  refine ⟨h.short, ?_⟩
  rcases Nat.lt_or_ge (usedSymbols len) 2 with one | two
  · exact kraftSum_le_of_usedSymbols_le_one (by omega)
  · exact (h.kraft two).le

theorem Complete.hufCheck (h : Complete len) (policy : IncompletePolicy) : hufCheck policy len = none := by
  have within : ¬ (len.any fun l => decide (Config.hufMaxLen < l)) = true := by
    rw [List.any_eq_true]
    rintro ⟨l, mem, long⟩
    exact absurd (h.short l mem) (Nat.not_le.2 (of_decide_eq_true long))
  have filled : usedSymbols len ≠ 0 → usedSymbols len ≠ 1 → 2 ^ maxLen len - kraftSum (maxLen len) len = 0 := by
    intro zero one
    have := (kraftSum_eq_iff (fun l => le_maxLen) (maxLen_le h.short)).1 (h.kraft (by omega))
    omega
  rw [Machine.hufCheck, if_neg within, ← usedSymbols]
  split
  · rfl
  · next zero =>
    rw [if_neg (Nat.not_lt.2 h.decodable.kraft)]
    split
    · rfl
    · next one =>
      rw [filled zero one]
      cases policy <;> rfl

end Kraft

/-! ### The lengths of R200 -/

section HufLengths

variable {freq : List Nat} {limit : Nat} (min : 1 ≤ limit) (max : limit ≤ 15) (room : usedSymbols freq ≤ 2 ^ limit)

include min room in
theorem usedSymbols_hufLengths : usedSymbols (hufLengths freq limit) = usedSymbols freq := by
  rw [← usedList_length, ← usedList_length, usedList, usedList, hufLengths_length]
  refine congrArg List.length (List.filter_congr fun s _ => decide_eq_decide.2 ?_)
  exact hufLengths_pos_iff min room

include min max room in
theorem complete_hufLengths : Complete (hufLengths freq limit) := by
  have le (l : Nat) (mem : l ∈ hufLengths freq limit) : l ≤ limit := by
    have := hufLengths_le mem
    omega
  refine ⟨fun l mem => (le l mem).trans max, fun two => ?_⟩
  rw [usedSymbols_hufLengths min room] at two
  obtain ⟨-, -, -, -, full⟩ := codeLengthsAreComplete freq limit min max room
  exact (kraftSum_eq_iff le max).2 (full two)

end HufLengths

theorem usedSymbols_le (freq : List Nat) : usedSymbols freq ≤ freq.length := List.length_filter_le _ _

/-! ### Unused symbols at the end of a code -/

section Zeros

variable {len : List Nat} {k : Nat}

theorem getD_append_zeros (l : List Nat) (k s : Nat) : (l ++ List.replicate k 0).getD s 0 = l.getD s 0 := by
  rcases Nat.lt_or_ge s l.length with inside | outside
  · exact List.getD_append _ _ _ _ inside
  · rw [List.getD_append_right _ _ _ _ outside, List.getD_eq_default _ _ outside]
    rcases Nat.lt_or_ge (s - l.length) k with h | h
    · rw [List.getD_replicate _ h]
    · exact List.getD_eq_default _ _ (by rwa [List.length_replicate])

theorem usedSymbols_append_zeros : usedSymbols (len ++ List.replicate k 0) = usedSymbols len := by
  simp [usedSymbols]

theorem kraftSum_append_zeros (top : Nat) : kraftSum top (len ++ List.replicate k 0) = kraftSum top len := by
  simp [kraftSum]

theorem Complete.of_append_zeros (h : Complete (len ++ List.replicate k 0)) : Complete len := by
  obtain ⟨short, kraft⟩ := h
  rw [usedSymbols_append_zeros, kraftSum_append_zeros] at kraft
  exact ⟨fun l mem => short l (List.mem_append_left _ mem), kraft⟩

theorem assignCodes_append_zeros (len next : List Nat) (k : Nat) :
    assignCodes (len ++ List.replicate k 0) next = assignCodes len next ++ List.replicate k 0 := by
  induction len generalizing next with
  | nil =>
    induction k with
    | zero => rfl
    | succ k ih =>
      rw [List.replicate_succ]
      exact (if_pos rfl).trans (congrArg (0 :: ·) ih)
  | cons l len ih =>
    rw [List.cons_append, assignCodes, assignCodes]
    split
    · rw [ih, List.cons_append]
    · rw [ih, List.cons_append]

theorem firstCode_append_zeros (len : List Nat) (k l : Nat) :
    firstCode (len ++ List.replicate k 0) l = firstCode len l := by
  induction l with
  | zero => rfl
  | succ l ih =>
    rw [firstCode, firstCode, ih, List.count_append]
    split
    · rfl
    · next pos => rw [List.count_replicate, if_neg (by simpa using Ne.symm pos), Nat.add_zero]

/-- R201: unused symbols at the end change no codeword. -/
theorem hufCanon_append_zeros (len : List Nat) (k : Nat) :
    hufCanon (len ++ List.replicate k 0) = hufCanon len ++ List.replicate k 0 := by
  rw [hufCanon, assignCodes_append_zeros, funext (firstCode_append_zeros len k), hufCanon]

theorem hufField_append_zeros (len : List Nat) (k s : Nat) :
    hufField (hufInstall (len ++ List.replicate k 0)) s = hufField (hufInstall len) s := by
  have code : (hufInstall (len ++ List.replicate k 0)).code.getD s 0 = (hufInstall len).code.getD s 0 :=
    (congrArg (·.getD s 0) (hufCanon_append_zeros len k)).trans (getD_append_zeros _ k s)
  have width : (hufInstall (len ++ List.replicate k 0)).len.getD s 0 = (hufInstall len).len.getD s 0 :=
    getD_append_zeros len k s
  rw [hufField, hufField, code, width]

end Zeros

end Sys2Proof.Machine

namespace Sys2Proof.Machine

/-! ### The counts of a plan (R334, R335) -/

/-- Behind the used count there are only zeros. -/
theorem eq_zero_of_mem_drop_usedCount {l : List Nat} {n x : Nat} (h : usedCount l ≤ n) (mem : x ∈ l.drop n) :
    x = 0 := by
  induction l generalizing n with
  | nil => simp at mem
  | cons y l ih =>
    rw [usedCount] at h
    cases n with
    | zero =>
      have none : ¬ 0 < usedCount l ∧ ¬ 0 < y := by
        split at h
        · omega
        · split at h <;> omega
      rcases List.mem_cons.1 mem with rfl | mem
      · omega
      · exact ih (n := 0) (by omega) mem
    | succ n =>
      refine ih (n := n) ?_ mem
      split at h <;> omega

/-- R334: what a count leaves out is unused. -/
theorem eq_take_append_zeros {l : List Nat} {n : Nat} (h : usedCount l ≤ n) :
    l = l.take n ++ List.replicate (l.length - n) 0 := by
  conv_lhs => rw [← List.take_append_drop n l]
  rw [← List.length_drop, ← List.eq_replicate_of_mem fun x mem => eq_zero_of_mem_drop_usedCount h mem]

/-! ### The distance padding (R333) -/

section Pad

variable {dl : List Nat}

theorem padDist_eq (dl : List Nat) : padDist dl = match usedList dl with
    | [] => (dl.set 0 1).set 1 1
    | [u] => dl.set (if u = 0 then 1 else 0) 1
    | _ => dl := by
  have used : dl.zipIdx.filter (fun p => decide (0 < p.1)) = (usedList dl).map fun s => (dl.getD s 0, s) := by
    rw [zipIdx_eq_map_range, List.filter_map]
    rfl
  rw [padDist, used]
  match usedList dl with
  | [] => rfl
  | [u] => rfl
  | u :: v :: us => rfl

theorem padDist_length (dl : List Nat) : (padDist dl).length = dl.length := by
  rw [padDist_eq]
  split <;> simp

/-- R333: the padding takes no codeword away. -/
theorem padDist_pos {s : Nat} (used : 0 < dl.getD s 0) : 0 < (padDist dl).getD s 0 := by
  have inside := (getD_mem_of_pos used).1
  have set {l : List Nat} (i : Nat) (inside : s < l.length) (used : 0 < l.getD s 0) : 0 < (l.set i 1).getD s 0 := by
    rw [getD_set_eq inside]
    split
    · exact Nat.one_pos
    · exact used
  rw [padDist_eq]
  split
  · exact set 1 (by rwa [List.length_set]) (set 0 inside used)
  · exact set _ inside used
  · exact used

/-- Lengths of 30 distances of which only those of `us` are used. -/
theorem eq_zeros_of_usedList_nil (size : dl.length = 30) (none : usedList dl = []) : dl = List.replicate 30 0 := by
  rw [List.eq_replicate_iff]
  refine ⟨size, fun x mem => ?_⟩
  obtain ⟨s, inside, rfl⟩ := List.getElem_of_mem mem
  have unused : ¬ 0 < dl.getD s 0 := fun used => by simpa [none] using mem_usedList.2 used
  rw [List.getD_eq_getElem _ _ inside] at unused
  omega

/-- Lengths of 30 distances of which one has a codeword, of one bit. -/
theorem eq_set_of_usedList_single {u : Nat} (size : dl.length = 30) (one : usedList dl = [u]) (bit : dl.getD u 0 = 1) :
    u < 30 ∧ dl = (List.replicate 30 0).set u 1 := by
  have inside : u < dl.length := (getD_mem_of_pos (by omega : 0 < dl.getD u 0)).1
  refine ⟨size ▸ inside, List.ext_getElem (by simp [size]) fun s hs _ => ?_⟩
  have used : 0 < dl.getD s 0 ↔ s = u := by rw [← mem_usedList, one, List.mem_singleton]
  rw [List.getD_eq_getElem _ _ hs] at used
  rw [List.getD_eq_getElem _ _ inside] at bit
  rw [List.getElem_set]
  split
  · next e => subst e; exact bit
  · next ne =>
    rw [List.getElem_replicate]
    have : ¬ 0 < dl[s] := fun pos => ne (used.1 pos).symm
    omega

/-- R333: padded, the distance lengths are always a complete code. -/
theorem complete_padDist {freq : List Nat} (size : freq.length = 30) : Complete (padDist (hufLengths freq 15)) := by
  have room : usedSymbols freq ≤ 2 ^ 15 := (usedSymbols_le freq).trans (by rw [size]; decide)
  have len : (hufLengths freq 15).length = 30 := (hufLengths_length freq 15).trans size
  have count := usedSymbols_hufLengths (by decide) room
  rw [padDist_eq]
  split
  · next none =>
    rw [eq_zeros_of_usedList_nil len none]
    exact ⟨by decide, fun _ => by decide +kernel⟩
  · next u one =>
    rw [← usedList_length, one] at count
    obtain ⟨-, -, -, single, -⟩ := codeLengthsAreComplete freq 15 (by decide) (by decide) room
    have used : 0 < freq.getD u 0 := (hufLengths_pos_iff (by decide) room).1
      (mem_usedList.1 (by rw [one]; exact List.mem_singleton_self u))
    obtain ⟨small, eq⟩ := eq_set_of_usedList_single len one (single count.symm u used)
    rw [eq]
    exact ⟨(by decide +kernel : ∀ u < 30, ∀ l ∈ ((List.replicate 30 0).set u 1).set (if u = 0 then 1 else 0) 1, l ≤ 15)
      u small, fun _ => (by decide +kernel : ∀ u < 30,
        kraftSum 15 (((List.replicate 30 0).set u 1).set (if u = 0 then 1 else 0) 1) = 2 ^ 15) u small⟩
  · exact complete_hufLengths (by decide) (by decide) room

end Pad

/-! ### The run-length items (R334, R317) -/

/-- Behind the code lengths `seq` the item stands for `r` lengths `v` (R286, R317). -/
inductive RlItem.Run (seq : List Nat) : RlItem → Nat → Nat → Prop
  | length {v : Nat} (short : v ≤ 15) : Run seq ⟨v, 0⟩ v 1
  | copy {v e : Nat} (last : seq.getLast? = some v) (extra : e < 4) : Run seq ⟨16, e⟩ v (3 + e)
  | zeros {e : Nat} (extra : e < 8) : Run seq ⟨17, e⟩ 0 (3 + e)
  | manyZeros {e : Nat} (extra : e < 128) : Run seq ⟨18, e⟩ 0 (11 + e)

/-- The items take the code lengths `seq` to `out`. -/
inductive Unrle : List Nat → List RlItem → List Nat → Prop
  | nil {seq : List Nat} : Unrle seq [] seq
  | cons {seq out : List Nat} {x : RlItem} {xs : List RlItem} {v r : Nat} (run : x.Run seq v r)
      (rest : Unrle (seq ++ List.replicate r v) xs out) : Unrle seq (x :: xs) out

section Unrle

variable {seq mid out : List Nat} {x : RlItem} {xs ys : List RlItem} {v r fuel : Nat}

theorem RlItem.Run.pos (h : x.Run seq v r) : 0 < r := by cases h <;> omega

theorem RlItem.Run.sym_lt (h : x.Run seq v r) : x.sym < 19 := by cases h <;> dsimp only <;> omega

theorem Unrle.append (h : Unrle seq xs mid) (h' : Unrle mid ys out) : Unrle seq (xs ++ ys) out := by
  induction h with
  | nil => exact h'
  | cons run _ ih => exact .cons run (ih h')

theorem Unrle.length_le (h : Unrle seq xs out) : seq.length + xs.length ≤ out.length := by
  induction h with
  | nil => exact Nat.le_refl _
  | cons run _ ih =>
    have := run.pos
    rw [List.length_append, List.length_replicate] at ih
    rw [List.length_cons]
    omega

theorem Unrle.sym_lt (h : Unrle seq xs out) : ∀ x ∈ xs, x.sym < 19 := by
  induction h with
  | nil => simp
  | cons run _ ih => exact List.forall_mem_cons.2 ⟨run.sym_lt, ih⟩

/-- A run cut in two. -/
theorem Unrle.cons_replicate {j k : Nat} (run : x.Run seq v j) (sum : j + k = r)
    (rest : Unrle (seq ++ List.replicate j v) xs (seq ++ List.replicate j v ++ List.replicate k v)) :
    Unrle seq (x :: xs) (seq ++ List.replicate r v) := by
  rw [List.append_assoc, List.replicate_append_replicate, sum] at rest
  exact .cons run rest

theorem unrle_replicate (short : v ≤ 15) (r : Nat) (seq : List Nat) :
    Unrle seq (List.replicate r ⟨v, 0⟩) (seq ++ List.replicate r v) := by
  induction r generalizing seq with
  | zero => simpa using Unrle.nil
  | succ r ih => exact .cons_replicate (.length short) (Nat.add_comm 1 r) (ih _)

/-- R334: the items of a run of zeros. -/
theorem unrle_rleZeros (enough : r ≤ fuel) (seq : List Nat) :
    Unrle seq (rleZeros fuel r) (seq ++ List.replicate r 0) := by
  induction fuel generalizing r seq with
  | zero =>
    rw [Nat.le_zero.1 enough]
    simpa [rleZeros] using Unrle.nil
  | succ fuel ih =>
    rw [rleZeros]
    split
    · exact .cons_replicate (.manyZeros (by omega)) (by omega) (ih (r := r - min r 138) (by omega) _)
    · split
      · exact .cons_replicate (k := 0) (.zeros (by omega)) (by omega) (unrle_replicate (by decide) 0 _)
      · exact unrle_replicate (by decide) r seq

/-- R334: the items of the repeats of a length that stands last. -/
theorem unrle_rleCopies (short : v ≤ 15) (enough : r ≤ fuel) (last : seq.getLast? = some v) :
    Unrle seq (rleCopies v fuel r) (seq ++ List.replicate r v) := by
  induction fuel generalizing r seq with
  | zero =>
    rw [Nat.le_zero.1 enough]
    simpa [rleCopies] using Unrle.nil
  | succ fuel ih =>
    rw [rleCopies]
    split
    · have last' : (seq ++ List.replicate (3 + (min r 6 - 3)) v).getLast? = some v := by
        rw [List.getLast?_append, List.getLast?_replicate, if_neg (by omega)]
        rfl
      exact .cons_replicate (.copy last (by omega)) (by omega) (ih (r := r - min r 6) (by omega) last')
    · exact unrle_replicate short r seq

theorem eq_replicate_runLen_append (v : Nat) (l : List Nat) :
    l = List.replicate (runLen v l) v ++ l.drop (runLen v l) := by
  induction l with
  | nil => rfl
  | cons x l ih =>
    rw [runLen]
    split
    · next same =>
      subst same
      rw [List.replicate_succ, List.drop_succ_cons, List.cons_append, ← ih]
    · rfl

/-- R334: the items of a length sequence stand for it. -/
theorem unrle_rleFrom {l : List Nat} (short : ∀ x ∈ l, x ≤ 15) (enough : l.length ≤ fuel) (seq : List Nat) :
    Unrle seq (rleFrom fuel l) (seq ++ l) := by
  induction fuel generalizing l seq with
  | zero =>
    rw [List.eq_nil_of_length_eq_zero (Nat.le_zero.1 enough)]
    simpa [rleFrom] using Unrle.nil
  | succ fuel ih =>
    cases l with
    | nil => simpa [rleFrom] using Unrle.nil
    | cons v l =>
      rw [List.forall_mem_cons] at short
      have run := eq_replicate_runLen_append v l
      have rest := ih (l := l.drop (runLen v l)) (fun x mem => short.2 x (List.mem_of_mem_drop mem))
        (by rw [List.length_drop]; rw [List.length_cons] at enough; omega) (seq ++ List.replicate (runLen v l + 1) v)
      rw [List.append_assoc, List.replicate_succ, List.cons_append, ← run] at rest
      rw [rleFrom, Nat.add_sub_cancel]
      refine Unrle.append ?_ rest
      split
      · next zero =>
        subst zero
        exact unrle_rleZeros (Nat.le_refl _) seq
      · exact .cons_replicate (.length short.1) (Nat.add_comm 1 _)
          (unrle_rleCopies short.1 (Nat.le_succ _) List.getLast?_concat)

theorem unrle_rle {l : List Nat} (short : ∀ x ∈ l, x ≤ 15) : Unrle [] (rle l) l :=
  unrle_rleFrom short (Nat.le_refl _) []

end Unrle

/-! ### What a plan is (R333 to R335) -/

/-- What a decoder needs of a plan: counts within the header's fields, complete codes with nothing used behind the
counts, and run-length items, coded, that stand for the lengths counted. -/
structure DynPlan.Readable (p : DynPlan) : Prop where
  ll_length : p.ll.length = 286
  dl_length : p.dl.length = 30
  cl_length : p.cl.length = 19
  hlit : 257 ≤ p.hlit ∧ p.hlit ≤ 286
  hdist : 1 ≤ p.hdist ∧ p.hdist ≤ 30
  hclen : 4 ≤ p.hclen ∧ p.hclen ≤ 19
  ll_rest : p.ll = p.ll.take p.hlit ++ List.replicate (286 - p.hlit) 0
  dl_rest : p.dl = p.dl.take p.hdist ++ List.replicate (30 - p.hdist) 0
  cl_rest : ∀ s ∈ clOrder.drop p.hclen, p.cl.getD s 0 = 0
  ll_complete : Complete p.ll
  dl_complete : Complete p.dl
  cl_complete : Complete p.cl
  cl_le : ∀ l ∈ p.cl, l ≤ 7
  items : Unrle [] p.rl (p.ll.take p.hlit ++ p.dl.take p.hdist)
  items_coded : ∀ x ∈ p.rl, 0 < p.cl.getD x.sym 0

theorem count_map_range_pos {syms : List Nat} {n s : Nat} (small : s < n) (mem : s ∈ syms) :
    0 < ((List.range n).map fun s => syms.count s).getD s 0 := by
  rw [getD_map_range _ small]
  exact List.count_pos_iff.2 mem

/-- How often each code-length symbol is used (R335). -/
def itemFreq (rl : List RlItem) : List Nat := (List.range 19).map fun s => (rl.map RlItem.sym).count s

theorem itemFreq_room (rl : List RlItem) : usedSymbols (itemFreq rl) ≤ 2 ^ 7 :=
  (usedSymbols_le _).trans (((List.length_map _).trans List.length_range).trans_le (by decide : 19 ≤ 2 ^ 7))

/-- The plan for given code lengths (R334, R335). -/
def planOf (ll dl : List Nat) : DynPlan :=
  let hlit := max 257 (usedCount ll)
  let hdist := max 1 (usedCount dl)
  let rl := rle (ll.take hlit ++ dl.take hdist)
  let cl := hufLengths (itemFreq rl) 7
  ⟨ll, dl, hlit, hdist, rl, cl, max 4 (usedCount (clOrder.map fun s => cl.getD s 0))⟩

theorem planDynamic_eq (b : List Token) :
    planDynamic b = planOf (hufLengths (litFreq b) 15) (padDist (hufLengths (distFreq b) 15)) := rfl

section PlanOf

variable {ll dl : List Nat}

theorem planOf_cl : (planOf ll dl).cl = hufLengths (itemFreq (planOf ll dl).rl) 7 := rfl

theorem planOf_hclen :
    (planOf ll dl).hclen = max 4 (usedCount (clOrder.map fun s => (planOf ll dl).cl.getD s 0)) := rfl

theorem planOf_items (ll_short : ∀ l ∈ ll, l ≤ 15) (dl_short : ∀ l ∈ dl, l ≤ 15) :
    Unrle [] (planOf ll dl).rl (ll.take (planOf ll dl).hlit ++ dl.take (planOf ll dl).hdist) := by
  refine unrle_rle fun x mem => ?_
  rcases List.mem_append.1 mem with mem | mem
  · exact ll_short x (List.mem_of_mem_take mem)
  · exact dl_short x (List.mem_of_mem_take mem)

/-- R335: what HCLEN leaves out is unused. -/
theorem planOf_cl_rest {s : Nat} (mem : s ∈ clOrder.drop (planOf ll dl).hclen) : (planOf ll dl).cl.getD s 0 = 0 := by
  refine eq_zero_of_mem_drop_usedCount (l := clOrder.map fun s => (planOf ll dl).cl.getD s 0)
    (n := (planOf ll dl).hclen) ?_ ?_
  · rw [planOf_hclen]
    exact Nat.le_max_right _ _
  · rw [← List.map_drop]
    exact List.mem_map_of_mem mem

theorem planOf_readable (ll_length : ll.length = 286) (dl_length : dl.length = 30)
    (ll_complete : Complete ll) (dl_complete : Complete dl) : (planOf ll dl).Readable := by
  have items := planOf_items ll_complete.short dl_complete.short
  refine
    { ll_length, dl_length, cl_length := ?_,
      hlit := ⟨Nat.le_max_left _ _, Nat.max_le.2 ⟨by decide, (usedCount_le ll).trans_eq ll_length⟩⟩,
      hdist := ⟨Nat.le_max_left _ _, Nat.max_le.2 ⟨by decide, (usedCount_le dl).trans_eq dl_length⟩⟩,
      hclen := ?_, ll_rest := ?_, dl_rest := ?_, cl_rest := fun s => planOf_cl_rest, ll_complete, dl_complete,
      cl_complete := ?_, cl_le := fun l mem => ?_, items, items_coded := fun x mem => ?_ }
  · rw [planOf_cl, hufLengths_length]
    exact (List.length_map _).trans List.length_range
  · rw [planOf_hclen]
    exact ⟨Nat.le_max_left _ _, Nat.max_le.2 ⟨by decide, usedCount_le _⟩⟩
  · rw [← ll_length]
    exact eq_take_append_zeros (Nat.le_max_right _ _)
  · rw [← dl_length]
    exact eq_take_append_zeros (Nat.le_max_right _ _)
  · rw [planOf_cl]
    exact complete_hufLengths (by decide) (by decide) (itemFreq_room _)
  · rw [planOf_cl] at mem
    exact hufLengths_le mem
  · rw [planOf_cl]
    exact (hufLengths_pos_iff (by decide) (itemFreq_room _)).2
      (count_map_range_pos (items.sym_lt x mem) (List.mem_map_of_mem mem))

end PlanOf

theorem litFreq_length (b : List Token) : (litFreq b).length = 286 := (List.length_map _).trans List.length_range

theorem distFreq_length (b : List Token) : (distFreq b).length = 30 := (List.length_map _).trans List.length_range

theorem litFreq_room (b : List Token) : usedSymbols (litFreq b) ≤ 2 ^ 15 :=
  (usedSymbols_le _).trans ((litFreq_length b).trans_le (by decide))

theorem distFreq_room (b : List Token) : usedSymbols (distFreq b) ≤ 2 ^ 15 :=
  (usedSymbols_le _).trans ((distFreq_length b).trans_le (by decide))

/-- R333 to R335: every plan is readable. -/
theorem planDynamic_readable (b : List Token) : (planDynamic b).Readable := by
  rw [planDynamic_eq]
  exact planOf_readable ((hufLengths_length _ _).trans (litFreq_length b))
    ((padDist_length _).trans ((hufLengths_length _ _).trans (distFreq_length b)))
    (complete_hufLengths (by decide) (by decide) (litFreq_room b)) (complete_padDist (distFreq_length b))

/-- R333: the end of block has a codeword. -/
theorem planDynamic_eob (b : List Token) : 0 < (planDynamic b).ll.getD 256 0 :=
  (hufLengths_pos_iff (by decide) (litFreq_room b)).2
    (count_map_range_pos (by decide) (List.mem_append_right _ (List.mem_singleton_self _)))

/-- R333: so have both symbols of every token. -/
theorem planDynamic_coded {b : List Token} {n : Nat} (fits : tokensFit n b = true) :
    ∀ t ∈ b, t.Coded (planDynamic b).ll (planDynamic b).dl := by
  intro t mem
  obtain ⟨k, fits⟩ := exists_fits_of_mem fits mem
  have lit (small : t.litSym < 286) : 0 < (planDynamic b).ll.getD t.litSym 0 :=
    (hufLengths_pos_iff (by decide) (litFreq_room b)).2
      (count_map_range_pos small (List.mem_append_left _ (List.mem_map_of_mem mem)))
  cases t with
  | lit x => exact ⟨lit (x.isLt.trans (by decide)), fun s sym => by cases sym⟩
  | backRef d l =>
    obtain ⟨length, distance, -⟩ := fits_backRef fits
    refine ⟨lit (Nat.lt_of_le_of_lt length.max (by decide)), fun s sym => ?_⟩
    cases sym
    exact padDist_pos ((hufLengths_pos_iff (by decide) (distFreq_room b)).2
      (count_map_range_pos (Nat.lt_of_le_of_lt distance.max (by decide)) (List.mem_filterMap.2 ⟨_, mem, rfl⟩)))

end Sys2Proof.Machine

namespace Sys2Proof.Machine

/-! ### The code-length code (R316) -/

section ClLengths

variable {m : Memory} {cl acc ks : List Nat} {s : Nat}

/-- The list `acc` with the lengths of the symbols `ks` put in their places. -/
def putLengths (cl : List Nat) (ks acc : List Nat) : List Nat := ks.foldl (fun acc s => acc.set s (cl.getD s 0)) acc

theorem putLengths_length : (putLengths cl ks acc).length = acc.length := by
  induction ks generalizing acc with
  | nil => rfl
  | cons k ks ih => exact ih.trans List.length_set

theorem putLengths_getD (inside : s < acc.length) :
    (putLengths cl ks acc).getD s 0 = if s ∈ ks then cl.getD s 0 else acc.getD s 0 := by
  induction ks generalizing acc with
  | nil => rfl
  | cons k ks ih =>
    refine (ih (by rwa [List.length_set])).trans ?_
    rw [getD_set_eq inside]
    by_cases here : k = s
    · subst here; simp
    · by_cases there : s ∈ ks <;> simp [here, there, Ne.symm here]

theorem mem_clOrder : ∀ s < 19, s ∈ clOrder := by decide

/-- R316, R335: the lengths read are those of the plan. -/
theorem putLengths_clOrder {n : Nat} (size : cl.length = 19) (rest : ∀ s ∈ clOrder.drop n, cl.getD s 0 = 0) :
    putLengths cl (clOrder.take n) (List.replicate 19 0) = cl := by
  have zeros : (List.replicate 19 0).length = 19 := List.length_replicate
  refine List.ext_getElem (by rw [putLengths_length, zeros, size]) fun s _ hs => ?_
  rw [size] at hs
  rw [← List.getD_eq_getElem _ 0, ← List.getD_eq_getElem _ 0, putLengths_getD (by rwa [zeros])]
  split
  · rfl
  · next absent =>
    have mem := mem_clOrder s hs
    rw [← List.take_append_drop n clOrder, List.mem_append] at mem
    rw [List.getD_replicate _ hs, rest s (mem.resolve_left absent)]

theorem dflReadClLengths_of_ahead {d : DflState} (small : ∀ l ∈ cl, l ≤ 7) (bit : d.rd.bit < 8)
    (ahead : Ahead m d.rd (ks.map fun s => ⟨cl.getD s 0, 3⟩)) :
    dflReadClLengths m ks acc d =
      .ok (putLengths cl ks acc, d.skip (fieldBits (ks.map fun s => ⟨cl.getD s 0, 3⟩))) := by
  induction ks generalizing acc d with
  | nil =>
    rw [DflState.skip, List.map_nil, fieldBits_nil, skip_zero bit]
    rfl
  | cons k ks ih =>
    have fits : cl.getD k 0 < 2 ^ 3 := Nat.lt_succ_of_le (getD_le small k)
    refine (bind_of_ok (dflRead_of_ahead (by decide) fits ahead)).trans ?_
    refine (ih (d := d.skip 3) skip_bit_lt ahead.rest).trans ?_
    rw [dflSkip_skip]
    rfl

end ClLengths

/-! ### The code lengths (R317) -/

section Lengths

variable {m : Memory} {cl seq out : List Nat} {x : RlItem} {xs : List RlItem} {v r : Nat}

/-- The extra bits of an item, as the fields behind its symbol (R338). -/
def RlItem.extraFields (x : RlItem) : List BitField :=
  if rlExtraBits x.sym = 0 then [] else [⟨x.extra, rlExtraBits x.sym⟩]

theorem dflRun_length (short : v ≤ 15) (d : DflState) : dflRun m seq v d = .ok (v, 1, d) := by
  unfold dflRun
  split
  · exact absurd short (by decide)
  · exact absurd short (by decide)
  · exact absurd short (by decide)
  · rfl

theorem rlExtraBits_length (short : v ≤ 15) : rlExtraBits v = 0 := by
  rw [rlExtraBits, if_neg (by omega), if_neg (by omega), if_neg (by omega)]

theorem dflRun_of_ahead {d : DflState} (h : x.Run seq v r) (bit : d.rd.bit < 8)
    (ahead : Ahead m d.rd x.extraFields) :
    dflRun m seq x.sym d = .ok (v, r, d.skip (fieldBits x.extraFields)) := by
  cases h with
  | length short =>
    have none : RlItem.extraFields ⟨v, 0⟩ = [] := if_pos (rlExtraBits_length short)
    rw [none, fieldBits_nil, DflState.skip, skip_zero bit]
    exact dflRun_length short d
  | copy last extra =>
    dsimp only [dflRun]
    rw [last]
    exact bind_of_ok (dflRead_of_ahead (n := 2) (by decide) extra ahead)
  | zeros extra => exact bind_of_ok (dflRead_of_ahead (n := 3) (by decide) extra ahead)
  | manyZeros extra => exact bind_of_ok (dflRead_of_ahead (n := 7) (by decide) extra ahead)

/-- R317: the items ahead are read as the lengths they stand for. -/
theorem dflReadLengths_of_ahead {total fuel : Nat} {d : DflState} (h : Unrle seq xs out) (code : Decodable cl)
    (installed : d.clc = hufInstall cl) (coded : ∀ x ∈ xs, 0 < cl.getD x.sym 0) (whole : out.length = total)
    (enough : xs.length ≤ fuel) (bit : d.rd.bit < 8)
    (ahead : Ahead m d.rd (xs.flatMap (RlItem.fields (hufInstall cl)))) :
    dflReadLengths m total fuel seq d =
      .ok (out, d.skip (fieldBits (xs.flatMap (RlItem.fields (hufInstall cl))))) := by
  induction h generalizing fuel d with
  | @nil seq =>
    have stop : ¬ seq.length < total := by omega
    rw [List.flatMap_nil, fieldBits_nil, DflState.skip, skip_zero bit]
    cases fuel <;> exact if_neg stop
  | @cons seq out x xs v r run rest ih =>
    obtain ⟨fuel, rfl⟩ := Nat.exists_eq_add_one_of_ne_zero (Nat.ne_zero_of_lt enough)
    rw [List.length_cons] at enough
    rw [List.forall_mem_cons] at coded
    rw [List.flatMap_cons] at ahead ⊢
    have fits := rest.length_le
    rw [List.length_append, List.length_replicate] at fits
    have pos := run.pos
    have get := dflGet_of_ahead code coded.1 ahead
    rw [← installed] at get
    obtain ⟨item, ahead'⟩ := ahead.append
    have extra := dflRun_of_ahead (d := d.skip (cl.getD x.sym 0)) run skip_bit_lt item.rest
    have bits : fieldBits (x.fields (hufInstall cl)) = cl.getD x.sym 0 + fieldBits x.extraFields := rfl
    rw [dflSkip_skip, ← bits] at extra
    rw [fieldBits_append, ← dflSkip_skip]
    refine (if_pos (by omega)).trans ((bind_of_ok get).trans ((bind_of_ok extra).trans ((if_neg (by omega)).trans ?_)))
    exact ih (d := d.skip (fieldBits (x.fields (hufInstall cl)))) installed coded.2 whole (by omega) skip_bit_lt ahead'

end Lengths

/-! ### Dynamic blocks (R315 to R318) -/

section Dynamic

variable {m : Memory} {cap : Nat} {p : DynPlan} {b : List Token}

/-- The fields of a plan, between the block's header and its data (R338). -/
def DynPlan.fields (p : DynPlan) : List BitField :=
  ⟨p.hlit - 257, 5⟩ :: ⟨p.hdist - 1, 5⟩ :: ⟨p.hclen - 4, 4⟩ ::
    ((clOrder.take p.hclen).map (fun s => ⟨p.cl.getD s 0, 3⟩) ++ p.rl.flatMap (RlItem.fields (hufInstall p.cl)))

theorem DynPlan.Readable.ll_counted (h : p.Readable) : Complete (p.ll.take p.hlit) := by
  have complete := h.ll_complete
  rw [h.ll_rest] at complete
  exact complete.of_append_zeros

theorem DynPlan.Readable.dl_counted (h : p.Readable) : Complete (p.dl.take p.hdist) := by
  have complete := h.dl_complete
  rw [h.dl_rest] at complete
  exact complete.of_append_zeros

theorem DynPlan.Readable.ll_counted_length (h : p.Readable) : (p.ll.take p.hlit).length = p.hlit :=
  List.length_take_of_le (h.hlit.2.trans_eq h.ll_length.symm)

theorem DynPlan.Readable.counted_length (h : p.Readable) :
    (p.ll.take p.hlit ++ p.dl.take p.hdist).length = p.hlit + p.hdist := by
  rw [List.length_append, h.ll_counted_length, List.length_take_of_le (h.hdist.2.trans_eq h.dl_length.symm)]

theorem DynPlan.Readable.rl_length_le (h : p.Readable) : p.rl.length ≤ p.hlit + p.hdist := by
  have := h.items.length_le
  rwa [h.counted_length, List.length_nil, Nat.zero_add] at this

/-- The lengths that a plan's counts leave out change no field of the data (R334, R338). -/
theorem dataFields_counted (h : p.Readable) (b : List Token) :
    dataFields (hufInstall p.ll) (hufInstall p.dl) b =
      dataFields (hufInstall (p.ll.take p.hlit)) (hufInstall (p.dl.take p.hdist)) b := by
  have lit (s : Nat) : hufField (hufInstall p.ll) s = hufField (hufInstall (p.ll.take p.hlit)) s := by
    rw [h.ll_rest, hufField_append_zeros, ← h.ll_rest]
  have dist (s : Nat) : hufField (hufInstall p.dl) s = hufField (hufInstall (p.dl.take p.hdist)) s := by
    rw [h.dl_rest, hufField_append_zeros, ← h.dl_rest]
  have token : Token.fields (hufInstall p.ll) (hufInstall p.dl) =
      Token.fields (hufInstall (p.ll.take p.hlit)) (hufInstall (p.dl.take p.hdist)) := by
    funext t
    cases t <;> simp only [Token.fields, lit, dist]
  rw [dataFields, dataFields, token, lit]

theorem blockFields_dynamic (h : p.Readable) (final : Bool) (wpos : Nat) (b : List Token) (raw : List Byte) :
    blockFields final .dynamic wpos p b raw = ⟨if final then 1 else 0, 1⟩ :: ⟨2, 2⟩ ::
      (p.fields ++ dataFields (hufInstall (p.ll.take p.hlit)) (hufInstall (p.dl.take p.hdist)) b) := by
  rw [← dataFields_counted h]
  rfl

theorem checked_complete {len : List Nat} (h : Complete len) (policy : IncompletePolicy) :
    checked (hufCheck policy len) = .ok () := by
  rw [h.hufCheck]
  rfl

/-- The sequencer behind a plan's fields, with the codes of the lengths counted installed (R318). -/
def DynPlan.install (p : DynPlan) (d : DflState) : DflState :=
  { d.skip (fieldBits p.fields) with
    clc := hufInstall p.cl, lit := hufInstall (p.ll.take p.hlit), dist := hufInstall (p.dl.take p.hdist),
    phase := .decodeSymbols }

/-- R315 to R318: a plan's fields are read, and the codes installed are those of the lengths counted. -/
theorem dflDynamicHuffman_of_ahead (strict : Bool) (policy : IncompletePolicy) {d : DflState} (h : p.Readable)
    (ahead : Ahead m d.rd p.fields) : dflDynamicHuffman strict policy m d = .ok (p.install d) := by
  obtain ⟨hlit, hlit'⟩ := h.hlit
  obtain ⟨hdist, hdist'⟩ := h.hdist
  obtain ⟨hclen, hclen'⟩ := h.hclen
  have counts : ¬ (strict && (decide (286 < p.hlit) || decide (30 < p.hdist))) = true := by
    simp only [Bool.and_eq_true, Bool.or_eq_true, decide_eq_true_eq]
    omega
  obtain ⟨clAhead, itemsAhead⟩ := ahead.rest.rest.rest.append
  have cl := dflReadClLengths_of_ahead (d := ((d.skip 5).skip 5).skip 4) (acc := List.replicate 19 0) h.cl_le
    skip_bit_lt clAhead
  rw [putLengths_clOrder h.cl_length h.cl_rest] at cl
  have seq := dflReadLengths_of_ahead (d := { (((d.skip 5).skip 5).skip 4).skip _ with clc := hufInstall p.cl })
    h.items h.cl_complete.decodable rfl h.items_coded h.counted_length h.rl_length_le skip_bit_lt itemsAhead
  refine (bind_of_ok (dflRead_of_ahead (by decide) (by omega) ahead)).trans ?_
  refine (bind_of_ok (dflRead_of_ahead (d := d.skip 5) (by decide) (by omega) ahead.rest)).trans ?_
  refine (bind_of_ok (dflRead_of_ahead (d := (d.skip 5).skip 5) (by decide) (by omega) ahead.rest.rest)).trans ?_
  dsimp only
  rw [Nat.sub_add_cancel hlit, Nat.sub_add_cancel hdist, Nat.sub_add_cancel hclen, if_neg counts]
  refine (bind_of_ok cl).trans ((bind_of_ok (checked_complete h.cl_complete policy)).trans ((bind_of_ok seq).trans ?_))
  dsimp only
  rw [List.take_left' h.ll_counted_length, List.drop_left' h.ll_counted_length]
  refine (bind_of_ok (checked_complete h.ll_counted policy)).trans
    ((bind_of_ok (checked_complete h.dl_counted policy)).trans ?_)
  simp only [DynPlan.install, DynPlan.fields, fieldBits_cons, fieldBits_append, DflState.skip, skip_skip, Nat.add_assoc]

/-- R315 to R318: a plan is read, and the codes installed write the block's data. -/
theorem dynamicHuffman_reaches {d : DflState} (start : d.phase = .dynamicHuffman) (h : p.Readable)
    (ahead : Ahead m d.rd p.fields) : Reaches m cap 1 d (p.install d) := by
  refine .step (by rw [start]; decide) ?_
  rw [dflStep, start]
  exact dflDynamicHuffman_of_ahead _ _ h ahead

theorem getD_counted {l : List Nat} {n k : Nat} (rest : l = l.take n ++ List.replicate k 0) (s : Nat) :
    (l.take n).getD s 0 = l.getD s 0 := by
  rw [rest, getD_append_zeros, ← rest]

/-- R315 to R319: a dynamic block of a readable plan is read as what its tokens stand for. -/
theorem readableBlock_reaches {final : Bool} {wpos : Nat} {raw : List Byte} {d : DflState} (h : p.Readable)
    (coded : ∀ t ∈ b, t.Coded p.ll p.dl) (eob : 0 < p.ll.getD 256 0) (start : d.phase = .readBlockHeader)
    (fits : tokensFit d.out.length b = true) (room : d.out.length + rawLen b ≤ cap)
    (ahead : Ahead m d.rd (blockFields final .dynamic wpos p b raw)) :
    ∃ e, Reaches m cap 3 d e ∧
      BlockRead final (fieldBits (blockFields final .dynamic wpos p b raw)) (expandTokens b d.out) d e := by
  have coded (t : Token) (mem : t ∈ b) : t.Coded (p.ll.take p.hlit) (p.dl.take p.hdist) := by
    obtain ⟨lit, dist⟩ := coded t mem
    exact ⟨by rwa [getD_counted h.ll_rest], fun s sym => by rw [getD_counted h.dl_rest]; exact dist s sym⟩
  rw [← getD_counted h.ll_rest] at eob
  rw [blockFields_dynamic h] at ahead ⊢
  have header := header_reaches (cap := cap) (kind := .dynamic) start ahead
  have body := ahead.rest.rest
  rw [skip_skip] at body
  obtain ⟨plan, data⟩ := body.append
  have install := dynamicHuffman_reaches (cap := cap)
    (d := { d with rd := d.rd.skip 3, bfinal := final, phase := .dynamicHuffman }) rfl h plan
  obtain ⟨e, decode, phase, rd, out⟩ := decodeSymbols_reaches (cap := cap)
    (d := p.install { d with rd := d.rd.skip 3, bfinal := final, phase := .dynamicHuffman }) rfl
    h.ll_counted.decodable h.dl_counted.decodable ⟨rfl, rfl⟩ coded eob fits room data
  refine ⟨e, header.trans (install.trans decode), phase, rd.trans ?_, out⟩
  rw [fieldBits_cons, fieldBits_cons, fieldBits_append, fieldBits_dataFields, ← Nat.add_assoc 1 2, ← skip_skip,
    ← skip_skip]
  rfl

/-- R333, R337: the block that DEFLATE writes with its plan. -/
theorem dynamicBlock_reaches {final : Bool} {wpos : Nat} {raw : List Byte} {d : DflState}
    (start : d.phase = .readBlockHeader) (fits : tokensFit d.out.length b = true)
    (room : d.out.length + rawLen b ≤ cap)
    (ahead : Ahead m d.rd (blockFields final .dynamic wpos (planDynamic b) b raw)) :
    ∃ e, Reaches m cap 3 d e ∧ BlockRead final (fieldBits (blockFields final .dynamic wpos (planDynamic b) b raw))
      (expandTokens b d.out) d e :=
  readableBlock_reaches (planDynamic_readable b) (planDynamic_coded fits) (planDynamic_eob b) start fits room ahead

end Dynamic

end Sys2Proof.Machine

namespace Sys2Proof.Machine

/-! ### The first tokens of a parse (R251, R331) -/

section Parse

variable {src : List Byte} {i n : Nat} {b ts : List Token}

/-- R251: the first tokens of a parse expand to the bytes they cover. -/
theorem LzParse.expands_append {p : LzParams} (h : LzParse src p i (b ++ ts)) :
    expandTokens b (src.take i).reverse = (src.take (i + rawLen b)).reverse := by
  induction b generalizing i with
  | nil => rfl
  | cons x b ih =>
    rw [rawLen_cons, ← Nat.add_assoc]
    cases h with
    | lit byte rest => rw [expandTokens, cons_reverse_take byte, ih rest, Token.rawLen]
    | backRef found rest => rw [expandTokens, found.copies, ih rest, Token.rawLen]

theorem tokensFit_of_append (fits : tokensFit n (b ++ ts) = true) : tokensFit n b = true := by
  induction b generalizing n with
  | nil => rfl
  | cons x b ih =>
    rw [List.cons_append, tokensFit, Bool.and_eq_true] at fits
    rw [tokensFit, Bool.and_eq_true]
    exact ⟨fits.1, ih fits.2⟩

end Parse

/-! ### A block as DEFLATE chooses it (R337, R338) -/

section Chosen

variable {m : Memory} {cap wpos i : Nat} {src : List Byte} {b : List Token} {final : Bool}

/-- R336: only a block of at most 65535 bytes is stored. -/
theorem rawLen_le_of_stored {p : DynPlan} (stored : chooseKind wpos p b = .stored) : rawLen b ≤ 65535 := by
  by_contra long
  rw [chooseKind, storedCost, if_neg long] at stored
  dsimp only at stored
  split at stored <;> cases stored

theorem three_le_chosen (final : Bool) (wpos : Nat) (b : List Token) (src : List Byte) :
    3 ≤ fieldBits (chosenFields final wpos b src) := by
  rw [chosenFields]
  cases chooseKind wpos (planDynamic b) b with
  | fixed => rw [fieldBits_fixed]; exact Nat.le_add_right _ _
  | dynamic => rw [fieldBits_dynamic, dynamicCost]; omega
  | stored => rw [fieldBits_stored]; omega

/-- R337, R338: a block of any kind is read as the bytes it covers. -/
theorem chosenBlock_reaches {d : DflState} (start : d.phase = .readBlockHeader)
    (sofar : d.out = (src.take i).reverse) (inside : i + rawLen b ≤ src.length) (room : src.length ≤ cap)
    (fits : tokensFit i b = true) (expands : expandTokens b (src.take i).reverse = (src.take (i + rawLen b)).reverse)
    (ahead : Ahead m d.rd (chosenFields final d.rd.pos b (src.drop i))) :
    ∃ e, Reaches m cap 3 d e ∧
      BlockRead final (fieldBits (chosenFields final d.rd.pos b (src.drop i))) (src.take (i + rawLen b)).reverse
        d e := by
  have length : d.out.length = i := by rw [sofar, List.length_reverse, List.length_take]; omega
  have room : d.out.length + rawLen b ≤ cap := by omega
  rw [← length] at fits
  rw [← expands, ← sofar]
  rw [chosenFields] at ahead ⊢
  cases kind : chooseKind d.rd.pos (planDynamic b) b with
  | fixed =>
    rw [kind] at ahead
    rw [fieldBits_fixed]
    exact fixedBlock_reaches start fits room ahead
  | dynamic =>
    rw [kind] at ahead
    exact dynamicBlock_reaches start fits room ahead
  | stored =>
    rw [kind] at ahead
    have whole : ((src.drop i).take (rawLen b)).length = rawLen b := by
      rw [List.length_take, List.length_drop]
      omega
    obtain ⟨e, reaches, read⟩ := storedBlock_reaches start whole (rawLen_le_of_stored kind) room ahead
    refine ⟨e, reaches.mono (by decide), ?_⟩
    rwa [fieldBits_stored, whole, sofar, expands, List.take_add, List.reverse_append, ← sofar]

/-- R330: the blocks of a parse are read as the source. -/
theorem stream_reaches {bs : List (List Token)} {d : DflState} (parse : LzParse src dflLzParams i bs.flatten)
    (some : bs ≠ []) (start : d.phase = .readBlockHeader) (sofar : d.out = (src.take i).reverse)
    (inside : i ≤ src.length) (room : src.length ≤ cap)
    (ahead : Ahead m d.rd (streamFields bs (src.drop i) d.rd.pos)) :
    ∃ e, Reaches m cap (3 * bs.length) d e ∧
      BlockRead true (fieldBits (streamFields bs (src.drop i) d.rd.pos)) src.reverse d e := by
  induction bs generalizing i d with
  | nil => exact absurd rfl some
  | cons b bs ih =>
    rw [List.flatten_cons] at parse
    have covers := parse.rawLen_eq inside
    rw [rawLen_append] at covers
    rw [streamFields] at ahead ⊢
    obtain ⟨block, rest⟩ := ahead.append
    obtain ⟨e, reaches, read⟩ := chosenBlock_reaches start sofar (by omega) room (tokensFit_of_append parse.tokensFit)
      parse.expands_append block
    obtain ⟨phase, rd, out⟩ := read
    cases bs with
    | nil =>
      have last : src.take (i + rawLen b) = src := List.take_of_length_le (by rw [← covers]; rfl)
      rw [last] at out
      refine ⟨e, reaches, phase, ?_, out⟩
      rw [rd, fieldBits_append]
      rfl
    | cons b' bs =>
      rw [List.drop_drop] at rest ⊢
      rw [← skip_pos, ← rd] at rest
      obtain ⟨e', reaches', phase', rd', out'⟩ := ih parse.of_append (List.cons_ne_nil _ _) phase out (by omega) rest
      refine ⟨e', (reaches.trans reaches').mono (by rw [List.length_cons, List.length_cons, List.length_cons]; omega),
        phase', ?_, out'⟩
      rw [rd', rd, skip_skip, skip_pos, fieldBits_append]

theorem three_mul_blocks_le (bs : List (List Token)) (src : List Byte) (wpos : Nat) :
    3 * bs.length ≤ fieldBits (streamFields bs src wpos) := by
  induction bs generalizing src wpos with
  | nil => exact Nat.zero_le _
  | cons b bs ih =>
    have block := three_le_chosen bs.isEmpty wpos b src
    have blocks := ih (src.drop (rawLen b)) (wpos + fieldBits (chosenFields bs.isEmpty wpos b src))
    rw [streamFields, fieldBits_append, List.length_cons]
    omega

end Chosen

/-! ### INFLATE of DEFLATE (R341) -/

/-- The stream of DEFLATE (R330). -/
abbrev deflateFields (src : List Byte) : List BitField := streamFields (dflBlocks (lzTokens src dflLzParams)) src 0

/-- R341: the stream of DEFLATE is read as its source. -/
theorem inflateRun_of_deflateFields {m : Memory} {base len cap : Nat} {src : List Byte} (room : src.length ≤ cap)
    (ahead : Ahead m ⟨base, len, 0, 0⟩ (deflateFields src)) :
    ∃ d, inflateRun m ⟨base, len, 0, 0⟩ cap = .ok d ∧ d.rd.pos = fieldBits (deflateFields src) ∧
      d.out = src.reverse := by
  have tokens : (dflBlocks (lzTokens src dflLzParams)).flatten = lzTokens src dflLzParams := splitTokens_flatten _ _ _
  have parse := lzTokens_parse src dflLzParams
  rw [← tokens] at parse
  obtain ⟨d, reaches, phase, rd, out⟩ := stream_reaches (cap := cap) (d := dflInit ⟨base, len, 0, 0⟩) parse
    (splitTokens_ne_nil _ _ _) rfl rfl (Nat.zero_le _) room ahead
  have blocks : 3 * (dflBlocks (lzTokens src dflLzParams)).length ≤ 8 * len :=
    (three_mul_blocks_le _ src 0).trans ahead.room
  refine ⟨d, inflateRun_of_reaches reaches phase (by dsimp only; omega), ?_, out⟩
  rw [rd, skip_pos]
  exact Nat.zero_add _

theorem Ahead.of_same_bytes {m m' : Memory} {base base' len : Nat} {fs : List BitField}
    (h : Ahead m ⟨base, len, 0, 0⟩ fs) (same : ∀ k < len, m'.read (base' + k) = m.read (base + k)) :
    Ahead m' ⟨base', len, 0, 0⟩ fs := by
  obtain ⟨fields, room⟩ := h
  refine ⟨holdsFields_congr (fun p _ _ => ?_) fields, room⟩
  rw [streamBit, streamBit]
  by_cases inside : p < 8 * len
  · rw [same (p / 8) (by omega)]
  · rw [decide_eq_false inside]
    rfl

/-- R330: what a run of DEFLATE that ends OK leaves in its buffer. -/
theorem ahead_of_deflateRun {src : List Byte} {base cap : Nat} {wr : WriteCursor} (m : Memory)
    (run : deflateRun src ⟨base, cap, 0, 0, 0, []⟩ = .ok wr) :
    wr.byte = ceil8 (fieldBits (deflateFields src)) ∧
      Ahead (m.applyWrites wr.writes) ⟨base, wr.byte, 0, 0⟩ (deflateFields src) := by
  rw [deflateRun_eq, writeBlocks_eq _ _ (emptyWriter_inBuffer base cap).inside.bit] at run
  cases write : writeFields (deflateFields src) ⟨base, cap, 0, 0, 0, []⟩ with
  | error c => exact absurd ((congrArg (· >>= bwFlush) write).symm.trans run) nofun
  | ok c => exact ahead_of_write_flush m write ((bind_of_ok write).symm.trans run)

/-- Settles O60: the blocks written are ahead of INFLATE's reader, which reads each as the bytes it covers. -/
theorem deflateInflateRoundTrip : Obligations.DeflateInflateRoundTrip := by
  intro s t u run ok len same apart plain room
  obtain ⟨wr, stream, rfl⟩ := deflate_of_ok run ok
  have written := (deliverWrites_byte ((deflateRun_ends _ (privateWriter_inBuffer s)).of_ok stream)).1
  obtain ⟨byte, ahead⟩ := ahead_of_deflateRun s.mem stream
  rw [← written] at ahead
  have ahead := ahead.of_same_bytes (m' := u.mem) (base' := u.srcAddr.toNat) same
  rw [← len] at ahead
  rw [← srcBytes_length] at room
  obtain ⟨d, inflated, pos, out⟩ := inflateRun_of_deflateFields room ahead
  obtain ⟨v, exec, end_eq, bytes, frame⟩ := exec_inflate_of_run apart plain inflated out
  rw [srcBytes_length] at end_eq bytes frame
  rw [pos, ← byte, ← written, ← len, BitVec.ofNat_toNat, BitVec.ofNat_toNat, BitVec.setWidth_eq,
    BitVec.setWidth_eq] at end_eq
  exact ⟨v, exec, end_eq, fun k hk => (bytes k hk).trans (readBytes_getD _ _ _ _ hk), frame⟩

end Sys2Proof.Machine

namespace Sys2Proof.Machine

/-! ### The code table (R59, R364, R365) -/

section Table

variable {t : LzwTable} {c d p : Nat}

theorem lzwGet_drop (t : LzwTable) (n i : Nat) : lzwGet (t.drop n) i = lzwGet t (n + i) := by
  simp [lzwGet, List.getD_eq_getElem?_getD]

theorem lzwGet_of_length_le (h : t.length ≤ c) : lzwGet t c = lzwFree := List.getD_eq_default _ _ h

/-- Only a slot of the table is occupied. -/
theorem lt_length_of_used (used : (lzwGet t c).used = true) : c < t.length := by
  by_contra outside
  rw [lzwGet_of_length_le (Nat.not_lt.1 outside)] at used
  cases used

theorem lzwGet_set (h : c < t.length) (e : LzwEntry) (d : Nat) :
    lzwGet (t.set c e) d = if d = c then e else lzwGet t d := by
  rw [lzwGet, lzwGet, List.getD_eq_getElem?_getD, List.getD_eq_getElem?_getD, List.getElem?_set]
  by_cases same : d = c
  · rw [if_pos same, if_pos same.symm, if_pos h, Option.getD_some]
  · rw [if_neg same, if_neg (Ne.symm same)]

/-- R365: the slot of the new entry, and every other one. -/
theorem lzwGet_insert (h : c < t.length) (p : Nat) (b : Byte) (d : Nat) :
    lzwGet (lzwInsert t c p b) d = if d = c then ⟨true, some p, b⟩ else lzwGet t d := lzwGet_set h _ d

@[simp] theorem lzwInsert_length (t : LzwTable) (c p : Nat) (b : Byte) : (lzwInsert t c p b).length = t.length :=
  List.length_set

theorem getElem_drop_eq_lzwGet {n i : Nat} (h : i < (t.drop n).length) : (t.drop n)[i] = lzwGet t (n + i) := by
  rw [← lzwGet_drop, lzwGet, List.getD_eq_getElem _ _ h]

/-- R364: the lowest free code. -/
theorem lzwLowestFree_eq_some (h : lzwLowestFree t = some c) :
    257 ≤ c ∧ c < t.length ∧ (lzwGet t c).used = false ∧ ∀ d, 257 ≤ d → d < c → (lzwGet t d).used = true := by
  rw [lzwLowestFree, Option.map_eq_some_iff] at h
  obtain ⟨i, first, rfl⟩ := h
  obtain ⟨inside, free, below⟩ := List.findIdx?_eq_some_iff_getElem.1 first
  rw [getElem_drop_eq_lzwGet, Bool.not_eq_true'] at free
  rw [List.length_drop] at inside
  refine ⟨Nat.le_add_left .., by omega, Nat.add_comm 257 i ▸ free, fun d above lower => ?_⟩
  obtain ⟨j, rfl⟩ := Nat.exists_eq_add_of_le above
  have used := below j (by omega)
  rwa [getElem_drop_eq_lzwGet, Bool.not_eq_true, Bool.not_eq_false'] at used

theorem lzwLowestFree_eq_none (full : lzwLowestFree t = none) (above : 257 ≤ c) (inside : c < t.length) :
    (lzwGet t c).used = true := by
  rw [lzwLowestFree, Option.map_eq_none_iff, List.findIdx?_eq_none_iff] at full
  obtain ⟨i, rfl⟩ := Nat.exists_eq_add_of_le above
  have slot : i < (t.drop 257).length := by rw [List.length_drop]; omega
  have used := full _ (List.getElem_mem slot)
  rwa [getElem_drop_eq_lzwGet, Bool.not_eq_false'] at used

theorem lowestFree_lt (length : t.length = 8192) (free : lzwLowestFree t = some c) : c < 8192 :=
  length ▸ (lzwLowestFree_eq_some free).2.1

/-! ### The partial clear (R362) -/

@[simp] theorem lzwRelease_length (t : LzwTable) (c : Nat) : (lzwRelease t c).length = t.length := List.length_set

theorem lzwGet_release (t : LzwTable) (c d : Nat) :
    lzwGet (lzwRelease t c) d = if d = c then { lzwGet t d with used := false } else lzwGet t d := by
  by_cases inside : c < t.length
  · rw [lzwRelease, lzwGet_set inside]
    split
    · next same => rw [same]
    · rfl
  · have outside := Nat.not_lt.1 inside
    rw [lzwRelease, List.set_eq_of_length_le outside]
    split
    · next same => rw [same, lzwGet_of_length_le outside]; rfl
    · rfl

theorem releaseAll_length (cs : List Nat) (t : LzwTable) : (cs.foldl lzwRelease t).length = t.length := by
  induction cs generalizing t with
  | nil => rfl
  | cons c cs ih => rw [List.foldl_cons, ih, lzwRelease_length]

theorem lzwGet_releaseAll (cs : List Nat) (t : LzwTable) (d : Nat) :
    lzwGet (cs.foldl lzwRelease t) d = if d ∈ cs then { lzwGet t d with used := false } else lzwGet t d := by
  induction cs generalizing t with
  | nil => rfl
  | cons c cs ih =>
    rw [List.foldl_cons, ih, lzwGet_release]
    by_cases first : d = c <;> by_cases later : d ∈ cs <;> simp [first, later]

/-- The codes selected in a part of the table that starts at code `c`. -/
theorem mem_lzwCodes {f : Nat → LzwEntry → Bool} :
    d ∈ lzwCodes f c t ↔ ∃ i < t.length, d = c + i ∧ f d (lzwGet t i) = true := by
  induction t generalizing c with
  | nil => simp [lzwCodes]
  | cons e t ih =>
    have first : lzwGet (e :: t) 0 = e := rfl
    have later (i : Nat) : lzwGet (e :: t) (i + 1) = lzwGet t i := rfl
    simp only [List.length_cons, Nat.exists_lt_succ_left, first, later, Nat.add_zero, ← Nat.add_assoc,
      Nat.add_right_comm c _ 1, ← ih]
    rw [lzwCodes]
    split
    · next chosen =>
      rw [List.mem_cons]
      exact or_congr_left ⟨fun same => ⟨same, same ▸ chosen⟩, And.left⟩
    · next not => exact (or_iff_right fun ⟨same, chosen⟩ => not (same ▸ chosen)).symm

/-- R362: the prefixes that the entries of a part of the table mark. -/
theorem mem_lzwMarked {survives : Bool} :
    p ∈ lzwMarked survives c t ↔ ∃ i < t.length,
      (lzwGet t i).used = true ∧ (lzwGet t i).pfx = some p ∧ (p ≠ c + i ∨ survives = true) := by
  induction t generalizing c with
  | nil => simp [lzwMarked]
  | cons e t ih =>
    have first : lzwGet (e :: t) 0 = e := rfl
    have later (i : Nat) : lzwGet (e :: t) (i + 1) = lzwGet t i := rfl
    simp only [List.length_cons, Nat.exists_lt_succ_left, first, later, Nat.add_zero, ← Nat.add_assoc,
      Nat.add_right_comm c _ 1, ← ih]
    rw [lzwMarked]
    split
    · next q used pfx =>
      rw [used, pfx, Option.some_inj]
      split
      · next counts =>
        rw [List.mem_cons]
        exact or_congr_left ⟨fun same => ⟨rfl, same.symm, same ▸ counts⟩, fun h => h.2.1.symm⟩
      · next not => exact (or_iff_right fun ⟨_, same, counts⟩ => not (same ▸ counts)).symm
    · next no => exact (or_iff_right fun ⟨used, pfx, _⟩ => no p used pfx).symm

variable {survives : Bool}

/-- R362: the codes a partial clear frees. -/
theorem mem_lzwFreed : c ∈ lzwFreed survives t ↔ 257 ≤ c ∧ (lzwGet t c).used = true ∧
    ¬ ∃ d, 257 ≤ d ∧ (lzwGet t d).used = true ∧ (lzwGet t d).pfx = some c ∧ (d ≠ c ∨ survives = true) := by
  have marked : c ∈ lzwMarked survives 257 (t.drop 257) ↔
      ∃ d, 257 ≤ d ∧ (lzwGet t d).used = true ∧ (lzwGet t d).pfx = some c ∧ (d ≠ c ∨ survives = true) := by
    simp only [mem_lzwMarked, lzwGet_drop, List.length_drop]
    constructor
    · rintro ⟨i, -, used, pfx, counts⟩
      exact ⟨257 + i, Nat.le_add_right .., used, pfx, counts.imp_left Ne.symm⟩
    · rintro ⟨d, above, used, pfx, counts⟩
      have inside := lt_length_of_used used
      obtain ⟨i, rfl⟩ := Nat.exists_eq_add_of_le above
      exact ⟨i, by omega, used, pfx, counts.imp_left Ne.symm⟩
  simp only [lzwFreed, lzwSelect, mem_lzwCodes, lzwGet_drop, List.length_drop, Bool.and_eq_true,
    Bool.not_eq_true', List.contains_eq_mem, decide_eq_false_iff_not, marked]
  constructor
  · rintro ⟨i, -, rfl, used, unmarked⟩
    exact ⟨Nat.le_add_right .., used, unmarked⟩
  · rintro ⟨above, used, unmarked⟩
    have inside := lt_length_of_used used
    obtain ⟨i, rfl⟩ := Nat.exists_eq_add_of_le above
    exact ⟨i, by omega, rfl, used, unmarked⟩

@[simp] theorem lzwPartialClear_length (survives : Bool) (t : LzwTable) :
    (lzwPartialClear survives t).length = t.length := releaseAll_length _ _

/-- R362: the swept table, slot by slot. -/
theorem lzwGet_partialClear (survives : Bool) (t : LzwTable) (c : Nat) : lzwGet (lzwPartialClear survives t) c =
    if c ∈ lzwFreed survives t then { lzwGet t c with used := false } else lzwGet t c := lzwGet_releaseAll _ _ _

end Table

/-- Settles O47: the codes swept are the occupied ones that no entry marks. -/
theorem partialClearFreesUnreferenced : Obligations.PartialClearFreesUnreferenced := by
  intro survives t length
  refine ⟨(lzwPartialClear_length ..).trans length, fun c _ => ?_, fun c below => ?_, fun c above _ => ?_⟩
  · rw [lzwGet_partialClear]
    split <;> exact ⟨rfl, rfl⟩
  · rw [lzwGet_partialClear, if_neg fun freed => absurd (mem_lzwFreed.1 freed).1 (Nat.not_le.2 below)]
  · have bounded (d : Nat) (used : (lzwGet t d).used = true) : d < 8192 := length ▸ lt_length_of_used used
    rw [lzwGet_partialClear]
    split
    · next freed =>
      obtain ⟨-, -, unmarked⟩ := mem_lzwFreed.1 freed
      exact ⟨nofun, fun ⟨_, d, hd, _, mark⟩ => absurd ⟨d, hd, mark⟩ unmarked⟩
    · next kept =>
      refine ⟨fun used => ⟨used, ?_⟩, And.left⟩
      by_contra unmarked
      exact kept (mem_lzwFreed.2 ⟨above, used, fun ⟨d, hd, mark⟩ => unmarked ⟨d, hd, bounded d mark.1, mark⟩⟩)

end Sys2Proof.Machine

namespace Sys2Proof.Machine

/-! ### SHRINK as the fields it writes (R371) -/

/-- A part of SHRINK's run that gets from `z` to `z'`, the writer apart, and writes the fields `fs`. -/
def Emits (fs : List BitField) (z z' : ShrinkState) (run : ShrinkState → Except Cause ShrinkState) : Prop :=
  ∀ wr, run { z with wr := wr } = (writeFields fs wr >>= fun wr' => .ok { z' with wr := wr' })

/-- The pairs 256, 1 that widen `k` times from width `w` on (R371). -/
def wideningPairs : Nat → Nat → List BitField
  | _, 0 => []
  | w, k + 1 => ⟨256, w⟩ :: ⟨1, w⟩ :: wideningPairs (w + 1) k

/-- SHRINK after a partial clear (R371). -/
def ShrinkState.cleared (survives : Bool) (z : ShrinkState) : ShrinkState :=
  { z with
    table := lzwPartialClear survives z.table
    map := (lzwFreed survives z.table).foldl (lzwMapDrop z.table) z.map }

/-- SHRINK with the entry of a miss on the byte `b` at the code `nc` (R371). -/
def ShrinkState.insert (nc : Nat) (b : Byte) (z : ShrinkState) : ShrinkState :=
  { z with table := lzwInsert z.table nc z.cur b, map := lzwMapSet z.map (z.cur, b) nc }

/-- SHRINK with its table inside the bounds of R59 and R360, and a width that the decoder has. -/
structure ShrinkState.Sized (z : ShrinkState) : Prop where
  table : z.table.length = 8192
  width : z.width ≤ 13

/-- The insertion of R371 at a free code or none: the fields it writes and the state it leaves. -/
inductive Inserts (b : Byte) (z : ShrinkState) : Option Nat → List BitField → ShrinkState → Prop
  | none : Inserts b z none [] z
  | some {nc k : Nat} (fits : nc < 2 ^ (z.width + k)) (bound : z.width + k ≤ 13) :
      Inserts b z (some nc) (wideningPairs z.width k) (ShrinkState.insert nc b { z with width := z.width + k })

/-- What one byte of R371 can do: extend the match; or write its code and insert, after a partial clear if the table
is full. -/
inductive Shrinks (survives : Bool) (b : Byte) (z : ShrinkState) : List BitField → ShrinkState → Prop
  | hit {c : Nat} (found : lzwMapGet z.map (z.cur, b) = some c) : Shrinks survives b z [] { z with cur := c }
  | miss {nc : Nat} {fs : List BitField} {z' : ShrinkState} (missed : lzwMapGet z.map (z.cur, b) = none)
      (free : lzwLowestFree z.table = some nc) (inserts : Inserts b z (some nc) fs z') :
      Shrinks survives b z (⟨z.cur, z.width⟩ :: fs) { z' with cur := b.toNat }
  | clear {fs : List BitField} {z' : ShrinkState} (missed : lzwMapGet z.map (z.cur, b) = none)
      (full : lzwLowestFree z.table = none)
      (inserts : Inserts b (z.cleared survives) (lzwLowestFree (z.cleared survives).table) fs z') :
      Shrinks survives b z (⟨z.cur, z.width⟩ :: ⟨256, z.width⟩ :: ⟨2, z.width⟩ :: fs) { z' with cur := b.toNat }

/-- The loop of R371 over the bytes of the source. -/
inductive ShrinksAll (survives : Bool) : List Byte → ShrinkState → List BitField → ShrinkState → Prop
  | nil {z : ShrinkState} : ShrinksAll survives [] z [] z
  | cons {b : Byte} {bs : List Byte} {z z' z'' : ShrinkState} {fs gs : List BitField}
      (first : Shrinks survives b z fs z') (rest : ShrinksAll survives bs z' gs z'') :
      ShrinksAll survives (b :: bs) z (fs ++ gs) z''

section Emission

variable {survives : Bool} {b : Byte} {bs : List Byte} {z z' z'' : ShrinkState} {fs gs : List BitField}
  {run more : ShrinkState → Except Cause ShrinkState}

theorem Emits.pure {f : ShrinkState → ShrinkState} (keeps : ∀ wr, f { z with wr := wr } = { z' with wr := wr }) :
    Emits [] z z' (fun z => .ok (f z)) := fun wr => congrArg Except.ok (keeps wr)

theorem Emits.bind (first : Emits fs z z' run) (rest : Emits gs z' z'' more) :
    Emits (fs ++ gs) z z'' (fun z => run z >>= more) := by
  intro wr
  rw [writeFields_append]
  refine (congrArg (· >>= more) (first wr)).trans ?_
  cases writeFields fs wr with
  | error c => rfl
  | ok wr' => exact rest wr'

theorem emits_emit (c : Nat) (z : ShrinkState) : Emits [⟨c, z.width⟩] z z (ShrinkState.emit c) := by
  intro wr
  rw [ShrinkState.emit, writeFields]
  cases bwWrite c z.width wr <;> rfl

/-- R371: widening goes on until the code fits the width. -/
theorem emits_widen {nc fuel : Nat} (fits : nc < 2 ^ (z.width + fuel)) (code : nc < 8192) (width : z.width ≤ 13) :
    ∃ k, nc < 2 ^ (z.width + k) ∧ z.width + k ≤ 13 ∧
      Emits (wideningPairs z.width k) z { z with width := z.width + k } (shrinkWiden nc fuel) := by
  induction fuel generalizing z with
  | zero => exact ⟨0, fits, width, fun _ => rfl⟩
  | succ fuel ih =>
    by_cases wide : 2 ^ z.width ≤ nc
    · have narrow : z.width < 13 := (Nat.pow_lt_pow_iff_right (by decide)).1 (wide.trans_lt code)
      rw [← Nat.add_assoc, Nat.add_right_comm] at fits
      obtain ⟨k, fits', bound, more⟩ := ih (z := { z with width := z.width + 1 }) fits narrow
      rw [Nat.add_right_comm] at fits' bound
      have more : Emits (wideningPairs (z.width + 1) k) z { z with width := z.width + (k + 1) }
          fun z => shrinkWiden nc fuel { z with width := z.width + 1 } := fun wr => by
        rw [Nat.add_comm k 1, ← Nat.add_assoc]
        exact more wr
      refine ⟨k + 1, fits', bound, fun wr => ?_⟩
      rw [shrinkWiden, if_pos wide]
      exact (emits_emit 256 z).bind ((emits_emit 1 z).bind more) wr
    · refine ⟨0, Nat.not_le.1 wide, width, fun wr => ?_⟩
      rw [shrinkWiden, if_neg wide]
      rfl

/-- R371: the insertion at the lowest free code, if there is one. -/
theorem emits_insert (b : Byte) (sized : z.Sized) : ∃ fs z', Inserts b z (lzwLowestFree z.table) fs z' ∧
    Emits fs z z' (fun z => shrinkInsert b (lzwLowestFree z.table) z) := by
  cases free : lzwLowestFree z.table with
  | none => exact ⟨_, _, .none, fun wr => (congrArg (shrinkInsert b · _) free).trans rfl⟩
  | some nc =>
    have code := lowestFree_lt sized.table free
    have fits : nc < 2 ^ (z.width + 13) := code.trans_le (Nat.pow_le_pow_right (Nat.succ_pos 1) (Nat.le_add_left 13 _))
    obtain ⟨k, fits, bound, widen⟩ := emits_widen fits code sized.width
    have insert := widen.bind (.pure (f := ShrinkState.insert nc b)
      (z' := ShrinkState.insert nc b { z with width := z.width + k }) fun _ => rfl)
    rw [List.append_nil] at insert
    exact ⟨_, _, .some fits bound, fun wr => (congrArg (shrinkInsert b · _) free).trans (insert wr)⟩

/-- The partial clear of R371, where the table is full. -/
def shrinkRoom (survives : Bool) (z : ShrinkState) : Except Cause ShrinkState :=
  match lzwLowestFree z.table with
  | none => shrinkClear survives z
  | some _ => .ok z

theorem emits_room_of_free {nc : Nat} (free : lzwLowestFree z.table = some nc) :
    Emits [] z z (shrinkRoom survives) := by
  intro wr
  rw [shrinkRoom, free]
  rfl

theorem emits_room_of_full (full : lzwLowestFree z.table = none) :
    Emits [⟨256, z.width⟩, ⟨2, z.width⟩] z (z.cleared survives) (shrinkRoom survives) := by
  intro wr
  rw [shrinkRoom, full]
  exact (emits_emit 256 z).bind ((emits_emit 2 z).bind (.pure fun _ => rfl)) wr

theorem shrinkByte_of_miss (missed : lzwMapGet z.map (z.cur, b) = none) :
    shrinkByte survives b z = (z.emit z.cur >>= fun z => shrinkRoom survives z >>= fun z =>
      shrinkInsert b (lzwLowestFree z.table) z >>= fun z => .ok { z with cur := b.toNat }) := by
  rw [shrinkByte, missed]
  refine bind_congr fun z => ?_
  rw [shrinkRoom]
  cases lzwLowestFree z.table <;> rfl

theorem emits_miss (missed : lzwMapGet z.map (z.cur, b) = none) (room : Emits fs z z' (shrinkRoom survives))
    (insert : Emits gs z' z'' fun z => shrinkInsert b (lzwLowestFree z.table) z) :
    Emits (⟨z.cur, z.width⟩ :: fs ++ gs) z { z'' with cur := b.toNat } (shrinkByte survives b) := by
  intro wr
  have restart : Emits [] z'' { z'' with cur := b.toNat } fun z => .ok { z with cur := b.toNat } := .pure fun _ => rfl
  have all := (emits_emit z.cur z).bind (room.bind (insert.bind restart)) wr
  rw [List.append_nil] at all
  exact (shrinkByte_of_miss (z := { z with wr := wr }) missed).trans all

/-- R371: one byte of the source. -/
theorem emits_byte (survives : Bool) (b : Byte) (sized : z.Sized) :
    ∃ fs z', Shrinks survives b z fs z' ∧ Emits fs z z' (shrinkByte survives b) := by
  cases look : lzwMapGet z.map (z.cur, b) with
  | some c =>
    refine ⟨_, _, .hit look, fun wr => ?_⟩
    rw [shrinkByte, look]
    rfl
  | none =>
    cases free : lzwLowestFree z.table with
    | some nc =>
      obtain ⟨fs, z', inserts, insert⟩ := emits_insert b sized
      exact ⟨_, _, .miss look free (free ▸ inserts), emits_miss look (emits_room_of_free free) insert⟩
    | none =>
      have sized' : (z.cleared survives).Sized := ⟨(lzwPartialClear_length ..).trans sized.table, sized.width⟩
      obtain ⟨fs, z', inserts, insert⟩ := emits_insert b sized'
      exact ⟨_, _, .clear look free inserts, emits_miss look (emits_room_of_full free) insert⟩

theorem Inserts.sized {nc : Option Nat} (h : Inserts b z nc fs z') (sized : z.Sized) : z'.Sized := by
  cases h with
  | none => exact sized
  | some _ bound => exact ⟨(lzwInsert_length ..).trans sized.table, bound⟩

theorem Shrinks.sized (h : Shrinks survives b z fs z') (sized : z.Sized) : z'.Sized := by
  cases h with
  | hit => exact ⟨sized.table, sized.width⟩
  | miss _ _ inserts =>
    obtain ⟨table, width⟩ := inserts.sized sized
    exact ⟨table, width⟩
  | clear _ _ inserts =>
    obtain ⟨table, width⟩ := inserts.sized ⟨(lzwPartialClear_length ..).trans sized.table, sized.width⟩
    exact ⟨table, width⟩

theorem shrinkBytes_cons (survives : Bool) (b : Byte) (bs : List Byte) (z : ShrinkState) :
    shrinkBytes survives (b :: bs) z = (shrinkByte survives b z >>= shrinkBytes survives bs) := by
  rw [shrinkBytes]
  cases shrinkByte survives b z <;> rfl

/-- R371: the loop over the source. -/
theorem emits_bytes (survives : Bool) (bs : List Byte) (sized : z.Sized) :
    ∃ fs z', ShrinksAll survives bs z fs z' ∧ Emits fs z z' (shrinkBytes survives bs) := by
  induction bs generalizing z with
  | nil => exact ⟨_, _, .nil, .pure fun _ => rfl⟩
  | cons b bs ih =>
    obtain ⟨fs, z', first, emits⟩ := emits_byte survives b sized
    obtain ⟨gs, z'', rest, emits'⟩ := ih (first.sized sized)
    exact ⟨_, _, .cons first rest, fun wr => (shrinkBytes_cons ..).trans (emits.bind emits' wr)⟩

/-- SHRINK on its first byte (R371). -/
def shrinkStart (b : Byte) (wr : WriteCursor) : ShrinkState := ⟨lzwInit, Config.lzwMinWidth, b.toNat, [], wr⟩

theorem lzwInit_length : lzwInit.length = 8192 := by
  rw [lzwInit, List.length_append, List.length_map, List.length_range, List.length_replicate]
  rfl

theorem shrinkStart_sized (b : Byte) (wr : WriteCursor) : (shrinkStart b wr).Sized :=
  ⟨lzwInit_length, (by decide : 9 ≤ 13)⟩

/-- R370, R371: SHRINK of a source that is not empty writes the fields of its bytes and the last code. -/
theorem shrinkRun_cons (survives : Bool) (b : Byte) (bs : List Byte) (wr : WriteCursor) :
    ∃ fs z, ShrinksAll survives bs (shrinkStart b wr) fs z ∧
      shrinkRun survives (b :: bs) wr = (writeFields (fs ++ [⟨z.cur, z.width⟩]) wr >>= bwFlush) := by
  obtain ⟨fs, z, all, emits⟩ := emits_bytes survives bs (shrinkStart_sized b wr)
  refine ⟨fs, z, all, ?_⟩
  have coded := emits.bind (more := fun z => z.emit z.cur) (emits_emit z.cur z) wr
  have body : shrinkBody survives (b :: bs) wr = (shrinkBytes survives bs (shrinkStart b wr) >>= fun z =>
      z.emit z.cur) >>= fun z => .ok z.wr := (bind_assoc ..).symm
  rw [shrinkRun_eq, body]
  refine (congrArg (· >>= (fun z => .ok z.wr) >>= bwFlush) coded).trans ?_
  cases writeFields (fs ++ [⟨z.cur, z.width⟩]) wr <;> rfl

end Emission

/-! ### The bound on the stream of SHRINK (R370) -/

section Bound

variable {survives : Bool} {b : Byte} {bs : List Byte} {z z' : ShrinkState} {fs : List BitField}

theorem fieldBits_wideningPairs_le {w k : Nat} (bound : w + k ≤ 13) : fieldBits (wideningPairs w k) ≤ 26 * k := by
  induction k generalizing w with
  | zero => exact Nat.le_refl _
  | succ k ih =>
    have more := ih (w := w + 1) (by omega)
    rw [wideningPairs, fieldBits_cons, fieldBits_cons]
    dsimp only
    omega

theorem Inserts.bits_le {nc : Option Nat} (h : Inserts b z nc fs z') :
    fieldBits fs + 26 * z.width ≤ 26 * z'.width := by
  cases h with
  | none => exact (Nat.zero_add _).le
  | some fits bound =>
    have pairs := fieldBits_wideningPairs_le bound
    rw [ShrinkState.insert]
    dsimp only
    omega

/-- A byte takes at most three codes beside the widening pairs. -/
theorem Shrinks.bits_le (h : Shrinks survives b z fs z') (sized : z.Sized) :
    fieldBits fs + 26 * z.width ≤ 39 + 26 * z'.width := by
  have width := sized.width
  cases h with
  | hit => simp
  | miss _ _ inserts =>
    have insert := inserts.bits_le
    simp only [fieldBits_cons]
    omega
  | clear _ _ inserts =>
    have insert : _ + 26 * z.width ≤ _ := inserts.bits_le
    simp only [fieldBits_cons]
    omega

theorem ShrinksAll.bits_le (h : ShrinksAll survives bs z fs z') (sized : z.Sized) :
    fieldBits fs + 26 * z.width ≤ 39 * bs.length + 26 * z'.width ∧ z'.Sized := by
  induction h with
  | nil => exact ⟨by simp, sized⟩
  | cons first rest ih =>
    have byte := first.bits_le sized
    obtain ⟨bytes, sized'⟩ := ih (first.sized sized)
    rw [fieldBits_append, List.length_cons]
    exact ⟨by omega, sized'⟩

end Bound

/-- R164, R165: fields that fit in the buffer are written and flushed. -/
theorem writeFlush_of_room {fs : List BitField} {base cap : Nat} (room : fieldBits fs ≤ 8 * cap) :
    ∃ wr, (writeFields fs ⟨base, cap, 0, 0, 0, []⟩ >>= bwFlush) = .ok wr ∧ wr.byte = ceil8 (fieldBits fs) := by
  have start := emptyWriter_inBuffer base cap
  obtain ⟨c, write⟩ := writeFields_of_room (fs := fs) start.inside.bit (show 0 + _ ≤ 8 * cap by omega)
  have written := (writeFields_ends fs start).of_ok write
  have pushed : c.pos = 0 + fieldBits fs := (writeFields_pushed start.inside.bit write).pos
  obtain ⟨wr, flush⟩ := bwFlush_of_room written.inside.bit (by rw [pushed, written.cap_eq]; omega)
  exact ⟨wr, (bind_of_ok write).trans flush, (ahead_of_write_flush [] write flush).1⟩

/-- R370: with five bytes of room for each source byte and 13 more, SHRINK writes its stream. -/
theorem shrinkRun_of_room (survives : Bool) {src : List Byte} {base cap : Nat} (room : 5 * src.length + 13 ≤ cap) :
    ∃ wr, shrinkRun survives src ⟨base, cap, 0, 0, 0, []⟩ = .ok wr ∧ wr.byte ≤ 5 * src.length + 13 ∧
      (src = [] → wr.byte = 0) := by
  cases src with
  | nil => exact ⟨_, rfl, Nat.zero_le _, fun _ => rfl⟩
  | cons b bs =>
    obtain ⟨fs, z, all, run⟩ := shrinkRun_cons survives b bs ⟨base, cap, 0, 0, 0, []⟩
    obtain ⟨bits, -, width⟩ := all.bits_le (shrinkStart_sized ..)
    have start : (shrinkStart b ⟨base, cap, 0, 0, 0, []⟩).width = 9 := rfl
    have bits : fieldBits (fs ++ [⟨z.cur, z.width⟩]) ≤ 8 * (5 * (b :: bs).length + 13) := by
      rw [fieldBits_append, fieldBits_cons, fieldBits_nil, List.length_cons]
      dsimp only
      omega
    obtain ⟨wr, write, byte⟩ := writeFlush_of_room (base := base) (bits.trans (Nat.mul_le_mul_left 8 room))
    exact ⟨wr, run.trans write, byte ▸ ceil8_le.2 bits, nofun⟩

/-- Settles O45: a byte takes at most 39 bits beside the widening pairs, which are at most four. -/
theorem shrinkCompletes : Obligations.ShrinkCompletes := by
  intro s apart plain room
  rw [← srcBytes_length] at room ⊢
  obtain ⟨wr, run, bound, empty⟩ := shrinkRun_of_room Config.lzwSelfPrefixSurvives (base := s.dstAddr.toNat) room
  have run : shrinkRun Config.lzwSelfPrefixSurvives s.srcBytes s.privateWriter = .ok wr := run
  have inside := (shrinkRun_ends _ _ (privateWriter_inBuffer s)).of_ok run
  have written := (deliverWrites_byte inside).1
  refine ⟨s.deliverWrites wr, ?_, ?_, by rwa [written], fun none => ?_, fun a outside => ?_⟩
  · rw [exec_shrink apart plain, run, State.encoded]
  · rw [State.deliverWrites, State.report, BitVec.ofNat_toNat, BitVec.setWidth_eq]
    rfl
  · have length : s.srcBytes.length = 0 := (srcBytes_length s).trans (congrArg BitVec.toNat none)
    exact BitVec.eq_of_toNat_eq (written.trans (empty (List.length_eq_zero_iff.1 length)))
  · rw [written] at outside
    exact deliverWrites_frame inside outside

end Sys2Proof.Machine

namespace Sys2Proof.Machine

/-! ### UNSHRINK on a stream of fields (R381 to R384) -/

/-- UNSHRINK gets from `u` to `u'` in at most `k` turns, with the rest of its fuel left. -/
def Unshrinks (survives : Bool) (m : Memory) (cap k : Nat) (u u' : UnshrinkState) : Prop :=
  ∀ fuel, k ≤ fuel → ∃ left, fuel ≤ k + left ∧
    unshrinkBody survives m cap fuel u = unshrinkBody survives m cap left u'

/-- What UNSHRINK leaves behind the fields `fs`, with `gs` still ahead: at most one turn for each bit, the reader moved
over exactly these fields. -/
structure ReadPast (survives : Bool) (m : Memory) (cap : Nat) (fs gs : List BitField) (u u' : UnshrinkState) :
    Prop where
  turns : Unshrinks survives m cap (fieldBits fs) u u'
  pos : u'.rd.pos = u.rd.pos + fieldBits fs
  len : u'.rd.len = u.rd.len
  ahead : Ahead m u'.rd gs

/-- Wherever the fields `fs` stand ahead, UNSHRINK gets from `u` to `u'` behind them. -/
def Decodes (survives : Bool) (m : Memory) (cap : Nat) (fs : List BitField) (u u' : UnshrinkState) : Prop :=
  ∀ gs, Ahead m u.rd (fs ++ gs) → ReadPast survives m cap fs gs u u'

/-- UNSHRINK with its reader `n` bits further on. -/
def UnshrinkState.skip (n : Nat) (u : UnshrinkState) : UnshrinkState := { u with rd := u.rd.skip n }

/-- What the data code `c` with the string `st` leaves (R384), the reader apart. -/
def UnshrinkState.take (c : Nat) (st : List Byte) (u : UnshrinkState) : UnshrinkState :=
  { u with table := unshrinkInsert st u, prev := some c, prevStr := st, out := st.reverse ++ u.out }

section Turns

variable {survives : Bool} {m : Memory} {cap c j k : Nat} {u u' u'' : UnshrinkState} {fs gs : List BitField}
  {st : List Byte}

@[simp] theorem unshrinkSkip_rd (n : Nat) : (u.skip n).rd = u.rd.skip n := rfl

@[simp] theorem unshrinkSkip_width (n : Nat) : (u.skip n).width = u.width := rfl

@[simp] theorem unshrinkSkip_out (n : Nat) : (u.skip n).out = u.out := rfl

@[simp] theorem unshrinkTake_rd : (u.take c st).rd = u.rd := rfl

@[simp] theorem unshrinkTake_width : (u.take c st).width = u.width := rfl

@[simp] theorem unshrinkTake_out : (u.take c st).out = st.reverse ++ u.out := rfl

theorem Unshrinks.refl : Unshrinks survives m cap 0 u u := fun fuel _ => ⟨fuel, (Nat.zero_add _).ge, rfl⟩

theorem Unshrinks.trans (h : Unshrinks survives m cap j u u') (h' : Unshrinks survives m cap k u' u'') :
    Unshrinks survives m cap (j + k) u u'' := by
  intro fuel enough
  obtain ⟨left, rest, run⟩ := h fuel (by omega)
  obtain ⟨left', rest', run'⟩ := h' left (by omega)
  exact ⟨left', by omega, run.trans run'⟩

theorem Unshrinks.mono (h : Unshrinks survives m cap j u u') (le : j ≤ k) : Unshrinks survives m cap k u u' := by
  intro fuel enough
  obtain ⟨left, rest, run⟩ := h fuel (by omega)
  exact ⟨left, by omega, run⟩

/-- R381: one turn takes one code. -/
theorem Unshrinks.turn (narrow : u.width ≤ 64) (fits : c < 2 ^ u.width) (ahead : Ahead m u.rd (⟨c, u.width⟩ :: fs))
    (takes : (if c = 256 then unshrinkControl survives m (u.skip u.width) else unshrinkData cap c (u.skip u.width)) =
      .ok u') : Unshrinks survives m cap 1 u u' := by
  intro fuel enough
  obtain ⟨left, rfl⟩ := Nat.exists_eq_add_of_le' enough
  have room : u.width ≤ u.rd.remaining := (Nat.le_add_right ..).trans ahead.room
  refine ⟨left, (Nat.add_comm left 1).le, ?_⟩
  rw [unshrinkBody, if_pos room, brRead_of_ahead narrow fits ahead]
  dsimp only
  rw [← UnshrinkState.skip, takes]

theorem putBytes_of_room {bs out : List Byte} (room : out.length + bs.length ≤ cap) :
    putBytes cap bs out = .ok (bs.reverse ++ out) := by
  induction bs generalizing out with
  | nil => rfl
  | cons b bs ih =>
    rw [List.length_cons] at room
    rw [putBytes, putByte, if_neg (by omega)]
    dsimp only
    rw [ih (by rw [List.length_cons]; omega), List.reverse_cons, List.append_assoc]
    rfl

theorem Decodes.refl : Decodes survives m cap [] u u := fun _ ahead => ⟨.refl, rfl, rfl, ahead⟩

theorem Decodes.trans (h : Decodes survives m cap fs u u') (h' : Decodes survives m cap gs u' u'') :
    Decodes survives m cap (fs ++ gs) u u'' := by
  intro hs ahead
  rw [List.append_assoc] at ahead
  obtain ⟨turns, pos, len, ahead⟩ := h _ ahead
  obtain ⟨turns', pos', len', ahead⟩ := h' _ ahead
  refine ⟨?_, ?_, len'.trans len, ahead⟩
  · rw [fieldBits_append]
    exact turns.trans turns'
  · rw [fieldBits_append, pos', pos, Nat.add_assoc]

/-- R383, R384: a data code puts out its string. -/
theorem Decodes.data (wide : 1 ≤ u.width) (narrow : u.width ≤ 64) (fits : c < 2 ^ u.width) (data : c ≠ 256)
    (string : unshrinkString c u = .ok st) (room : u.out.length + st.length ≤ cap) :
    Decodes survives m cap [⟨c, u.width⟩] u ((u.take c st).skip u.width) := by
  intro gs ahead
  have string : unshrinkString c (u.skip u.width) = .ok st := string
  have turn : Unshrinks survives m cap 1 u ((u.take c st).skip u.width) := by
    refine .turn narrow fits ahead ?_
    rw [if_neg data, unshrinkData, string]
    dsimp only
    rw [unshrinkSkip_out, putBytes_of_room room]
    rfl
  exact ⟨turn.mono wide, skip_pos, rfl, ahead.rest⟩

/-- R381: fewer bits than a code end the stream. -/
theorem Decodes.run {base len : Nat} (ahead : Ahead m ⟨base, len, 0, 0⟩ fs)
    (h : Decodes survives m cap fs ⟨lzwInit, Config.lzwMinWidth, none, [], ⟨base, len, 0, 0⟩, []⟩ u)
    (stop : 8 * len < fieldBits fs + u.width) :
    unshrinkRun survives m ⟨base, len, 0, 0⟩ cap = .ok u ∧ u.rd.pos = fieldBits fs := by
  obtain ⟨turns, pos, len_eq, -⟩ := h [] (by rwa [List.append_nil])
  have pos : u.rd.pos = fieldBits fs := pos.trans (Nat.zero_add _)
  have len_eq : u.rd.len = len := len_eq
  have room : fieldBits fs ≤ 8 * len := ahead.room
  have short : ¬ u.width ≤ u.rd.remaining := by
    rw [ReadCursor.remaining, pos, len_eq]
    omega
  obtain ⟨left, -, run⟩ := turns (8 * len) room
  refine ⟨?_, pos⟩
  rw [unshrinkRun, run]
  cases left <;> rw [unshrinkBody, if_neg short]

end Turns

/-! ### Literals only (R383) -/

section Literals

variable {survives : Bool} {m : Memory} {cap n : Nat} {u : UnshrinkState} {bs : List Byte}

/-- Literal codes put out their bytes, whatever is inserted. -/
theorem decodes_literals (width : u.width = 9) (room : u.out.length + bs.length ≤ cap) :
    ∃ u', Decodes survives m cap (bs.map fun b => ⟨b.toNat, 9⟩) u u' ∧ u'.width = 9 ∧
      u'.out = bs.reverse ++ u.out := by
  induction bs generalizing u with
  | nil => exact ⟨u, .refl, width, rfl⟩
  | cons b bs ih =>
    rw [List.length_cons] at room
    have byte : b.toNat < 256 := b.isLt
    have string : unshrinkString b.toNat u = .ok [b] := by
      rw [unshrinkString, if_pos byte, BitVec.ofNat_toNat, BitVec.setWidth_eq]
    have first : Decodes survives m cap [⟨b.toNat, u.width⟩] u ((u.take b.toNat [b]).skip u.width) :=
      .data (by omega) (by omega) (byte.trans (by rw [width]; decide)) byte.ne string
        (by rw [List.length_singleton]; omega)
    obtain ⟨u', rest, width', out⟩ := ih (u := (u.take b.toNat [b]).skip u.width) width
      (by simp only [unshrinkSkip_out, unshrinkTake_out, List.length_append, List.length_reverse,
        List.length_singleton]; omega)
    rw [width] at first rest
    refine ⟨u', first.trans rest, width', out.trans ?_⟩
    rw [List.reverse_cons, List.append_assoc]
    rfl

theorem holdsFields_map_range {f : Nat → Bool} {p w n : Nat} {v : Nat → Nat}
    (bits : ∀ k < n, ∀ j < w, f (p + w * k + j) = (v k).testBit j) :
    holdsFields f p ((List.range n).map fun k => ⟨v k, w⟩) := by
  induction n with
  | zero => trivial
  | succ n ih =>
    rw [List.range_succ, List.map_append, holdsFields_append, fieldBits_map, List.length_range]
    exact ⟨ih fun k hk => bits k (by omega), bits n (Nat.lt_succ_self n), trivial⟩

/-- The byte whose bits stand from bit `p` on in memory from `base` (R103). -/
def State.byteAt (s : State) (base p : Nat) : Byte := BitVec.ofNat 8 (bitsValue (fun j => s.memBit base (p + j)) 8)

theorem byteAt_testBit (s : State) (base p j : Nat) :
    (s.byteAt base p).toNat.testBit j = (decide (j < 8) && s.memBit base (p + j)) := by
  rw [State.byteAt, BitVec.toNat_ofNat, Nat.mod_eq_of_lt (bitsValue_lt _ 8), bitsValue_testBit]

/-- R361: a source whose every ninth bit is 0 is a stream of literal codes. -/
theorem ahead_literals {s : State} (inside : 9 * n ≤ 8 * s.srcLen.toNat)
    (literal : ∀ k < n, s.memBit s.srcAddr.toNat (9 * k + 8) = false) :
    Ahead s.mem s.privateReader
      (((List.range n).map fun k => s.byteAt s.srcAddr.toNat (9 * k)).map fun b => ⟨b.toNat, 9⟩) := by
  refine ⟨?_, ?_⟩
  · rw [List.map_map]
    refine holdsFields_map_range fun k hk j hj => ?_
    have start : s.privateReader.pos = 0 := rfl
    have within : 9 * k + j < 8 * s.srcLen.toNat := by omega
    have stream : streamBit s.mem s.privateReader (9 * k + j) = s.memBit s.srcAddr.toNat (9 * k + j) :=
      (congrArg (· && _) (decide_eq_true within)).trans (Bool.true_and _)
    rw [start, Nat.zero_add, stream, byteAt_testBit]
    by_cases low : j < 8
    · rw [decide_eq_true low, Bool.true_and]
    · rw [show j = 8 by omega, literal k hk]
      rfl
  · rw [fieldBits_map, List.length_map, List.length_range]
    exact inside

end Literals

/-- R380: a run that puts out `out` delivers it. -/
theorem exec_unshrink_of_run {s : State} {u : UnshrinkState} {out : List Byte} (apart : s.buffersApart)
    (plain : s.plainBuffers [s.srcBuffer, s.dstBuffer])
    (run : unshrinkRun Config.lzwSelfPrefixSurvives s.mem s.privateReader s.dstCap.toNat = .ok u)
    (puts : u.out = out.reverse) : exec .unshrink s = .next (s.deliver out (ceil8 u.rd.pos)) := by
  refine (if_neg (by simp [(srcDstOk_iff s).2 apart])).trans ((withBuffers_plain plain).trans ?_)
  rw [run]
  dsimp only
  rw [puts, List.reverse_reverse]

/-- Settles O46: the source is a stream of literal codes, and what is left behind it is shorter than a code. -/
theorem unshrinkLiterals : Obligations.UnshrinkLiterals := by
  intro s n apart plain codes room literal
  have ahead := ahead_literals (n := n) (by omega) literal
  set bs := (List.range n).map fun k => s.byteAt s.srcAddr.toNat (9 * k) with bytes
  have length : bs.length = n := by rw [bytes, List.length_map, List.length_range]
  have bits : fieldBits (bs.map fun b => ⟨b.toNat, 9⟩) = 9 * n := (fieldBits_map ..).trans (by rw [length])
  obtain ⟨u, decodes, width, out⟩ := decodes_literals (survives := Config.lzwSelfPrefixSurvives) (m := s.mem)
    (cap := s.dstCap.toNat) (bs := bs) (u := ⟨lzwInit, Config.lzwMinWidth, none, [], s.privateReader, []⟩) rfl
    (by rw [length]; exact (Nat.zero_add n).trans_le room)
  obtain ⟨run, pos⟩ := decodes.run ahead (by omega)
  refine ⟨_, exec_unshrink_of_run apart plain run (out.trans (List.append_nil _)), ?_, fun k hk j hj => ?_,
    fun a outside => read_writeBytes_outside (by omega)⟩
  · rw [pos, bits, ceil8, State.deliver, State.report, length]
    rfl
  · have read : (s.mem.writeBytes s.dstAddr.toNat bs).read (s.dstAddr.toNat + k) =
        s.byteAt s.srcAddr.toNat (9 * k) := by
      rw [read_writeBytes, if_pos (by omega), Nat.add_sub_cancel_left]
      simp [bytes, List.getD_eq_getElem?_getD, hk]
    refine (congrArg (·.getLsbD j) read).trans ?_
    rw [← BitVec.testBit_toNat, byteAt_testBit, decide_eq_true hj, Bool.true_and]

end Sys2Proof.Machine

namespace Sys2Proof.Machine

/-! ### Strings of codes (R363) -/

/-- The string of a code: a literal's own byte, or an entry's byte behind the string of the earlier code that the entry
extends. -/
inductive Spells (t : LzwTable) : Nat → List Byte → Prop
  | literal (b : Byte) : Spells t b.toNat [b]
  | entry {c p : Nat} {b : Byte} {st : List Byte} (above : 257 ≤ c) (slot : lzwGet t c = ⟨true, some p, b⟩)
      (earlier : p < c) (pfx : Spells t p st) : Spells t c (st ++ [b])

/-- A table whose occupied codes from 257 on are the first `n`. -/
structure Filled (n : Nat) (t : LzwTable) : Prop where
  length : t.length = 8192
  used : ∀ c, 257 ≤ c → ((lzwGet t c).used = true ↔ c < 257 + n)

section Strings

variable {t : LzwTable} {c d n p : Nat} {b : Byte} {st st' acc : List Byte}

theorem Spells.ne_nil (h : Spells t c st) : st ≠ [] := by
  cases h with
  | literal => exact List.cons_ne_nil _ _
  | entry => exact List.append_ne_nil_of_right_ne_nil _ (List.cons_ne_nil _ _)

theorem Spells.ne_256 (h : Spells t c st) : c ≠ 256 := by
  cases h with
  | literal b => exact b.isLt.ne
  | entry above => exact (Nat.lt_of_succ_le above).ne'

theorem Spells.used (h : Spells t c st) (above : 257 ≤ c) : (lzwGet t c).used = true := by
  cases h with
  | literal b => exact absurd b.isLt (by omega)
  | entry _ slot => rw [slot]

theorem Spells.eq_literal (h : Spells t c st) (low : c < 256) : st = [BitVec.ofNat 8 c] := by
  cases h with
  | literal b => rw [BitVec.ofNat_toNat, BitVec.setWidth_eq]
  | entry above => omega

theorem lzwWalk_of_literal {fuel : Nat} (low : c < 256) :
    lzwWalk t fuel c acc = .ok (BitVec.ofNat 8 c :: acc) := by
  rw [lzwWalk.eq_def]
  exact if_pos low

theorem lzwWalk_of_entry {fuel : Nat} (above : 257 ≤ c) (slot : lzwGet t c = ⟨true, some p, b⟩) :
    lzwWalk t (fuel + 1) c acc = lzwWalk t fuel p (b :: acc) := by
  rw [lzwWalk, if_neg (by omega), slot, if_neg (by simp; omega)]

/-- R363: the walk collects the string; each step goes to an earlier code. -/
theorem Spells.walk {fuel : Nat} (h : Spells t c st) (enough : c < 257 + fuel) :
    lzwWalk t fuel c acc = .ok (st ++ acc) := by
  induction h generalizing fuel acc with
  | literal b =>
    rw [lzwWalk_of_literal b.isLt, BitVec.ofNat_toNat, BitVec.setWidth_eq]
    rfl
  | entry above slot earlier _ ih =>
    obtain ⟨fuel, rfl⟩ := Nat.exists_eq_add_one_of_ne_zero (by omega : fuel ≠ 0)
    rw [lzwWalk_of_entry above slot, ih (by omega), List.append_assoc]
    rfl

theorem Spells.expand (h : Spells t c st) (code : c < 8192) : lzwExpand t c = .ok st := by
  rw [lzwExpand, h.walk code, List.append_nil]

/-- A code has one string. -/
theorem Spells.unique (h : Spells t c st) (h' : Spells t c st') : st = st' := by
  induction h generalizing st' with
  | literal b => rw [h'.eq_literal b.isLt, BitVec.ofNat_toNat, BitVec.setWidth_eq]
  | entry above slot _ _ ih =>
    cases h' with
    | literal b => exact absurd b.isLt (by omega)
    | entry _ slot' _ pfx =>
      rw [slot, LzwEntry.mk.injEq] at slot'
      obtain ⟨-, same, rfl⟩ := slot'
      cases same
      rw [ih pfx]

/-- R365: a new entry changes no string. -/
theorem Spells.insert (h : Spells t c st) (free : lzwLowestFree t = some d) (p : Nat) (b : Byte) :
    Spells (lzwInsert t d p b) c st := by
  obtain ⟨-, inside, unused, -⟩ := lzwLowestFree_eq_some free
  induction h with
  | literal b => exact .literal b
  | entry above slot earlier _ ih =>
    refine .entry above ?_ earlier ih
    rw [lzwGet_insert inside, if_neg, slot]
    rintro rfl
    rw [slot] at unused
    cases unused

/-- A code below a new entry had its string before. -/
theorem Spells.of_insert (h : Spells (lzwInsert t d p b) c st) (inside : d < t.length) (below : c < d) :
    Spells t c st := by
  induction h with
  | literal b => exact .literal b
  | entry above slot earlier _ ih =>
    rw [lzwGet_insert inside, if_neg below.ne] at slot
    exact .entry above slot earlier (ih (earlier.trans below))

/-- The string of a new entry. -/
theorem Spells.eq_of_new (h : Spells (lzwInsert t d p b) d st) (free : lzwLowestFree t = some d)
    (pfx : Spells t p st') : st = st' ++ [b] := by
  obtain ⟨above, inside, -, -⟩ := lzwLowestFree_eq_some free
  cases h with
  | literal b => exact absurd b.isLt (by omega)
  | entry _ slot _ pfx' =>
    rw [lzwGet_insert inside, if_pos rfl, LzwEntry.mk.injEq] at slot
    obtain ⟨-, same, rfl⟩ := slot
    cases same
    rw [pfx'.unique (pfx.insert free p b)]

theorem filled_init : Filled 0 lzwInit := by
  refine ⟨lzwInit_length, fun c above => ?_⟩
  have free : lzwGet lzwInit c = lzwFree := by
    rw [lzwGet, lzwInit, List.getD_append_right _ _ _ _ (by simp; omega), List.getD_eq_getElem?_getD,
      List.getElem?_replicate]
    split <;> rfl
  rw [free]
  exact ⟨nofun, fun below => absurd below (Nat.not_lt.2 above)⟩

/-- R364: the lowest free code of a table without gaps. -/
theorem Filled.eq_of_lowestFree (h : Filled n t) (free : lzwLowestFree t = some c) : c = 257 + n := by
  obtain ⟨above, -, unused, below⟩ := lzwLowestFree_eq_some free
  have not_below : ¬ c < 257 + n := (h.used c above).not.1 (Bool.eq_false_iff.1 unused)
  have not_above : ¬ 257 + n < c := fun above' =>
    Nat.lt_irrefl _ ((h.used _ (Nat.le_add_right ..)).1 (below _ (Nat.le_add_right ..) above'))
  omega

theorem Filled.lowestFree (h : Filled n t) (room : n < 7935) : lzwLowestFree t = some (257 + n) := by
  cases free : lzwLowestFree t with
  | none =>
    have used := lzwLowestFree_eq_none free (Nat.le_add_right 257 n) (by rw [h.length]; omega)
    exact absurd ((h.used _ (Nat.le_add_right ..)).1 used) (Nat.lt_irrefl _)
  | some c => rw [h.eq_of_lowestFree free]

theorem Filled.insert (h : Filled n t) (room : n < 7935) (p : Nat) (b : Byte) :
    Filled (n + 1) (lzwInsert t (257 + n) p b) := by
  have length := h.length
  refine ⟨(lzwInsert_length ..).trans length, fun c above => ?_⟩
  rw [lzwGet_insert (by omega)]
  split
  · next new => simp [new]
  · next old => rw [h.used c above]; omega

/-- In a table without gaps only the first codes have strings. -/
theorem Filled.code_lt (h : Filled n t) (spells : Spells t c st) : c < 257 + n := by
  by_cases above : 257 ≤ c
  · exact (h.used c above).1 (spells.used above)
  · omega

end Strings

/-! ### The map of SHRINK (R371) -/

theorem lzwMapGet_set (mp : LzwMap) (k : Nat × Byte) (c : Nat) (k' : Nat × Byte) :
    lzwMapGet (lzwMapSet mp k c) k' = if k' = k then some c else lzwMapGet mp k' := by
  rw [lzwMapGet, lzwMapSet, List.find?_cons, List.find?_filter]
  split
  · next same => rw [if_pos (eq_of_beq same).symm]; rfl
  · next other =>
    have other : k' ≠ k := fun same => by simp [same] at other
    rw [if_neg other, lzwMapGet]
    congr 2
    funext x
    by_cases found : x.1 = k' <;> simp [found, other]

/-- SHRINK with `n` entries in its table, and the string of the code it has matched so far. -/
structure Encodes (n : Nat) (z : ShrinkState) (st : List Byte) : Prop where
  filled : Filled n z.table
  codes : 257 + n ≤ 2 ^ z.width
  width : z.width ≤ 13
  mapped : ∀ p b c, lzwMapGet z.map (p, b) = some c → 257 ≤ c ∧ p < c ∧ lzwGet z.table c = ⟨true, some p, b⟩
  cur : Spells z.table z.cur st

section Encoder

variable {n : Nat} {z z' : ShrinkState} {st : List Byte} {b : Byte} {fs : List BitField}

theorem encodes_start (b : Byte) (wr : WriteCursor) : Encodes 0 (shrinkStart b wr) [b] :=
  ⟨filled_init, (by decide : 257 ≤ 2 ^ 9), (by decide : 9 ≤ 13), nofun, .literal b⟩

/-- R371: a match extended by one byte. -/
theorem Encodes.hit {c : Nat} (h : Encodes n z st) (found : lzwMapGet z.map (z.cur, b) = some c) :
    Encodes n { z with cur := c } (st ++ [b]) := by
  obtain ⟨filled, codes, width, mapped, cur⟩ := h
  obtain ⟨above, earlier, slot⟩ := mapped _ _ _ found
  exact ⟨filled, codes, width, mapped, .entry above slot earlier cur⟩

/-- R371: an insertion, and the next match started on its byte. -/
theorem Encodes.insert (h : Encodes n z st) (room : n < 7935)
    (inserts : Inserts b z (some (257 + n)) fs z') : Encodes (n + 1) { z' with cur := b.toNat } [b] := by
  obtain ⟨filled, codes, width, mapped, cur⟩ := h
  cases inserts with
  | some fits bound =>
  have inside : 257 + n < z.table.length := by rw [filled.length]; omega
  refine ⟨filled.insert room _ _, fits, bound, fun p x c look => ?_, .literal b⟩
  replace look := (lzwMapGet_set ..).symm.trans look
  have slots : lzwGet (lzwInsert z.table (257 + n) z.cur b) c = _ := lzwGet_insert inside _ _ c
  by_cases key : (p, x) = (z.cur, b)
  · rw [if_pos key] at look
    cases key
    cases look
    exact ⟨Nat.le_add_right .., filled.code_lt cur, slots.trans (if_pos rfl)⟩
  · rw [if_neg key] at look
    obtain ⟨above, earlier, slot⟩ := mapped _ _ _ look
    have old : c < 257 + n := (filled.used c above).1 (by rw [slot])
    exact ⟨above, earlier, slots.trans ((if_neg old.ne).trans slot)⟩

end Encoder

end Sys2Proof.Machine

namespace Sys2Proof.Machine

/-! ### UNSHRINK behind SHRINK (R391) -/

/-- UNSHRINK before the code of SHRINK's match `st`: the same width; the same table once the entry that the next code
completes is in (R391); and the string of the previous code known. -/
structure Follows (z : ShrinkState) (st : List Byte) (u : UnshrinkState) : Prop where
  width : u.width = z.width
  table : unshrinkInsert st u = z.table
  filled : ∃ n, Filled n u.table
  prev : ∀ p, u.prev = some p → Spells u.table p u.prevStr

/-- A run of both units in step, with at most `n` entries made and `text` read from the source: UNSHRINK has put out all
but the match that SHRINK is at. -/
inductive InStep (n : Nat) (text : List Byte) (z : ShrinkState) (u : UnshrinkState) : Prop
  | mk {k : Nat} {st : List Byte} (few : k ≤ n) (encodes : Encodes k z st) (follows : Follows z st u)
      (text_eq : u.out.reverse ++ st = text)

section Insertion

variable {u : UnshrinkState} {st : List Byte} {c : Nat} {b : Byte}

/-- R384: the table after a data code. -/
theorem unshrinkInsert_cases (st : List Byte) (u : UnshrinkState) : unshrinkInsert st u = u.table ∨
    ∃ p d h tl, u.prev = some p ∧ lzwLowestFree u.table = some d ∧ st = h :: tl ∧
      unshrinkInsert st u = lzwInsert u.table d p h := by
  rw [unshrinkInsert.eq_def]
  split
  · next p d h tl prev free => exact .inr ⟨p, d, h, tl, prev, free, rfl, rfl⟩
  · exact .inl rfl

theorem unshrinkInsert_of_prev {p d : Nat} (prev : u.prev = some p) (free : lzwLowestFree u.table = some d) (b : Byte)
    (bs : List Byte) : unshrinkInsert (b :: bs) u = lzwInsert u.table d p b := by
  rw [unshrinkInsert.eq_def, prev, free]

/-- Only the first byte of the string goes to the table. -/
theorem unshrinkInsert_append (ne : st ≠ []) (bs : List Byte) (u : UnshrinkState) :
    unshrinkInsert (st ++ bs) u = unshrinkInsert st u := by
  cases st with
  | nil => exact absurd rfl ne
  | cons h tl =>
    rw [unshrinkInsert.eq_def, unshrinkInsert.eq_def]
    cases u.prev <;> cases lzwLowestFree u.table <;> rfl

theorem take_one_of_append_eq_cons {l tl : List Byte} (ne : l ≠ []) (h : l ++ [b] = b :: tl) : l.take 1 = [b] := by
  cases l with
  | nil => exact absurd rfl ne
  | cons x xs =>
    rw [List.cons_append, List.cons.injEq] at h
    rw [h.1]
    rfl

/-- R383: the string of a code that SHRINK has an entry for, be it the one that the code itself completes. -/
theorem unshrinkString_of_spells {n : Nat} (filled : Filled n u.table)
    (prev : ∀ p, u.prev = some p → Spells u.table p u.prevStr) (spells : Spells (unshrinkInsert st u) c st)
    (code : c < 8192) : unshrinkString c u = .ok st := by
  rw [unshrinkString]
  by_cases low : c < 256
  · rw [if_pos low, spells.eq_literal low]
  have above : 257 ≤ c := by
    have := spells.ne_256
    omega
  rw [if_neg low]
  obtain same | ⟨p, d, h, tl, prev_eq, free, head, inserted⟩ := unshrinkInsert_cases st u
  · rw [same] at spells
    have known : some c ≠ lzwLowestFree u.table := fun free => by
      obtain ⟨-, -, unused, -⟩ := lzwLowestFree_eq_some free.symm
      exact absurd (spells.used above) (Bool.eq_false_iff.1 unused)
    rw [if_neg known, spells.expand code]
  · rw [inserted] at spells
    obtain ⟨-, inside, -, -⟩ := lzwLowestFree_eq_some free
    rw [free, prev_eq]
    by_cases snag : c = d
    · subst snag
      have string := spells.eq_of_new free (prev p prev_eq)
      rw [string] at head
      rw [if_pos rfl, string, ← take_one_of_append_eq_cons (prev p prev_eq).ne_nil head]
    · have used := spells.used above
      rw [lzwGet_insert inside, if_neg snag, filled.used c above, ← filled.eq_of_lowestFree free] at used
      rw [if_neg (Option.some_inj.not.2 snag), (spells.of_insert inside used).expand code]

end Insertion

section Turns

variable {survives : Bool} {m : Memory} {cap n k : Nat} {u : UnshrinkState} {z z' : ShrinkState} {st text : List Byte}
  {b : Byte} {bs : List Byte} {fs : List BitField}

/-- R382: a widening pair. -/
theorem decodes_pair (wide : 9 ≤ u.width) (narrow : u.width < 13) :
    Decodes survives m cap [⟨256, u.width⟩, ⟨1, u.width⟩] u
      { u with width := u.width + 1, rd := (u.rd.skip u.width).skip u.width } := by
  intro gs ahead
  have fits (v : Nat) (small : v < 2 ^ 9) : v < 2 ^ u.width := small.trans_le (Nat.pow_le_pow_right (by decide) wide)
  have sub := brRead_of_ahead (by omega) (fits 1 (by decide)) ahead.rest
  have room : u.width ≤ (u.rd.skip u.width).remaining := (Nat.le_add_right ..).trans ahead.rest.room
  have turn : Unshrinks survives m cap 1 u _ := .turn (by omega) (fits 256 (by decide)) ahead (by
    rw [if_pos rfl, unshrinkControl, unshrinkSkip_width, unshrinkSkip_rd, if_neg (Nat.not_lt.2 room), sub]
    dsimp only
    rw [if_pos rfl, if_neg narrow.ne])
  refine ⟨turn.mono ?_, ?_, rfl, ahead.rest.rest⟩
  · exact Nat.le_add_right_of_le (Nat.le_trans (by decide) wide)
  · simp

theorem decodes_pairs (wide : 9 ≤ u.width) (bound : u.width + k ≤ 13) :
    ∃ rd, Decodes survives m cap (wideningPairs u.width k) u { u with width := u.width + k, rd := rd } := by
  induction k generalizing u with
  | zero => exact ⟨u.rd, .refl⟩
  | succ k ih =>
    have pair := decodes_pair (survives := survives) (m := m) (cap := cap) wide (by omega)
    obtain ⟨rd, rest⟩ := ih (u := { u with width := u.width + 1, rd := (u.rd.skip u.width).skip u.width })
      (Nat.le_succ_of_le wide) (by dsimp only; omega)
    refine ⟨rd, ?_⟩
    rw [← Nat.add_assoc, Nat.add_right_comm]
    exact pair.trans rest

theorem Encodes.code_lt (h : Encodes n z st) : z.cur < 2 ^ z.width ∧ z.cur < 8192 ∧ 9 ≤ z.width := by
  obtain ⟨filled, codes, width, -, cur⟩ := h
  have code := filled.code_lt cur
  have wide : 2 ^ 8 < 2 ^ z.width := by omega
  refine ⟨code.trans_le codes, ?_, (Nat.pow_lt_pow_iff_right (by decide)).1 wide⟩
  exact (code.trans_le codes).trans_le (Nat.pow_le_pow_right (by decide) width)

/-- R391: the code that SHRINK emits is read as its string. -/
theorem Follows.code (h : Follows z st u) (encodes : Encodes n z st) (room : u.out.length + st.length ≤ cap) :
    Decodes survives m cap [⟨z.cur, z.width⟩] u ((u.take z.cur st).skip z.width) := by
  obtain ⟨width, table, ⟨n, filled⟩, prev⟩ := h
  obtain ⟨fits, code, wide⟩ := encodes.code_lt
  have narrow := encodes.width
  have string := unshrinkString_of_spells filled prev (table ▸ encodes.cur) code
  rw [← width] at *
  exact .data (by omega) (by omega) fits encodes.cur.ne_256 string room

/-- R391: the next match starts with the units in step again. -/
theorem Follows.next (h : Follows z st u) (encodes : Encodes n z st) (room : n < 7935) (b : Byte) (w : Nat)
    (rd : ReadCursor) : Follows { ShrinkState.insert (257 + n) b { z with width := w } with cur := b.toNat } [b]
      { u.take z.cur st with width := w, rd := rd } := by
  have table : (u.take z.cur st).table = z.table := h.table
  have free : lzwLowestFree (u.take z.cur st).table = some (257 + n) := table ▸ encodes.filled.lowestFree room
  refine ⟨rfl, ?_, ⟨n, (table ▸ encodes.filled : Filled n (u.take z.cur st).table)⟩, ?_⟩
  · refine (unshrinkInsert_of_prev (d := 257 + n) rfl free b []).trans ?_
    exact congrArg (lzwInsert · (257 + n) z.cur b) table
  · rintro _ ⟨⟩
    exact (table ▸ encodes.cur : Spells (u.take z.cur st).table z.cur st)

theorem InStep.start (b : Byte) (wr : WriteCursor) (rd : ReadCursor) :
    InStep 0 [b] (shrinkStart b wr) ⟨lzwInit, Config.lzwMinWidth, none, [], rd, []⟩ :=
  .mk (Nat.le_refl 0) (encodes_start b wr) ⟨rfl, rfl, ⟨0, filled_init⟩, nofun⟩ rfl

/-- R391: one byte of the source keeps the units in step. -/
theorem InStep.byte (h : InStep n text z u) (room : n < 7935) (fits : text.length ≤ cap)
    (shrinks : Shrinks survives b z fs z') :
    ∃ u', InStep (n + 1) (text ++ [b]) z' u' ∧ Decodes survives m cap fs u u' := by
  obtain @⟨k, st, few, encodes, follows, rfl⟩ := h
  rw [List.length_append, List.length_reverse] at fits
  cases shrinks with
  | hit found =>
    have table := (unshrinkInsert_append encodes.cur.ne_nil [b] u).trans follows.table
    exact ⟨u, .mk (Nat.le_succ_of_le few) (encodes.hit found)
      ⟨follows.width, table, follows.filled, follows.prev⟩ (List.append_assoc ..).symm, .refl⟩
  | miss _ free inserts =>
    rw [encodes.filled.lowestFree (by omega)] at free
    cases free
    have next := encodes.insert (by omega) inserts
    have code := follows.code (survives := survives) (m := m) encodes fits
    cases inserts with
    | @some _ j _ bound =>
    have width : ((u.take z.cur st).skip z.width).width = z.width := follows.width
    obtain ⟨-, -, wide⟩ := encodes.code_lt
    obtain ⟨rd, pairs⟩ := decodes_pairs (survives := survives) (m := m) (cap := cap)
      (u := (u.take z.cur st).skip z.width) (k := j) (by omega) (by omega)
    rw [width] at pairs
    exact ⟨_, .mk (Nat.succ_le_succ few) next (follows.next encodes (by omega) b (z.width + j) rd) (by simp),
      code.trans pairs⟩
  | clear _ full =>
    rw [encodes.filled.lowestFree (by omega)] at full
    cases full

theorem InStep.bytes (h : InStep n text z u) (room : n + bs.length ≤ 7935) (fits : text.length + bs.length ≤ cap)
    (shrinks : ShrinksAll survives bs z fs z') :
    ∃ u', InStep (n + bs.length) (text ++ bs) z' u' ∧ Decodes survives m cap fs u u' := by
  induction shrinks generalizing n text u with
  | nil => exact ⟨u, by rwa [List.append_nil], .refl⟩
  | cons first rest ih =>
    rw [List.length_cons] at room fits
    obtain ⟨u', step, decodes⟩ := h.byte (m := m) (cap := cap) (by omega) (by omega) first
    obtain ⟨u'', steps, decodes'⟩ := ih step (by omega) (by rw [List.length_append, List.length_singleton]; omega)
    rw [List.append_assoc] at steps
    rw [List.length_cons]
    exact ⟨u'', by rwa [Nat.add_comm _ 1, ← Nat.add_assoc], decodes.trans decodes'⟩

/-- R371: the last code. -/
theorem InStep.last (h : InStep n text z u) (fits : text.length ≤ cap) :
    ∃ u', Decodes survives m cap [⟨z.cur, z.width⟩] u u' ∧ u'.out.reverse = text ∧ 8 ≤ u'.width := by
  obtain ⟨few, encodes, follows, rfl⟩ := h
  rw [List.length_append, List.length_reverse] at fits
  refine ⟨_, follows.code encodes fits, ?_, ?_⟩
  · rw [unshrinkSkip_out, unshrinkTake_out, List.reverse_append, List.reverse_reverse]
  · have := encodes.code_lt
    rw [unshrinkSkip_width, unshrinkTake_width, follows.width]
    omega

end Turns

theorem exists_of_bind_ok {α β : Type} {x : Except Cause α} {f : α → Except Cause β} {b : β}
    (h : (x >>= f) = .ok b) : ∃ a, x = .ok a ∧ f a = .ok b := by
  cases x with
  | error c => cases h
  | ok a => exact ⟨a, rfl, h⟩

/-- Settles O48: the units stay in step over the whole source. -/
theorem shrinkRoundTrip : Obligations.ShrinkRoundTrip := by
  intro survives src m base cap cap' wr small run room
  cases src with
  | nil =>
    cases run
    obtain ⟨run, pos⟩ := Decodes.run (survives := survives) (m := m) (cap := cap') (base := base) (len := 0)
      (fs := []) ⟨trivial, Nat.le_refl 0⟩ .refl (by decide : 0 < 0 + 9)
    exact ⟨_, run, rfl, by rw [pos]; rfl⟩
  | cons b bs =>
    rw [List.length_cons] at small room
    obtain ⟨fs, z, all, stream⟩ := shrinkRun_cons survives b bs ⟨base, cap, 0, 0, 0, []⟩
    rw [run] at stream
    obtain ⟨c, write, flush⟩ := exists_of_bind_ok stream.symm
    obtain ⟨byte, ahead⟩ := ahead_of_write_flush m write flush
    obtain ⟨u, step, decodes⟩ := (InStep.start b _ ⟨base, wr.byte, 0, 0⟩).bytes (survives := survives)
      (m := m.applyWrites wr.writes) (cap := cap') (bs := bs) (by omega)
      (by rw [List.length_singleton]; omega) all
    obtain ⟨u', last, out, width⟩ := step.last (survives := survives) (m := m.applyWrites wr.writes) (cap := cap')
      (by rw [List.singleton_append, List.length_cons]; omega)
    obtain ⟨run, pos⟩ := (decodes.trans last).run ahead (by rw [byte, ceil8]; omega)
    exact ⟨u', run, out, by rw [pos, byte, ceil8]⟩

end Sys2Proof.Machine

namespace Sys2Proof.Machine

/-! ### The system commands (R410 to R412) -/

/-- The bits above OP are those that the mask of a command without fields leaves. -/
theorem and_not_opMask_ushiftRight (w : Word) : (w &&& ~~~0xFF#32) >>> 8 = w >>> 8 := by
  have above : ~~~0xFF#32 >>> 8 = BitVec.allOnes 32 >>> 8 := by decide
  rw [BitVec.ushiftRight_and_distrib, above, ← BitVec.ushiftRight_and_distrib, BitVec.and_allOnes]

/-- R132: a word of a command without fields that sets a bit above OP ends ILLEGAL. -/
theorem step_issue_reservedField {s : State} {w : Word} (hs : s.ready) {op : Nat} (mem : (op, 0xFF#32) ∈ opcodeMasks)
    (hop : (opField w).toNat = op) (high : w >>> 8 ≠ 0) :
    step (s.issue w) = .next (s.ended .illegal .reservedField) := by
  obtain ⟨illegal, -⟩ := reservedFieldEndsIllegal w s hs _ mem hop
  refine illegal fun outside => high ?_
  rw [← and_not_opMask_ushiftRight, outside, BitVec.ofNat_eq_ofNat, BitVec.zero_ushiftRight]

/-- Settles O9: the two meanings are a completion, and both rows of the opcode table use OP alone. -/
theorem nopAndClear : Obligations.NopAndClear := by
  refine ⟨by decide, by decide, fun s => ⟨rfl, rfl, fun hs w op high => ?_⟩⟩
  obtain op | op := op
  · exact step_issue_reservedField hs (op := 0x00) (by decide) (congrArg BitVec.toNat op) high
  · exact step_issue_reservedField hs (op := 0x01) (by decide) (congrArg BitVec.toNat op) high

/-- R470: after a reset each register reads its reset value, the platform's own value for ID. -/
theorem regRead_hardReset (s : State) (r : Reg) : s.hardReset.regRead r = r.resetValue s.platform := by
  obtain ⟨reset, -⟩ := resetStateOfTheSpec
  have read := reset r
  cases r with
  | id => rfl
  | _ => exact read

theorem statusWord_hardReset (s : State) : s.hardReset.statusWord = 0 := regRead_hardReset s .status

/-- R470: a reset leaves no slot valid, whatever code the slot held. -/
theorem slot_hardReset (s : State) (k : BitVec 2) : s.hardReset.slot k = none := by
  obtain ⟨-, -, empty, -⟩ := resetStateOfTheSpec
  exact empty k

/-- Settles O10: SOFT_RESET is the reset, with the reset pin, memory and the platform kept. -/
theorem softResetLeavesResetState : Obligations.SoftResetLeavesResetState := fun s =>
  ⟨s.hardReset, rfl, regRead_hardReset s, statusWord_hardReset s, slot_hardReset s, hardReset_engine s, rfl,
    hardReset_mem s, hardReset_platform s, hardReset_rst s⟩

end Sys2Proof.Machine

namespace Sys2Proof.Machine

/-! ### What the codecs' runs can raise (R431, R435) -/

/-- The causes that a command's run can raise: those of its row of R431 that end CAPACITY or FORMAT. -/
def raisedBy (i : Instr) : List Cause :=
  (mayRecord i).filter fun c => decide (c.result = .capacity ∨ c.result = .format)

theorem mem_raisedBy {i : Instr} {c : Cause} :
    c ∈ raisedBy i ↔ c ∈ mayRecord i ∧ (c.result = .capacity ∨ c.result = .format) := by
  rw [raisedBy, List.mem_filter, decide_eq_true_eq]

theorem brAdvance_remaining {n : Nat} {c c' : ReadCursor} (h : brAdvance n c = .ok c') :
    c'.remaining + n = c.remaining ∧ c'.bit < 8 := by
  obtain ⟨pos, -, len, bit, -, room⟩ := brAdvance_pos h
  simp only [ReadCursor.remaining] at room ⊢
  rw [len, pos]
  exact ⟨by omega, bit⟩

theorem brAlign_remaining_le {c : ReadCursor} (bit : c.bit < 8) : (brAlign c).remaining ≤ c.remaining := by
  obtain ⟨pos, -, len, -, -⟩ := brAlign_pos bit
  simp only [ReadCursor.remaining, ceil8] at pos ⊢
  rw [len, pos]
  omega

/-- R55: an entry found in a code within its bounds is of one of its symbols, and at least a bit long. -/
theorem hufLookup_bounds {code : HufCode} {w : Nat} {e : HufEntry} (ok : code.ok = true)
    (found : hufLookup code w = some e) : e.sym < code.n ∧ 1 ≤ e.len := by
  simp only [HufCode.ok, Bool.and_eq_true, List.all_eq_true] at ok
  obtain ⟨-, entries⟩ := ok
  have mem : some e ∈ code.table := by
    rw [hufLookup, List.getD_eq_getElem?_getD, Option.getD_eq_iff] at found
    obtain inside | ⟨-, none⟩ := found
    · exact List.mem_of_getElem? inside
    · cases none
  have entry := entries _ mem
  simp only [HufCode.entryOk, Bool.and_eq_true, decide_eq_true_eq] at entry
  exact entry.1

/-- R202: lengths within 4 bits are never out of range. -/
theorem hufCheck_of_short {policy : IncompletePolicy} {len : List Nat} {c : Cause} (short : ∀ l ∈ len, l ≤ 15)
    (bad : hufCheck policy len = some c) : c ∈ [Cause.hufOversubscribed, .hufIncomplete] := by
  have within : ¬ (len.any fun l => decide (Config.hufMaxLen < l)) = true := by simpa using short
  have mem := hufCheck_causes bad
  have other : c ≠ .hufLengthRange := by
    rintro rfl
    rw [hufCheck, if_neg within] at bad
    cases policy <;> dsimp only at bad <;> split_ifs at bad <;> cases bad
  exact (List.mem_cons.1 mem).resolve_left other

theorem Ends.imp {α : Type} {cs : List Cause} {P Q : α → Prop} {x : Except Cause α} (hx : Ends cs P x)
    (h : ∀ a, P a → Q a) : Ends cs Q x := by
  cases hx with
  | ok p => exact .ok (h _ p)
  | error mem => exact .error mem

/-! #### INFLATE -/

/-- The sequencer has read at least `n` bits since `d₀`, with the codes LIT and CLC of then. -/
structure DflState.Reads (n : Nat) (d₀ d : DflState) : Prop where
  remaining : d.rd.remaining + n ≤ d₀.rd.remaining
  bit : d.rd.bit < 8
  lit : d.lit = d₀.lit
  clc : d.clc = d₀.clc

/-- A run of the sequencer raises only causes of INFLATE's row. -/
abbrev DflRaises {α : Type} (Q : α → Prop) (x : Except Cause α) : Prop := Ends (raisedBy .inflate) Q x

section Sequencer
variable {d₀ d : DflState} {n : Nat}

theorem DflState.Reads.refl (bit : d.rd.bit < 8) : d.Reads 0 d := ⟨Nat.le_refl _, bit, rfl, rfl⟩

theorem DflState.Reads.weaken {k : Nat} (h : d₀.Reads n d) (le : k ≤ n) : d₀.Reads k d :=
  ⟨by have := h.remaining; omega, h.bit, h.lit, h.clc⟩

theorem DflState.Reads.read (h : d₀.Reads n d) (m : Memory) (k : Nat) :
    DflRaises (fun p => p.1 < 2 ^ k ∧ d₀.Reads (n + k) p.2) (d.read m k) := by
  rw [DflState.read]
  split
  · next e => exact .error ((brRead_error.1 e).2 ▸ (by decide : Cause.brOverrun ∈ raisedBy .inflate))
  · next v rd e =>
    obtain ⟨rfl, adv⟩ := brRead_ok.1 e
    obtain ⟨left, bit⟩ := brAdvance_remaining adv
    refine .ok ⟨Nat.mod_lt _ (Nat.two_pow_pos k), ?_, bit, h.lit, h.clc⟩
    have := h.remaining
    dsimp only
    omega

theorem DflState.Reads.get (h : d₀.Reads n d) (m : Memory) (code : HufCode) :
    DflRaises (fun p => ∃ e w, hufLookup code w = some e ∧ p.1 = e.sym ∧ d₀.Reads (n + e.len) p.2)
      (d.get m code) := by
  rw [DflState.get, hufGet]
  cases found : hufLookup code (brBits m d.rd) with
  | none => exact .error (by decide)
  | some e =>
    dsimp only
    cases adv : brAdvance e.len d.rd with
    | error c => exact .error ((brAdvance_error.1 adv).2 ▸ (by decide : Cause.brOverrun ∈ raisedBy .inflate))
    | ok rd =>
      obtain ⟨left, bit⟩ := brAdvance_remaining adv
      refine .ok ⟨e, _, found, rfl, ?_, bit, h.lit, h.clc⟩
      have := h.remaining
      dsimp only
      omega

/-- R55: a symbol of a code within its bounds takes at least a bit. -/
theorem DflState.Reads.get_of_ok (h : d₀.Reads n d) (m : Memory) {code : HufCode} (ok : code.ok = true) :
    DflRaises (fun p => p.1 < code.n ∧ d₀.Reads (n + 1) p.2) (d.get m code) := by
  refine (h.get m code).imp fun p ⟨e, w, found, sym, h⟩ => ?_
  obtain ⟨inside, long⟩ := hufLookup_bounds ok found
  exact ⟨sym ▸ inside, h.weaken (by omega)⟩

theorem DflState.Reads.put (h : d₀.Reads n d) (cap : Nat) (b : Byte) :
    DflRaises (d₀.Reads n) (d.put cap b) := by
  rw [DflState.put, putByte]
  split
  · next full =>
    split at full
    · cases full; exact .error (by decide)
    · cases full
  · exact .ok ⟨h.remaining, h.bit, h.lit, h.clc⟩

theorem DflState.Reads.copyStored (h : d₀.Reads n d) (m : Memory) (cap len : Nat) :
    DflRaises (d₀.Reads n) (dflCopyStored m cap len d) := by
  induction len generalizing d with
  | zero => exact .ok h
  | succ len ih =>
    exact (h.read m 8).bind fun ⟨b, d⟩ ⟨_, h⟩ =>
      ((h.weaken (Nat.le_add_right n 8)).put cap _).bind fun _ h => ih h

theorem DflState.Reads.copyBytes (h : d₀.Reads n d) (cap dist len : Nat) :
    DflRaises (d₀.Reads n) (dflCopyBytes cap dist len d) := by
  induction len generalizing d with
  | zero => exact .ok h
  | succ len ih => exact (h.put cap _).bind fun _ h => ih h

theorem DflState.Reads.backRef (h : d₀.Reads n d) (m : Memory) (cap sym : Nat) :
    DflRaises (d₀.Reads n) (dflBackRef m cap sym d) := by
  rw [dflBackRef]
  refine (h.read m _).bind fun ⟨x, d⟩ ⟨_, h⟩ =>
    ((h.weaken (Nat.le_add_right n _)).get m d.dist).bind fun ⟨ds, d⟩ ⟨e, w, _, _, h⟩ => ?_
  dsimp only at h ⊢
  split
  · exact .error (by decide)
  · refine ((h.weaken (Nat.le_add_right n _)).read m _).bind fun ⟨y, d⟩ ⟨_, h⟩ => ?_
    dsimp only at h ⊢
    rw [dflCopy]
    split
    · exact .error (by decide)
    · exact (h.weaken (Nat.le_add_right n _)).copyBytes cap _ _

/-- A block has ended, of which at least a bit was read. -/
def DflState.EndsBlock (d₀ d : DflState) : Prop := ∃ e, d₀.Reads 1 e ∧ d = e.blockEnd

/-- R319, R435: each turn of `DecodeSymbols` reads a bit, so the turns do not run out. -/
theorem DflState.Reads.decodeSymbols (m : Memory) (cap : Nat) (ok : d₀.lit.ok = true) {fuel : Nat}
    (h : d₀.Reads n d) (enough : d₀.rd.remaining < n + fuel) :
    DflRaises d₀.EndsBlock (dflDecodeSymbols m cap fuel d) := by
  induction fuel generalizing n d with
  | zero =>
    have := h.remaining
    omega
  | succ fuel ih =>
    have enough : d₀.rd.remaining < n + 1 + fuel := by omega
    rw [dflDecodeSymbols]
    refine (h.get_of_ok m (h.lit ▸ ok)).bind fun ⟨sym, d⟩ ⟨_, h⟩ => ?_
    dsimp only at h ⊢
    split
    · exact (h.put cap _).bind fun _ h => ih h enough
    · split
      · exact .ok ⟨_, h.weaken (Nat.le_add_left 1 n), rfl⟩
      · split
        · exact .error (by decide)
        · exact (h.backRef m cap sym).bind fun _ h => ih h enough

/-- R313: a stored block. -/
theorem DflState.stored_endsBlock (bit : d.rd.bit < 8) (m : Memory) (cap : Nat) :
    DflRaises d.EndsBlock (dflStored m cap d) := by
  obtain ⟨-, -, -, at_byte, -⟩ := brAlign_pos bit
  have aligned : d.Reads 0 { d with rd := brAlign d.rd } := ⟨brAlign_remaining_le bit, at_byte, rfl, rfl⟩
  refine (aligned.read m 16).bind fun ⟨len, e⟩ ⟨_, h⟩ => (h.read m 16).bind fun ⟨k, e⟩ ⟨_, h⟩ => ?_
  dsimp only at h ⊢
  split
  · exact (h.copyStored m cap len).bind fun _ h => .ok ⟨_, h.weaken (by decide), rfl⟩
  · exact .error (by decide)

theorem DflState.Reads.clLengths (h : d₀.Reads n d) (m : Memory) (ks : List Nat) {cl : List Nat}
    (short : ∀ l ∈ cl, l ≤ 15) :
    DflRaises (fun p => (∀ l ∈ p.1, l ≤ 15) ∧ p.1.length = cl.length ∧ d₀.Reads n p.2)
      (dflReadClLengths m ks cl d) := by
  induction ks generalizing cl d with
  | nil => exact .ok ⟨short, rfl, h⟩
  | cons k ks ih =>
    refine (h.read m 3).bind fun ⟨v, d⟩ ⟨small, h⟩ => ?_
    have short : ∀ l ∈ cl.set k v, l ≤ 15 := fun l hl => by
      rcases List.mem_or_eq_of_mem_set hl with hl | rfl
      · exact short l hl
      · dsimp only at small; omega
    have rest := ih (h.weaken (Nat.le_add_right n 3)) short
    rwa [List.length_set] at rest

/-- R317: a run repeats a length of at most 15, at least once. -/
theorem DflState.Reads.run (h : d₀.Reads n d) (m : Memory) {seq : List Nat} {sym : Nat}
    (short : ∀ l ∈ seq, l ≤ 15) (known : sym < 19) :
    DflRaises (fun p => p.1 ≤ 15 ∧ 1 ≤ p.2.1 ∧ d₀.Reads n p.2.2) (dflRun m seq sym d) := by
  have extra {k v r : Nat} (hv : v ≤ 15) (hr : 1 ≤ r) :
      DflRaises (fun p => p.1 ≤ 15 ∧ 1 ≤ p.2.1 ∧ d₀.Reads n p.2.2)
        (d.read m k >>= fun p => .ok (v, r + p.1, p.2)) :=
    (h.read m k).bind fun _ ⟨_, h⟩ => .ok ⟨hv, Nat.le_add_right_of_le hr, h.weaken (Nat.le_add_right n k)⟩
  unfold dflRun
  split
  · split
    · exact .error (by decide)
    · next last => exact extra (short _ (List.mem_of_getLast? last)) (by decide)
  · exact extra (by decide) (by decide)
  · exact extra (by decide) (by decide)
  · next no16 no17 no18 =>
    rw [imp_false] at no16 no17 no18
    have plain : sym ≤ 15 := by omega
    exact .ok ⟨plain, Nat.le_refl 1, h⟩

/-- R317, R435: each turn adds a length, so the turns do not run out. -/
theorem DflState.Reads.lengths (m : Memory) {total fuel : Nat} (ok : d₀.clc.ok = true) (few : d₀.clc.n ≤ 19)
    {seq : List Nat} (h : d₀.Reads n d) (short : ∀ l ∈ seq, l ≤ 15) (enough : total ≤ seq.length + fuel) :
    DflRaises (fun p => (∀ l ∈ p.1, l ≤ 15) ∧ d₀.Reads n p.2) (dflReadLengths m total fuel seq d) := by
  induction fuel generalizing seq d with
  | zero =>
    rw [dflReadLengths, if_neg (by omega)]
    exact .ok ⟨short, h⟩
  | succ fuel ih =>
    rw [dflReadLengths]
    split
    · refine (h.get_of_ok m (h.clc ▸ ok)).bind fun ⟨sym, d'⟩ ⟨known, h'⟩ => ?_
      have known : sym < 19 := by rw [h.clc] at known; exact known.trans_le few
      refine ((h'.weaken (Nat.le_add_right n 1)).run m short known).bind fun ⟨v, r, d⟩ ⟨hv, hr, h⟩ => ?_
      dsimp only at hv hr h ⊢
      split
      · exact .error (by decide)
      · refine ih h (fun l hl => ?_) (by rw [List.length_append, List.length_replicate]; omega)
        rcases List.mem_append.1 hl with hl | hl
        · exact short l hl
        · exact List.eq_of_mem_replicate hl ▸ hv
    · exact .ok ⟨short, h⟩

theorem checked_raises {policy : IncompletePolicy} {len : List Nat} (short : ∀ l ∈ len, l ≤ 15) :
    DflRaises (fun _ => True) (checked (hufCheck policy len)) := by
  cases bad : hufCheck policy len with
  | none => exact .ok trivial
  | some c =>
    exact .error ((by decide : ∀ c ∈ [Cause.hufOversubscribed, .hufIncomplete], c ∈ raisedBy .inflate) c
      (hufCheck_of_short short bad))

/-- How many turns of the sequencer a phase is from its block's end at most, apart from the bits it reads. -/
def DflPhase.rank : DflPhase → Nat
  | .done => 0
  | .readBlockHeader => 1
  | .stored => 1
  | .decodeSymbols => 1
  | .fixedHuffman => 2
  | .dynamicHuffman => 2

/-- A bound on the turns that the sequencer has left (R300): each reads a bit or comes nearer to the block's end. -/
def DflState.turns (d : DflState) : Nat := d.rd.remaining + d.phase.rank

/-- Between its turns, the sequencer stands at a bit of a byte and its code LIT is within the bounds of R55. -/
structure DflState.Sound (d : DflState) : Prop where
  bit : d.rd.bit < 8
  lit : d.lit.ok = true

/-- What a turn leaves: a sound state that is nearer to `Done`. -/
def DflState.Turned (d d' : DflState) : Prop := d'.Sound ∧ d'.turns < d.turns

theorem DflState.Reads.turned {p : DflPhase} (h : d₀.Reads n d) (sound : d₀.Sound)
    (near : p.rank < n + d₀.phase.rank) (b : Bool) : d₀.Turned { d with bfinal := b, phase := p } := by
  refine ⟨⟨h.bit, h.lit ▸ sound.lit⟩, ?_⟩
  have := h.remaining
  simp only [DflState.turns]
  omega

theorem DflState.EndsBlock.turned (h : d₀.EndsBlock d) (sound : d₀.Sound) (rank : 1 ≤ d₀.phase.rank) :
    d₀.Turned d := by
  obtain ⟨e, h, rfl⟩ := h
  have near : (if e.bfinal then DflPhase.done else .readBlockHeader).rank ≤ 1 := by split <;> decide
  exact h.turned sound (by omega) e.bfinal

theorem DflState.Sound.readBlockHeader (sound : d.Sound) (m : Memory) :
    DflRaises d.Turned (dflReadBlockHeader m d) := by
  refine ((Reads.refl sound.bit).read m 1).bind fun ⟨f, e⟩ ⟨_, h⟩ => (h.read m 2).bind fun ⟨t, e⟩ ⟨_, h⟩ => ?_
  dsimp only at h ⊢
  have enter {p : DflPhase} (rank : p.rank ≤ 2) : d.Turned { e with bfinal := decide (f = 1), phase := p } :=
    h.turned sound (by omega) _
  split
  · exact .ok (enter (by decide))
  · exact .ok (enter (by decide))
  · exact .ok (enter (by decide))
  · exact .error (by decide)

theorem DflState.Sound.dynamicHuffman (sound : d.Sound) (phase : d.phase = .dynamicHuffman) (strict : Bool)
    (policy : IncompletePolicy) (m : Memory) : DflRaises d.Turned (dflDynamicHuffman strict policy m d) := by
  refine ((Reads.refl sound.bit).read m 5).bind fun ⟨a, e⟩ ⟨small, h⟩ => (h.read m 5).bind fun ⟨b, e⟩ ⟨_, h⟩ =>
    (h.read m 4).bind fun ⟨c, e⟩ ⟨_, h⟩ => ?_
  dsimp only at small h ⊢
  split
  · exact .error (by decide)
  refine (h.clLengths m _ (cl := List.replicate 19 0) (by simp)).bind fun ⟨cl, e⟩ ⟨short, length, h⟩ =>
    (checked_raises short).bind fun _ _ => ?_
  dsimp only at short length h ⊢
  rw [List.length_replicate] at length
  have clc : (hufInstall cl).ok = true := hufInstall_ok (by omega) short
  refine (Reads.lengths (d₀ := { e with clc := hufInstall cl }) m clc length.le (Reads.refl h.bit) (by simp)
    (by simp)).bind fun ⟨seq, e'⟩ ⟨short, h'⟩ => ?_
  have shortLit : ∀ l ∈ seq.take (a + 257), l ≤ 15 := fun l hl => short l (List.mem_of_mem_take hl)
  refine (checked_raises shortLit).bind fun _ _ =>
    (checked_raises fun l hl => short l (List.mem_of_mem_drop hl)).bind fun _ _ => .ok ⟨⟨h'.bit, ?_⟩, ?_⟩
  · exact hufInstall_ok (by rw [List.length_take]; omega) shortLit
  · have := h.remaining
    have := h'.remaining
    simp only [DflState.turns, DflPhase.rank, phase] at *
    omega

theorem DflState.Sound.fixedHuffman (sound : d.Sound) (phase : d.phase = .fixedHuffman) :
    d.Turned (dflFixedHuffman d) := by
  have fixed := hufLoadFixed_code_ok 0
  rw [if_pos (by decide)] at fixed
  refine ⟨⟨sound.bit, fixed⟩, ?_⟩
  simp only [DflState.turns, dflFixedHuffman, DflPhase.rank, phase]
  omega

/-- R300: each turn that is not in `Done`. -/
theorem DflState.Sound.step (sound : d.Sound) (m : Memory) (cap : Nat) (phase : d.phase ≠ .done) :
    DflRaises d.Turned (dflStep m cap d) := by
  rw [dflStep]
  split
  · exact sound.readBlockHeader m
  · next p => exact (stored_endsBlock sound.bit m cap).imp fun _ h => h.turned sound (by rw [p]; decide)
  · next p => exact .ok (sound.fixedHuffman p)
  · next p => exact sound.dynamicHuffman p _ _ m
  · next p =>
    have enough : d.rd.remaining < 0 + (8 * d.rd.len + 1) := by simp only [ReadCursor.remaining]; omega
    exact (Reads.decodeSymbols m cap sound.lit (Reads.refl sound.bit) enough).imp fun _ h =>
      h.turned sound (by rw [p]; decide)
  · next p => exact absurd p phase

theorem DflState.Sound.runToDone (sound : d.Sound) (m : Memory) (cap : Nat) {fuel : Nat} (enough : d.turns < fuel) :
    DflRaises (fun _ => True) (dflRunToDone m cap fuel d) := by
  induction fuel generalizing d with
  | zero => exact absurd enough (Nat.not_lt_zero _)
  | succ fuel ih =>
    rw [dflRunToDone]
    split
    · exact .ok trivial
    · next phase =>
      have turn := sound.step m cap phase
      split
      · next e => exact turn.fail e
      · next e =>
        obtain ⟨sound, nearer⟩ := turn.of_ok e
        exact ih sound (by omega)

/-- R431, R435: INFLATE raises only the causes of its row. -/
theorem inflateRun_raises (m : Memory) (cap : Nat) {rd : ReadCursor} (bit : rd.bit < 8) :
    DflRaises (fun _ => True) (inflateRun m rd cap) := by
  have empty : emptyCode.ok = true := hufInstall_ok (Nat.zero_le _) (by simp)
  have sound : (dflInit rd).Sound := ⟨bit, empty⟩
  refine sound.runToDone m cap ?_
  simp only [DflState.turns, dflInit, DflPhase.rank, ReadCursor.remaining]
  omega

end Sequencer

/-! #### UNSHRINK -/

/-- A run of UNSHRINK raises only causes of its row. -/
abbrev UnshrinkRaises {α : Type} (Q : α → Prop) (x : Except Cause α) : Prop := Ends (raisedBy .unshrink) Q x

/-- Every occupied slot above the literals names the code that its string extends (R59, R365). -/
def Linked (t : LzwTable) : Prop := ∀ c, 257 ≤ c → (lzwGet t c).used = true → (lzwGet t c).pfx ≠ none

theorem linked_init : Linked lzwInit := fun c above used =>
  absurd ((filled_init.used c above).1 used) (Nat.not_lt.2 above)

theorem Linked.partialClear {t : LzwTable} (h : Linked t) (survives : Bool) :
    Linked (lzwPartialClear survives t) := by
  intro c above used
  rw [lzwGet_partialClear] at used ⊢
  split at used
  · cases used
  · next kept =>
    rw [if_neg kept]
    exact h c above used

theorem Linked.insert {u : UnshrinkState} (h : Linked u.table) (st : List Byte) :
    Linked (unshrinkInsert st u) := by
  rcases unshrinkInsert_cases st u with same | ⟨p, d, b, _, _, free, _, new⟩
  · rwa [same]
  · intro c above used
    rw [new, lzwGet_insert (lzwLowestFree_eq_some free).2.1] at used ⊢
    split at used
    · next at_new => rw [if_pos at_new]; exact Option.some_ne_none p
    · next old => rw [if_neg old]; exact h c above used

/-- R363, R435: a walk goes on from each entry it meets. -/
theorem Linked.walk {t : LzwTable} (h : Linked t) (fuel c : Nat) (acc : List Byte) :
    UnshrinkRaises (fun _ => True) (lzwWalk t fuel c acc) := by
  fun_induction lzwWalk t fuel c acc with
  | case1 => exact .ok trivial
  | case2 => exact .error (by decide)
  | case3 => exact .error (by decide)
  | case4 c acc above occupied fuel unlinked =>
    rw [not_or, Bool.not_eq_false] at occupied
    obtain ⟨not_control, used⟩ := occupied
    exact absurd unlinked (h c (by omega) used)
  | case5 _ _ _ _ _ _ _ ih => exact ih

/-- UNSHRINK with at most `k` bits to read, inside its destination. -/
structure UnshrinkState.Sound (cap k : Nat) (u : UnshrinkState) : Prop where
  remaining : u.rd.remaining ≤ k
  width : 1 ≤ u.width
  table : Linked u.table
  out : u.out.length ≤ cap

section Unshrink
variable {cap k : Nat} {u : UnshrinkState}

theorem UnshrinkState.Sound.control (h : u.Sound cap k) (survives : Bool) (m : Memory) :
    UnshrinkRaises (Sound cap k) (unshrinkControl survives m u) := by
  rw [unshrinkControl]
  split
  · exact .error (by decide)
  · next room =>
    split
    · next e => exact absurd (brRead_error.1 e).1 room
    · next sub rd e =>
      have left : rd.remaining ≤ k := by
        have := (brAdvance_remaining (brRead_ok.1 e).2).1
        have := h.remaining
        omega
      split
      · split
        · exact .error (by decide)
        · exact .ok ⟨left, Nat.le_add_left 1 _, h.table, h.out⟩
      · split
        · exact .ok ⟨left, h.width, h.table.partialClear survives, h.out⟩
        · exact .error (by decide)

theorem UnshrinkState.Sound.string (h : u.Sound cap k) (c : Nat) :
    UnshrinkRaises (fun _ => True) (unshrinkString c u) := by
  rw [unshrinkString]
  split
  · exact .ok trivial
  · split
    · split
      · exact .error (by decide)
      · exact .ok trivial
    · exact h.table.walk _ c []

theorem UnshrinkState.Sound.data (h : u.Sound cap k) (c : Nat) :
    UnshrinkRaises (Sound cap k) (unshrinkData cap c u) := by
  rw [unshrinkData]
  split
  · next e => exact (h.string c).fail e
  · next st _ =>
    have put := (putBytes_ends st u.out h.out).widen (by decide : ∀ c ∈ [Cause.dstFull], c ∈ raisedBy .unshrink)
    split
    · next e => exact put.fail e
    · next e => exact .ok ⟨h.remaining, h.width, h.table.insert st, put.of_ok e⟩

/-- R381, R435: each turn reads a code of at least a bit, so the turns do not run out. -/
theorem UnshrinkState.Sound.body (h : u.Sound cap k) (survives : Bool) (m : Memory) :
    UnshrinkRaises (fun _ => True) (unshrinkBody survives m cap k u) := by
  induction k generalizing u with
  | zero =>
    have at_end : ¬ u.width ≤ u.rd.remaining := by
      have := h.remaining
      have := h.width
      omega
    rw [unshrinkBody, if_neg at_end]
    exact .ok trivial
  | succ k ih =>
    rw [unshrinkBody]
    split
    · next room =>
      split
      · next e => exact absurd (brRead_error.1 e).1 (Nat.not_lt.2 room)
      · next c rd e =>
        have left : rd.remaining ≤ k := by
          have := (brAdvance_remaining (brRead_ok.1 e).2).1
          have := h.remaining
          have := h.width
          omega
        have moved : UnshrinkState.Sound cap k { u with rd := rd } := ⟨left, h.width, h.table, h.out⟩
        have turn : UnshrinkRaises (UnshrinkState.Sound cap k) (if c = 256 then
            unshrinkControl survives m { u with rd := rd } else unshrinkData cap c { u with rd := rd }) := by
          split
          · exact moved.control survives m
          · exact moved.data c
        dsimp only
        split
        · next e => exact turn.fail e
        · next e => exact ih (turn.of_ok e)
    · exact .ok trivial

end Unshrink

/-- R431, R435: UNSHRINK raises only the causes of its row. -/
theorem unshrinkRun_raises (survives : Bool) (m : Memory) (cap : Nat) (rd : ReadCursor) :
    UnshrinkRaises (fun _ => True) (unshrinkRun survives m rd cap) := by
  have start : UnshrinkState.Sound cap (8 * rd.len) ⟨lzwInit, Config.lzwMinWidth, none, [], rd, []⟩ :=
    ⟨Nat.sub_le _ _, (by decide : 1 ≤ 9), linked_init, Nat.zero_le cap⟩
  exact start.body survives m

end Sys2Proof.Machine

namespace Sys2Proof.Machine

/-! ### The ends of a command (R35, R431, R434) -/

/-- The ways a command can end (R14, R434): OK with the sticky bits kept, but for CLEAR and SOFT_RESET; ILLEGAL; or by a
cause that its run raised, as a command without or with counts of bytes. -/
inductive CommandEnd (s : State) (i : Instr) : State → Prop
  | ok {t : State} (result : t.status.result = .ok) (cause : t.status.cause = .noCause)
      (sticky : i ≠ .clear → i ≠ .softReset → t.status.brFail = s.status.brFail ∧
        t.status.bwFail = s.status.bwFail ∧ t.status.wrBusy = s.status.wrBusy) : CommandEnd s i t
  | illegal {c : Cause} (row : c ∈ mayRecord i) (illegal : c.result = .illegal) : CommandEnd s i (s.finish c)
  | plain {c : Cause} (look : BitVec 64) (res : Word) (plain : isBufferCommand i = false) (raised : c ∈ raisedBy i) :
      CommandEnd s i ({ s with brLook := look, hufRes := res }.failPlain c)
  | buffer {c : Cause} (dst : Option Region) (buffer : isBufferCommand i = true) (raised : c ∈ raisedBy i) :
      CommandEnd s i (s.failBuffer c dst)

section CommandEnds
variable {s t : State} {i : Instr}

/-- R35, R436: a completion that ends OK and sets no sticky bit. -/
theorem commandEnd_finishOk {u : State} (sticky : i ≠ .clear → u.status.brFail = s.status.brFail ∧
    u.status.bwFail = s.status.bwFail ∧ u.status.wrBusy = s.status.wrBusy) : CommandEnd s i u.finishOk :=
  .ok rfl rfl fun clear _ => sticky clear

theorem Effect.commandEnd (h : Effect s i t) : CommandEnd s i t := by
  have writer := privateWriter_inBuffer s
  have one {c c' : Cause} (raised : c' ∈ raisedBy i) (mem : c ∈ [c']) : c ∈ raisedBy i :=
    List.mem_singleton.1 mem ▸ raised
  cases h with
  | softReset => exact .ok rfl rfl fun _ no => absurd rfl no
  | clear => exact commandEnd_finishOk fun no => absurd rfl no
  | brAdvanceOverrun => exact .plain s.brLook s.hufRes rfl (by simp [raisedBy, mayRecord, Cause.result])
  | brReadOverrun => exact .plain _ s.hufRes rfl (by simp [raisedBy, mayRecord, Cause.result])
  | bwWriteOverflow => exact .plain s.brLook s.hufRes rfl (by simp [raisedBy, mayRecord, Cause.result])
  | bwFlushOverflow => exact .plain s.brLook s.hufRes rfl (by decide)
  | hufWriteSymOverflow => exact .plain s.brLook s.hufRes rfl (by simp [raisedBy, mayRecord, Cause.result])
  | hufReadSymInvalid => exact .plain s.brLook _ rfl (by simp [raisedBy, mayRecord, Cause.result])
  | hufReadSymOverrun => exact .plain s.brLook _ rfl (by simp [raisedBy, mayRecord, Cause.result])
  | hufBuildEncFull => exact .buffer _ rfl (by simp [raisedBy, mayRecord, Cause.result])
  | hufBuildEncTooMany => exact .illegal (by simp [mayRecord]) rfl
  | hufBuildDecFail bad =>
    have row : ∀ c ∈ [Cause.hufLengthRange, .hufOversubscribed, .hufIncomplete], c ∈ raisedBy (.hufBuildDec 0) := by
      decide
    exact .buffer _ rfl (row _ (hufCheck_causes bad))
  | lzCompressFail run => exact .buffer _ rfl (one (by decide) ((lzRecords_ends _ _ _).of_error run))
  | deflateFail run => exact .buffer _ rfl (one (by decide) ((deflateRun_ends _ writer).of_error run))
  | shrinkFail run => exact .buffer _ rfl (one (by decide) ((shrinkRun_ends _ _ writer).of_error run))
  | inflateFail run => exact .buffer _ rfl ((inflateRun_raises _ _ (Nat.succ_pos 7)).of_error run)
  | unshrinkFail run => exact .buffer _ rfl ((unshrinkRun_raises _ _ _ _).of_error run)
  | _ => exact commandEnd_finishOk fun _ => ⟨rfl, rfl, rfl⟩

/-- R139, R434: how every command ends. -/
theorem exec_commandEnd (h : exec i s = .next t) : CommandEnd s i t := by
  rcases exec_next h with ⟨c, row, illegal, rfl⟩ | h
  · exact .illegal row illegal
  · exact h.commandEnd

theorem noCause_mem_mayRecord (i : Instr) : .noCause ∈ mayRecord i := by
  cases i <;> exact List.mem_cons_self

/-- R435: INTERNAL is in no command's row. -/
theorem internal_notMem_mayRecord (i : Instr) : .internal ∉ mayRecord i := by
  cases i <;> simp [mayRecord]

/-- R431: a command records a cause of its row. -/
theorem CommandEnd.cause_mem (h : CommandEnd s i t) : t.status.cause ∈ mayRecord i := by
  cases h with
  | ok _ cause _ => exact cause ▸ noCause_mem_mayRecord i
  | illegal row _ => exact row
  | plain _ _ _ raised => exact (mem_raisedBy.1 raised).1
  | buffer _ _ raised => rw [failBuffer_eq]; exact (mem_raisedBy.1 raised).1

theorem CommandEnd.result_eq (h : CommandEnd s i t) : t.status.result = t.status.cause.result := by
  cases h with
  | ok result cause _ => rw [result, cause]; rfl
  | illegal | plain | buffer => rfl

/-- R430, R434: no cause that a run raises is an ILLEGAL end's. -/
theorem result_ne_illegal_of_raised {c : Cause} (raised : c ∈ raisedBy i) : c.result ≠ .illegal := by
  obtain ⟨-, capacity | format⟩ := mem_raisedBy.1 raised
  · rw [capacity]; decide
  · rw [format]; decide

theorem not_sticky_of_illegal {c : Cause} (illegal : c.result = .illegal) : c ≠ .brOverrun ∧ c ≠ .bwOverflow := by
  constructor <;> rintro rfl <;> cases illegal

/-- R434 item 1: an ILLEGAL end is the completion alone. -/
theorem CommandEnd.of_illegal (h : CommandEnd s i t) (result : t.status.result = .illegal) :
    t = s.ended .illegal t.status.cause := by
  cases h with
  | ok ok _ _ => cases ok.symm.trans result
  | illegal _ illegal => rw [finish_eq, illegal]; rfl
  | plain _ _ _ raised => exact absurd result (result_ne_illegal_of_raised raised)
  | buffer _ _ raised => exact absurd result (result_ne_illegal_of_raised raised)

/-- R434: a CAPACITY or FORMAT end is one of the two failures. -/
theorem CommandEnd.failed (h : CommandEnd s i t) (result : t.status.result = .capacity ∨ t.status.result = .format) :
    (isBufferCommand i = true ∧ ∃ c dst, t = s.failBuffer c dst) ∨
      (isBufferCommand i = false ∧ ∃ c look res, t = { s with brLook := look, hufRes := res }.failPlain c) := by
  cases h with
  | ok ok _ _ => simp [ok] at result
  | illegal _ illegal => simp [State.finish, illegal] at result
  | plain look res plain _ => exact .inr ⟨plain, _, look, res, rfl⟩
  | buffer dst buffer _ => exact .inl ⟨buffer, _, dst, rfl⟩

/-- R434 item 2: a failed buffer command counts nothing and keeps all but its destination. -/
theorem CommandEnd.of_failed_buffer (h : CommandEnd s i t)
    (result : t.status.result = .capacity ∨ t.status.result = .format) (buffer : isBufferCommand i = true) :
    t = { s with
      consumed := 0, written := 0, mem := t.mem, draws := t.draws,
      status := { s.status with brFail := t.status.brFail, bwFail := t.status.bwFail } }.ended t.status.result
        t.status.cause := by
  obtain ⟨-, c, dst, rfl⟩ | ⟨plain, -⟩ := h.failed result
  · rw [failBuffer_eq]; rfl
  · cases buffer.symm.trans plain

/-- R434 item 3: a failed command without counts keeps its cursors and memory. -/
theorem CommandEnd.of_failed_plain (h : CommandEnd s i t)
    (result : t.status.result = .capacity ∨ t.status.result = .format) (plain : isBufferCommand i = false) :
    t = { s with
      brLook := t.brLook, hufRes := t.hufRes,
      status := { s.status with brFail := t.status.brFail, bwFail := t.status.bwFail } }.ended t.status.result
        t.status.cause := by
  obtain ⟨buffer, -⟩ | ⟨-, c, look, res, rfl⟩ := h.failed result
  · cases buffer.symm.trans plain
  · rfl

/-- R436: the sticky failure bits go with the two causes of the bitstream. -/
theorem CommandEnd.sticky (h : CommandEnd s i t) (clear : i ≠ .clear) (reset : i ≠ .softReset) :
    t.status.brFail = (s.status.brFail || decide (t.status.cause = .brOverrun)) ∧
      t.status.bwFail = (s.status.bwFail || decide (t.status.cause = .bwOverflow)) ∧
      t.status.wrBusy = s.status.wrBusy := by
  cases h with
  | ok _ cause sticky => simpa [cause] using sticky clear reset
  | @illegal c _ illegal =>
    obtain ⟨read, write⟩ := not_sticky_of_illegal illegal
    simp [State.finish, read, write]
  | plain look res _ _ => exact ⟨rfl, rfl, rfl⟩
  | buffer dst _ _ => rw [failBuffer_eq]; exact ⟨rfl, rfl, rfl⟩

end CommandEnds

/-- Settles O51: the runs raise only causes of their rows, and every end records the RESULT of its cause. -/
theorem causesOfEachCommand : Obligations.CausesOfEachCommand := by
  intro i s t h
  have cmd := exec_commandEnd h
  exact ⟨cmd.cause_mem, fun internal => internal_notMem_mayRecord i (internal ▸ cmd.cause_mem), cmd.result_eq⟩

/-- Settles O50: each item of R434 for each way a command ends; the bytes outside DST by the frame of O49. -/
theorem nonOkOutputs : Obligations.NonOkOutputs := by
  intro i s t h
  have cmd := exec_commandEnd h
  refine ⟨cmd.of_illegal, fun failed buffer => ⟨cmd.of_failed_buffer failed buffer, ?_⟩, cmd.of_failed_plain,
    cmd.sticky⟩
  obtain ⟨-, -, outside, -⟩ := bufferCommandFrame i s t buffer h
  exact outside

end Sys2Proof.Machine

namespace Sys2Proof.Machine

/-! ### The reset input (R451, R470, R471) -/

/-- R471: asserting the reset input, or releasing it when asserted, resets the block. -/
theorem driveRst_resets {s : State} {level : Bool} (h : level = true ∨ s.rst = true) :
    s.driveRst level = s.setRst level := by
  rw [State.driveRst, if_pos (by simpa using h)]

theorem step_rstPin (s : State) (level : Bool) :
    step { s with inbox := .rstPin level :: s.inbox } = .next (s.driveRst level) := by
  cases level <;> rfl

/-- R471: while the reset input is asserted, the port ignores writes and answers reads with free values. -/
theorem port_of_rst {s : State} (rst : s.rst = true) (win : Window) (v : Word) (r : Option (Reg × AccessKind)) :
    hostWrite win v r s = .next s ∧ hostRead r s = .next s.answerFreeWord := by
  rw [hostWrite.eq_def, hostRead.eq_def, if_pos rst, if_pos rst]
  exact ⟨rfl, rfl⟩

/-- No register reads the reset input. -/
theorem regRead_setRst (s : State) (level : Bool) (r : Reg) : (s.setRst level).regRead r = s.hardReset.regRead r := by
  cases r <;> rfl

/-- Settles O12: an input that is or was asserted resets the block, and one that stays released does nothing. -/
theorem hardwareResetHolds : Obligations.HardwareResetHolds := by
  refine ⟨fun s level h => ⟨s.setRst level, ?_, rfl, fun r => ?_, slot_hardReset s, rfl, rfl, rfl, port_of_rst⟩,
    fun s released => ?_⟩
  · rw [step_rstPin, driveRst_resets h]
  · rw [regRead_setRst, regRead_hardReset]
  · rw [step_rstPin, driveRst_stays_released released]

end Sys2Proof.Machine

namespace Sys2Proof.Machine

/-! ### A reset while a command runs (R107, R108, R470, R472) -/

/-- R472: a command that is reset before the host does anything else is abandoned from its start, with the buffers it
was issued with. -/
theorem runCommand_reset {w : Word} {i : Instr} (h : decode w = .ok i) (s : State) :
    runCommand w ⟨[], .reset⟩ s = (s.start w).abandon (s.buffersOf i) (s.destOf i) := by
  rw [runCommand, h]
  rfl

/-- R472: behind the look at its buffers, an abandoned command leaves the reset state, whatever it was to do. -/
theorem abandon_plain {s : State} {bufs : List Region} (plain : s.plainBuffers bufs) (dst : Option Region) :
    s.abandon bufs dst = .next ((s.scramble (dst.filter Region.wellFormed)).setRst true) :=
  withBuffers_plain plain

theorem slot_setRst (s : State) (level : Bool) (k : BitVec 2) : (s.setRst level).slot k = none := slot_hardReset s k

/-- R107, R472: what an abandoned command frees, its destination unless that wraps, lies in its destination. -/
theorem filter_any_holds {dst : Option Region} {a : Nat} (h : (dst.any fun r => r.holds a) = false) :
    ((dst.filter Region.wellFormed).any fun r => r.holds a) = false := by
  rw [Option.any_eq_false] at h ⊢
  intro r freed
  obtain ⟨dest, -⟩ := Option.filter_eq_some_iff.1 freed
  exact h r dest

/-- Settles O13: the abandoned command leaves the reset state, and the bytes it leaves unspecified lie in its
destination. -/
theorem resetDuringCommand : Obligations.ResetDuringCommand := by
  intro w i s hs decoded plain
  have abandoned := abandon_plain (s := s.start w) plain (s.destOf i)
  have run := (step_command hs w ⟨[], .reset⟩).trans ((runCommand_reset decoded s).trans abandoned)
  refine ⟨_, run, rfl, fun r => ?_, slot_setRst _ true, rfl, rfl, fun a outside => ?_⟩
  · rw [regRead_setRst, regRead_hardReset, scramble_platform, start_platform]
  · exact scramble_read_outside (s := s.start w) (filter_any_holds outside)

end Sys2Proof.Machine
